-- ==== Sys2Proof/Word.lean ====
section
/-! DEFINITION. The words of the hardware (00_scope.md R7, R10): every register value, opcode, address byte, mask and
payload byte is an unsigned 8-bit value, the software identifier an unsigned 32-bit value. -/

namespace Sys2Proof

/-- An 8-bit value (`UInt8` of R10). -/
abbrev Byte := BitVec 8

/-- The 32-bit software identifier field (`UInt32` of R10). -/
abbrev Ident := BitVec 32

/-- `n` zero bytes (`zeros(n)` of R13). -/
def zeros (n : Nat) : List Byte := List.replicate n 0

end Sys2Proof
end

