-- ==== Sys2Proof/Syntax.lean ====
section
/-! DEFINITION. The syntax of the hardware's two levels of instruction (30_encoding.md): the 15 serial instructions, which
are byte strings on the serial bus, and the 29 operations of the layer, which are calls selected by name. One constructor
of `Instr` per row of spec/opcode_table.json. -/

namespace Sys2Proof

/-- The five controller modes (10_state.md R25, 30_encoding.md R138). -/
inductive Mode where
  | configuration | normal | sleep | loopback | listenOnly
  deriving DecidableEq, Repr, Inhabited

/-- The transmit slots (10_state.md R53). -/
inductive TxSlot where
  | txb0 | txb1 | txb2
  deriving DecidableEq, Repr, Inhabited

/-- The receive slots (10_state.md R53). -/
inductive RxSlot where
  | rxb0 | rxb1
  deriving DecidableEq, Repr, Inhabited

/-- The acceptance filters (10_state.md R55). -/
inductive FilterId where
  | rxf0 | rxf1 | rxf2 | rxf3 | rxf4 | rxf5
  deriving DecidableEq, Repr, Inhabited

/-- The acceptance masks (10_state.md R55). -/
inductive MaskId where
  | mask0 | mask1
  deriving DecidableEq, Repr, Inhabited

/-- The oscillator clocks of the bit-timing table (42_mode_and_bit_timing.md R209). -/
inductive Clock where
  | mhz8 | mhz16 | mhz20
  deriving DecidableEq, Repr, Inhabited

/-- The name of a bit rate, by its bits per second. Which rates are members of the enumeration `Rate` of 30_encoding.md R138
is an argument of the model, `Machine.ChipParam.rates`, and `Machine.isRate` is the membership (assumption 12). -/
structure Rate where
  bps : Nat
  deriving DecidableEq, Repr, Inhabited

/-- The software frame (43_frame_codec.md R230). `dlc` may hold 9 to 255, so that a request with such a length can be
written down; only the first `dlc` bytes of `data` mean anything. -/
structure Frame where
  canId : Ident
  dlc : Byte
  data : Vector Byte 8
  deriving DecidableEq, Repr

/-- The instructions: the `txn` constructors are the serial instructions with the operand bytes of their transaction
format (30_encoding.md R121-R127), the others the operations of the layer with their call arguments (R135). -/
inductive Instr where
  /-- `RESET`, F-CMD. -/
  | txnReset
  /-- `READ`, F-RD: the start address and the dummy bytes. -/
  | txnRead (addr : Byte) (dummy : List Byte)
  /-- `WRITE`, F-WR: the start address and the data bytes. -/
  | txnWrite (addr : Byte) (data : List Byte)
  /-- `BITMOD`, F-BM. -/
  | txnBitmod (addr mask data : Byte)
  /-- `READ_STATUS`, F-ST: the dummy bytes. -/
  | txnReadStatus (dummy : List Byte)
  /-- `RX_STATUS`, F-ST. -/
  | txnRxStatus (dummy : List Byte)
  /-- `READ_RX0`, F-ST. -/
  | txnReadRx0 (dummy : List Byte)
  /-- `READ_RX1`, F-ST. -/
  | txnReadRx1 (dummy : List Byte)
  /-- `LOAD_TX0`, F-LD: the data bytes. -/
  | txnLoadTx0 (data : List Byte)
  /-- `LOAD_TX1`, F-LD. -/
  | txnLoadTx1 (data : List Byte)
  /-- `LOAD_TX2`, F-LD. -/
  | txnLoadTx2 (data : List Byte)
  /-- `RTS_TX0`, F-CMD. -/
  | txnRtsTx0
  /-- `RTS_TX1`, F-CMD. -/
  | txnRtsTx1
  /-- `RTS_TX2`, F-CMD. -/
  | txnRtsTx2
  /-- `RTS_ALL`, F-CMD. -/
  | txnRtsAll
  /-- `readRegister(addr)`. -/
  | readRegister (addr : Byte)
  /-- `readRegisters(addr, n)`. -/
  | readRegisters (addr : Byte) (n : Nat)
  /-- `writeRegister(addr, value)`. -/
  | writeRegister (addr value : Byte)
  /-- `writeRegisters(addr, values)`. -/
  | writeRegisters (addr : Byte) (values : List Byte)
  /-- `modifyRegister(addr, mask, data)`. -/
  | modifyRegister (addr mask data : Byte)
  /-- `reset()`. -/
  | reset
  /-- `readStatus()`. -/
  | readStatus
  /-- `setMode(mode)`. -/
  | setMode (mode : Mode)
  /-- `lookupBitTiming(clock, rate)`. -/
  | lookupBitTiming (clock : Clock) (rate : Rate)
  /-- `setBitrate(clock, rate)`. -/
  | setBitrate (clock : Clock) (rate : Rate)
  /-- `packId(ext, value)`. -/
  | packId (ext : Bool) (value : Ident)
  /-- `decodeId(SIDH, SIDL, EID8, EID0)`. -/
  | decodeId (sidh sidl eid8 eid0 : Byte)
  /-- `encodeFrame(frame)`. -/
  | encodeFrame (frame : Frame)
  /-- `decodeFrame(header, ctrl)`: the five header bytes and the buffer's control byte. -/
  | decodeFrame (sidh sidl eid8 eid0 dlc ctrl : Byte)
  /-- `setFilter(filter, ext, value)`. -/
  | setFilter (filter : FilterId) (ext : Bool) (value : Ident)
  /-- `setMask(mask, ext, value)`. -/
  | setMask (mask : MaskId) (ext : Bool) (value : Ident)
  /-- `applyDefaultConfiguration()`. -/
  | applyDefaultConfiguration
  /-- `send(slot, frame)`. -/
  | send (slot : TxSlot) (frame : Frame)
  /-- `sendAny(frame)`. -/
  | sendAny (frame : Frame)
  /-- `read(slot)`. -/
  | read (slot : RxSlot)
  /-- `readAnyPending()`. -/
  | readAnyPending
  /-- `errorFlags()`. -/
  | errorFlags
  /-- `hasError()`. -/
  | hasError
  /-- `clearReceiveOverflow()`. -/
  | clearReceiveOverflow
  /-- `clearMessageError()`. -/
  | clearMessageError
  /-- `clearErrorInterrupt()`. -/
  | clearErrorInterrupt
  /-- `onInterrupt()`, the Interrupt Bridge. -/
  | onInterrupt
  /-- `onCanMessage()`, the dispatcher's arm. -/
  | onCanMessage
  /-- `initialise(clock, rate, attachOk)`. -/
  | initialise (clock : Clock) (rate : Rate) (attachOk : Bool)
  deriving DecidableEq, Repr

/-! Pseudo-operations, each exactly its expansion (30_encoding.md R137). `checkReceive` is a function of the state and
stands in Machine/RegisterAccess.lean. -/

def Instr.setConfigMode : Instr := .setMode .configuration
def Instr.setNormalMode : Instr := .setMode .normal
def Instr.setSleepMode : Instr := .setMode .sleep
def Instr.setLoopbackMode : Instr := .setMode .loopback
def Instr.setListenOnlyMode : Instr := .setMode .listenOnly

end Sys2Proof
end

