-- ==== Sys2Proof/Config.lean ====
section
/-! DEFINITION. What an implementation fixes, and the free values. The constants declared `opaque` have no body: no proof
can learn what they are, so a claim holds whatever they are. The parameter `ChipMap` is Machine/ChipMap.lean. Below, the
types of the choices the other agents make (10_state.md R20): what a transaction meets on the wire, and what the Controller
agent, the Interrupt Bridge and the other producers do at a scheduling point. -/

namespace Sys2Proof

/-! ## Constants of the layer (00_scope.md R5, R6) -/

/-- Attempts of the mode poll (R5). -/
def Config.pollAttempts : Nat := 10

/-- Capacity of the event queue (R5). -/
def Config.queueCap : Nat := 10

/-- The mode-poll interval, in milliseconds (R6). -/
def Config.pollDelay : Nat := 10

/-- The reset settle delay, in milliseconds: at least 10 (R6). DESIGN CHOICE, assumption 6: exactly 10. -/
def Config.resetSettle : Nat := 10

/-! ## Parameters (00_scope.md R8, R9) -/

/-- How the host detects the interrupt (60_exceptions.md R344). -/
inductive IntTrigger where
  | fallingEdge | lowLevel
  deriving DecidableEq, Repr, Inhabited

/-- The parameters that R9 lets a model take as arguments. A state carries them, and no step changes them (assumption 17);
`Machine.defaultParams` holds their default values. -/
structure Params where
  /-- `intTrigger`, the trigger of the Interrupt Bridge (60_exceptions.md R344). -/
  intTrigger : IntTrigger
  /-- `BitModifiable`, as the list of the addresses on which `BIT MODIFY` changes single bits (20_memory.md R82). -/
  bitModifiable : List Nat
  /-- `TransportMayFail`: whether a transaction may fail in transport (41_register_access.md R181). -/
  transportMayFail : Bool
  deriving DecidableEq, Repr

/-- The member set of the enumeration `Rate`, an OPEN parameter (R8, 30_encoding.md R138). A free value: assumption 12. -/
opaque Config.rates : List Rate

/-- The bit-timing table, an OPEN parameter (R8): the values of CNF1, CNF2 and CNF3. A free value: assumption 4. -/
opaque Config.bitTiming : Clock → Rate → Option (Byte × Byte × Byte)

/-- The switch of the acceptance refinement of 20_memory.md R114, off in the base model (assumption 7). -/
def Config.acceptanceFilter : Bool := false

/-! ## The choices of the other agents -/

/-- What becomes of one transaction (41_register_access.md R181): it succeeds, or it fails after the chip has received
the first `k` of its bytes (all of them, where `k` is larger than their number). -/
inductive Link where
  | ok
  | cut (k : Nat)
  deriving DecidableEq, Repr, Inhabited

/-- The tags of the events (60_exceptions.md R341). -/
inductive EventTag where
  | start | stop | wifiConnected | wifiDisconnected | cloudConnected | cloudDisconnected | cloudMessage | canMessage
  deriving DecidableEq, Repr, Inhabited

/-- An event: its tag, and an opaque reference to a payload where it carries one (60_exceptions.md R341). -/
structure Event where
  tag : EventTag
  payload : Option Nat
  deriving DecidableEq, Repr, Inhabited

/-- A frame as the chip receives it from the bus: the five header registers in the layout of 43_frame_codec.md R232 and
eight payload bytes. Header bits that the frame's format does not use may be anything. -/
structure BusFrame where
  sidh : Byte
  sidl : Byte
  eid8 : Byte
  eid0 : Byte
  dlc : Byte
  data : Vector Byte 8
  deriving DecidableEq, Repr, Inhabited

/-- One step of an agent other than the Caller. A move whose condition the state does not meet does nothing. -/
inductive Move where
  /-- The chip takes the requested mode (20_memory.md R93). -/
  | enterMode
  /-- A frame is received into a buffer, accepted by a filter (R94); `fill` says that the data registers beyond the
  frame's length take values too (the rest of `frame.data`). -/
  | receive (slot : RxSlot) (frame : BusFrame) (filter : FilterId) (fill : Bool)
  /-- A frame arrives for a pending buffer and is lost (R95). -/
  | overflow (slot : RxSlot) (errif : Bool)
  /-- A transmission completes (R96 (a)); in Loopback mode a `receive` may follow it. -/
  | txDone (slot : TxSlot)
  /-- A transmission loses arbitration (R96 (b)). -/
  | txLost (slot : TxSlot)
  /-- A transmission meets a bus error (R96 (c)): new TEC, new EFLG bits 5:0, and in one-shot mode perhaps TXREQ <- 0. -/
  | txError (slot : TxSlot) (tec eflg : Byte) (merrf errif drop : Bool)
  /-- An abort is carried out (R96 (d)). -/
  | txAbort (slot : TxSlot)
  /-- The failure flags under `mask` are cleared (R91: the agent may clear them). -/
  | txClearFlags (slot : TxSlot) (mask : Byte)
  /-- The error counters and EFLG bits 5:0 change (R97). -/
  | errors (tec recv eflg : Byte) (errif merrf : Bool)
  /-- The chip wakes from Sleep (R98), rewriting REQOP or not. -/
  | wake (reqop : Bool)
  /-- The levels of the TXnRTS input pins change (R91, 10_state.md R36). -/
  | rtsPins (levels : Byte)
  /-- The Interrupt Bridge runs, if its trigger has fired (60_exceptions.md R344). -/
  | bridge
  /-- The Interrupt Bridge is late: a change of `INT` that it has not served may wait for `n` more scheduling points
  (60_exceptions.md R345; assumption 15). -/
  | putOff (n : Nat)
  /-- Another producer sends an event (60_exceptions.md R340), of any tag but `CanMessage` (assumption 29). -/
  | produce (e : Event)
  deriving DecidableEq, Repr, Inhabited

/-! ## Free values. `n` is the counter `Env.seed` of the state, advanced at each use. -/

/-- A draw (00_scope.md R14). -/
opaque Config.freeByte (n : Nat) : Byte

/-- The outcome of a transaction. -/
opaque Config.freeLink (n : Nat) : Link

/-- What the other agents do at a scheduling point. -/
opaque Config.freeTurn (n : Nat) : List Move

/-- The value that a register or field of unspecified reset holds at power-on (10_state.md R61). -/
opaque Config.powerOnByte (addr : Nat) : Byte

end Sys2Proof
end

