-- ==== Sys2Proof/Machine/ChipMap.lean ====
section
/-! DEFINITION. The parameters that the machine takes as an argument: `ChipMap`, the set of bit rates and the bit-timing table
(`ChipParam`). `ChipMap` (00_scope.md R7; 92_eei_decisions.md D1): opcode bytes, the address space, register addresses, which
of the registers' bits exist, which of those a write changes, what reset leaves in them, the field positions, the layouts of
the header and of the status bytes, and the slot, filter and mask bases. The spec gives it one value, the MCP2515's map
`mcp2515` (10_state.md R25-R55, R60; 20_memory.md R72-R78; 30_encoding.md R124), which is its default. Every operation of the
machine, up to the meaning of each instruction, takes the parameters as the argument `[Inhabited ChipParam]` and reads them as
`chipMap`, `isRate` and `bitTiming`; `exec` and `State.reset`, whose types leave no room for it, are the machine at the default
(assumption 17). Addresses are `Nat`, taken from an address byte by `toNat`. -/

namespace Sys2Proof.Machine

/-! ## Bits of a byte -/

/-- Some bit of `v` under `m` is set. -/
def anySet (v m : Byte) : Bool := decide (v &&& m ≠ 0)

/-- One bit at position `k` of a byte. -/
def bitAt (b : Bool) (k : Nat) : Byte := if b then 1#8 <<< k else 0

/-! ## The MCP2515 -/

namespace Mcp2515

/-- The mirrors of CANSTAT and CANCTRL are 0x0E and 0x0F (20_memory.md R76). -/
def canon (a : Nat) : Nat := if a % 16 = 14 then 0x0E else if a % 16 = 15 then 0x0F else a

/-- The registers, each once (20_memory.md R72-R76). -/
def registers : List Nat :=
  (List.range 128).filter fun a => decide (a % 16 < 14) || decide (a = 14) || decide (a = 15)

/-- A filter block's register (20_memory.md R73). -/
def isFilter (a : Nat) : Bool := decide (a / 16 < 2) && decide (a % 16 < 12)

/-- A mask block's register (20_memory.md R73). -/
def isMask (a : Nat) : Bool := decide (a / 16 = 2) && decide (a % 16 < 8)

/-- A transmit buffer's register (20_memory.md R74). -/
def isTx (a : Nat) : Bool := decide (3 ≤ a / 16) && decide (a / 16 < 6) && decide (a % 16 < 14)

/-- A receive buffer's register (20_memory.md R75). -/
def isRx (a : Nat) : Bool := decide (6 ≤ a / 16) && decide (a / 16 < 8) && decide (a % 16 < 14)

/-- TXBnCTRL. -/
def isTxCtrl (a : Nat) : Bool := isTx a && decide (a % 16 = 0)

/-- RXBnCTRL. -/
def isRxCtrl (a : Nat) : Bool := isRx a && decide (a % 16 = 0)

/-- The bits that exist: the others are unimplemented and read as 0 (10_state.md R26-R50, R52). CANSTAT here holds OPMOD
alone: ICOD is computed (`icodOf`, assumption 11). -/
def implemented (a : Nat) : Byte :=
  if isFilter a then (if a % 4 = 1 then 0xEB else 0xFF)
  else if isMask a then (if a % 4 = 1 then 0xE3 else 0xFF)
  else if isTx a then
    (if a % 16 = 0 then 0x7B else if a % 16 = 2 then 0xEB else if a % 16 = 5 then 0x4F else 0xFF)
  else if isRx a then
    (if a % 16 = 0 then 0x6F else if a % 16 = 2 then 0xFB else if a % 16 = 5 then 0x7F else 0xFF)
  else if a = 0x0C then 0x3F
  else if a = 0x0D then 0x3F
  else if a = 0x0E then 0xE0
  else if a = 0x28 then 0xC7
  else 0xFF

/-- The bits that the Caller's write or bit-modify changes (10_state.md R26-R50, 20_memory.md R77, R85-R89). -/
def writable (a : Nat) : Byte :=
  if isFilter a then implemented a
  else if isMask a then implemented a
  else if isTx a then (if a % 16 = 0 then 0x0B else implemented a)
  else if isRx a then (if a = 0x60 then 0x64 else if a = 0x70 then 0x60 else 0x00)
  else if a = 0x0C then 0x3F
  else if a = 0x0D then 0x07
  else if a = 0x0E then 0x00
  else if a = 0x1C then 0x00
  else if a = 0x1D then 0x00
  else if a = 0x28 then 0xC7
  else if a = 0x2D then 0xC0
  else 0xFF

/-- The bits that a write clears and never sets: RX1OVR and RX0OVR of EFLG, R/W-clear (10_state.md R30). -/
def clearOnly (a : Nat) : Byte := if a = 0x2D then 0xC0 else 0x00

/-- Bits that do not exist are 0 (10_state.md R52), and RXB0CTRL's BUKT1 (bit 1) is a copy of BUKT (bit 2) (R43). -/
def hold (a : Nat) (v : Byte) : Byte :=
  if a = 0x60 then (v &&& 0x6D) ||| ((v &&& 0x04) >>> 1) else v &&& implemented a

/-- EFLG's bits as they stand together: EWARN is TXWAR or RXWAR (10_state.md R30). -/
def warned (v : Byte) : Byte := (v &&& 0xFE) ||| bitAt (anySet v 0x06) 0

/-- CNF1-CNF3, TXRTSCTRL, the filters and the masks (20_memory.md R78). -/
def configOnly (a : Nat) : Bool :=
  isFilter a || isMask a || decide (a = 0x0D) || decide (a = 0x2A) || decide (a = 0x29) || decide (a = 0x28)

/-- The table of 10_state.md R60; none where it says unspecified. -/
def resetValue (a : Nat) : Option Byte :=
  if isFilter a || isMask a || (isTx a && !isTxCtrl a) || (isRx a && !isRxCtrl a) || decide (a = 0x0D) then none
  else if a = 0x0E then some 0x80
  else if a = 0x0F then some 0x87
  else some 0x00

/-- A draw at reset leaves all of the register, but for TXRTSCTRL `00xx x000` (10_state.md R36, R60). -/
def resetDraw (a : Nat) (b : Byte) : Byte := hold a (if a = 0x0D then b &&& 0x38 else b)

/-- The patterns of 10_state.md R25. -/
def modeBits (m : Mode) : Byte :=
  match m with
  | .normal => 0x00
  | .sleep => 0x20
  | .loopback => 0x40
  | .listenOnly => 0x60
  | .configuration => 0x80

/-- The descriptor table of 10_state.md R54. -/
def txCtrl (s : TxSlot) : Byte :=
  match s with
  | .txb0 => 0x30
  | .txb1 => 0x40
  | .txb2 => 0x50

def txIf (s : TxSlot) : Byte :=
  match s with
  | .txb0 => 0x04
  | .txb1 => 0x08
  | .txb2 => 0x10

def rxCtrl (s : RxSlot) : Byte :=
  match s with
  | .rxb0 => 0x60
  | .rxb1 => 0x70

def rxIf (s : RxSlot) : Byte :=
  match s with
  | .rxb0 => 0x01
  | .rxb1 => 0x02

/-- The EFLG overflow flag of a receive slot (10_state.md R30). -/
def rxOvr (s : RxSlot) : Byte :=
  match s with
  | .rxb0 => 0x40
  | .rxb1 => 0x80

/-- FILHIT in RXBnCTRL (10_state.md R43, R44). -/
def filhit (s : RxSlot) : Byte :=
  match s with
  | .rxb0 => 0x01
  | .rxb1 => 0x07

/-- The transmit slot whose buffer holds the address `a`. -/
def txSlotOf (a : Nat) : Option TxSlot :=
  if isTx a then (if a / 16 = 3 then some .txb0 else if a / 16 = 4 then some .txb1 else some .txb2) else none

/-- The receive slot whose buffer holds the address `a`. -/
def rxSlotOf (a : Nat) : Option RxSlot :=
  if isRx a then (if a / 16 = 6 then some .rxb0 else some .rxb1) else none

/-- The bases of 44_filter_mask.md R260. -/
def filterBase (f : FilterId) : Byte :=
  match f with
  | .rxf0 => 0x00
  | .rxf1 => 0x04
  | .rxf2 => 0x08
  | .rxf3 => 0x10
  | .rxf4 => 0x14
  | .rxf5 => 0x18

def maskBase (m : MaskId) : Byte :=
  match m with
  | .mask0 => 0x20
  | .mask1 => 0x24

/-- The number of a filter, its FILHIT code (10_state.md R44). -/
def filterCode (f : FilterId) : Byte :=
  match f with
  | .rxf0 => 0
  | .rxf1 => 1
  | .rxf2 => 2
  | .rxf3 => 3
  | .rxf4 => 4
  | .rxf5 => 5

/-- The mask of a receive slot (10_state.md R51). -/
def slotMask (s : RxSlot) : MaskId :=
  match s with
  | .rxb0 => .mask0
  | .rxb1 => .mask1

/-- The filters of a receive slot (10_state.md R51). -/
def slotFilters (s : RxSlot) : List FilterId :=
  match s with
  | .rxb0 => [.rxf0, .rxf1]
  | .rxb1 => [.rxf2, .rxf3, .rxf4, .rxf5]

/-- RXB0's FILHIT has one bit, for RXF0 and RXF1; RXB1's names any filter (10_state.md R43, R44). -/
def filterNamed (s : RxSlot) (x : FilterId) : Bool :=
  match s with
  | .rxb0 => decide (x = .rxf0) || decide (x = .rxf1)
  | .rxb1 => true

/-- SIDH, SIDL, EID8 and EID0 of a standard identifier (43_frame_codec.md R233). -/
def packStd (v : Ident) : List Byte := [(v >>> 3).setWidth 8, ((v &&& 0x07) <<< 5).setWidth 8, 0x00, 0x00]

/-- SIDH, SIDL (with EXIDE), EID8 and EID0 of an extended identifier (43_frame_codec.md R234). -/
def packExt (v : Ident) : List Byte :=
  [(v >>> 21).setWidth 8,
   ((((v >>> 18) &&& 7) <<< 5) ||| 0x08 ||| ((v >>> 16) &&& 3)).setWidth 8,
   (v >>> 8).setWidth 8,
   v.setWidth 8]

/-- The eleven bits of SIDH and SIDL (43_frame_codec.md R236). -/
def unpackStd (sidh sidl : Byte) : Ident := (sidh.setWidth 32 <<< 3) + (sidl.setWidth 32 >>> 5)

/-- The 29 bits of SIDH, SIDL, EID8 and EID0 (43_frame_codec.md R236). -/
def unpackExt (sidh sidl eid8 eid0 : Byte) : Ident :=
  let id := (unpackStd sidh sidl <<< 2) + (sidl &&& 0x03).setWidth 32
  let id := (id <<< 8) + eid8.setWidth 32
  (id <<< 8) + eid0.setWidth 32

/-- ICOD in bits 3:1 of CANSTAT, by descending priority of the flags (60_exceptions.md R338). -/
def icod (flags : Byte) : Byte :=
  if flags.getLsbD 5 then 1 <<< 1
  else if flags.getLsbD 6 then 2 <<< 1
  else if flags.getLsbD 2 then 3 <<< 1
  else if flags.getLsbD 3 then 4 <<< 1
  else if flags.getLsbD 4 then 5 <<< 1
  else if flags.getLsbD 0 then 6 <<< 1
  else if flags.getLsbD 1 then 7 <<< 1
  else 0

/-- The response byte of `READ STATUS` (40_serial_transactions.md R154). -/
def statusByte (canintf tx0 tx1 tx2 : Byte) : Byte :=
  bitAt (canintf.getLsbD 4) 7 ||| bitAt (tx2.getLsbD 3) 6 ||| bitAt (canintf.getLsbD 3) 5 ||| bitAt (tx1.getLsbD 3) 4 |||
    bitAt (canintf.getLsbD 2) 3 ||| bitAt (tx0.getLsbD 3) 2 ||| bitAt (canintf.getLsbD 1) 1 ||| bitAt (canintf.getLsbD 0) 0

/-- The filter code of `RX STATUS` for RXB0: FILHIT0 (40_serial_transactions.md R155, 10_state.md R43). -/
def rxFilter0 (ctrl : Byte) : Byte := ctrl &&& 0x01

/-- The filter code of `RX STATUS` for RXB1: FILHIT, where RXF0 and RXF1 read as the rollover codes 6 and 7
(40_serial_transactions.md R155, 10_state.md R44). FILHIT = 6 and 7 name no filter, and the spec gives no code for them: the
code is then the draw `d` (assumption 27). -/
def rxFilter1 (ctrl d : Byte) : Byte :=
  if ctrl &&& 0x07 = 0 then 6
  else if ctrl &&& 0x07 = 1 then 7
  else if ctrl &&& 0x06 = 0x06 then d &&& 0x07
  else ctrl &&& 0x07

/-- Bits 7:6 of `RX STATUS`: RX1IF and RX0IF. -/
def rxPendingBits (canintf : Byte) : Byte := bitAt (canintf.getLsbD 1) 7 ||| bitAt (canintf.getLsbD 0) 6

/-- Bits 4:3 of `RX STATUS`: extended and remote (40_serial_transactions.md R155). -/
def rxKindBits (sidl ctrl : Byte) : Byte := bitAt (sidl.getLsbD 3) 4 ||| bitAt (ctrl.getLsbD 3) 3

/-- The response byte of `RX STATUS`; `d` is the draw that stands in bits 4:0 when neither buffer is pending
(40_serial_transactions.md R155), and in bits 2:0 where RXB1's FILHIT names no filter. -/
def rxStatusByte (canintf sidl0 ctrl0 sidl1 ctrl1 d : Byte) : Byte :=
  rxPendingBits canintf |||
    (if canintf.getLsbD 0 then rxKindBits sidl0 ctrl0 ||| rxFilter0 ctrl0
     else if canintf.getLsbD 1 then rxKindBits sidl1 ctrl1 ||| rxFilter1 ctrl1 d
     else d &&& 0x1F)

/-- The default of `BitModifiable` (20_memory.md R82). -/
def bitModifiable : List Nat :=
  [0x0C, 0x0D, 0x28, 0x29, 0x2A, 0x2B, 0x2C, 0x2D, 0x30, 0x40, 0x50, 0x60, 0x70,
   0x0E, 0x1E, 0x2E, 0x3E, 0x4E, 0x5E, 0x6E, 0x7E, 0x0F, 0x1F, 0x2F, 0x3F, 0x4F, 0x5F, 0x6F, 0x7F]

end Mcp2515

/-! ## The parameter -/

/-- The parameter `ChipMap`. -/
structure ChipMap where
  /-- The opcode bytes (30_encoding.md R124). -/
  opReset : Byte
  opRead : Byte
  opWrite : Byte
  opBitmod : Byte
  opReadStatus : Byte
  opRxStatus : Byte
  opReadRx0 : Byte
  opReadRx1 : Byte
  opLoadTx0 : Byte
  opLoadTx1 : Byte
  opLoadTx2 : Byte
  opRtsTx0 : Byte
  opRtsTx1 : Byte
  opRtsTx2 : Byte
  opRtsAll : Byte
  /-- The addresses of the single registers (20_memory.md R72). -/
  bfpctrl : Nat
  txrtsctrl : Nat
  canstat : Nat
  canctrl : Nat
  tec : Nat
  recv : Nat
  cnf3 : Nat
  cnf2 : Nat
  cnf1 : Nat
  caninte : Nat
  canintf : Nat
  eflg : Nat
  /-- The number of addresses in the decoded address space (R7, 20_memory.md R70), and of the registers of a buffer from SIDH on
  (20_memory.md R74, R75). -/
  space : Nat
  bodySize : Nat
  /-- The one address of a register (20_memory.md R76). -/
  canon : Nat → Nat
  /-- The addresses of the registers, in rising order, each register once. -/
  registers : List Nat
  /-- The registers of the filter and mask blocks, and of the transmit and receive buffers with CTRL at offset 0. -/
  isFilter : Nat → Bool
  isMask : Nat → Bool
  isTx : Nat → Bool
  isRx : Nat → Bool
  isTxCtrl : Nat → Bool
  isRxCtrl : Nat → Bool
  /-- The bits that exist (10_state.md R52), those that the Caller's write changes (20_memory.md R77), and of these the ones
  that it only clears (10_state.md R30). -/
  implemented : Nat → Byte
  writable : Nat → Byte
  clearOnly : Nat → Byte
  /-- What a register holds once it is given a value. -/
  hold : Nat → Byte → Byte
  /-- EFLG's bits as they stand together (10_state.md R30). -/
  warned : Byte → Byte
  /-- The registers that a write changes only in Configuration mode (20_memory.md R78). -/
  configOnly : Nat → Bool
  /-- The value after reset, where the spec gives one (10_state.md R60), and what a draw leaves where it gives none. -/
  resetValue : Nat → Option Byte
  resetDraw : Nat → Byte → Byte
  /-- The mask and the patterns of REQOP and OPMOD (10_state.md R25). -/
  modeMask : Byte
  modeBits : Mode → Byte
  /-- The descriptor tables (10_state.md R54; 44_filter_mask.md R260), the overflow flags (R30), the FILHIT codes (R44). -/
  txCtrl : TxSlot → Byte
  txSidh : TxSlot → Byte
  txD0 : TxSlot → Byte
  txIf : TxSlot → Byte
  rxCtrl : RxSlot → Byte
  rxSidh : RxSlot → Byte
  rxSidl : RxSlot → Byte
  rxD0 : RxSlot → Byte
  rxIf : RxSlot → Byte
  rxOvr : RxSlot → Byte
  filterBase : FilterId → Byte
  maskBase : MaskId → Byte
  filterSidl : FilterId → Byte
  filterCode : FilterId → Byte
  /-- The slot whose buffer holds an address. -/
  txSlotOf : Nat → Option TxSlot
  rxSlotOf : Nat → Option RxSlot
  /-- The mask and the filters of a receive slot (10_state.md R51), and whether its FILHIT can name a filter (R43, R44). -/
  slotMask : RxSlot → MaskId
  slotFilters : RxSlot → List FilterId
  filterNamed : RxSlot → FilterId → Bool
  /-- The header layout of the codec (43_frame_codec.md R232-R236): SIDH, SIDL, EID8 and EID0 of an identifier of each format,
  the identifier of those bytes in each format, and the length field of the DLC byte. -/
  packStd : Ident → List Byte
  packExt : Ident → List Byte
  unpackStd : Byte → Byte → Ident
  unpackExt : Byte → Byte → Byte → Byte → Ident
  dlcBits : Byte
  /-- ICOD of the flags that are set and enabled, at its place in CANSTAT (10_state.md R27, 60_exceptions.md R338). -/
  icod : Byte → Byte
  /-- The response byte of `READ STATUS` from CANINTF and the TXBnCTRL (40_serial_transactions.md R154), and in it the bit of a
  receive slot. -/
  statusByte : Byte → Byte → Byte → Byte → Byte
  statusRx : RxSlot → Byte
  /-- The response byte of `RX STATUS` from CANINTF, SIDL and CTRL of RXB0, SIDL and CTRL of RXB1, and a draw
  (40_serial_transactions.md R155). -/
  rxStatusByte : Byte → Byte → Byte → Byte → Byte → Byte → Byte
  /-- Masks of fields (10_state.md R26-R47). -/
  txreq : Byte
  abtf : Byte
  mloa : Byte
  txerr : Byte
  errif : Byte
  wakif : Byte
  merrf : Byte
  txbo : Byte
  rxOvrs : Byte
  errors : Byte
  rxrtr : Byte
  rxm : Byte
  filhit : RxSlot → Byte
  srr : Byte
  rtr : Byte
  bukt : Byte
  abat : Byte
  osm : Byte
  exide : Byte
  eflgStatus : Byte
  rtsPins : Byte

/-- The MCP2515's map, the default value of `ChipMap` (00_scope.md R2, R7). -/
def mcp2515 : ChipMap where
  opReset := 0xC0
  opRead := 0x03
  opWrite := 0x02
  opBitmod := 0x05
  opReadStatus := 0xA0
  opRxStatus := 0xB0
  opReadRx0 := 0x90
  opReadRx1 := 0x94
  opLoadTx0 := 0x40
  opLoadTx1 := 0x42
  opLoadTx2 := 0x44
  opRtsTx0 := 0x81
  opRtsTx1 := 0x82
  opRtsTx2 := 0x84
  opRtsAll := 0x87
  bfpctrl := 0x0C
  txrtsctrl := 0x0D
  canstat := 0x0E
  canctrl := 0x0F
  tec := 0x1C
  recv := 0x1D
  cnf3 := 0x28
  cnf2 := 0x29
  cnf1 := 0x2A
  caninte := 0x2B
  canintf := 0x2C
  eflg := 0x2D
  space := 0x80
  bodySize := 13
  canon := Mcp2515.canon
  registers := Mcp2515.registers
  isFilter := Mcp2515.isFilter
  isMask := Mcp2515.isMask
  isTx := Mcp2515.isTx
  isRx := Mcp2515.isRx
  isTxCtrl := Mcp2515.isTxCtrl
  isRxCtrl := Mcp2515.isRxCtrl
  implemented := Mcp2515.implemented
  writable := Mcp2515.writable
  clearOnly := Mcp2515.clearOnly
  hold := Mcp2515.hold
  warned := Mcp2515.warned
  configOnly := Mcp2515.configOnly
  resetValue := Mcp2515.resetValue
  resetDraw := Mcp2515.resetDraw
  modeMask := 0xE0
  modeBits := Mcp2515.modeBits
  txCtrl := Mcp2515.txCtrl
  txSidh := fun s => Mcp2515.txCtrl s + 1
  txD0 := fun s => Mcp2515.txCtrl s + 6
  txIf := Mcp2515.txIf
  rxCtrl := Mcp2515.rxCtrl
  rxSidh := fun s => Mcp2515.rxCtrl s + 1
  rxSidl := fun s => Mcp2515.rxCtrl s + 2
  rxD0 := fun s => Mcp2515.rxCtrl s + 6
  rxIf := Mcp2515.rxIf
  rxOvr := Mcp2515.rxOvr
  filterBase := Mcp2515.filterBase
  maskBase := Mcp2515.maskBase
  filterSidl := fun f => Mcp2515.filterBase f + 1
  filterCode := Mcp2515.filterCode
  txSlotOf := Mcp2515.txSlotOf
  rxSlotOf := Mcp2515.rxSlotOf
  slotMask := Mcp2515.slotMask
  slotFilters := Mcp2515.slotFilters
  filterNamed := Mcp2515.filterNamed
  packStd := Mcp2515.packStd
  packExt := Mcp2515.packExt
  unpackStd := Mcp2515.unpackStd
  unpackExt := Mcp2515.unpackExt
  dlcBits := 0x0F
  icod := Mcp2515.icod
  statusByte := Mcp2515.statusByte
  statusRx := Mcp2515.rxIf
  rxStatusByte := Mcp2515.rxStatusByte
  txreq := 0x08
  abtf := 0x40
  mloa := 0x20
  txerr := 0x10
  errif := 0x20
  wakif := 0x40
  merrf := 0x80
  txbo := 0x20
  rxOvrs := 0xC0
  errors := 0xF8
  rxrtr := 0x08
  rxm := 0x60
  filhit := Mcp2515.filhit
  srr := 0x10
  rtr := 0x40
  bukt := 0x04
  abat := 0x10
  osm := 0x08
  exide := 0x08
  eflgStatus := 0x3F
  rtsPins := 0x38

/-- The parameters that the machine takes as an argument: a `ChipMap` (00_scope.md R7), the member set of `Rate`
(30_encoding.md R138) and the bit-timing table (00_scope.md R8). Where no other is given they are the MCP2515's map and the
two free values of Config.lean. -/
structure ChipParam where
  map : ChipMap := mcp2515
  rates : List Rate := Config.rates
  bitTiming : Clock → Rate → Option (Byte × Byte × Byte) := Config.bitTiming
  deriving Inhabited

/-- The parameters of 00_scope.md R9 at their default values. -/
def defaultParams : Params where
  intTrigger := .fallingEdge
  bitModifiable := Mcp2515.bitModifiable
  transportMayFail := true

/-! ## The map's entries, as the machine names them -/

variable [Inhabited ChipParam]

/-- The map that the machine is run with. -/
def chipMap : ChipMap := (default : ChipParam).map

/-- `r` is a member of `Rate`: of the set that the machine is run with, and from 5 kbps to 1 Mbps (30_encoding.md R138,
42_mode_and_bit_timing.md R209). -/
def isRate (r : Rate) : Bool :=
  decide (5000 ≤ r.bps) && decide (r.bps ≤ 1000000) && decide (r ∈ (default : ChipParam).rates)

/-- The entry of the bit-timing table. A pair whose rate is no member lies outside the supported set and has none
(42_mode_and_bit_timing.md R207, R209). -/
def bitTiming (clock : Clock) (rate : Rate) : Option (Byte × Byte × Byte) :=
  if isRate rate then (default : ChipParam).bitTiming clock rate else none

namespace Addr
def bfpctrl : Nat := chipMap.bfpctrl
def txrtsctrl : Nat := chipMap.txrtsctrl
def canstat : Nat := chipMap.canstat
def canctrl : Nat := chipMap.canctrl
def tec : Nat := chipMap.tec
def recv : Nat := chipMap.recv
def cnf3 : Nat := chipMap.cnf3
def cnf2 : Nat := chipMap.cnf2
def cnf1 : Nat := chipMap.cnf1
def caninte : Nat := chipMap.caninte
def canintf : Nat := chipMap.canintf
def eflg : Nat := chipMap.eflg
end Addr

/-- An address as the byte of a transaction. -/
def addrByte (a : Nat) : Byte := BitVec.ofNat 8 a

def canon (a : Nat) : Nat := chipMap.canon a
def registerAddrs : List Nat := chipMap.registers
def isFilter (a : Nat) : Bool := chipMap.isFilter a
def isMask (a : Nat) : Bool := chipMap.isMask a
def isTx (a : Nat) : Bool := chipMap.isTx a
def isRx (a : Nat) : Bool := chipMap.isRx a
def isTxCtrl (a : Nat) : Bool := chipMap.isTxCtrl a

/-- TXBnSIDH to TXBnD7. -/
def isTxBody (a : Nat) : Bool := isTx a && !isTxCtrl a

/-- RXBnSIDH to RXBnD7. -/
def isRxBody (a : Nat) : Bool := isRx a && !chipMap.isRxCtrl a

def implMask (a : Nat) : Byte := chipMap.implemented a
def writeMask (a : Nat) : Byte := chipMap.writable a
def clearMask (a : Nat) : Byte := chipMap.clearOnly a
def configOnly (a : Nat) : Bool := chipMap.configOnly a

/-- What the register at `a` holds once it is given `v`. -/
def normal (a : Nat) (v : Byte) : Byte := chipMap.hold a v

/-- The value the spec gives a register after reset; none where it gives none. -/
def resetValue (a : Nat) : Option Byte := chipMap.resetValue a

/-- The registers, in rising order, whose reset the spec leaves unspecified in whole or in part (10_state.md R61). -/
def unspecifiedAddrs : List Nat := registerAddrs.filter fun a => decide (resetValue a = none)

/-- What a draw `b` leaves after reset in the register at `a`. -/
def resetDraw (a : Nat) (b : Byte) : Byte := chipMap.resetDraw a b

def modeMask : Byte := chipMap.modeMask
def modeBits (m : Mode) : Byte := chipMap.modeBits m

/-- The pattern `b` (bits 7:5) is that of one of the five modes (10_state.md R25). -/
def isModeBits (b : Byte) : Bool :=
  decide (b = modeBits .normal) || decide (b = modeBits .sleep) || decide (b = modeBits .loopback) ||
    decide (b = modeBits .listenOnly) || decide (b = modeBits .configuration)

def txCtrl (s : TxSlot) : Byte := chipMap.txCtrl s
def txSidh (s : TxSlot) : Byte := chipMap.txSidh s
def txD0 (s : TxSlot) : Byte := chipMap.txD0 s
def txIf (s : TxSlot) : Byte := chipMap.txIf s
def rxCtrl (s : RxSlot) : Byte := chipMap.rxCtrl s
def rxSidh (s : RxSlot) : Byte := chipMap.rxSidh s
def rxSidl (s : RxSlot) : Byte := chipMap.rxSidl s
def rxD0 (s : RxSlot) : Byte := chipMap.rxD0 s
def rxIf (s : RxSlot) : Byte := chipMap.rxIf s
def rxOvr (s : RxSlot) : Byte := chipMap.rxOvr s
def txSlotOf (a : Nat) : Option TxSlot := chipMap.txSlotOf a
def rxSlotOf (a : Nat) : Option RxSlot := chipMap.rxSlotOf a
def filterBase (f : FilterId) : Byte := chipMap.filterBase f
def maskBase (m : MaskId) : Byte := chipMap.maskBase m
def filterSidl (f : FilterId) : Byte := chipMap.filterSidl f
def filterCode (f : FilterId) : Byte := chipMap.filterCode f

end Sys2Proof.Machine
end

