-- ==== Sys2Proof/Machine/Flags.lean ====
section
/-! DEFINITION. The flag computations: the level of the interrupt line, ICOD, the response bytes of the status
instructions, and the flag groups the operations test (10_state.md R63). Functions of register bytes. -/

namespace Sys2Proof.Machine

variable [Inhabited ChipParam]

/-- TXBnCTRL.TXREQ (10_state.md R37). -/
def txreqBit : Byte := chipMap.txreq

/-- TXBnCTRL.ABTF, MLOA and TXERR (10_state.md R37, 60_exceptions.md R334). -/
def txFailBits : Byte := chipMap.abtf ||| chipMap.mloa ||| chipMap.txerr
def abtfBit : Byte := chipMap.abtf
def mloaBit : Byte := chipMap.mloa
def txerrBit : Byte := chipMap.txerr

/-- CANINTF flags (10_state.md R29). -/
def errifBit : Byte := chipMap.errif
def wakifBit : Byte := chipMap.wakif
def merrfBit : Byte := chipMap.merrf

/-- EFLG.TXBO, and the two overflow flags (10_state.md R30). -/
def txboBit : Byte := chipMap.txbo
def rxOvrBits : Byte := chipMap.rxOvrs

/-- The EFLG bits that `hasError` tests: RX1OVR, RX0OVR, TXBO, TXEP, RXEP (46_error_flags.md R311). -/
def errorBits : Byte := chipMap.errors

/-- RXBnCTRL.RXRTR (10_state.md R43). -/
def rxrtrBit : Byte := chipMap.rxrtr

/-- RXBnCTRL.RXM (10_state.md R43). -/
def rxmBits : Byte := chipMap.rxm

/-- RXB0CTRL.BUKT (10_state.md R43). -/
def buktBit : Byte := chipMap.bukt

/-- CANCTRL.ABAT and CANCTRL.OSM (10_state.md R26). -/
def abatBit : Byte := chipMap.abat
def osmBit : Byte := chipMap.osm

/-- SIDL's SRR and DLC's RTR in a receive buffer (10_state.md R45, R47). -/
def srrBit : Byte := chipMap.srr
def rtrBit : Byte := chipMap.rtr

/-- EFLG bits 5:0, and the pin levels of TXRTSCTRL (10_state.md R30, R36). -/
def eflgStatusBits : Byte := chipMap.eflgStatus
def rtsPinBits : Byte := chipMap.rtsPins

/-- EFLG's bits as they stand together: EWARN is TXWAR or RXWAR (10_state.md R30). -/
def warned (v : Byte) : Byte := chipMap.warned v

/-- SIDL's extended bit: EXIDE or IDE (10_state.md R39, R45, R49). -/
def exideBit : Byte := chipMap.exide

/-- The level of `INT`: asserted exactly while CANINTF and CANINTE share a bit (10_state.md R57). -/
def intLevel (canintf caninte : Byte) : Bool := anySet canintf caninte

/-- CANSTAT.ICOD, at its place, for the flags that are set and enabled, in descending priority (60_exceptions.md R338). -/
def icodOf (flags : Byte) : Byte := chipMap.icod flags

/-- The response byte of `READ STATUS` (40_serial_transactions.md R154). -/
def statusByte (canintf tx0 tx1 tx2 : Byte) : Byte := chipMap.statusByte canintf tx0 tx1 tx2

/-- The bit of a receive slot in that byte (92_eei_decisions.md D14). -/
def statusRxBit (slot : RxSlot) : Byte := chipMap.statusRx slot

/-- The response byte of `RX STATUS` (40_serial_transactions.md R155). -/
def rxStatusByte (canintf sidl0 ctrl0 sidl1 ctrl1 d : Byte) : Byte :=
  chipMap.rxStatusByte canintf sidl0 ctrl0 sidl1 ctrl1 d

end Sys2Proof.Machine
end

