-- ==== Sys2Proof/WellFormed.lean ====
section
/-! DEFINITION. Which instructions have operands the spec admits: the checks whose failure the spec answers with the
refusal mark (20_memory.md R81, 40_serial_transactions.md R158), the length precondition of `encodeFrame`
(43_frame_codec.md R235) and the membership of a bit rate in `Rate` (30_encoding.md R138). -/

namespace Sys2Proof

open Sys2Proof.Machine (ChipParam chipMap isRate)

variable [Inhabited ChipParam]

/-- A block of `n` registers from `addr` lies in the admitted address space, 0x00-0x7F by default (20_memory.md R70, R81). -/
def blockOk (addr : Byte) (n : Nat) : Bool :=
  decide (addr.toNat < chipMap.space) && decide (addr.toNat + n ≤ chipMap.space)

/-- The data of a `LOAD TX BUFFER` stay inside the buffer (40_serial_transactions.md R158). -/
def loadOk (data : List Byte) : Bool := decide (data.length ≤ chipMap.bodySize)

/-- The operands of `i` are ones the spec admits. -/
def Instr.wellFormed (i : Instr) : Bool :=
  match i with
  | .txnReset => true
  | .txnRead a xs => blockOk a xs.length
  | .txnWrite a ds => blockOk a ds.length
  | .txnBitmod a _ _ => blockOk a 1
  | .txnReadStatus _ => true
  | .txnRxStatus _ => true
  | .txnReadRx0 _ => true
  | .txnReadRx1 _ => true
  | .txnLoadTx0 ds => loadOk ds
  | .txnLoadTx1 ds => loadOk ds
  | .txnLoadTx2 ds => loadOk ds
  | .txnRtsTx0 => true
  | .txnRtsTx1 => true
  | .txnRtsTx2 => true
  | .txnRtsAll => true
  | .readRegister a => blockOk a 1
  | .readRegisters a n => blockOk a n
  | .writeRegister a _ => blockOk a 1
  | .writeRegisters a vs => blockOk a vs.length
  | .modifyRegister a _ _ => blockOk a 1
  | .reset => true
  | .readStatus => true
  | .setMode _ => true
  | .lookupBitTiming _ r => isRate r
  | .setBitrate _ r => isRate r
  | .packId _ _ => true
  | .decodeId _ _ _ _ => true
  | .encodeFrame f => decide (f.dlc.toNat ≤ 8)
  | .decodeFrame _ _ _ _ _ _ => true
  | .setFilter _ _ _ => true
  | .setMask _ _ _ => true
  | .applyDefaultConfiguration => true
  | .send _ _ => true
  | .sendAny _ => true
  | .read _ => true
  | .readAnyPending => true
  | .errorFlags => true
  | .hasError => true
  | .clearReceiveOverflow => true
  | .clearMessageError => true
  | .clearErrorInterrupt => true
  | .onInterrupt => true
  | .onCanMessage => true
  | .initialise _ r _ => isRate r

end Sys2Proof
end

