-- ==== Sys2Proof/Decode.lean ====
section
/-! DEFINITION. The opcode map (30_encoding.md R124), the decoder of a transaction's bytes (R120-R129, R133), total and
refusing by name, and after it the encoder. The operations of the layer have no binary encoding and are selected by name
(30_encoding.md, preface), so `encode` gives them no bytes. -/

namespace Sys2Proof

open Sys2Proof.Machine (ChipParam chipMap)

section

variable [Inhabited ChipParam]

/-! The opcode bytes (R124), from the parameter `ChipMap`. -/

def Opcode.reset : Byte := chipMap.opReset
def Opcode.read : Byte := chipMap.opRead
def Opcode.write : Byte := chipMap.opWrite
def Opcode.bitmod : Byte := chipMap.opBitmod
def Opcode.readStatus : Byte := chipMap.opReadStatus
def Opcode.rxStatus : Byte := chipMap.opRxStatus
def Opcode.readRx0 : Byte := chipMap.opReadRx0
def Opcode.readRx1 : Byte := chipMap.opReadRx1
def Opcode.loadTx0 : Byte := chipMap.opLoadTx0
def Opcode.loadTx1 : Byte := chipMap.opLoadTx1
def Opcode.loadTx2 : Byte := chipMap.opLoadTx2
def Opcode.rtsTx0 : Byte := chipMap.opRtsTx0
def Opcode.rtsTx1 : Byte := chipMap.opRtsTx1
def Opcode.rtsTx2 : Byte := chipMap.opRtsTx2
def Opcode.rtsAll : Byte := chipMap.opRtsAll

/-- The 15 admitted opcode bytes. -/
def Opcode.all : List Byte :=
  [Opcode.reset, Opcode.read, Opcode.write, Opcode.bitmod, Opcode.readStatus, Opcode.rxStatus, Opcode.readRx0,
   Opcode.readRx1, Opcode.loadTx0, Opcode.loadTx1, Opcode.loadTx2, Opcode.rtsTx0, Opcode.rtsTx1, Opcode.rtsTx2,
   Opcode.rtsAll]

/-- Why a byte string is no serial instruction (30_encoding.md R133). Who meets one sets the refusal mark: safe. -/
inductive DecodeError where
  /-- A transaction of length 0. -/
  | emptyTransaction
  /-- An opcode byte outside the 15 of R124. -/
  | unknownOpcode (op : Byte)
  /-- A length the opcode's format does not have: 1 for F-CMD, 4 for F-BM, at least 2 for F-RD and F-WR (R121-R125,
  R129; assumption 9). -/
  | badLength (op : Byte) (len : Nat)
  deriving DecidableEq, Repr

/-- Format F-CMD (R121): the opcode alone. -/
def decodeCmd (op : Byte) (rest : List Byte) (i : Instr) : Except DecodeError Instr :=
  match rest with
  | [] => .ok i
  | _ :: _ => .error (.badLength op (rest.length + 1))

/-- Formats F-RD (R122) and F-WR (R123): a start address, then any number of bytes. -/
def decodeAddr (op : Byte) (rest : List Byte) (i : Byte → List Byte → Instr) : Except DecodeError Instr :=
  match rest with
  | a :: xs => .ok (i a xs)
  | [] => .error (.badLength op 1)

/-- Format F-BM (R125): address, mask and data. -/
def decodeBitmod (op : Byte) (rest : List Byte) : Except DecodeError Instr :=
  match rest with
  | [a, m, d] => .ok (.txnBitmod a m d)
  | _ => .error (.badLength op (rest.length + 1))

/-- The instruction a transaction's bytes say, compared by the whole opcode byte (R128). -/
def decode (bytes : List Byte) : Except DecodeError Instr :=
  match bytes with
  | [] => .error .emptyTransaction
  | op :: rest =>
    if op = Opcode.reset then decodeCmd op rest .txnReset
    else if op = Opcode.read then decodeAddr op rest .txnRead
    else if op = Opcode.write then decodeAddr op rest .txnWrite
    else if op = Opcode.bitmod then decodeBitmod op rest
    else if op = Opcode.readStatus then .ok (.txnReadStatus rest)
    else if op = Opcode.rxStatus then .ok (.txnRxStatus rest)
    else if op = Opcode.readRx0 then .ok (.txnReadRx0 rest)
    else if op = Opcode.readRx1 then .ok (.txnReadRx1 rest)
    else if op = Opcode.loadTx0 then .ok (.txnLoadTx0 rest)
    else if op = Opcode.loadTx1 then .ok (.txnLoadTx1 rest)
    else if op = Opcode.loadTx2 then .ok (.txnLoadTx2 rest)
    else if op = Opcode.rtsTx0 then decodeCmd op rest .txnRtsTx0
    else if op = Opcode.rtsTx1 then decodeCmd op rest .txnRtsTx1
    else if op = Opcode.rtsTx2 then decodeCmd op rest .txnRtsTx2
    else if op = Opcode.rtsAll then decodeCmd op rest .txnRtsAll
    else .error (.unknownOpcode op)

/-- The bytes of a serial instruction (R121-R127); an operation of the layer has none. -/
def encode (i : Instr) : Option (List Byte) :=
  match i with
  | .txnReset => some [Opcode.reset]
  | .txnRead a xs => some (Opcode.read :: a :: xs)
  | .txnWrite a ds => some (Opcode.write :: a :: ds)
  | .txnBitmod a m d => some [Opcode.bitmod, a, m, d]
  | .txnReadStatus xs => some (Opcode.readStatus :: xs)
  | .txnRxStatus xs => some (Opcode.rxStatus :: xs)
  | .txnReadRx0 xs => some (Opcode.readRx0 :: xs)
  | .txnReadRx1 xs => some (Opcode.readRx1 :: xs)
  | .txnLoadTx0 ds => some (Opcode.loadTx0 :: ds)
  | .txnLoadTx1 ds => some (Opcode.loadTx1 :: ds)
  | .txnLoadTx2 ds => some (Opcode.loadTx2 :: ds)
  | .txnRtsTx0 => some [Opcode.rtsTx0]
  | .txnRtsTx1 => some [Opcode.rtsTx1]
  | .txnRtsTx2 => some [Opcode.rtsTx2]
  | .txnRtsAll => some [Opcode.rtsAll]
  | .readRegister _ => none
  | .readRegisters _ _ => none
  | .writeRegister _ _ => none
  | .writeRegisters _ _ => none
  | .modifyRegister _ _ _ => none
  | .reset => none
  | .readStatus => none
  | .setMode _ => none
  | .lookupBitTiming _ _ => none
  | .setBitrate _ _ => none
  | .packId _ _ => none
  | .decodeId _ _ _ _ => none
  | .encodeFrame _ => none
  | .decodeFrame _ _ _ _ _ _ => none
  | .setFilter _ _ _ => none
  | .setMask _ _ _ => none
  | .applyDefaultConfiguration => none
  | .send _ _ => none
  | .sendAny _ => none
  | .read _ => none
  | .readAnyPending => none
  | .errorFlags => none
  | .hasError => none
  | .clearReceiveOverflow => none
  | .clearMessageError => none
  | .clearErrorInterrupt => none
  | .onInterrupt => none
  | .onCanMessage => none
  | .initialise _ _ _ => none

/-- The shortest transaction of an opcode (R121-R129). -/
def minLength (op : Byte) : Nat :=
  if op = Opcode.read then 2
  else if op = Opcode.write then 2
  else if op = Opcode.bitmod then 4
  else 1

/-- The bytes of a word numbered as spec/opcode_table.json numbers it (bit 0 the least significant bit of byte 0), with
zero bytes after them up to the shortest transaction of the opcode. -/
def tableBytes (nbits w : Nat) : List Byte :=
  let given := (List.range ((nbits + 7) / 8)).map fun k => BitVec.ofNat 8 (w / 2 ^ (8 * k))
  given ++ zeros (minLength (given.headD 0) - given.length)

end

/-- What the decoder reads from a word of the opcode table. -/
def decodeTableWord (nbits w : Nat) : Option Instr :=
  match decode (tableBytes nbits w) with
  | .ok i => some i
  | .error _ => none

end Sys2Proof
end

