-- ==== Sys2Proof/Machine/Memory.lean ====
section
/-! DEFINITION. The chip's register file, the one address space of the hardware (20_memory.md R70): a list of cells with
addresses strictly rising. A register for which the spec gives a reset value is listed only while it holds another value;
a register of unspecified reset is always listed. `Memory.wf` is that canonical form. -/

namespace Sys2Proof.Machine

variable [Inhabited ChipParam]

/-- The register file. -/
abbrev Memory := List Host.Cell

/-- The byte listed for an address. -/
def Memory.lookup (m : Memory) (a : Nat) : Option Byte :=
  match m with
  | [] => none
  | (b, v) :: r => if a = b then some v else Memory.lookup r a

/-- What an unlisted address reads as: the register's reset value (10_state.md R60); where the spec gives none, the free
value of power-on (a memory of the canonical form lists every such register). -/
def Memory.unlisted (a : Nat) : Byte := (resetValue a).getD (Config.powerOnByte a)

/-- The byte at an address. -/
def Memory.read (m : Memory) (a : Nat) : Byte := (Memory.lookup m a).getD (Memory.unlisted a)

/-- List `v` for `a`, in its place. -/
def Memory.insert (m : Memory) (a : Nat) (v : Byte) : Memory :=
  match m with
  | [] => [(a, v)]
  | (b, w) :: r => if a < b then (a, v) :: (b, w) :: r else if a = b then (a, v) :: r else (b, w) :: Memory.insert r a v

/-- Take `a` off the list. -/
def Memory.erase (m : Memory) (a : Nat) : Memory :=
  match m with
  | [] => []
  | (b, w) :: r => if a = b then Memory.erase r a else (b, w) :: Memory.erase r a

/-- Store a byte, keeping the canonical form. -/
def Memory.write (m : Memory) (a : Nat) (v : Byte) : Memory :=
  if resetValue a = some v then Memory.erase m a else Memory.insert m a v

/-- The addresses rise strictly. -/
def Memory.rising (m : Memory) : Bool :=
  match m with
  | [] => true
  | (a, _) :: r => r.all (fun c => decide (a < c.1)) && Memory.rising r

/-- A listed cell is a register, holds only bits the register has, and is not the value an unlisted one would have. -/
def Memory.cellOk (c : Host.Cell) : Bool :=
  decide (c.1 ∈ registerAddrs) && decide (normal c.1 c.2 = c.2) && decide (resetValue c.1 ≠ some c.2)

/-- The canonical form. -/
def Memory.wf (m : Memory) : Bool :=
  Memory.rising m && m.all Memory.cellOk && unspecifiedAddrs.all fun a => (Memory.lookup m a).isSome

end Sys2Proof.Machine
end

