-- ==== Sys2Proof/Machine/State.lean ====
section
/-! DEFINITION. The state of the machine (10_state.md R20-R62), as plain data, and the state after reset. -/

namespace Sys2Proof.Machine

/-- Result codes (60_exceptions.md R330). -/
inductive Result where
  | ok | modeTransitionFailure | configurationError | malformedFrame | transmitFailure | allBuffersBusy | noMessage
  | initializationFailure
  deriving DecidableEq, Repr, Inhabited

/-- What an operation returns to its Caller (30_encoding.md R135). -/
inductive Value where
  | unit
  | byte (v : Byte)
  | bytes (v : List Byte)
  | bool (v : Bool)
  | ident (v : Ident)
  | triple (v : Option (Byte × Byte × Byte))
  | code (r : Result)
  | idDlc (canId : Ident) (dlc : Byte)
  | frame (f : Frame)
  deriving DecidableEq, Repr

/-- One transaction of the transcript `T`: the bytes sent, the bytes received, and whether it succeeded (10_state.md
R59). -/
structure Entry where
  out : List Byte
  inb : List Byte
  ok : Bool
  deriving DecidableEq, Repr

/-- A record of the log `L` (10_state.md R58); a payload is its characters. -/
inductive LogRecord where
  | transportFailure
  | publish (payload : List Char)
  deriving DecidableEq, Repr

/-- From where a call is made (60_exceptions.md R348, R349). -/
inductive Context where
  | caller | interrupt | otherTask
  deriving DecidableEq, Repr

/-- One call of a program (10_state.md R24): a serial transaction written out as its bytes, an operation, or a delay of
the Caller in milliseconds (30_encoding.md R136, 00_scope.md R14). -/
inductive Call where
  | txn (ctx : Context) (out : List Byte)
  | op (ctx : Context) (i : Instr)
  | sleep (ms : Nat)
  deriving DecidableEq, Repr

/-- The choices still to come: draws, transaction outcomes, and what the other agents do at each scheduling point. When a
list runs out the choices are the free values of Config, numbered by `seed`. The model's own field (assumption 1). -/
structure Env where
  draws : List Byte
  links : List Link
  turns : List (List Move)
  seed : Nat
  deriving DecidableEq, Repr

/-- The state of the machine. -/
structure State where
  /-- The register file `reg` (R21, 20_memory.md R70). -/
  mem : Memory
  /-- The level of the interrupt line `INT`: true when it is asserted (R57). -/
  int : Bool
  /-- Changes of `INT` from deasserted to asserted that the Interrupt Bridge has not served (60_exceptions.md R344). -/
  edges : Nat
  /-- Changes of `INT` that the Interrupt Bridge has put off: for each, how many more scheduling points it may wait
  (60_exceptions.md R345). The model's own field (assumption 15). -/
  waits : List Nat
  /-- The transmit buffers whose abort the Caller has requested by clearing TXREQ (20_memory.md R87, R96). -/
  aborting : List TxSlot
  /-- Milliseconds left of the settle time after `RESET` (40_serial_transactions.md R166). -/
  settle : Nat
  /-- The event queue `Q`, head first (R56). -/
  queue : List Event
  /-- The log `L` (R58). -/
  log : List LogRecord
  /-- The transcript `T` (R59). -/
  transcript : List Entry
  /-- The refusal mark (R62). -/
  refused : Bool
  /-- The dispatcher's cloud-link flag (60_exceptions.md R342). -/
  cloudUp : Bool
  /-- The calls of the program that the Caller has still to make (R24). -/
  calls : List Call
  /-- What the operations called so far returned, in order (R11; the observation of 92_eei_decisions.md D25). -/
  results : List Value
  /-- The delays of the Caller so far, in milliseconds, in order (00_scope.md R14). -/
  sleeps : List Nat
  /-- The choices of the other agents and the draws still to come. -/
  env : Env
  /-- The parameters of 00_scope.md R9, which no step changes. The model's own field (assumption 17). -/
  params : Params
  deriving DecidableEq, Repr

/-- Why a step may fault. The hardware raises no trap, fault or exception (60_exceptions.md, preface), and a form without
a meaning sets the refusal mark and the machine goes on (R62): no step faults, so there is no fault. -/
inductive Fault where
  deriving DecidableEq, Repr

/-- Why a step may be refused. -/
inductive Refusal where
  /-- Raised by an arm of `exec` whose instruction has no meaning yet (none is left): safe. -/
  | notModelled (mnemonic : String)
  deriving DecidableEq, Repr

/-- The register file at power-on: the values of 10_state.md R60, and free values where it gives none (R61, R370). -/
def Memory.powerOn [Inhabited ChipParam] : Memory := unspecifiedAddrs.map fun a => (a, resetDraw a (Config.powerOnByte a))

/-- The machine at power-on (70_reset_and_hazards.md R370). -/
def State.reset : State where
  mem := Memory.powerOn
  int := false
  edges := 0
  waits := []
  aborting := []
  settle := 0
  queue := []
  log := []
  transcript := []
  refused := false
  cloudUp := false
  calls := []
  results := []
  sleeps := []
  env := { draws := [], links := [], turns := [], seed := 0 }
  params := defaultParams

end Sys2Proof.Machine
end

