-- ==== Sys2Proof/Machine/Operands.lean ====
section
/-! DEFINITION. The operand forms: the identifier packing and the Frame Codec (43_frame_codec.md), which are pure, and the
JSON payload of the dispatcher (60_exceptions.md R343). -/

namespace Sys2Proof.Machine

variable [Inhabited ChipParam]

/-! ## The Frame Codec -/

/-- Identifier constants (43_frame_codec.md R231). -/
def effFlag : Ident := 0x80000000
def rtrFlag : Ident := 0x40000000
def errFlag : Ident := 0x20000000
def sffMask : Ident := 0x000007FF
def effMask : Ident := 0x1FFFFFFF

def isExt (id : Ident) : Bool := id.getLsbD 31
def isRtr (id : Ident) : Bool := id.getLsbD 30

/-- The bits of the identifier value in a format. -/
def formatMask (ext : Bool) : Ident := if ext then effMask else sffMask

/-- The four header bytes [SIDH, SIDL, EID8, EID0] of an identifier (43_frame_codec.md R233, R234). -/
def packIdBytes (ext : Bool) (v : Ident) : List Byte := if ext then chipMap.packExt v else chipMap.packStd v

/-- The identifier of four header bytes (43_frame_codec.md R236). -/
def unpackId (sidh sidl eid8 eid0 : Byte) : Ident :=
  if sidl &&& exideBit = exideBit then chipMap.unpackExt sidh sidl eid8 eid0 ||| effFlag else chipMap.unpackStd sidh sidl

/-- The DLC byte of a frame to send: its length with the remote bit (43_frame_codec.md R235). -/
def dlcByte (f : Frame) : Byte := if isRtr f.canId then f.dlc ||| rtrBit else f.dlc

/-- The five header bytes of a frame to send (43_frame_codec.md R235). -/
def frameHeader (f : Frame) : List Byte :=
  packIdBytes (isExt f.canId) (f.canId &&& formatMask (isExt f.canId)) ++ [dlcByte f]

/-- Header and payload of a frame to send, for `dlc` at most 8 (43_frame_codec.md R235). -/
def frameBytes (f : Frame) : List Byte := frameHeader f ++ f.data.toList.take f.dlc.toNat

/-- The length field of a header's DLC byte (43_frame_codec.md R237). -/
def dlcOf (b : Byte) : Byte := b &&& chipMap.dlcBits

/-- The identifier of a received frame, with the remote flag from the control byte (43_frame_codec.md R237). -/
def rxIdent (sidh sidl eid8 eid0 ctrl : Byte) : Ident :=
  if ctrl &&& rxrtrBit ≠ 0 then unpackId sidh sidl eid8 eid0 ||| rtrFlag else unpackId sidh sidl eid8 eid0

/-- `decodeFrame` (43_frame_codec.md R237): the identifier and the length, or none for a length field above 8, which is
`MalformedFrame`. -/
def unpackFrame (sidh sidl eid8 eid0 dlc ctrl : Byte) : Option (Ident × Byte) :=
  if (dlcOf dlc).toNat > 8 then none else some (rxIdent sidh sidl eid8 eid0 ctrl, dlcOf dlc)

/-- Eight bytes of a list, as the payload of a frame. -/
def payloadOf (l : List Byte) : Vector Byte 8 :=
  #v[l.getD 0 0, l.getD 1 0, l.getD 2 0, l.getD 3 0, l.getD 4 0, l.getD 5 0, l.getD 6 0, l.getD 7 0]

/-! ## The JSON payload (60_exceptions.md R343) -/

/-- The decimal digit `n`. -/
def digitChar (n : Nat) : Char := Char.ofNat (48 + n)

/-- Unsigned decimal with no leading zeros, of a number below `10 ^ fuel`. -/
def decimalAux (fuel n : Nat) (acc : List Char) : List Char :=
  match fuel with
  | 0 => acc
  | k + 1 => if n < 10 then digitChar n :: acc else decimalAux k (n / 10) (digitChar (n % 10) :: acc)

/-- `dec`: the decimal digits of a 32-bit number (at most ten). -/
def decimal (n : Nat) : List Char := decimalAux 10 n []

/-- One lowercase hexadecimal digit. -/
def hexChar (n : Nat) : Char := if n < 10 then Char.ofNat (48 + n) else Char.ofNat (87 + n)

/-- `hex2`: two lowercase hexadecimal digits. -/
def hex2 (b : Byte) : List Char := [hexChar (b.toNat / 16), hexChar (b.toNat % 16)]

/-- The double quote, the braces, LF and TAB. -/
def quoteChar : Char := Char.ofNat 0x22
def openBrace : Char := Char.ofNat 0x7B
def closeBrace : Char := Char.ofNat 0x7D
def lfChar : Char := Char.ofNat 0x0A
def tabChar : Char := Char.ofNat 0x09

/-- The characters `l` between double quotes. -/
def quoted (l : List Char) : List Char := quoteChar :: (l ++ [quoteChar])

/-- `"name": "value"`. -/
def jsonField (name value : List Char) : List Char := quoted name ++ [':', ' '] ++ quoted value

/-- `json(f)`: the payload that the dispatcher publishes for a frame. -/
def json (f : Frame) : List Char :=
  [openBrace, lfChar, tabChar] ++ jsonField ['i', 'd'] (decimal f.canId.toNat) ++ [',', lfChar, tabChar, ' '] ++
    jsonField ['d', 'l', 'c'] (decimal f.dlc.toNat) ++ [',', lfChar, tabChar] ++
    jsonField ['d', 'a', 't', 'a'] ((f.data.toList.take f.dlc.toNat).flatMap fun b => hex2 b ++ [' ']) ++
    [lfChar, closeBrace]

end Sys2Proof.Machine
end

