-- ==== Sys2Proof/Machine/Ops.lean ====
section
/-! DEFINITION. The named operations over the state: draws, register reads and writes, what the chip does with the bytes
of a transaction, the transaction itself (00_scope.md R12), and the one operation of the interrupt path. -/

namespace Sys2Proof.Machine

variable [Inhabited ChipParam]

/-! ## Choices and draws -/

/-- One draw (00_scope.md R14): the next of the list, or the free value. -/
def Env.draw (e : Env) : Byte × Env :=
  match e.draws with
  | b :: r => (b, { e with draws := r })
  | [] => (Config.freeByte e.seed, { e with seed := e.seed + 1 })

/-- `n` draws. -/
def Env.drawN (n : Nat) (e : Env) : List Byte × Env :=
  match n with
  | 0 => ([], e)
  | k + 1 => (e.draw.1 :: (Env.drawN k e.draw.2).1, (Env.drawN k e.draw.2).2)

/-- The next outcome of a transaction: of the list, or the free value. -/
def Env.link (e : Env) : Link × Env :=
  match e.links with
  | l :: r => (l, { e with links := r })
  | [] => (Config.freeLink e.seed, { e with seed := e.seed + 1 })

/-- What the other agents do at the next scheduling point. -/
def Env.turn (e : Env) : List Move × Env :=
  match e.turns with
  | t :: r => (t, { e with turns := r })
  | [] => (Config.freeTurn e.seed, { e with seed := e.seed + 1 })

def State.setEnv (s : State) (e : Env) : State := { s with env := e }

/-- What becomes of the next transaction: it may fail only where the parameter `TransportMayFail` allows it
(41_register_access.md R181). -/
def State.link (s : State) : Link := if s.params.transportMayFail then s.env.link.1 else .ok

/-! ## The observations and the marks -/

/-- Set the refusal mark (10_state.md R62). -/
def State.refuse (s : State) : State := { s with refused := true }

/-- An operation returns a value to its Caller. -/
def State.ret (s : State) (v : Value) : State := { s with results := s.results ++ [v] }

/-- `Log` (00_scope.md R14). -/
def State.note (s : State) (r : LogRecord) : State := { s with log := s.log ++ [r] }

/-- Append a transaction to the transcript (10_state.md R59). -/
def State.record (s : State) (e : Entry) : State := { s with transcript := s.transcript ++ [e] }

/-- A non-blocking send into the event queue: dropped when the queue is full (60_exceptions.md R340). -/
def State.enqueue (s : State) (e : Event) : State :=
  if s.queue.length < Config.queueCap then { s with queue := s.queue ++ [e] } else s

/-! ## Registers -/

/-- The level of `INT` that a register file gives (10_state.md R57). -/
def Memory.level (m : Memory) : Bool := intLevel (Memory.read m Addr.canintf) (Memory.read m Addr.caninte)

/-- CANSTAT of a register file: OPMOD as stored, and ICOD from the flags that are set and enabled (10_state.md R27,
60_exceptions.md R338). -/
def Memory.canstat (m : Memory) : Byte :=
  (Memory.read m Addr.canstat &&& modeMask) |||
    icodOf (Memory.read m Addr.canintf &&& Memory.read m Addr.caninte)

/-- `reg[a]` (00_scope.md R11), through the mirrors. -/
def State.reg (s : State) (a : Nat) : Byte :=
  if canon a = Addr.canstat then Memory.canstat s.mem else Memory.read s.mem (canon a)

/-- Replace the register file. `INT` follows CANINTF and CANINTE (10_state.md R57), and each change of it from deasserted
to asserted is one more edge for the Interrupt Bridge (60_exceptions.md R344). -/
def State.setMem (s : State) (m : Memory) : State :=
  { s with
    mem := m
    int := Memory.level m
    edges := if Memory.level m && !s.int then s.edges + 1 else s.edges }

/-- `reg[a] <- v`, bits that do not exist kept at 0 (10_state.md R52). -/
def State.setReg (s : State) (a : Nat) (v : Byte) : State :=
  s.setMem (Memory.write s.mem (canon a) (normal (canon a) v))

/-- Change the field under `mask` of a register. -/
def State.poke (s : State) (a : Nat) (mask v : Byte) : State := s.setReg a ((s.reg a &&& ~~~mask) ||| (v &&& mask))

/-- OPMOD in bits 7:5 (10_state.md R27). -/
def State.opmod (s : State) : Byte := s.reg Addr.canstat &&& modeMask

/-- REQOP in bits 7:5 (10_state.md R26). -/
def State.reqop (s : State) : Byte := s.reg Addr.canctrl &&& modeMask

/-- A transmit slot is pending: its TXREQ is 1 (45_tx_rx_buffers.md R280). -/
def State.txPending (s : State) (slot : TxSlot) : Bool := anySet (s.reg (txCtrl slot).toNat) txreqBit

/-- A receive slot is pending: its RXnIF is 1. -/
def State.rxPending (s : State) (slot : RxSlot) : Bool := anySet (s.reg Addr.canintf) (rxIf slot)

/-- `a` lies in TXBnSIDH to TXBnD7 of a buffer whose TXREQ is 1 (40_serial_transactions.md R152). -/
def State.pendingTx (s : State) (a : Nat) : Bool :=
  isTxBody a &&
    match txSlotOf a with
    | some slot => s.txPending slot
    | none => false

/-- `a` lies in RXBnSIDH to RXBnD7 of a buffer whose RXnIF is 0 (40_serial_transactions.md R151). -/
def State.unlockedRx (s : State) (a : Nat) : Bool :=
  isRxBody a &&
    match rxSlotOf a with
    | some slot => !s.rxPending slot
    | none => false

/-! ## What the chip does with data bytes -/

/-- The requests to abort after a write of TXREQ (20_memory.md R87): TXREQ = 1 ends the slot's request, TXREQ = 0 while
it was 1 makes one. -/
def abortsAfter (aborting : List TxSlot) (slot : TxSlot) (old new : Byte) : List TxSlot :=
  if anySet new txreqBit then aborting.filter fun t => decide (t ≠ slot)
  else if anySet old txreqBit && !aborting.contains slot then slot :: aborting
  else aborting

/-- The value of a register after a write of `v`: the W bits from `v`, the others kept (20_memory.md R77); a R/W-clear bit
stays 0 where it is 0 (10_state.md R30); in TXBnCTRL a write of TXREQ = 1 also clears ABTF, MLOA and TXERR (R87). -/
def merge (a : Nat) (v old : Byte) : Byte :=
  let new := (old &&& ~~~writeMask a) ||| (v &&& writeMask a &&& (old ||| ~~~clearMask a))
  if isTxCtrl a && anySet v txreqBit then new &&& ~~~txFailBits else new

/-- A write of TXBnCTRL makes or ends an abort request. -/
def State.noteAbort (s : State) (a : Nat) (v old : Byte) : State :=
  match txSlotOf a with
  | some slot => if isTxCtrl a then { s with aborting := abortsAfter s.aborting slot old v } else s
  | none => s

/-- `writeByte` (40_serial_transactions.md R152): outside Configuration mode a Configuration-only register takes its old or
its new value (20_memory.md R78), and a register of a pending transmit buffer takes a draw (R167). -/
def State.writeByte (s : State) (addr : Nat) (v : Byte) : State :=
  let a := canon addr
  let old := s.reg a
  let new := merge a v old
  if configOnly a && decide (s.opmod ≠ modeBits .configuration) then
    (s.setEnv s.env.draw.2).setReg a (if s.env.draw.1.getLsbD 0 then new else old)
  else if s.pendingTx a then (s.setEnv s.env.draw.2).setReg a s.env.draw.1
  else (s.setReg a new).noteAbort a v old

/-- Write bytes to ascending addresses (20_memory.md R80). -/
def State.writeBlock (s : State) (addr : Nat) (data : List Byte) : State :=
  match data with
  | [] => s
  | v :: r => State.writeBlock (s.writeByte addr v) (addr + 1) r

/-- The mask that a `BIT MODIFY` acts under: 0xFF where single bits cannot be changed (20_memory.md R84). -/
def State.maskAt (s : State) (addr : Nat) (mask : Byte) : Byte :=
  if addr ∈ s.params.bitModifiable then mask else 0xFF

/-- `BIT MODIFY` as one chip step (40_serial_transactions.md R153): the byte that it computes is written as `WRITE` writes
one; a mask of 0 changes nothing. -/
def State.bitModify (s : State) (addr : Nat) (mask data : Byte) : State :=
  let m := s.maskAt addr mask
  if m = 0 then s else s.writeByte addr ((s.reg addr &&& ~~~m) ||| (data &&& m))

/-- One byte that `READ` returns: a draw from the registers of a receive buffer that is not pending (20_memory.md
R105). -/
def State.readCell (s : State) (addr : Nat) (e : Env) : Byte × Env :=
  if s.unlockedRx addr then e.draw else (s.reg addr, e)

/-- The bytes that `READ` returns from ascending addresses (40_serial_transactions.md R151). -/
def State.readBlock (s : State) (addr n : Nat) (e : Env) : List Byte × Env :=
  match n with
  | 0 => ([], e)
  | k + 1 =>
    ((s.readCell addr e).1 :: (State.readBlock s (addr + 1) k (s.readCell addr e).2).1,
     (State.readBlock s (addr + 1) k (s.readCell addr e).2).2)

/-- The register file after `RESET` (40_serial_transactions.md R150): a draw for each register of unspecified reset. -/
def resetCells (addrs : List Nat) (e : Env) : Memory × Env :=
  match addrs with
  | [] => ([], e)
  | a :: r => ((a, resetDraw a e.draw.1) :: (resetCells r e.draw.2).1, (resetCells r e.draw.2).2)

/-- `RESET` (40_serial_transactions.md R150): every register to its reset value. Pending transmissions and requests to
abort are gone, and the settle time begins (R166). -/
def State.chipReset (s : State) : State :=
  let r := resetCells unspecifiedAddrs s.env
  { (s.setEnv r.2).setMem r.1 with aborting := [], settle := Config.resetSettle }

/-- A draw for the register at `a`: EFLG's bits stand together (10_state.md R30; assumption 20). -/
def drawFor (a : Nat) (b : Byte) : Byte := if a = Addr.eflg then warned b else b

/-- A draw in every register of a list. -/
def scrambleCells (addrs : List Nat) (m : Memory) (e : Env) : Memory × Env :=
  match addrs with
  | [] => (m, e)
  | a :: r => scrambleCells r (Memory.write m a (normal a (drawFor a e.draw.1))) e.draw.2

/-- A draw in every register. -/
def State.scramble (s : State) : State :=
  let r := scrambleCells registerAddrs s.mem s.env
  (s.setEnv r.2).setMem r.1

/-- The chip has received a `RESET`: its opcode among the first `k` bytes. -/
def resetSeen (out : List Byte) (k : Nat) : Bool := decide (out.head? = some Opcode.reset) && decide (1 ≤ k)

/-- The effect of a transaction within the settle time: a draw in every register (40_serial_transactions.md R166). A `RESET`
among them begins a settle time of its own (assumption 6). -/
def State.unsettled (s : State) (out : List Byte) (k : Nat) : State :=
  { s.scramble with settle := if resetSeen out k then Config.resetSettle else s.settle }

/-! ## The transaction -/

/-- How many of the `n` bytes of a transaction the chip received. -/
def linkSeen (l : Link) (n : Nat) : Nat :=
  match l with
  | .ok => n
  | .cut k => min k n

/-- The transaction succeeded. -/
def linkOk (l : Link) : Bool := decide (l = .ok)

/-- Record a transaction, and log its failure (41_register_access.md R181). -/
def State.finish (s : State) (out inb : List Byte) (ok : Bool) : State :=
  if ok then s.record { out := out, inb := inb, ok := true }
  else (s.record { out := out, inb := inb, ok := false }).note .transportFailure

/-- The bytes received: the chip's response, or draws if the transaction failed or fell into the settle time. -/
def reply (out : List Byte) (respond : State → List Byte × Env) (ok : Bool) (s : State) : List Byte × Env :=
  if ok && decide (s.settle = 0) then respond s else s.env.drawN out.length

/-- `Txn` (00_scope.md R12): the bytes sent, the response the chip gives to all of them, and the effect of the first `k` of
them. A failed transaction returns draws and leaves the effect of a prefix (41_register_access.md R181); one within the
settle time after `RESET` leaves and returns draws (40_serial_transactions.md R166). -/
def transact (out : List Byte) (respond : State → List Byte × Env) (effect : Nat → State → State) (s : State) :
    List Byte × State :=
  let l := s.link
  let s := s.setEnv s.env.link.2
  let r := reply out respond (linkOk l) s
  let s := s.setEnv r.2
  let k := linkSeen l out.length
  let t := if s.settle = 0 then effect k s else s.unsettled out k
  (r.1, t.finish out r.1 (linkOk l))

/-- The response of a transaction that defines no response byte (30_encoding.md R130). -/
def noResponse (out : List Byte) (s : State) : List Byte × Env := s.env.drawN out.length

/-! ## The interrupt path -/

/-- The one action of the interrupt handler: a `CanMessage` event into the queue (60_exceptions.md R339). It saves
nothing, changes no mode and no chip state (R345). -/
def State.takeInterrupt (s : State) : State := s.enqueue { tag := .canMessage, payload := none }

/-- The bridge runs `n` times. -/
def State.takeInterrupts (n : Nat) (s : State) : State :=
  match n with
  | 0 => s
  | k + 1 => State.takeInterrupts k s.takeInterrupt

/-- One change of `INT` less that the bridge has not served: the first that it has put off, if there is one. -/
def State.dropEdge (s : State) : State :=
  match s.waits with
  | [] => { s with edges := s.edges - 1 }
  | _ :: r => { s with waits := r }

/-- The Interrupt Bridge, if its trigger has fired: under `FallingEdge` it serves one change of `INT` not yet served, under
`LowLevel` it runs while `INT` is asserted (60_exceptions.md R344). -/
def State.bridge (s : State) : State :=
  match s.params.intTrigger with
  | .fallingEdge => if s.edges = 0 ∧ s.waits = [] then s else s.takeInterrupt.dropEdge
  | .lowLevel => if s.int then s.takeInterrupt else s

/-- The bridge puts a change of `INT` off for `n` scheduling points (60_exceptions.md R345: it comes between any two steps). -/
def State.putOff (s : State) (n : Nat) : State :=
  if s.edges = 0 then s else { s with edges := s.edges - 1, waits := s.waits ++ [n] }

/-- How often the bridge has still to run at a scheduling point: once for each change that is not put off beyond it, and under
`LowLevel` once while `INT` is asserted (R344, 93_implementation_defined.md U21). -/
def State.due (s : State) : Nat :=
  match s.params.intTrigger with
  | .fallingEdge => s.edges + s.waits.count 0
  | .lowLevel => if s.int then 1 else 0

/-- The changes still put off once `n` scheduling points have passed. -/
def later (n : Nat) (waits : List Nat) : List Nat := (waits.filter fun w => decide (n ≤ w)).map fun w => w - n

/-- At a scheduling point's end under `FallingEdge`, every change is served or put off beyond it. -/
def State.endPoint (s : State) : State :=
  match s.params.intTrigger with
  | .fallingEdge => { s with edges := 0, waits := later 1 s.waits }
  | .lowLevel => s

/-- The end of a scheduling point: the bridge serves what is due (assumption 15). -/
def State.serve (s : State) : State := (State.takeInterrupts s.due s).endPoint

end Sys2Proof.Machine
end

