-- ==== Sys2Proof/Machine/Agent.lean ====
section
/-! DEFINITION. The agents other than the Caller (10_state.md R20): what one step of the Controller agent may do
(20_memory.md R90-R99), the Interrupt Bridge and the other producers, and the scheduling points at which they step
(70_reset_and_hazards.md R390). Where a move's condition does not hold the move does nothing. -/

namespace Sys2Proof.Machine

variable [Inhabited ChipParam]

/-! ## When the chip receives and transmits -/

/-- OPMOD is Normal, ListenOnly or Loopback (20_memory.md R94). -/
def State.receiving (s : State) : Bool :=
  decide (s.opmod = modeBits .normal) || decide (s.opmod = modeBits .listenOnly) || decide (s.opmod = modeBits .loopback)

/-- OPMOD is Normal or Loopback (20_memory.md R96). -/
def State.transmitting (s : State) : Bool :=
  decide (s.opmod = modeBits .normal) || decide (s.opmod = modeBits .loopback)

/-- The frame's extended flag, IDE (10_state.md R45). -/
def busExt (f : BusFrame) : Bool := anySet f.sidl exideBit

/-- The frame's remote flag: SRR of a standard frame (10_state.md R45), RTR of an extended one (R47). -/
def busRemote (f : BusFrame) : Bool := if busExt f then anySet f.dlc rtrBit else anySet f.sidl srrBit

/-! ## Acceptance, the optional refinement (20_memory.md R114, 10_state.md R51) -/

/-- The identifier value of a four-byte block read as one of the format `ext` (43_frame_codec.md R236). -/
def blockIdent (ext : Bool) (sidh sidl eid8 eid0 : Byte) : Ident :=
  unpackId sidh (if ext then sidl ||| exideBit else sidl &&& ~~~exideBit) eid8 eid0 &&& formatMask ext

/-- The identifier value in the filter or mask block at `base`. -/
def State.blockIdentAt (s : State) (ext : Bool) (base : Byte) : Ident :=
  blockIdent ext (s.reg base.toNat) (s.reg (base.toNat + 1)) (s.reg (base.toNat + 2)) (s.reg (base.toNat + 3))

/-- The identifier value of a frame on the bus. -/
def busIdent (f : BusFrame) : Ident := blockIdent (busExt f) f.sidh f.sidl f.eid8 f.eid0

/-- A filter matches a frame under a mask. -/
def State.filterMatches (s : State) (m : MaskId) (x : FilterId) (f : BusFrame) : Bool :=
  (anySet (s.reg (filterSidl x).toNat) exideBit == busExt f) &&
    decide ((busIdent f ^^^ s.blockIdentAt (busExt f) (filterBase x)) &&& s.blockIdentAt (busExt f) (maskBase m) = 0)

/-- Some filter of the slot matches (10_state.md R51). -/
def State.slotMatches (s : State) (slot : RxSlot) (f : BusFrame) : Bool :=
  (chipMap.slotFilters slot).any fun x => s.filterMatches (chipMap.slotMask slot) x f

/-- RXM of a slot in bits 6:5 (10_state.md R43). -/
def State.rxm (s : State) (slot : RxSlot) : Byte := s.reg (rxCtrl slot).toNat &&& rxmBits

/-- A frame is accepted for RXB0: any frame with RXM = 11, one that a filter matches with RXM = 00; the reserved values 01
and 10 do not constrain it (93_implementation_defined.md U11): every frame counts as accepted, as with 11. DESIGN CHOICE,
assumption 7. -/
def State.acceptsRxb0 (s : State) (f : BusFrame) : Bool :=
  if s.rxm .rxb0 = 0x00 then s.slotMatches .rxb0 f else true

/-- A frame is accepted for RXB1: by its own filters when RXB0 does not accept it, or by rollover from a pending RXB0. This
follows 20_memory.md R114, by which RXB1 accepts a frame only if no filter of RXB0 matches it. 44_filter_mask.md R265 and P1 of
95_test_vectors.md say of the default configuration that RXB1 accepts standard frames directly, which R114 leaves to rollover.
While RXB0's RXM is 01 or 10, which 10_state.md R43 and U11 leave open, every frame counts as accepted for RXB0, so that RXB1
takes none directly; RXB1's own RXM of 11, 01 or 10 puts its filters off, of which R114 does not speak. DESIGN CHOICE,
assumption 7. -/
def State.acceptsRxb1 (s : State) (f : BusFrame) : Bool :=
  if s.acceptsRxb0 f then s.rxPending .rxb0 && anySet (s.reg (rxCtrl .rxb0).toNat) buktBit
  else if s.rxm .rxb1 = 0x00 then s.slotMatches .rxb1 f else true

/-- The refinement of R114. -/
def State.accepts (s : State) (slot : RxSlot) (f : BusFrame) : Bool :=
  match slot with
  | .rxb0 => s.acceptsRxb0 f
  | .rxb1 => s.acceptsRxb1 f

/-- What the model asks of a reception: nothing in the base model, R114 under the switch. -/
def State.mayAccept (s : State) (slot : RxSlot) (f : BusFrame) : Bool :=
  if Config.acceptanceFilter then s.accepts slot f else true

/-- FILHIT can name the filter: RXB0 has one bit, for RXF0 and RXF1 (10_state.md R43). -/
def filterNamed (slot : RxSlot) (x : FilterId) : Bool := chipMap.filterNamed slot x

/-- The mask of FILHIT in RXBnCTRL (10_state.md R43, R44). -/
def filhitMask (slot : RxSlot) : Byte := chipMap.filhit slot

/-! ## The steps of the Controller agent -/

/-- Store bytes in ascending registers, as the chip does. -/
def State.storeBytes (s : State) (addr : Nat) (data : List Byte) : State :=
  match data with
  | [] => s
  | v :: r => State.storeBytes (s.setReg addr v) (addr + 1) r

/-- The payload bytes that a reception stores: the frame's, or all eight registers with `fill` (20_memory.md R94). -/
def storedPayload (f : BusFrame) (fill : Bool) : List Byte :=
  if fill then f.data.toList else f.data.toList.take (min (dlcOf f.dlc).toNat 8)

/-- Reception (20_memory.md R94): header, payload, RXRTR and FILHIT, and then RXnIF. -/
def State.storeFrame (s : State) (slot : RxSlot) (f : BusFrame) (x : FilterId) (fill : Bool) : State :=
  let s := s.storeBytes (rxSidh slot).toNat ([f.sidh, f.sidl, f.eid8, f.eid0, f.dlc] ++ storedPayload f fill)
  let s := s.poke (rxCtrl slot).toNat (rxrtrBit ||| filhitMask slot)
    ((if busRemote f then rxrtrBit else 0) ||| filterCode x)
  s.poke Addr.canintf (rxIf slot) (rxIf slot)

/-- The buffer that a frame for `slot` overflows: RXB1 for RXB0 with rollover (20_memory.md R95). -/
def State.overflowSlot (s : State) (slot : RxSlot) : RxSlot :=
  match slot with
  | .rxb0 => if anySet (s.reg (rxCtrl .rxb0).toNat) buktBit then .rxb1 else .rxb0
  | .rxb1 => .rxb1

/-- Set the CANINTF flags under `m`, where `b` says so. -/
def State.raise (s : State) (b : Bool) (m : Byte) : State := if b then s.poke Addr.canintf m m else s

/-- Replace EFLG bits 5:0, EWARN with TXWAR or RXWAR (10_state.md R30); ERRIF may be set when a bit changes (20_memory.md R97). -/
def State.setEflg (s : State) (eflg : Byte) (errif : Bool) : State :=
  (s.poke Addr.eflg eflgStatusBits (warned eflg)).raise
    (errif && decide (s.reg Addr.eflg &&& eflgStatusBits ≠ warned eflg &&& eflgStatusBits)) errifBit

/-- A transmission step is possible for the slot (20_memory.md R96). -/
def State.canTransmit (s : State) (slot : TxSlot) : Bool := s.transmitting && s.txPending slot

/-- An abort is allowed: ABAT = 1 with the slot pending, or the Caller has cleared its TXREQ (20_memory.md R96 (d)). -/
def State.canAbort (s : State) (slot : TxSlot) : Bool :=
  s.transmitting &&
    ((s.txPending slot && anySet (s.reg Addr.canctrl) abatBit) || s.aborting.contains slot)

/-- One step of another agent. -/
def applyMove (m : Move) (s : State) : State :=
  match m with
  | .enterMode => if isModeBits s.reqop then s.poke Addr.canstat modeMask s.reqop else s
  | .receive slot f x fill =>
    if s.receiving && !s.rxPending slot && filterNamed slot x && s.mayAccept slot f then s.storeFrame slot f x fill else s
  | .overflow slot errif =>
    if s.receiving && s.rxPending slot && s.rxPending (s.overflowSlot slot) then
      (s.poke Addr.eflg (rxOvr (s.overflowSlot slot)) (rxOvr (s.overflowSlot slot))).raise errif errifBit
    else s
  | .txDone slot =>
    if s.canTransmit slot && !anySet (s.reg Addr.eflg) txboBit then
      (s.poke (txCtrl slot).toNat txreqBit 0).poke Addr.canintf (txIf slot) (txIf slot)
    else s
  | .txLost slot => if s.canTransmit slot then s.poke (txCtrl slot).toNat mloaBit mloaBit else s
  | .txError slot tec eflg merrf errif drop =>
    if s.canTransmit slot then
      let keep := !(drop && anySet (s.reg Addr.canctrl) osmBit)
      let t := s.poke (txCtrl slot).toNat (if keep then txerrBit else txerrBit ||| txreqBit) txerrBit
      ((t.setReg Addr.tec tec).setEflg eflg errif).raise merrf merrfBit
    else s
  | .txAbort slot =>
    if s.canAbort slot then
      { s.poke (txCtrl slot).toNat (abtfBit ||| txreqBit) abtfBit with
        aborting := s.aborting.filter fun t => decide (t ≠ slot) }
    else s
  | .txClearFlags slot mask => s.poke (txCtrl slot).toNat (mask &&& txFailBits) 0
  | .errors tec recv eflg errif merrf =>
    (((s.setReg Addr.tec tec).setReg Addr.recv recv).setEflg eflg errif).raise merrf merrfBit
  | .wake reqop =>
    if s.opmod = modeBits .sleep then
      let t := s.poke Addr.canstat modeMask (modeBits .listenOnly)
      let t := if reqop then t.poke Addr.canctrl modeMask (modeBits .listenOnly) else t
      t.poke Addr.canintf wakifBit wakifBit
    else s
  | .rtsPins levels => s.poke Addr.txrtsctrl rtsPinBits levels
  | .bridge => s.bridge
  | .putOff n => s.putOff n
  | .produce e => if e.tag = .canMessage then s else s.enqueue e

/-- The steps of one scheduling point, in order. -/
def applyMoves (ms : List Move) (s : State) : State :=
  match ms with
  | [] => s
  | m :: r => applyMoves r (applyMove m s)

/-- A scheduling point: the other agents take any number of steps, the bridge among them (70_reset_and_hazards.md R390), and
at its end the bridge has served what it has not put off (60_exceptions.md R344, R345). -/
def State.schedule (s : State) : State := (applyMoves s.env.turn.1 (s.setEnv s.env.turn.2)).serve

/-- `Sleep` (00_scope.md R14): a scheduling point; the delay is recorded, and counts towards the settle time (R166). -/
def State.sleep (s : State) (ms : Nat) : State :=
  State.schedule { s with sleeps := s.sleeps ++ [ms], settle := s.settle - ms }

end Sys2Proof.Machine
end

