-- ==== Sys2Proof/Machine/Serial.lean ====
section
/-! DEFINITION. The 15 serial instructions (40_serial_transactions.md R150-R164): the transaction each one is, and its
meaning. Each meaning is one transaction of the Caller; a form that the spec gives no meaning sets the refusal mark and
has no effect (R62, R133). -/

namespace Sys2Proof.Machine

variable [Inhabited ChipParam]

/-! ## The transactions -/

/-- `RESET` (R150): it acts once its byte has been received (41_register_access.md R181). -/
def issueReset (s : State) : List Byte × State :=
  transact [Opcode.reset] (noResponse [Opcode.reset]) (fun k s => if 1 ≤ k then s.chipReset else s) s

/-- The response of `READ` (R151). -/
def readResponse (addr : Byte) (n : Nat) (s : State) : List Byte × Env :=
  let h := s.env.drawN 2
  let d := s.readBlock addr.toNat n h.2
  (h.1 ++ d.1, d.2)

/-- `READ` (R151), which changes nothing (20_memory.md R79). -/
def issueRead (addr : Byte) (dummy : List Byte) (s : State) : List Byte × State :=
  transact (Opcode.read :: addr :: dummy) (readResponse addr dummy.length) (fun _ s => s) s

/-- `WRITE` (R152): a prefix writes the data bytes it contains. -/
def issueWrite (addr : Byte) (data : List Byte) (s : State) : List Byte × State :=
  transact (Opcode.write :: addr :: data) (noResponse (Opcode.write :: addr :: data))
    (fun k s => s.writeBlock addr.toNat (data.take (k - 2))) s

/-- `BIT MODIFY` (R153): it acts only when all four bytes have been received. -/
def issueBitmod (addr mask data : Byte) (s : State) : List Byte × State :=
  transact [Opcode.bitmod, addr, mask, data] (noResponse [Opcode.bitmod, addr, mask, data])
    (fun k s => if 4 ≤ k then s.bitModify addr.toNat mask data else s) s

/-- The byte that `READ STATUS` samples (R154). -/
def State.statusNow (s : State) : Byte :=
  statusByte (s.reg Addr.canintf) (s.reg (txCtrl .txb0).toNat) (s.reg (txCtrl .txb1).toNat) (s.reg (txCtrl .txb2).toNat)

/-- The response of `READ STATUS`: a draw, then the sampled byte, repeated. -/
def statusResponse (n : Nat) (s : State) : List Byte × Env :=
  (s.env.draw.1 :: List.replicate n s.statusNow, s.env.draw.2)

/-- `READ STATUS` (R154). -/
def issueReadStatus (dummy : List Byte) (s : State) : List Byte × State :=
  transact (Opcode.readStatus :: dummy) (statusResponse dummy.length) (fun _ s => s) s

/-- The byte that `RX STATUS` samples (R155), with a draw for the bits that have no value when no buffer is pending. -/
def State.rxStatusNow (s : State) (d : Byte) : Byte :=
  rxStatusByte (s.reg Addr.canintf) (s.reg (rxSidl .rxb0).toNat) (s.reg (rxCtrl .rxb0).toNat)
    (s.reg (rxSidl .rxb1).toNat) (s.reg (rxCtrl .rxb1).toNat) d

/-- The response of `RX STATUS`. -/
def rxStatusResponse (n : Nat) (s : State) : List Byte × Env :=
  (s.env.draw.1 :: List.replicate n (s.rxStatusNow s.env.draw.2.draw.1), s.env.draw.2.draw.2)

/-- `RX STATUS` (R155). -/
def issueRxStatus (dummy : List Byte) (s : State) : List Byte × State :=
  transact (Opcode.rxStatus :: dummy) (rxStatusResponse dummy.length) (fun _ s => s) s

/-- The data bytes of `READ RX BUFFER` from offset `i` of the 13 registers SIDH to D7: exact while the buffer is pending,
draws otherwise and past D7 (R156). -/
def State.rxBytes (s : State) (slot : RxSlot) (i n : Nat) (e : Env) : List Byte × Env :=
  match n with
  | 0 => ([], e)
  | k + 1 =>
    let c := if i < chipMap.bodySize && s.rxPending slot then (s.reg ((rxSidh slot).toNat + i), e) else e.draw
    (c.1 :: (State.rxBytes s slot (i + 1) k c.2).1, (State.rxBytes s slot (i + 1) k c.2).2)

/-- The response of `READ RX BUFFER` (R156). -/
def rxResponse (slot : RxSlot) (n : Nat) (s : State) : List Byte × Env :=
  let d := s.rxBytes slot 0 n s.env.draw.2
  (s.env.draw.1 :: d.1, d.2)

/-- `READ RX BUFFER` (R156, R157): at chip-select release RXnIF <- 0, once the opcode has been received. -/
def issueReadRx (op : Byte) (slot : RxSlot) (dummy : List Byte) (s : State) : List Byte × State :=
  transact (op :: dummy) (rxResponse slot dummy.length)
    (fun k s => if 1 ≤ k then s.poke Addr.canintf (rxIf slot) 0 else s) s

/-- `LOAD TX BUFFER` (R158): data from SIDH on; a prefix writes the data bytes it contains. -/
def issueLoadTx (op : Byte) (slot : TxSlot) (data : List Byte) (s : State) : List Byte × State :=
  transact (op :: data) (noResponse (op :: data))
    (fun k s => s.writeBlock (txSidh slot).toNat (data.take (k - 1))) s

/-- TXREQ <- 1 with the failure flags cleared (R161). -/
def State.requestToSend (s : State) (slot : TxSlot) : State :=
  s.writeByte (txCtrl slot).toNat (s.reg (txCtrl slot).toNat ||| txreqBit)

/-- `RTS` (R161-R164) for a list of slots. -/
def issueRts (op : Byte) (slots : List TxSlot) (s : State) : List Byte × State :=
  transact [op] (noResponse [op])
    (fun k s => if 1 ≤ k then slots.foldl State.requestToSend s else s) s

/-! ## The meanings -/

def execTxnReset (s : State) : Host.Outcome State Fault Refusal := .next (issueReset s).2

def execTxnRead (addr : Byte) (dummy : List Byte) (s : State) : Host.Outcome State Fault Refusal :=
  .next (if blockOk addr dummy.length then (issueRead addr dummy s).2 else s.refuse)

def execTxnWrite (addr : Byte) (data : List Byte) (s : State) : Host.Outcome State Fault Refusal :=
  .next (if blockOk addr data.length then (issueWrite addr data s).2 else s.refuse)

def execTxnBitmod (addr mask data : Byte) (s : State) : Host.Outcome State Fault Refusal :=
  .next (if blockOk addr 1 then (issueBitmod addr mask data s).2 else s.refuse)

def execTxnReadStatus (dummy : List Byte) (s : State) : Host.Outcome State Fault Refusal :=
  .next (issueReadStatus dummy s).2

def execTxnRxStatus (dummy : List Byte) (s : State) : Host.Outcome State Fault Refusal :=
  .next (issueRxStatus dummy s).2

def execTxnReadRx0 (dummy : List Byte) (s : State) : Host.Outcome State Fault Refusal :=
  .next (issueReadRx Opcode.readRx0 .rxb0 dummy s).2

def execTxnReadRx1 (dummy : List Byte) (s : State) : Host.Outcome State Fault Refusal :=
  .next (issueReadRx Opcode.readRx1 .rxb1 dummy s).2

def execTxnLoadTx0 (data : List Byte) (s : State) : Host.Outcome State Fault Refusal :=
  .next (if loadOk data then (issueLoadTx Opcode.loadTx0 .txb0 data s).2 else s.refuse)

def execTxnLoadTx1 (data : List Byte) (s : State) : Host.Outcome State Fault Refusal :=
  .next (if loadOk data then (issueLoadTx Opcode.loadTx1 .txb1 data s).2 else s.refuse)

def execTxnLoadTx2 (data : List Byte) (s : State) : Host.Outcome State Fault Refusal :=
  .next (if loadOk data then (issueLoadTx Opcode.loadTx2 .txb2 data s).2 else s.refuse)

def execTxnRtsTx0 (s : State) : Host.Outcome State Fault Refusal := .next (issueRts Opcode.rtsTx0 [.txb0] s).2

def execTxnRtsTx1 (s : State) : Host.Outcome State Fault Refusal := .next (issueRts Opcode.rtsTx1 [.txb1] s).2

def execTxnRtsTx2 (s : State) : Host.Outcome State Fault Refusal := .next (issueRts Opcode.rtsTx2 [.txb2] s).2

def execTxnRtsAll (s : State) : Host.Outcome State Fault Refusal :=
  .next (issueRts Opcode.rtsAll [.txb0, .txb1, .txb2] s).2

end Sys2Proof.Machine
end

