-- ==== Sys2Proof/Machine/RegisterAccess.lean ====
section
/-! DEFINITION. The Register Access Layer (41_register_access.md R180-R189): each operation is exactly one transaction.
An operation that another one calls is a function of the state; its meaning as a call of the Caller appends the value it
returns to `results`. -/

namespace Sys2Proof.Machine

variable [Inhabited ChipParam]

/-! ## The operations -/

/-- `readRegister` (R182). -/
def readRegister (addr : Byte) (s : State) : Byte × State :=
  let r := issueRead addr (zeros 1) s
  (r.1.getD 2 0, r.2)

/-- `readRegisters` (R183). -/
def readRegisters (addr : Byte) (n : Nat) (s : State) : List Byte × State :=
  let r := issueRead addr (zeros n) s
  (r.1.drop 2, r.2)

/-- `writeRegister` (R184). -/
def writeRegister (addr value : Byte) (s : State) : State := (issueWrite addr [value] s).2

/-- `writeRegisters` (R185). -/
def writeRegisters (addr : Byte) (values : List Byte) (s : State) : State := (issueWrite addr values s).2

/-- `modifyRegister` (R186). -/
def modifyRegister (addr mask data : Byte) (s : State) : State := (issueBitmod addr mask data s).2

/-- `reset` (R187): the command, and the settle delay. -/
def resetChip (s : State) : State := (issueReset s).2.sleep Config.resetSettle

/-- `readStatus` (R188). -/
def readStatus (s : State) : Byte × State :=
  let r := issueReadStatus (zeros 1) s
  (r.1.getD 1 0, r.2)

/-- The pseudo-operation `checkReceive` (30_encoding.md R137). -/
def checkReceive (s : State) : Bool × State :=
  let r := readStatus s
  (anySet r.1 (statusRxBit .rxb0 ||| statusRxBit .rxb1), r.2)

/-! ## The meanings -/

def execReadRegister (addr : Byte) (s : State) : Host.Outcome State Fault Refusal :=
  let r := readRegister addr s
  .next (if blockOk addr 1 then r.2.ret (.byte r.1) else s.refuse)

def execReadRegisters (addr : Byte) (n : Nat) (s : State) : Host.Outcome State Fault Refusal :=
  let r := readRegisters addr n s
  .next (if blockOk addr n then r.2.ret (.bytes r.1) else s.refuse)

def execWriteRegister (addr value : Byte) (s : State) : Host.Outcome State Fault Refusal :=
  .next (if blockOk addr 1 then (writeRegister addr value s).ret .unit else s.refuse)

def execWriteRegisters (addr : Byte) (values : List Byte) (s : State) : Host.Outcome State Fault Refusal :=
  .next (if blockOk addr values.length then (writeRegisters addr values s).ret .unit else s.refuse)

def execModifyRegister (addr mask data : Byte) (s : State) : Host.Outcome State Fault Refusal :=
  .next (if blockOk addr 1 then (modifyRegister addr mask data s).ret .unit else s.refuse)

def execReset (s : State) : Host.Outcome State Fault Refusal := .next ((resetChip s).ret .unit)

def execReadStatus (s : State) : Host.Outcome State Fault Refusal :=
  let r := readStatus s
  .next (r.2.ret (.byte r.1))

end Sys2Proof.Machine
end

