-- ==== Sys2Proof/Machine/Mode.lean ====
section
/-! DEFINITION. The Mode State Machine and the bit timing (42_mode_and_bit_timing.md R200-R209). Between two transactions
of an operation stands one scheduling point (20_memory.md R90). -/

namespace Sys2Proof.Machine

variable [Inhabited ChipParam]

/-- The mode poll (R201): up to `attempts` reads of CANSTAT, a sleep between two of them. -/
def pollMode (pattern : Byte) (attempts : Nat) (s : State) : Result × State :=
  match attempts with
  | 0 => (.modeTransitionFailure, s)
  | k + 1 =>
    let r := readRegister (addrByte Addr.canstat) s
    if r.1 &&& modeMask = pattern then (.ok, r.2)
    else if k = 0 then (.modeTransitionFailure, r.2)
    else pollMode pattern k (r.2.sleep Config.pollDelay)

/-- `setMode` (R201). -/
def setMode (mode : Mode) (s : State) : Result × State :=
  pollMode (modeBits mode) Config.pollAttempts (modifyRegister (addrByte Addr.canctrl) modeMask (modeBits mode) s).schedule

/-- The register writes of `setBitrate` (R208), from the scheduling point before the first. -/
def writeTiming (t : Byte × Byte × Byte) (s : State) : State :=
  let s := writeRegister (addrByte Addr.cnf1) t.1 s
  let s := writeRegister (addrByte Addr.cnf2) t.2.1 s.schedule
  writeRegister (addrByte Addr.cnf3) t.2.2 s.schedule

/-- `setBitrate` (R208) for the entry that the table gives. -/
def setTiming (entry : Option (Byte × Byte × Byte)) (s : State) : Result × State :=
  match entry with
  | none => (.configurationError, s)
  | some t =>
    let r := setMode .configuration s
    match r.1 with
    | .ok => (.ok, writeTiming t r.2.schedule)
    | e => (e, r.2)

def execSetMode (mode : Mode) (s : State) : Host.Outcome State Fault Refusal :=
  let r := setMode mode s
  .next (r.2.ret (.code r.1))

/-- `lookupBitTiming` (R207): pure, no transaction. -/
def execLookupBitTiming (clock : Clock) (rate : Rate) (s : State) : Host.Outcome State Fault Refusal :=
  .next (s.ret (.triple (bitTiming clock rate)))

def execSetBitrate (clock : Clock) (rate : Rate) (s : State) : Host.Outcome State Fault Refusal :=
  let r := setTiming (bitTiming clock rate) s
  .next (r.2.ret (.code r.1))

end Sys2Proof.Machine
end

