-- ==== Sys2Proof/Machine/Filters.lean ====
section
/-! DEFINITION. The Filter / Mask Manager and the default configuration (44_filter_mask.md R260-R266). -/

namespace Sys2Proof.Machine

variable [Inhabited ChipParam]

/-- A four-register block at `base` takes an identifier, in Configuration mode (R261, R262). -/
def setBlock (base : Byte) (ext : Bool) (value : Ident) (s : State) : Result × State :=
  let r := setMode .configuration s
  match r.1 with
  | .ok => (.ok, writeRegisters base (packIdBytes ext value) r.2.schedule)
  | e => (e, r.2)

/-- `setFilter` (R261). -/
def setFilter (filter : FilterId) (ext : Bool) (value : Ident) (s : State) : Result × State :=
  setBlock (filterBase filter) ext value s

/-- `setMask` (R262). -/
def setMask (mask : MaskId) (ext : Bool) (value : Ident) (s : State) : Result × State :=
  setBlock (maskBase mask) ext value s

/-- Clear a list of blocks, each in its format, up to the first failure (R263). -/
def clearBlocks (blocks : List (Byte × Bool)) (s : State) : Result × State :=
  match blocks with
  | [] => (.ok, s)
  | b :: rest =>
    let r := setBlock b.1 b.2 0 s.schedule
    match r.1 with
    | .ok => clearBlocks rest r.2
    | e => (e, r.2)

/-- The blocks that the default configuration clears, in order (R263): RXF1 and the masks as extended. -/
def defaultBlocks : List (Byte × Bool) :=
  [(filterBase .rxf0, false), (filterBase .rxf1, true), (filterBase .rxf2, false), (filterBase .rxf3, false),
   (filterBase .rxf4, false), (filterBase .rxf5, false), (maskBase .mask0, true), (maskBase .mask1, true)]

/-- The register writes that open the default configuration (R263). -/
def defaultWrites (s : State) : State :=
  let s := writeRegisters (txCtrl .txb0) (zeros 14) s
  let s := writeRegisters (txCtrl .txb1) (zeros 14) s.schedule
  let s := writeRegisters (txCtrl .txb2) (zeros 14) s.schedule
  let s := writeRegister (rxCtrl .rxb0) 0x00 s.schedule
  let s := writeRegister (rxCtrl .rxb1) 0x00 s.schedule
  let s := writeRegister (addrByte Addr.caninte) (merrfBit ||| errifBit ||| rxIf .rxb1 ||| rxIf .rxb0) s.schedule
  let s := modifyRegister (rxCtrl .rxb0) (rxmBits ||| buktBit) buktBit s.schedule
  modifyRegister (rxCtrl .rxb1) rxmBits 0x00 s.schedule

/-- The operation that led from `s` to `t` met no transport failure and no settle time, as R265 asks. -/
def undisturbed (s t : State) : Bool :=
  decide (s.settle = 0) && (t.transcript.drop s.transcript.length).all Entry.ok

/-- The failure flags that R265 does not leave in a TXBnCTRL that held `old` before the operation: all but an ABTF set since. -/
def staleFlags (old : Byte) : Byte := mloaBit ||| txerrBit ||| (old &&& abtfBit)

/-- After a successful default configuration from `s` without disturbance, TXBnCTRL reads 0x00 unless ABTF is set since (R265).
The writes keep the failure flags (20_memory.md R77, R87), and at each scheduling point the Controller agent may clear them or not
(R90, R91): of its runs, R265 admits those in which no stale flag is left at the end. Assumption 25. -/
def State.dropStale (s t : State) : State :=
  applyMoves ([TxSlot.txb0, .txb1, .txb2].map fun x => .txClearFlags x (staleFlags (s.reg (txCtrl x).toNat))) t

/-- `applyDefaultConfiguration` (R263, R265). -/
def applyDefaultConfiguration (s : State) : Result × State :=
  let r := clearBlocks defaultBlocks (defaultWrites s)
  if r.1 = .ok ∧ undisturbed s r.2 then (.ok, s.dropStale r.2) else r

def execSetFilter (filter : FilterId) (ext : Bool) (value : Ident) (s : State) : Host.Outcome State Fault Refusal :=
  let r := setFilter filter ext value s
  .next (r.2.ret (.code r.1))

def execSetMask (mask : MaskId) (ext : Bool) (value : Ident) (s : State) : Host.Outcome State Fault Refusal :=
  let r := setMask mask ext value s
  .next (r.2.ret (.code r.1))

def execApplyDefaultConfiguration (s : State) : Host.Outcome State Fault Refusal :=
  let r := applyDefaultConfiguration s
  .next (r.2.ret (.code r.1))

end Sys2Proof.Machine
end

