-- ==== Sys2Proof/Machine/Boot.lean ====
section
/-! DEFINITION. The start-up sequence (70_reset_and_hazards.md R373). -/

namespace Sys2Proof.Machine

variable [Inhabited ChipParam]

/-- The steps of `initialise` from `reset` on, for the entry that the table gives (R373). -/
def bring (t : Byte × Byte × Byte) (s : State) : Result × State :=
  let r := applyDefaultConfiguration (resetChip s).schedule
  match r.1 with
  | .ok =>
    let r := setTiming (some t) r.2.schedule
    match r.1 with
    | .ok => setMode .normal r.2.schedule
    | e => (e, r.2)
  | e => (e, r.2)

/-- `initialise` (R373) for the entry that the table gives. -/
def initialiseWith (attachOk : Bool) (entry : Option (Byte × Byte × Byte)) (s : State) : Result × State :=
  if attachOk then
    match entry with
    | none => (.configurationError, s)
    | some t => bring t s
  else (.initializationFailure, s)

def execInitialise (clock : Clock) (rate : Rate) (attachOk : Bool) (s : State) : Host.Outcome State Fault Refusal :=
  let r := initialiseWith attachOk (bitTiming clock rate) s
  .next (r.2.ret (.code r.1))

end Sys2Proof.Machine
end

