-- ==== Sys2Proof/Machine/Buffers.lean ====
section
/-! DEFINITION. The TX and RX Buffer Managers (45_tx_rx_buffers.md R280-R287). -/

namespace Sys2Proof.Machine

variable [Inhabited ChipParam]

/-- The three transactions of `send` (R281), for a frame of admitted length. -/
def sendFrame (slot : TxSlot) (f : Frame) (s : State) : Result × State :=
  let s := writeRegisters (txSidh slot) (frameBytes f) s
  let s := modifyRegister (txCtrl slot) txreqBit txreqBit s.schedule
  let c := readRegister (txCtrl slot) s.schedule
  (if anySet c.1 txFailBits then .transmitFailure else .ok, c.2)

/-- `send` (R281): the length check comes before any transaction. -/
def send (slot : TxSlot) (f : Frame) (s : State) : Result × State :=
  if f.dlc.toNat > 8 then (.malformedFrame, s) else sendFrame slot f s

/-- The scan of `sendAny` (R283): the first slot whose TXREQ reads 0. -/
def sendScan (slots : List TxSlot) (f : Frame) (s : State) : Result × State :=
  match slots with
  | [] => (.allBuffersBusy, s)
  | slot :: rest =>
    let c := readRegister (txCtrl slot) s
    if anySet c.1 txreqBit then
      match rest with
      | [] => (.allBuffersBusy, c.2)
      | _ :: _ => sendScan rest f c.2.schedule
    else sendFrame slot f c.2.schedule

/-- `sendAny` (R283): the length check, then the scan in the order TXB0, TXB1, TXB2. -/
def sendAny (f : Frame) (s : State) : Result × State :=
  if f.dlc.toNat > 8 then (.malformedFrame, s) else sendScan [.txb0, .txb1, .txb2] f s

/-- The response to the `READ` of RXBnCTRL in `read`: exact while the slot is pending. On a slot that is not, every byte that
`read` reads is a draw (R284, 95_test_vectors.md B12), this one too (assumption 28). -/
def rxCtrlResponse (slot : RxSlot) (s : State) : List Byte × Env :=
  if s.rxPending slot then readResponse (rxCtrl slot) 1 s else s.env.drawN 3

/-- The control read of `read` (R284). -/
def readRxCtrl (slot : RxSlot) (s : State) : Byte × State :=
  let r := transact (Opcode.read :: rxCtrl slot :: zeros 1) (rxCtrlResponse slot) (fun _ s => s) s
  (r.1.getD 2 0, r.2)

/-- The transactions of `read` after the header `h` (R284), from the scheduling point before the first. -/
def readBody (slot : RxSlot) (h : List Byte) (s : State) : Frame × State :=
  let dlc := dlcOf (h.getD 4 0)
  let c := readRxCtrl slot s
  let d := readRegisters (rxD0 slot) dlc.toNat c.2.schedule
  let s := modifyRegister (addrByte Addr.canintf) (rxIf slot) 0x00 d.2.schedule
  let t := s.env.drawN (8 - dlc.toNat)
  ({ canId := rxIdent (h.getD 0 0) (h.getD 1 0) (h.getD 2 0) (h.getD 3 0) c.1
     dlc := dlc
     data := payloadOf (d.1 ++ t.1) },
   s.setEnv t.2)

/-- `read` (R284): none is `MalformedFrame`, which leaves the flag set. -/
def readSlot (slot : RxSlot) (s : State) : Option Frame × State :=
  let h := readRegisters (rxSidh slot) 5 s
  if (dlcOf (h.1.getD 4 0)).toNat > 8 then (none, h.2)
  else
    let r := readBody slot h.1 h.2.schedule
    (some r.1, r.2)

/-- A frame, or the code that stands in its place. -/
def frameValue (r : Option Frame) : Value :=
  match r with
  | some f => .frame f
  | none => .code .malformedFrame

/-- `readAnyPending` (R285): the frame of RXB0, else that of RXB1, else `NoMessage`. -/
def readAny (s : State) : Value × State :=
  let st := readStatus s
  if anySet st.1 (statusRxBit .rxb0) then
    let r := readSlot .rxb0 st.2.schedule
    (frameValue r.1, r.2)
  else if anySet st.1 (statusRxBit .rxb1) then
    let r := readSlot .rxb1 st.2.schedule
    (frameValue r.1, r.2)
  else (.code .noMessage, st.2)

def execSend (slot : TxSlot) (frame : Frame) (s : State) : Host.Outcome State Fault Refusal :=
  let r := send slot frame s
  .next (r.2.ret (.code r.1))

def execSendAny (frame : Frame) (s : State) : Host.Outcome State Fault Refusal :=
  let r := sendAny frame s
  .next (r.2.ret (.code r.1))

def execRead (slot : RxSlot) (s : State) : Host.Outcome State Fault Refusal :=
  let r := readSlot slot s
  .next (r.2.ret (frameValue r.1))

def execReadAnyPending (s : State) : Host.Outcome State Fault Refusal :=
  let r := readAny s
  .next (r.2.ret r.1)

end Sys2Proof.Machine
end

