-- ==== Sys2Proof/Machine/Codec.lean ====
section
/-! DEFINITION. The Frame Codec as calls of the Caller (43_frame_codec.md R233-R237): pure functions, no transaction. -/

namespace Sys2Proof.Machine

variable [Inhabited ChipParam]

/-- `packId` (R233, R234). -/
def execPackId (ext : Bool) (value : Ident) (s : State) : Host.Outcome State Fault Refusal :=
  .next (s.ret (.bytes (packIdBytes ext value)))

/-- `decodeId` (R236). -/
def execDecodeId (sidh sidl eid8 eid0 : Byte) (s : State) : Host.Outcome State Fault Refusal :=
  .next (s.ret (.ident (unpackId sidh sidl eid8 eid0)))

/-- `encodeFrame` (R235). For `dlc` above 8, outside its precondition, the spec states no value for the payload bytes that
the frame does not have: each is a draw (assumption 10). -/
def execEncodeFrame (frame : Frame) (s : State) : Host.Outcome State Fault Refusal :=
  let d := s.env.drawN (frame.dlc.toNat - 8)
  .next ((s.setEnv d.2).ret (.bytes (frameBytes frame ++ d.1)))

/-- `decodeFrame` (R237). -/
def execDecodeFrame (sidh sidl eid8 eid0 dlc ctrl : Byte) (s : State) : Host.Outcome State Fault Refusal :=
  match unpackFrame sidh sidl eid8 eid0 dlc ctrl with
  | some f => .next (s.ret (.idDlc f.1 f.2))
  | none => .next (s.ret (.code .malformedFrame))

end Sys2Proof.Machine
end

