-- ==== Sys2Proof/Machine/Errors.lean ====
section
/-! DEFINITION. Error flag handling (46_error_flags.md R310-R315): each operation is exactly one transaction. -/

namespace Sys2Proof.Machine

variable [Inhabited ChipParam]

/-- `errorFlags` (R310). -/
def execErrorFlags (s : State) : Host.Outcome State Fault Refusal :=
  let r := readRegister (addrByte Addr.eflg) s
  .next (r.2.ret (.byte r.1))

/-- `hasError` (R311). -/
def execHasError (s : State) : Host.Outcome State Fault Refusal :=
  let r := readRegister (addrByte Addr.eflg) s
  .next (r.2.ret (.bool (anySet r.1 errorBits)))

/-- `clearReceiveOverflow` (R312). -/
def execClearReceiveOverflow (s : State) : Host.Outcome State Fault Refusal :=
  .next ((modifyRegister (addrByte Addr.eflg) rxOvrBits 0x00 s).ret .unit)

/-- `clearMessageError` (R313). -/
def execClearMessageError (s : State) : Host.Outcome State Fault Refusal :=
  .next ((modifyRegister (addrByte Addr.canintf) merrfBit 0x00 s).ret .unit)

/-- `clearErrorInterrupt` (R314). -/
def execClearErrorInterrupt (s : State) : Host.Outcome State Fault Refusal :=
  .next ((modifyRegister (addrByte Addr.canintf) errifBit 0x00 s).ret .unit)

end Sys2Proof.Machine
end

