-- ==== Sys2Proof/Machine/Interrupt.lean ====
section
/-! DEFINITION. The Interrupt Bridge and the dispatcher's `CanMessage` arm (60_exceptions.md R339-R347). -/

namespace Sys2Proof.Machine

variable [Inhabited ChipParam]

/-- `onInterrupt` (R339): one `CanMessage` event into the queue, dropped without a record when it is full. -/
def execOnInterrupt (s : State) : Host.Outcome State Fault Refusal := .next (s.takeInterrupt.ret .unit)

/-- What the dispatcher does with what `readAnyPending` returned (R343). -/
def publishValue (v : Value) (s : State) : State :=
  match v with
  | .frame f => if s.cloudUp then s.note (.publish (json f)) else s
  | .unit => s
  | .byte _ => s
  | .bytes _ => s
  | .bool _ => s
  | .ident _ => s
  | .triple _ => s
  | .code _ => s
  | .idDlc _ _ => s

/-- `onCanMessage` (R343): one `readAnyPending`, and the frame published when the cloud link is up. -/
def execOnCanMessage (s : State) : Host.Outcome State Fault Refusal :=
  let r := readAny s
  .next ((publishValue r.1 r.2).ret .unit)

end Sys2Proof.Machine
end

