-- ==== Sys2Proof/Machine/Dispatch.lean ====
section
/-! DEFINITION. The dispatch of an instruction to its meaning. -/

namespace Sys2Proof.Machine

def exec (i : Instr) (s : State) : Host.Outcome State Fault Refusal :=
  match i with
  | .txnReset => Sys2Proof.Machine.execTxnReset s
  | .txnRead addr dummy => Sys2Proof.Machine.execTxnRead addr dummy s
  | .txnWrite addr data => Sys2Proof.Machine.execTxnWrite addr data s
  | .txnBitmod addr mask data => Sys2Proof.Machine.execTxnBitmod addr mask data s
  | .txnReadStatus dummy => Sys2Proof.Machine.execTxnReadStatus dummy s
  | .txnRxStatus dummy => Sys2Proof.Machine.execTxnRxStatus dummy s
  | .txnReadRx0 dummy => Sys2Proof.Machine.execTxnReadRx0 dummy s
  | .txnReadRx1 dummy => Sys2Proof.Machine.execTxnReadRx1 dummy s
  | .txnLoadTx0 data => Sys2Proof.Machine.execTxnLoadTx0 data s
  | .txnLoadTx1 data => Sys2Proof.Machine.execTxnLoadTx1 data s
  | .txnLoadTx2 data => Sys2Proof.Machine.execTxnLoadTx2 data s
  | .txnRtsTx0 => Sys2Proof.Machine.execTxnRtsTx0 s
  | .txnRtsTx1 => Sys2Proof.Machine.execTxnRtsTx1 s
  | .txnRtsTx2 => Sys2Proof.Machine.execTxnRtsTx2 s
  | .txnRtsAll => Sys2Proof.Machine.execTxnRtsAll s
  | .readRegister addr => Sys2Proof.Machine.execReadRegister addr s
  | .readRegisters addr n => Sys2Proof.Machine.execReadRegisters addr n s
  | .writeRegister addr value => Sys2Proof.Machine.execWriteRegister addr value s
  | .writeRegisters addr values => Sys2Proof.Machine.execWriteRegisters addr values s
  | .modifyRegister addr mask data => Sys2Proof.Machine.execModifyRegister addr mask data s
  | .reset => Sys2Proof.Machine.execReset s
  | .readStatus => Sys2Proof.Machine.execReadStatus s
  | .setMode mode => Sys2Proof.Machine.execSetMode mode s
  | .lookupBitTiming clock rate => Sys2Proof.Machine.execLookupBitTiming clock rate s
  | .setBitrate clock rate => Sys2Proof.Machine.execSetBitrate clock rate s
  | .packId ext value => Sys2Proof.Machine.execPackId ext value s
  | .decodeId sidh sidl eid8 eid0 => Sys2Proof.Machine.execDecodeId sidh sidl eid8 eid0 s
  | .encodeFrame frame => Sys2Proof.Machine.execEncodeFrame frame s
  | .decodeFrame sidh sidl eid8 eid0 dlc ctrl => Sys2Proof.Machine.execDecodeFrame sidh sidl eid8 eid0 dlc ctrl s
  | .setFilter filter ext value => Sys2Proof.Machine.execSetFilter filter ext value s
  | .setMask mask ext value => Sys2Proof.Machine.execSetMask mask ext value s
  | .applyDefaultConfiguration => Sys2Proof.Machine.execApplyDefaultConfiguration s
  | .send slot frame => Sys2Proof.Machine.execSend slot frame s
  | .sendAny frame => Sys2Proof.Machine.execSendAny frame s
  | .read slot => Sys2Proof.Machine.execRead slot s
  | .readAnyPending => Sys2Proof.Machine.execReadAnyPending s
  | .errorFlags => Sys2Proof.Machine.execErrorFlags s
  | .hasError => Sys2Proof.Machine.execHasError s
  | .clearReceiveOverflow => Sys2Proof.Machine.execClearReceiveOverflow s
  | .clearMessageError => Sys2Proof.Machine.execClearMessageError s
  | .clearErrorInterrupt => Sys2Proof.Machine.execClearErrorInterrupt s
  | .onInterrupt => Sys2Proof.Machine.execOnInterrupt s
  | .onCanMessage => Sys2Proof.Machine.execOnCanMessage s
  | .initialise clock rate attachOk => Sys2Proof.Machine.execInitialise clock rate attachOk s

end Sys2Proof.Machine
end

