-- ==== Sys2Proof/Machine/Caller.lean ====
section
/-! DEFINITION. The Caller (10_state.md R20, R24): how it makes the next call of its program, and how, with no call left,
it waits on the event queue as the Application Dispatcher (60_exceptions.md R340, R342). Each definition takes the chip map, where it reads it, and
`run`, the dispatch of an instruction to its meaning at that map: `exec` at the default map (Machine/Step.lean), `execAt` at any
(Machine/AnyMap.lean). -/

namespace Sys2Proof.Machine

variable [Inhabited ChipParam] (run : Instr → State → Host.Outcome State Fault Refusal)

/-- An instruction may be called from a context: the Caller calls them all, the interrupt context runs the Interrupt
Bridge only (60_exceptions.md R348), another task calls none (R349). -/
def Context.permits (ctx : Context) (i : Instr) : Bool :=
  match ctx with
  | .caller => true
  | .interrupt => decide (i = .onInterrupt)
  | .otherTask => false

/-- An instruction called from a context; a call that is not permitted sets the refusal mark. -/
def runInstr (ctx : Context) (i : Instr) (s : State) : Host.Outcome State Fault Refusal :=
  if ctx.permits i then run i s else .next s.refuse

/-- A transaction written out as bytes; bytes that are no serial instruction set the refusal mark (30_encoding.md R133). -/
def runBytes (ctx : Context) (out : List Byte) (s : State) : Host.Outcome State Fault Refusal :=
  match decode out with
  | .ok i => runInstr run ctx i s
  | .error _ => .next s.refuse

/-- One call of the program. -/
def runCall (c : Call) (s : State) : Host.Outcome State Fault Refusal :=
  match c with
  | .txn ctx out => runBytes run ctx out s
  | .op ctx i => runInstr run ctx i s
  | .sleep ms => .next (s.sleep ms)

/-- What the Application Dispatcher does with an event that it has taken from the queue (60_exceptions.md R342, R343). Between
the receive and the first transaction of `onCanMessage` stands a scheduling point (70_reset_and_hazards.md R390). -/
def dispatchEvent (e : Event) (s : State) : Host.Outcome State Fault Refusal :=
  match e.tag with
  | .canMessage => run .onCanMessage s.schedule
  | .cloudConnected => .next { s with cloudUp := true }
  | .cloudDisconnected => .next { s with cloudUp := false }
  | .start => .next s
  | .stop => .next s
  | .wifiConnected => .next s
  | .wifiDisconnected => .next s
  | .cloudMessage => .next s

/-- The Application Dispatcher: it takes the head of the queue, and waits while the queue is empty (60_exceptions.md
R340). -/
def dispatchHead (s : State) : Host.Outcome State Fault Refusal :=
  match s.queue with
  | [] => .next s
  | e :: rest => dispatchEvent run e { s with queue := rest }

/-- One turn of the Caller: a scheduling point for the other agents, then the next call, or the dispatcher's work. -/
def callerTurn (s : State) : Host.Outcome State Fault Refusal :=
  match s.calls with
  | [] => dispatchHead run s.schedule
  | c :: rest => runCall run c (State.schedule { s with calls := rest })

/-- The call that issues the bytes of an opcode-table word. -/
def tableCall (nbits w : Nat) : Call := .txn .caller (tableBytes nbits w)

end Sys2Proof.Machine
end

