-- ==== Sys2Proof/Machine/Step.lean ====
section
/-! DEFINITION. One step of the machine, and where the next instruction is placed. There is no instruction fetch and no
program counter (10_state.md R24, 20_memory.md R111): the program is the list of calls that the Caller has still to
make. -/

namespace Sys2Proof.Machine

/-- One step: a turn of the Caller. -/
def step (s : State) : Host.Outcome State Fault Refusal := callerTurn exec s

/-- The state with one more call, the transaction of an opcode-table word, before those of the program. -/
def State.withFetchWord (s : State) (nbits w : Nat) : State := { s with calls := tableCall nbits w :: s.calls }

end Sys2Proof.Machine
end

