-- ==== Sys2Proof/Safety.lean ====
section
/-! DEFINITION. The terms that claims about the machine use: the invariant, what "every other register is unchanged"
means, when a run meets no transport failure and no step of another agent, what a transaction leaves alone, and the
literal tables of the spec that claims are stated over. -/

namespace Sys2Proof.Machine

/-! ## The invariant -/

/-- The invariant of the machine. The register file has its canonical form, in which unimplemented bits are 0 and BUKT1
copies BUKT (10_state.md R43, R52); `INT` is asserted exactly while an enabled flag is set (R57); the queue holds at most
ten events (R56); every transaction received as many bytes as it sent (00_scope.md R12); and no slot is listed twice among
the requests to abort. -/
abbrev State.Inv (s : State) : Prop :=
  Memory.wf s.mem = true ∧ s.int = Memory.level s.mem ∧ s.queue.length ≤ 10 ∧
    (∀ e ∈ s.transcript, e.inb.length = e.out.length) ∧ s.aborting.Nodup

/-! ## When nothing disturbs a run -/

/-- The next transaction succeeds and does not fall into the settle time after `RESET`. -/
abbrev State.clear (s : State) : Prop := s.settle = 0 ∧ s.env.links.head? = some .ok

/-- The next `n` transactions succeed, none falls into the settle time, and at the next `n` scheduling points inside an
operation no other agent takes a step. -/
abbrev State.quiet (s : State) (n : Nat) : Prop :=
  s.settle = 0 ∧ s.env.links.take n = List.replicate n .ok ∧ s.env.turns.take n = List.replicate n []

/-- The next `n` transactions succeed, none falls into the settle time, and at each of the next `n` scheduling points the
chip takes the mode that is requested and nothing else happens. -/
abbrev State.prompt (s : State) (n : Nat) : Prop :=
  s.settle = 0 ∧ s.env.links.take n = List.replicate n .ok ∧ s.env.turns.take n = List.replicate n [.enterMode]

/-- The registers that the layer itself bit-modifies are bit-modifiable, as they are under the default of the parameter
(20_memory.md R82). -/
abbrev State.modifies (s : State) : Prop :=
  ∀ a ∈ [0x0F, 0x2C, 0x2D, 0x30, 0x40, 0x50, 0x60, 0x70], a ∈ s.params.bitModifiable

/-- The chip is in Configuration mode (10_state.md R25). -/
abbrev State.inConfiguration (s : State) : Prop := s.opmod = 0x80

/-! ## What stays as it was -/

/-- Every register reads as before, but for those listed (by their one address, `canon`). This is all of memory. -/
abbrev SameRegs (except : List Nat) (s t : State) : Prop :=
  ∀ a, a < 128 → canon a ∉ except → t.reg a = s.reg a

/-- The event queue, what the Interrupt Bridge has put off, the cloud-link flag, the refusal mark and the rest of the program are
as before. -/
abbrev SameHost (s t : State) : Prop :=
  t.queue = s.queue ∧ t.waits = s.waits ∧ t.cloudUp = s.cloudUp ∧ t.refused = s.refused ∧ t.calls = s.calls

/-- The host is as before, nothing has been logged, and no delay has been made or settle time begun. -/
abbrev SameRun (s t : State) : Prop :=
  SameHost s t ∧ t.log = s.log ∧ t.sleeps = s.sleeps ∧ t.settle = s.settle

/-- The event of the Interrupt Bridge (60_exceptions.md R339). -/
def canEvent : Event := { tag := .canMessage, payload := none }

/-- A non-blocking send into a queue of capacity 10 (60_exceptions.md R340). -/
def pushed (q : List Event) (e : Event) : List Event := if q.length < 10 then q ++ [e] else q

/-- After `n ≥ 1` scheduling points at which no other agent steps and the line stays as it is, the Interrupt Bridge has sent an
event for each change of `INT` that was not served or put off beyond them, or under `LowLevel` one at each point while `INT` is
asserted, as far as the queue takes them (60_exceptions.md R344, R345; assumption 15). -/
abbrev Served (n : Nat) (s t : State) : Prop :=
  match s.params.intTrigger with
  | .fallingEdge =>
    t.queue = s.queue ++
        List.replicate (min (s.edges + (s.waits.filter (· < n)).length) (10 - s.queue.length)) canEvent ∧
      t.edges = 0 ∧ t.waits = (s.waits.filter (n ≤ ·)).map (· - n)
  | .lowLevel =>
    t.queue = s.queue ++ List.replicate (min (if s.int then n else 0) (10 - s.queue.length)) canEvent ∧
      t.edges = s.edges ∧ t.waits = s.waits

/-- The host after `n` such scheduling points: the bridge has run, and the rest is as before. -/
abbrev HostAfter (n : Nat) (s t : State) : Prop :=
  Served n s t ∧ t.cloudUp = s.cloudUp ∧ t.refused = s.refused ∧ t.calls = s.calls

/-- The same, and nothing has been logged, and no delay has been made or settle time begun. -/
abbrev RunAfter (n : Nat) (s t : State) : Prop :=
  HostAfter n s t ∧ t.log = s.log ∧ t.sleeps = s.sleeps ∧ t.settle = s.settle

/-- The host of a run in which the line may change: the bridge has sent any number of events, and the rest is as before. -/
abbrev HostServed (s t : State) : Prop :=
  (∃ k, t.queue = s.queue ++ List.replicate k canEvent) ∧ t.cloudUp = s.cloudUp ∧ t.refused = s.refused ∧ t.calls = s.calls

/-- The interrupt line is as before, and no edge of it has been counted. -/
abbrev SameLine (s t : State) : Prop := t.int = s.int ∧ t.edges = s.edges

/-- The interrupt line follows CANINTF and CANINTE (10_state.md R57), and one edge more is counted exactly when it has gone
from deasserted to asserted (60_exceptions.md R344). -/
abbrev LineFollows (s t : State) : Prop :=
  t.int = decide (t.reg 0x2C &&& t.reg 0x2B ≠ 0) ∧ t.edges = if t.int && !s.int then s.edges + 1 else s.edges

/-- One transaction has been recorded as successful, with as many bytes received as sent. -/
abbrev Sent (s t : State) (out : List Byte) : Prop :=
  ∃ inb : List Byte, inb.length = out.length ∧ t.transcript = s.transcript ++ [{ out := out, inb := inb, ok := true }]

/-- These transactions have been recorded as successful, in this order. -/
abbrev Issued (s t : State) (outs : List (List Byte)) : Prop :=
  ∃ es : List Entry, t.transcript = s.transcript ++ es ∧ es.map Entry.out = outs ∧ ∀ e ∈ es, e.ok = true

/-! ## Tables of the spec, and families of instructions -/

/-- Every register that has a reset value holds it (10_state.md R60), the U bits of TXRTSCTRL are 0 and its bits 2:0 too. -/
abbrev State.atReset (s : State) : Prop :=
  (∀ k, k < 8 → s.reg (16 * k + 14) = 0x80 ∧ s.reg (16 * k + 15) = 0x87) ∧
    (∀ a ∈ [0x0C, 0x1C, 0x1D, 0x28, 0x29, 0x2A, 0x2B, 0x2C, 0x2D, 0x30, 0x40, 0x50, 0x60, 0x70], s.reg a = 0x00) ∧
    s.reg 0x0D &&& 0xC7 = 0x00

/-- The addresses of CANSTAT and of CANCTRL (20_memory.md R76). -/
def canstatMirrors : List Nat := [0x0E, 0x1E, 0x2E, 0x3E, 0x4E, 0x5E, 0x6E, 0x7E]
def canctrlMirrors : List Nat := [0x0F, 0x1F, 0x2F, 0x3F, 0x4F, 0x5F, 0x6F, 0x7F]

/-- The registers that a write changes only in Configuration mode, each with its W bits (10_state.md R32-R36, R49, R50). -/
def configurationRegisters : List (Nat × Byte) :=
  [(0x0D, 0x07), (0x28, 0xC7), (0x29, 0xFF), (0x2A, 0xFF),
   (0x00, 0xFF), (0x01, 0xEB), (0x02, 0xFF), (0x03, 0xFF), (0x04, 0xFF), (0x05, 0xEB), (0x06, 0xFF), (0x07, 0xFF),
   (0x08, 0xFF), (0x09, 0xEB), (0x0A, 0xFF), (0x0B, 0xFF), (0x10, 0xFF), (0x11, 0xEB), (0x12, 0xFF), (0x13, 0xFF)] ++
  [(0x14, 0xFF), (0x15, 0xEB), (0x16, 0xFF), (0x17, 0xFF), (0x18, 0xFF), (0x19, 0xEB), (0x1A, 0xFF), (0x1B, 0xFF),
   (0x20, 0xFF), (0x21, 0xE3), (0x22, 0xFF), (0x23, 0xFF), (0x24, 0xFF), (0x25, 0xE3), (0x26, 0xFF), (0x27, 0xFF)]

/-- The control registers that a write changes in every mode and without a side effect on other bits, each with its W bits
(10_state.md R26-R29, R31, R35, R44; 20_memory.md R85-R89). -/
def plainRegisters : List (Nat × Byte) :=
  canstatMirrors.map (·, 0x00) ++ canctrlMirrors.map (·, 0xFF) ++
    [(0x0C, 0x3F), (0x1C, 0x00), (0x1D, 0x00), (0x2B, 0xFF), (0x2C, 0xFF), (0x70, 0x60)]

/-- The W bits of the register at offset `i` of TXBnSIDH to TXBnD7 (10_state.md R38-R42). -/
def txBodyBits (i : Nat) : Byte := if i = 1 then 0xEB else if i = 4 then 0x4F else 0xFF

/-- The W bits of a register other than TXBnCTRL, RXB0CTRL and EFLG; those that no table lists, of the receive buffers, have
none. -/
def wBits (a : Nat) : Byte :=
  if 0x30 ≤ a ∧ a < 0x60 ∧ a % 16 < 14 then txBodyBits (a % 16 - 1)
  else ((configurationRegisters ++ plainRegisters).lookup a).getD 0x00

/-- What a register that holds `old` holds once the byte `v` is written to it (20_memory.md R77, R87, R88; 10_state.md R30,
R43): `a` is its one address. -/
def written (a : Nat) (old v : Byte) : Byte :=
  if a = 0x30 ∨ a = 0x40 ∨ a = 0x50 then (if v.getLsbD 3 then v &&& 0x0B else (old &&& 0x70) ||| (v &&& 0x03))
  else if a = 0x60 then (old &&& 0x09) ||| (v &&& 0x64) ||| ((v &&& 0x04) >>> 1)
  else if a = 0x2D then old &&& (v ||| 0x3F)
  else (old &&& ~~~wBits a) ||| (v &&& wBits a)

/-- EWARN, bit 0 of EFLG, is TXWAR or RXWAR, bits 2 and 1 (10_state.md R30). -/
def withEwarn (v : Byte) : Byte := (v &&& 0xFE) ||| (if v &&& 0x06 = 0 then 0x00 else 0x01)

/-- The mask that a `BITMOD` acts under (20_memory.md R84). -/
def State.modMask (s : State) (a : Nat) (m : Byte) : Byte := if a ∈ s.params.bitModifiable then m else 0xFF

/-- The addresses of the 13 registers SIDH to D7 of a transmit buffer. -/
def txBody (slot : TxSlot) : List Nat := (List.range 13).map ((txSidh slot).toNat + ·)

/-- No draw decides what byte `i` of a block from `a` leaves in its register, and no later byte of the block meets the same
register: a Configuration-only register is written in Configuration mode (20_memory.md R78), and a register of a transmit
buffer while the buffer is not pending (40_serial_transactions.md R167), which the block's own byte for TXBnCTRL decides where
it has one. -/
abbrev Lands (s : State) (a : Nat) (data : List Byte) (i : Nat) : Prop :=
  (a + i ∈ configurationRegisters.map Prod.fst → s.inConfiguration) ∧
    (∀ slot ∈ [TxSlot.txb0, .txb1, .txb2], a + i ∈ txBody slot →
      if a ≤ (txCtrl slot).toNat then (data.getD ((txCtrl slot).toNat - a) 0).getLsbD 3 = false
      else s.txPending slot = false) ∧
    ∀ j, j < data.length → i < j → canon (a + j) ≠ canon (a + i)

/-- The four registers of a filter's or mask's block. -/
def blockAt (base : Byte) : List Nat := (List.range 4).map (base.toNat + ·)

/-- The place of a transmit slot in the scan of `sendAny` (45_tx_rx_buffers.md R283). -/
def slotIndex (slot : TxSlot) : Nat :=
  match slot with
  | .txb0 => 0
  | .txb1 => 1
  | .txb2 => 2

/-- The `LOAD TX BUFFER` instruction of a slot, and its opcode (30_encoding.md R124). -/
def loadTxInstr (slot : TxSlot) (data : List Byte) : Instr :=
  match slot with
  | .txb0 => .txnLoadTx0 data
  | .txb1 => .txnLoadTx1 data
  | .txb2 => .txnLoadTx2 data

def loadTxOpcode (slot : TxSlot) : Byte :=
  match slot with
  | .txb0 => 0x40
  | .txb1 => 0x42
  | .txb2 => 0x44

/-- The `RTS` instruction of a slot, and its opcode. -/
def rtsInstr (slot : TxSlot) : Instr :=
  match slot with
  | .txb0 => .txnRtsTx0
  | .txb1 => .txnRtsTx1
  | .txb2 => .txnRtsTx2

def rtsOpcode (slot : TxSlot) : Byte :=
  match slot with
  | .txb0 => 0x81
  | .txb1 => 0x82
  | .txb2 => 0x84

/-- The `READ RX BUFFER` instruction of a slot, and its opcode. -/
def readRxInstr (slot : RxSlot) (dummy : List Byte) : Instr :=
  match slot with
  | .rxb0 => .txnReadRx0 dummy
  | .rxb1 => .txnReadRx1 dummy

def readRxOpcode (slot : RxSlot) : Byte :=
  match slot with
  | .rxb0 => 0x90
  | .rxb1 => 0x94

/-- The length field of the frame in a receive buffer (43_frame_codec.md R237). -/
def State.rxDlc (s : State) (slot : RxSlot) : Byte := s.reg ((rxSidh slot).toNat + 4) &&& 0x0F

/-- `f` is the frame that a receive buffer holds: identifier, length and payload (45_tx_rx_buffers.md R284). -/
abbrev State.Holds (s : State) (slot : RxSlot) (f : Frame) : Prop :=
  f.canId = rxIdent (s.reg (rxSidh slot).toNat) (s.reg ((rxSidh slot).toNat + 1)) (s.reg ((rxSidh slot).toNat + 2))
      (s.reg ((rxSidh slot).toNat + 3)) (s.reg (rxCtrl slot).toNat) ∧
    f.dlc = s.rxDlc slot ∧ ∀ i, i < f.dlc.toNat → f.data.toList[i]? = some (s.reg ((rxD0 slot).toNat + i))

/-- The transactions of a `read` of a frame of length `dlc` (45_tx_rx_buffers.md R284). -/
def readOuts (dlc : Byte) (slot : RxSlot) : List (List Byte) :=
  [[0x03, rxSidh slot, 0, 0, 0, 0, 0], [0x03, rxCtrl slot, 0],
   0x03 :: rxD0 slot :: zeros dlc.toNat, [0x05, 0x2C, rxIf slot, 0x00]]

/-- A receive buffer has been read: its flag is clear, every other register is as before, and the line follows. -/
abbrev Consumed (s t : State) (slot : RxSlot) : Prop :=
  t.reg 0x2C = s.reg 0x2C &&& ~~~rxIf slot ∧ SameRegs [0x2C, 0x0E] s t ∧ t.opmod = s.opmod ∧
    t.int = decide (t.reg 0x2C &&& t.reg 0x2B ≠ 0) ∧ t.aborting = s.aborting ∧ t.sleeps = s.sleeps ∧ t.settle = s.settle

/-! ## What a step of another agent leaves -/

/-- The number of a filter (10_state.md R44). -/
def filterNumber (x : FilterId) : Byte :=
  match x with
  | .rxf0 => 0
  | .rxf1 => 1
  | .rxf2 => 2
  | .rxf3 => 3
  | .rxf4 => 4
  | .rxf5 => 5

/-- The five header registers of a frame as the buffer holds them: bit 2 of SIDL and bit 7 of DLC do not exist (10_state.md
R45, R47). -/
def headerOf (f : BusFrame) : List Byte := [f.sidh, f.sidl &&& 0xFB, f.eid8, f.eid0, f.dlc &&& 0x7F]

/-- What the control register of a receive slot holds once a frame is received: RXRTR is the frame's remote flag, RTR of an
extended and SRR of a standard frame, and FILHIT the number of the filter; the other bits are as before (10_state.md R43, R44). -/
def receivedCtrl (slot : RxSlot) (f : BusFrame) (x : FilterId) (old : Byte) : Byte :=
  (old &&& if slot = .rxb0 then 0x66 else 0x60) |||
    (if (if f.sidl.getLsbD 3 then f.dlc.getLsbD 6 else f.sidl.getLsbD 4) then 0x08 else 0x00) ||| filterNumber x

/-- The registers that a reception writes. -/
def receivedRegs (slot : RxSlot) : List Nat :=
  0x2C :: 0x0E :: (rxCtrl slot).toNat :: (List.range 13).map ((rxSidh slot).toNat + ·)

/-- A transmission step is possible for the slot (20_memory.md R96). -/
abbrev State.mayTransmit (s : State) (slot : TxSlot) : Prop := s.opmod ∈ [0x00, 0x40] ∧ s.txPending slot = true

/-- EFLG bits 5:0 have taken the value's, EWARN being TXWAR or RXWAR, and the flags of CANINTF are those that were set, MERRF with a message error, and
ERRIF where the step sets it and EFLG has changed (20_memory.md R97). -/
abbrev ErrorsTaken (eflg : Byte) (errif merrf : Bool) (s t : State) : Prop :=
  t.reg 0x2D = (s.reg 0x2D &&& 0xC0) ||| withEwarn (eflg &&& 0x3F) ∧
    t.reg 0x2C = s.reg 0x2C ||| (if errif = true ∧ t.reg 0x2D ≠ s.reg 0x2D then 0x20 else 0x00) |||
      (if merrf then 0x80 else 0x00) ∧
    t.opmod = s.opmod

/-- What one step of another agent leaves of the registers and of the requests to abort (20_memory.md R93-R98, R91): with the
condition of the rule, its effect and no other; without it, nothing. A frame of any filter may be received into any buffer, as
in the base model of R114 (assumption 7). -/
def Leaves (m : Move) (s t : State) : Prop :=
  match m with
  | .enterMode =>
    if s.reqop ∈ [0x00, 0x20, 0x40, 0x60, 0x80] then
      t.reg 0x0E = (s.reg 0x0E &&& 0x1F) ||| s.reqop ∧ SameRegs [0x0E] s t ∧ t.aborting = s.aborting
    else t = s
  | .receive slot f x fill =>
    if s.opmod ∈ [0x00, 0x40, 0x60] ∧ s.rxPending slot = false ∧ (slot = .rxb0 → x = .rxf0 ∨ x = .rxf1) then
      (∀ i (h : i < 5), t.reg ((rxSidh slot).toNat + i) = (headerOf f)[i]) ∧
      (∀ i (h : i < 8), t.reg ((rxD0 slot).toNat + i) =
        if i < (f.dlc &&& 0x0F).toNat ∨ fill = true then f.data[i] else s.reg ((rxD0 slot).toNat + i)) ∧
      t.reg (rxCtrl slot).toNat = receivedCtrl slot f x (s.reg (rxCtrl slot).toNat) ∧
      t.reg 0x2C = s.reg 0x2C ||| (if slot = .rxb0 then 0x01 else 0x02) ∧
      SameRegs (receivedRegs slot) s t ∧ t.opmod = s.opmod ∧ t.aborting = s.aborting
    else t = s
  | .overflow slot errif =>
    let hit := if slot = .rxb0 ∧ s.reg 0x60 &&& 0x04 = 0 then RxSlot.rxb0 else .rxb1
    if s.opmod ∈ [0x00, 0x40, 0x60] ∧ s.rxPending slot = true ∧ s.rxPending hit = true then
      t.reg 0x2D = s.reg 0x2D ||| (if hit = .rxb0 then 0x40 else 0x80) ∧
      t.reg 0x2C = s.reg 0x2C ||| (if errif then 0x20 else 0x00) ∧
      SameRegs [0x2D, 0x2C, 0x0E] s t ∧ t.opmod = s.opmod ∧ t.aborting = s.aborting
    else t = s
  | .txDone slot =>
    if s.mayTransmit slot ∧ s.reg 0x2D &&& 0x20 = 0 then
      t.reg (txCtrl slot).toNat = s.reg (txCtrl slot).toNat &&& 0xF7 ∧
      t.reg 0x2C = s.reg 0x2C ||| (0x04 <<< slotIndex slot) ∧
      SameRegs [(txCtrl slot).toNat, 0x2C, 0x0E] s t ∧ t.opmod = s.opmod ∧ t.aborting = s.aborting
    else t = s
  | .txLost slot =>
    if s.mayTransmit slot then
      t.reg (txCtrl slot).toNat = s.reg (txCtrl slot).toNat ||| 0x20 ∧ SameRegs [(txCtrl slot).toNat] s t ∧
      t.aborting = s.aborting
    else t = s
  | .txError slot tec eflg merrf errif drop =>
    if s.mayTransmit slot then
      t.reg (txCtrl slot).toNat =
        (s.reg (txCtrl slot).toNat &&& if drop = true ∧ s.reg 0x0F &&& 0x08 ≠ 0 then 0xF7 else 0xFF) ||| 0x10 ∧
      t.reg 0x1C = tec ∧ ErrorsTaken eflg errif merrf s t ∧
      SameRegs [(txCtrl slot).toNat, 0x1C, 0x2D, 0x2C, 0x0E] s t ∧ t.aborting = s.aborting
    else t = s
  | .txAbort slot =>
    if s.opmod ∈ [0x00, 0x40] ∧ ((s.txPending slot = true ∧ s.reg 0x0F &&& 0x10 ≠ 0) ∨ slot ∈ s.aborting) then
      t.reg (txCtrl slot).toNat = (s.reg (txCtrl slot).toNat &&& 0xF7) ||| 0x40 ∧ SameRegs [(txCtrl slot).toNat] s t ∧
      ∀ x, x ∈ t.aborting ↔ x ∈ s.aborting ∧ x ≠ slot
    else t = s
  | .txClearFlags slot mask =>
    t.reg (txCtrl slot).toNat = s.reg (txCtrl slot).toNat &&& ~~~(mask &&& 0x70) ∧ SameRegs [(txCtrl slot).toNat] s t ∧
      t.aborting = s.aborting
  | .errors tec recv eflg errif merrf =>
    t.reg 0x1C = tec ∧ t.reg 0x1D = recv ∧ ErrorsTaken eflg errif merrf s t ∧
      SameRegs [0x1C, 0x1D, 0x2D, 0x2C, 0x0E] s t ∧ t.aborting = s.aborting
  | .wake reqop =>
    if s.opmod = 0x20 then
      t.opmod = 0x60 ∧ t.reg 0x0F = (if reqop then (s.reg 0x0F &&& 0x1F) ||| 0x60 else s.reg 0x0F) ∧
      t.reg 0x2C = s.reg 0x2C ||| 0x40 ∧ SameRegs [0x0E, 0x0F, 0x2C] s t ∧ t.aborting = s.aborting
    else t = s
  | .rtsPins levels =>
    t.reg 0x0D = (s.reg 0x0D &&& 0x07) ||| (levels &&& 0x38) ∧ SameRegs [0x0D] s t ∧ t.aborting = s.aborting
  | .bridge => SameRegs [] s t ∧ t.int = s.int ∧ t.aborting = s.aborting
  | .putOff _ => SameRegs [] s t ∧ t.int = s.int ∧ t.aborting = s.aborting
  | .produce _ => SameRegs [] s t ∧ t.int = s.int ∧ t.aborting = s.aborting

/-- A step of the Controller agent, which is no step of the Interrupt Bridge or of another producer. -/
def ofController (m : Move) : Bool :=
  match m with
  | .bridge => false
  | .putOff _ => false
  | .produce _ => false
  | .enterMode => true
  | .receive _ _ _ _ => true
  | .overflow _ _ => true
  | .txDone _ => true
  | .txLost _ => true
  | .txError _ _ _ _ _ _ => true
  | .txAbort _ => true
  | .txClearFlags _ _ => true
  | .errors _ _ _ _ _ => true
  | .wake _ => true
  | .rtsPins _ => true

/-- The payload that the dispatcher publishes, as the template of 60_exceptions.md R343 has it: the characters of its lines,
with the decimal digits of the identifier and of the length, and two lowercase hexadecimal digits and a space for each byte
(`Char.ofNat 0x22` is the double quote, 0x7B and 0x7D are the braces, 0x0A is LF, 0x09 is TAB). -/
def payloadText (f : Frame) : List Char :=
  let q := Char.ofNat 0x22
  [Char.ofNat 0x7B, Char.ofNat 0x0A, Char.ofNat 0x09, q, 'i', 'd', q, ':', ' ', q] ++ Nat.toDigits 10 f.canId.toNat ++
    [q, ',', Char.ofNat 0x0A, Char.ofNat 0x09, ' ', q, 'd', 'l', 'c', q, ':', ' ', q] ++ Nat.toDigits 10 f.dlc.toNat ++
    [q, ',', Char.ofNat 0x0A, Char.ofNat 0x09, q, 'd', 'a', 't', 'a', q, ':', ' ', q] ++
    ((f.data.toList.take f.dlc.toNat).flatMap fun b =>
      [Nat.digitChar (b.toNat / 16), Nat.digitChar (b.toNat % 16), ' ']) ++
    [q, Char.ofNat 0x0A, Char.ofNat 0x7D]

end Sys2Proof.Machine
end

