-- ==== Sys2Proof/Certificates/Slice0/Obligations.lean ====
section
/-! DEFINITION. The statements for the provers. In a docstring, "the model's choice" names what rests on an entry of the
assumption log and not on a rule of the spec. The model's choices too are the fields `edges` and `waits` (assumption 15), `aborting`
(14), `settle` (6), `results` and `sleeps` (21), `env` (1) and `params` (17), wherever a statement speaks of them. Where a
statement has other agents that take no step at a scheduling point, the Interrupt Bridge still serves what it has not put off
beyond it (R344, R345; `Served`, assumption 15), and the premise `modifies` says that the layer's own `BIT MODIFY`s meet bit-modifiable
registers, as under the default of that parameter (R9, R82). -/

open Sys2Proof Sys2Proof.Machine

/-! ## Decoding and encoding -/

/-- Words written out from the tables of 30_encoding.md (R121-R127) decode to the instructions they stand for. -/
def Obligations.WrittenWordsDecode : Prop :=
  decode [0b11000000] = .ok .txnReset ∧
  decode [0b00000011, 0x0E, 0x00] = .ok (.txnRead 0x0E [0x00]) ∧
  decode [0b00000010, 0x2B, 0xA3] = .ok (.txnWrite 0x2B [0xA3]) ∧
  decode [0b00000101, 0x0F, 0xE0, 0x80] = .ok (.txnBitmod 0x0F 0xE0 0x80) ∧
  decode [0b10100000, 0x00] = .ok (.txnReadStatus [0x00]) ∧
  decode [0b10110000, 0x00] = .ok (.txnRxStatus [0x00]) ∧
  decode [0b10010000, 0x00, 0x00] = .ok (.txnReadRx0 [0x00, 0x00]) ∧
  decode [0b10010100, 0x00] = .ok (.txnReadRx1 [0x00]) ∧
  decode [0b01000000, 0x24, 0x60] = .ok (.txnLoadTx0 [0x24, 0x60]) ∧
  decode [0b01000010, 0xFF] = .ok (.txnLoadTx1 [0xFF]) ∧
  decode [0b01000100, 0x00] = .ok (.txnLoadTx2 [0x00]) ∧
  decode [0b10000001] = .ok .txnRtsTx0 ∧
  decode [0b10000010] = .ok .txnRtsTx1 ∧
  decode [0b10000100] = .ok .txnRtsTx2 ∧
  decode [0b10000111] = .ok .txnRtsAll

/-- Decoding the bytes of an instruction gives it back, whatever its operands. -/
def Obligations.DecodeOfEncode : Prop :=
  ∀ (i : Instr) (bytes : List Byte), encode i = some bytes → decode bytes = .ok i

/-- Two byte strings never mean the same instruction: encoding what was decoded gives the bytes back. -/
def Obligations.EncodeOfDecode : Prop :=
  ∀ (bytes : List Byte) (i : Instr), decode bytes = .ok i → encode i = some bytes

/-- R133: an opcode byte outside the 15, a `BITMOD` string whose length is not 4 and a transaction of length 0 set the
refusal mark and have no effect. -/
def Obligations.OtherBytesAreRefused : Prop :=
  ∀ (s : State) (out : List Byte),
    (out = [] ∨
      (∃ op rest, out = op :: rest ∧
        op ∉ [0xC0, 0x03, 0x02, 0x05, 0xA0, 0xB0, 0x90, 0x94, 0x40, 0x42, 0x44, 0x81, 0x82, 0x84, (0x87 : Byte)]) ∨
      (∃ rest, out = 0x05 :: rest ∧ rest.length ≠ 3)) →
    runBytes exec .caller out s = .next { s with refused := true }

/-! ## The step -/

/-- A step is a scheduling point of the other agents and then the next call: the bytes of a transaction that decode to `i`
run `exec i`, an operation `i` runs `exec i`, and a word of the opcode table placed by `withFetchWord` is the very next
instruction. That a scheduling point stands before every call is the model's choice, assumption 8; that `withFetchWord` puts
the word before the calls, padded with the operand bytes that its format needs, is its choice too, assumption 13. -/
def Obligations.StepRunsTheNextCall : Prop :=
  (∀ (s : State) (out : List Byte) (rest : List Call) (i : Instr),
    s.calls = .txn .caller out :: rest → decode out = .ok i → step s = exec i (State.schedule { s with calls := rest })) ∧
  (∀ (s : State) (rest : List Call) (i : Instr),
    s.calls = .op .caller i :: rest → step s = exec i (State.schedule { s with calls := rest })) ∧
  (∀ (s : State) (rest : List Call) (ms : Nat),
    s.calls = .sleep ms :: rest → step s = .next (State.sleep (State.schedule { s with calls := rest }) ms)) ∧
  (∀ (s : State) (nbits w : Nat) (i : Instr),
    decodeTableWord nbits w = some i → step (s.withFetchWord nbits w) = exec i s.schedule)

/-- From interrupt context only the Interrupt Bridge runs (R348), from another task nothing (R349); any other call sets the
refusal mark and does nothing else. That a call carries its context, and that a transaction written out as its bytes is
refused from every context but the Caller's (R348 and R349 speak of the operations), is the model's choice, assumption 22. -/
def Obligations.OtherContextsAreRefused : Prop :=
  (∀ (s : State) (rest : List Call) (i : Instr), s.calls = .op .interrupt i :: rest → i ≠ .onInterrupt →
    step s = .next { State.schedule { s with calls := rest } with refused := true }) ∧
  (∀ (s : State) (rest : List Call), s.calls = .op .interrupt .onInterrupt :: rest →
    step s = exec .onInterrupt (State.schedule { s with calls := rest })) ∧
  (∀ (s : State) (rest : List Call) (i : Instr), s.calls = .op .otherTask i :: rest →
    step s = .next { State.schedule { s with calls := rest } with refused := true }) ∧
  (∀ (s : State) (rest : List Call) (ctx : Context) (out : List Byte), ctx ≠ .caller → s.calls = .txn ctx out :: rest →
    step s = .next { State.schedule { s with calls := rest } with refused := true })

/-- The Application Dispatcher takes the head of the queue and runs the arm of its tag (R340, R342); while the queue is empty
it waits. Between the receive and the arm of `CanMessage` stands a scheduling point (R345, R390). That the Caller is the
dispatcher exactly when no call is left is the model's choice, assumption 13. -/
def Obligations.DispatcherTakesTheHead : Prop :=
  ∀ (s : State), s.calls = [] →
    (s.schedule.queue = [] → step s = .next s.schedule) ∧
    (∀ (e : Event) (rest : List Event), s.schedule.queue = e :: rest →
      (e.tag = .canMessage → step s = exec .onCanMessage (State.schedule { s.schedule with queue := rest })) ∧
      (e.tag = .cloudConnected → step s = .next { s.schedule with queue := rest, cloudUp := true }) ∧
      (e.tag = .cloudDisconnected → step s = .next { s.schedule with queue := rest, cloudUp := false }) ∧
      (e.tag ∉ [.canMessage, .cloudConnected, .cloudDisconnected] → step s = .next { s.schedule with queue := rest }))

/-- The hardware raises no trap and every operation terminates (60_exceptions.md, R391): every step answers a next state. -/
def Obligations.EveryStepAnswersANextState : Prop := ∀ s : State, ∃ t, step s = .next t

/-- Every step keeps the invariant. -/
def Obligations.EveryStepKeepsTheInvariant : Prop := ∀ s t : State, s.Inv → step s = .next t → t.Inv

/-- R21, R58, R59 and R62: the transcript and the log only grow, and nothing clears the refusal mark; nor do the results
and the delays shrink, and the parameters of R9 stay as they are. -/
def Obligations.ObservationsOnlyGrow : Prop :=
  ∀ s t : State, step s = .next t →
    s.transcript <+: t.transcript ∧ s.log <+: t.log ∧ s.results <+: t.results ∧ s.sleeps <+: t.sleeps ∧
      (s.refused = true → t.refused = true) ∧ t.params = s.params

/-! ## Reset -/

/-- R370: the state at power-on. -/
def Obligations.PowerOnState : Prop :=
  State.reset.atReset ∧ State.reset.int = false ∧ State.reset.queue = [] ∧ State.reset.log = [] ∧
    State.reset.transcript = [] ∧ State.reset.refused = false ∧ State.reset.cloudUp = false

/-- The state at power-on meets the invariant. -/
def Obligations.PowerOnMeetsTheInvariant : Prop := State.reset.Inv

/-- R150: `RESET` gives every register its reset value, deasserts `INT`, drops pending transmissions, and begins the settle
time of R166 (its length is the model's choice, assumption 6); the queue and the host are as before. -/
def Obligations.ResetInstruction : Prop :=
  ∀ s : State, s.Inv → s.clear →
    ∃ t, exec .txnReset s = .next t ∧ t.atReset ∧ t.Inv ∧ t.int = false ∧ t.edges = s.edges ∧ t.aborting = [] ∧
      t.settle = 10 ∧ Sent s t [0xC0] ∧ SameHost s t ∧ t.log = s.log ∧ t.results = s.results ∧ t.sleeps = s.sleeps

/-- R187: `reset()` is the one transaction and the delay of 10 ms, which ends the settle time. -/
def Obligations.ResetOperation : Prop :=
  ∀ s : State, s.Inv → s.clear → s.env.turns.head? = some [] →
    ∃ t, exec .reset s = .next t ∧ t.atReset ∧ t.Inv ∧ t.int = false ∧ t.aborting = [] ∧
      t.settle = 0 ∧ Sent s t [0xC0] ∧ HostAfter 1 { s with int := false } t ∧ t.log = s.log ∧ t.results = s.results ++ [.unit] ∧
      t.sleeps = s.sleeps ++ [10]

/-! ## Transactions -/

/-- Every serial instruction of admitted operands is one transaction, recorded as its bytes, as many received bytes and its
`ok`; a failure is logged and nothing else of the host changes, whatever becomes of the transaction (R12, R58, R59,
R181). -/
def Obligations.EveryTransactionIsRecorded : Prop :=
  ∀ (s : State) (i : Instr) (out : List Byte), encode i = some out → i.wellFormed = true →
    ∃ t inb ok, exec i s = .next t ∧ inb.length = out.length ∧
      t.transcript = s.transcript ++ [{ out := out, inb := inb, ok := ok }] ∧
      t.log = (if ok then s.log else s.log ++ [.transportFailure]) ∧ SameHost s t ∧ t.results = s.results ∧
      t.sleeps = s.sleeps ∧ (s.Inv → t.Inv) ∧ (i ≠ .txnReset → t.settle = s.settle)

/-- R181: a transaction that fails after `k` bytes is logged, returns draws, and acts as a transaction of those bytes that
succeeds: of any instruction, with the choices that the agents and the draws then make (`env`), or not at all where they are the
bytes of none. That this holds of the opcodes that R181 does not name (RX_STATUS, READ_RX, LOAD_TX and RTS) is the model's choice,
assumption 16. So a `READ`, a `READ_STATUS`, a `RESET` of which nothing and a `BITMOD` of which not all bytes came across change
nothing else. A `WRITE` writes the data bytes that came across (each where `Lands` holds, no draw deciding what it leaves, as
`written` has it, in which a 1 never sets an overflow flag of EFLG: the model's choice, assumption 18) and changes no other
register; a `RESET` of which the byte came across resets, and a `BITMOD` of a plain control register of which all four came
across changes its bits under the mask. -/
def Obligations.FailedTransactionLeavesAPrefix : Prop :=
  ∀ (s : State) (k : Nat), s.settle = 0 → s.params.transportMayFail = true → s.env.links.head? = some (.cut k) →
    (∀ (i : Instr) (out : List Byte), encode i = some out → i.wellFormed = true →
      ∃ inb env, inb.length = out.length ∧
        match decode (out.take k) with
        | .ok j => env.links.head? = some .ok ∧ ∃ t, exec j { s with env := env } = .next t ∧
            exec i s = .next { t with
              transcript := s.transcript ++ [{ out := out, inb := inb, ok := false }]
              log := s.log ++ [.transportFailure] }
        | .error _ => exec i s = .next { s with
            transcript := s.transcript ++ [{ out := out, inb := inb, ok := false }]
            log := s.log ++ [.transportFailure], env := env }) ∧
    (∀ (i : Instr) (out : List Byte), encode i = some out → i.wellFormed = true →
      ((∃ a xs, i = .txnRead a xs) ∨ (∃ xs, i = .txnReadStatus xs) ∨ (i = .txnReset ∧ k = 0) ∨
        (∃ a m d, i = .txnBitmod a m d ∧ k < 4)) →
      ∃ inb env, inb.length = out.length ∧
        exec i s = .next { s with
          transcript := s.transcript ++ [{ out := out, inb := inb, ok := false }]
          log := s.log ++ [.transportFailure], env := env }) ∧
    (s.Inv → ∀ (a : Byte) (ds : List Byte), a.toNat < 128 → a.toNat + ds.length ≤ 128 →
      ∃ t, exec (.txnWrite a ds) s = .next t ∧ t.log = s.log ++ [.transportFailure] ∧
        (∀ i (h : i < ds.length), i + 3 ≤ k → Lands s a.toNat (ds.take (k - 2)) i → (a.toNat + i) % 16 ≠ 14 →
          t.reg (a.toNat + i) = written (canon (a.toNat + i)) (s.reg (a.toNat + i)) ds[i]) ∧
        SameRegs (0x0E :: (List.range (min (k - 2) ds.length)).map fun i => canon (a.toNat + i)) s t ∧
        t.opmod = s.opmod) ∧
    (1 ≤ k → ∃ t, exec .txnReset s = .next t ∧ t.log = s.log ++ [.transportFailure] ∧ t.atReset ∧ t.int = false ∧
      t.aborting = [] ∧ t.settle = 10) ∧
    (s.Inv → 4 ≤ k → ∀ (addr m d w : Byte), (addr.toNat, w) ∈ plainRegisters →
      ∃ t, exec (.txnBitmod addr m d) s = .next t ∧ t.log = s.log ++ [.transportFailure] ∧
        t.reg addr.toNat = (if addr.toNat % 16 = 14 then s.reg 0x0E else
          (s.reg addr.toNat &&& ~~~(s.modMask addr.toNat m &&& w)) ||| (d &&& (s.modMask addr.toNat m &&& w))) ∧
        SameRegs (if addr = 0x2B ∨ addr = 0x2C then [addr.toNat, 0x0E] else [canon addr.toNat]) s t ∧
        t.opmod = s.opmod)

/-- R166: any transaction within the settle time after `RESET` leaves a draw in every register: any values at all, in the bits
that the registers have, may stand there afterwards (of CANSTAT, in OPMOD; ICOD follows the flags; of EFLG, EWARN is TXWAR or
RXWAR, 10_state.md R30). That the other bits stay 0 and that these bits follow the others after such a draw too is the model's
choice, assumption 20, and that a `RESET` among them begins a settle time of its own is too, assumption 6. -/
def Obligations.SettleTimeLeavesAnything : Prop :=
  ∀ (s : State) (i : Instr) (out : List Byte) (f : Nat → Byte), s.settle ≠ 0 → encode i = some out →
    i.wellFormed = true →
    ∃ env t, exec i { s with env := env } = .next t ∧ t.settle = (if i = .txnReset then 10 else s.settle) ∧
      SameHost s t ∧ t.opmod = f 0x0E &&& 0xE0 ∧
      ∀ a ∈ registerAddrs, a ≠ 0x0E → t.reg a = normal a (if a = 0x2D then withEwarn (f a) else f a)

/-- R151: `READ` returns the registers from the start address on, a draw for each of an unlocked receive buffer, and
changes nothing; a block that runs past 0x7F is refused. -/
def Obligations.ReadReturnsTheRegisters : Prop :=
  (∀ (s : State) (addr : Byte) (dummy : List Byte), addr.toNat < 128 → addr.toNat + dummy.length ≤ 128 → s.clear →
    ∃ inb env, exec (.txnRead addr dummy) s = .next { s with
        transcript := s.transcript ++ [{ out := 0x03 :: addr :: dummy, inb := inb, ok := true }], env := env } ∧
      inb.length = 2 + dummy.length ∧
      ∀ i, i < dummy.length → s.unlockedRx (addr.toNat + i) = false → inb[2 + i]? = some (s.reg (addr.toNat + i))) ∧
  (∀ (s : State) (addr : Byte) (dummy : List Byte), addr.toNat + dummy.length > 128 →
    exec (.txnRead addr dummy) s = .next { s with refused := true })

/-- R154: `READ_STATUS` samples eight flags once and repeats the byte; nothing changes. -/
def Obligations.ReadStatusSamplesTheFlags : Prop :=
  ∀ (s : State) (dummy : List Byte), s.clear →
    ∃ b inb env, exec (.txnReadStatus dummy) s = .next { s with
        transcript := s.transcript ++ [{ out := 0xA0 :: dummy, inb := inb, ok := true }], env := env } ∧
      inb.length = 1 + dummy.length ∧ (∀ i, i < dummy.length → inb[1 + i]? = some b) ∧
      b.getLsbD 7 = (s.reg 0x2C).getLsbD 4 ∧ b.getLsbD 6 = (s.reg 0x50).getLsbD 3 ∧
      b.getLsbD 5 = (s.reg 0x2C).getLsbD 3 ∧ b.getLsbD 4 = (s.reg 0x40).getLsbD 3 ∧
      b.getLsbD 3 = (s.reg 0x2C).getLsbD 2 ∧ b.getLsbD 2 = (s.reg 0x30).getLsbD 3 ∧
      b.getLsbD 1 = (s.reg 0x2C).getLsbD 1 ∧ b.getLsbD 0 = (s.reg 0x2C).getLsbD 0

/-- R155: `RX_STATUS` tells which buffers are pending, and the kind and the filter of the frame in RXB0, else in RXB1 (where
RXF0 and RXF1 read as the rollover codes 6 and 7, and where FILHIT holds 6 or 7, which name no filter, the code is free:
assumption 27); nothing changes. The spec marks R155 as INFERRED, "No operation of the
layer issues `RX_STATUS`, so this rule is INFERRED". -/
def Obligations.RxStatusSamplesTheBuffers : Prop :=
  ∀ (s : State) (dummy : List Byte), s.clear →
    ∃ b inb env, exec (.txnRxStatus dummy) s = .next { s with
        transcript := s.transcript ++ [{ out := 0xB0 :: dummy, inb := inb, ok := true }], env := env } ∧
      inb.length = 1 + dummy.length ∧ (∀ i, i < dummy.length → inb[1 + i]? = some b) ∧
      b.getLsbD 7 = (s.reg 0x2C).getLsbD 1 ∧ b.getLsbD 6 = (s.reg 0x2C).getLsbD 0 ∧ b.getLsbD 5 = false ∧
      ((s.reg 0x2C).getLsbD 0 = true →
        b.getLsbD 4 = (s.reg 0x62).getLsbD 3 ∧ b.getLsbD 3 = (s.reg 0x60).getLsbD 3 ∧ b &&& 7 = s.reg 0x60 &&& 1) ∧
      ((s.reg 0x2C).getLsbD 0 = false → (s.reg 0x2C).getLsbD 1 = true →
        b.getLsbD 4 = (s.reg 0x72).getLsbD 3 ∧ b.getLsbD 3 = (s.reg 0x70).getLsbD 3 ∧
          ((s.reg 0x70 &&& 7).toNat < 6 →
            b &&& 7 = if s.reg 0x70 &&& 7 = 0 then 6 else if s.reg 0x70 &&& 7 = 1 then 7 else s.reg 0x70 &&& 7))

/-- R156 and R157: `READ_RX0` and `READ_RX1` return the buffer's registers SIDH to D7 while it is pending, and clear its flag,
and only that, even with no byte read. The spec marks both rules as INFERRED. -/
def Obligations.ReadRxBufferClearsItsFlag : Prop :=
  ∀ (s : State) (slot : RxSlot) (dummy : List Byte), s.Inv → s.clear →
    ∃ t inb, exec (readRxInstr slot dummy) s = .next t ∧
      t.transcript = s.transcript ++ [{ out := readRxOpcode slot :: dummy, inb := inb, ok := true }] ∧
      inb.length = 1 + dummy.length ∧
      (s.rxPending slot = true → ∀ i, i < dummy.length → i < 13 →
        inb[1 + i]? = some (s.reg ((rxSidh slot).toNat + i))) ∧
      t.log = s.log ∧ t.results = s.results ∧ SameHost s t ∧ t.edges = s.edges ∧ Consumed s t slot

/-! ## Writing registers -/

/-- R77, R85, R86, R88 and R89: a `WRITE` of one byte to a control register without a side effect on its other bits changes
its W bits to the byte's, in every mode, and no other bit of any register; CANSTAT, TEC and REC do not change at all. R30: a
`WRITE` to EFLG clears the overflow flags where the byte has a 0, and changes no other bit; that it sets none where the byte has
a 1 is the model's choice, assumption 18. -/
def Obligations.WritePlainRegister : Prop :=
  (∀ (s : State) (addr v w : Byte), s.Inv → s.clear → (addr.toNat, w) ∈ plainRegisters →
    ∃ t, exec (.txnWrite addr [v]) s = .next t ∧ t.reg addr.toNat = (if addr.toNat % 16 = 14 then s.reg 0x0E else
        (s.reg addr.toNat &&& ~~~w) ||| (v &&& w)) ∧
      SameRegs (if addr = 0x2B ∨ addr = 0x2C then [addr.toNat, 0x0E] else [canon addr.toNat]) s t ∧ t.opmod = s.opmod ∧
      LineFollows s t ∧ t.aborting = s.aborting ∧ Sent s t [0x02, addr, v] ∧ SameRun s t ∧ t.results = s.results) ∧
  (∀ (s : State) (v : Byte), s.Inv → s.clear →
    ∃ t, exec (.txnWrite 0x2D [v]) s = .next t ∧ t.reg 0x2D = s.reg 0x2D &&& (v ||| 0x3F) ∧ SameRegs [0x2D] s t ∧
      SameLine s t ∧ t.aborting = s.aborting ∧ Sent s t [0x02, 0x2D, v] ∧ SameRun s t ∧ t.results = s.results)

/-- R88 and 10_state.md R43: a `WRITE` to RXB0CTRL changes RXM and BUKT, a `BITMOD` of it those under the mask, and BUKT1
copies BUKT (all of them where the register is not bit-modifiable, R84). R45-R48: the registers RXBnSIDH to RXBnD7 ignore a `WRITE`. -/
def Obligations.WriteReceiveBuffer : Prop :=
  (∀ (s : State) (v : Byte), s.Inv → s.clear →
    ∃ t, exec (.txnWrite 0x60 [v]) s = .next t ∧
      t.reg 0x60 = (s.reg 0x60 &&& 0x09) ||| (v &&& 0x64) ||| ((v &&& 0x04) >>> 1) ∧ SameRegs [0x60] s t ∧
      SameLine s t ∧ t.aborting = s.aborting ∧ Sent s t [0x02, 0x60, v] ∧ SameRun s t ∧ t.results = s.results) ∧
  (∀ (s : State) (m d : Byte), s.Inv → s.clear →
    ∃ t, exec (.txnBitmod 0x60 m d) s = .next t ∧
      t.reg 0x60 &&& 0x6D = (s.reg 0x60 &&& 0x6D &&& ~~~(s.modMask 0x60 m &&& 0x64)) |||
        (d &&& s.modMask 0x60 m &&& 0x64) ∧
      (t.reg 0x60).getLsbD 1 = (t.reg 0x60).getLsbD 2 ∧ SameRegs [0x60] s t ∧
      SameLine s t ∧ t.aborting = s.aborting ∧ Sent s t [0x05, 0x60, m, d] ∧ SameRun s t ∧ t.results = s.results) ∧
  (∀ (s : State) (slot : RxSlot) (i : Nat) (v : Byte), s.Inv → s.clear → i < 13 →
    ∃ t, exec (.txnWrite (rxSidh slot + BitVec.ofNat 8 i) [v]) s = .next t ∧ SameRegs [] s t ∧ SameLine s t ∧
      t.aborting = s.aborting ∧ Sent s t [0x02, rxSidh slot + BitVec.ofNat 8 i, v] ∧ SameRun s t ∧
      t.results = s.results)

/-- R78: a `WRITE` of one byte to a register of the Configuration mode changes its W bits in that mode; in another mode the
register takes its old or the written value. -/
def Obligations.WriteConfigurationRegister : Prop :=
  ∀ (s : State) (addr v w : Byte), s.Inv → s.clear → (addr.toNat, w) ∈ configurationRegisters →
    ∃ t, exec (.txnWrite addr [v]) s = .next t ∧
      (t.reg addr.toNat = (s.reg addr.toNat &&& ~~~w) ||| (v &&& w) ∨
        (¬ s.inConfiguration ∧ t.reg addr.toNat = s.reg addr.toNat)) ∧
      SameRegs [addr.toNat] s t ∧ SameLine s t ∧ t.aborting = s.aborting ∧ Sent s t [0x02, addr, v] ∧ SameRun s t ∧
      t.results = s.results

/-- R87: a `WRITE` to TXBnCTRL changes TXREQ and TXP. TXREQ = 1 clears ABTF, MLOA and TXERR; TXREQ = 0 keeps them, and
requests an abort if it was 1 (the model keeps the request in `aborting`, its own choice, assumption 14). -/
def Obligations.WriteTransmitControl : Prop :=
  ∀ (s : State) (slot : TxSlot) (v : Byte), s.Inv → s.clear →
    ∃ t, exec (.txnWrite (txCtrl slot) [v]) s = .next t ∧
      t.reg (txCtrl slot).toNat =
        (if v.getLsbD 3 then v &&& 0x0B else (s.reg (txCtrl slot).toNat &&& 0x70) ||| (v &&& 0x03)) ∧
      (slot ∈ t.aborting ↔ v.getLsbD 3 = false ∧ (s.txPending slot = true ∨ slot ∈ s.aborting)) ∧
      (∀ x, x ≠ slot → (x ∈ t.aborting ↔ x ∈ s.aborting)) ∧
      SameRegs [(txCtrl slot).toNat] s t ∧ SameLine s t ∧ Sent s t [0x02, txCtrl slot, v] ∧ SameRun s t ∧
      t.results = s.results

/-- R80 and R152: data byte `i` of a `WRITE` is written to the register at the start address plus `i`, its W bits to the
byte's, where no draw decides what it leaves (`Lands`): so in a transmit buffer that is not pending. In TXBnCTRL and RXB0CTRL the
side effects of R87 and of 10_state.md R43 follow, and EFLG keeps an overflow flag only where the byte has a 1 (`written`); that
the 1 never sets one is the model's choice, assumption 18. R100: no register outside the block changes, but for ICOD of CANSTAT,
which follows CANINTF and CANINTE, as `INT` does. -/
def Obligations.WriteBlockFrame : Prop :=
  ∀ (s : State) (addr : Byte) (data : List Byte), s.Inv → s.clear → addr.toNat < 128 → addr.toNat + data.length ≤ 128 →
    ∃ t, exec (.txnWrite addr data) s = .next t ∧
      (∀ i (h : i < data.length), Lands s addr.toNat data i → (addr.toNat + i) % 16 ≠ 14 →
        t.reg (addr.toNat + i) = written (canon (addr.toNat + i)) (s.reg (addr.toNat + i)) data[i]) ∧
      SameRegs (0x0E :: (List.range data.length).map fun i => canon (addr.toNat + i)) s t ∧ t.opmod = s.opmod ∧
      t.int = decide (t.reg 0x2C &&& t.reg 0x2B ≠ 0) ∧
      (∀ x, (∀ i, i < data.length → addr.toNat + i ≠ (txCtrl x).toNat) → (x ∈ t.aborting ↔ x ∈ s.aborting)) ∧
      Sent s t (0x02 :: addr :: data) ∧ SameRun s t ∧ t.results = s.results

/-- R158-R160 and R167: `LOAD_TX0` to `LOAD_TX2` write up to 13 bytes from the buffer's SIDH on, exactly while the buffer is
not pending; more than 13 bytes are refused. The spec marks R158-R160 as INFERRED. -/
def Obligations.LoadTxBuffer : Prop :=
  (∀ (s : State) (slot : TxSlot) (data : List Byte), s.Inv → s.clear → data.length ≤ 13 →
    ∃ t, exec (loadTxInstr slot data) s = .next t ∧
      (s.txPending slot = false → ∀ i (h : i < data.length),
        t.reg ((txSidh slot).toNat + i) = data[i] &&& txBodyBits i) ∧
      SameRegs ((List.range data.length).map ((txSidh slot).toNat + ·)) s t ∧ SameLine s t ∧ t.aborting = s.aborting ∧
      Sent s t (loadTxOpcode slot :: data) ∧ SameRun s t ∧ t.results = s.results) ∧
  (∀ (s : State) (slot : TxSlot) (data : List Byte), data.length > 13 →
    exec (loadTxInstr slot data) s = .next { s with refused := true })

/-- R161-R164: an `RTS` sets TXREQ of its buffer, or of all three, clears the failure flags, and keeps TXP. The spec marks
these rules as INFERRED. -/
def Obligations.RequestToSend : Prop :=
  (∀ (s : State) (slot : TxSlot), s.Inv → s.clear →
    ∃ t, exec (rtsInstr slot) s = .next t ∧
      t.reg (txCtrl slot).toNat = (s.reg (txCtrl slot).toNat &&& 0x03) ||| 0x08 ∧
      (∀ x, x ∈ t.aborting ↔ x ∈ s.aborting ∧ x ≠ slot) ∧ SameRegs [(txCtrl slot).toNat] s t ∧ SameLine s t ∧
      Sent s t [rtsOpcode slot] ∧ SameRun s t ∧ t.results = s.results) ∧
  (∀ (s : State), s.Inv → s.clear →
    ∃ t, exec .txnRtsAll s = .next t ∧
      (∀ slot, t.reg (txCtrl slot).toNat = (s.reg (txCtrl slot).toNat &&& 0x03) ||| 0x08) ∧ t.aborting = [] ∧
      SameRegs [0x30, 0x40, 0x50] s t ∧ SameLine s t ∧ Sent s t [0x87] ∧ SameRun s t ∧ t.results = s.results)

/-- R83: `BITMOD` of a bit-modifiable control register changes its W bits under the mask to the data's, in one step, and no
other bit; R84: of one that is not (TEC and REC under the default), all its W bits, whatever the mask (`modMask`). R153:
`BITMOD` of CANSTAT, TEC and REC changes nothing. R30: `BITMOD` of EFLG clears the overflow flags under the mask where the
data has a 0, and changes no other bit; that it sets none where the data has a 1 is the model's choice, assumption 18. -/
def Obligations.BitmodPlainRegister : Prop :=
  (∀ (s : State) (addr m d w : Byte), s.Inv → s.clear → (addr.toNat, w) ∈ plainRegisters →
    ∃ t, exec (.txnBitmod addr m d) s = .next t ∧
      t.reg addr.toNat = (if addr.toNat % 16 = 14 then s.reg 0x0E else
        (s.reg addr.toNat &&& ~~~(s.modMask addr.toNat m &&& w)) ||| (d &&& (s.modMask addr.toNat m &&& w))) ∧
      SameRegs (if addr = 0x2B ∨ addr = 0x2C then [addr.toNat, 0x0E] else [canon addr.toNat]) s t ∧ t.opmod = s.opmod ∧
      LineFollows s t ∧ t.aborting = s.aborting ∧ Sent s t [0x05, addr, m, d] ∧ SameRun s t ∧ t.results = s.results) ∧
  (∀ (s : State) (m d : Byte), s.Inv → s.clear →
    ∃ t, exec (.txnBitmod 0x2D m d) s = .next t ∧
      t.reg 0x2D = s.reg 0x2D &&& ~~~(s.modMask 0x2D m &&& ~~~d &&& 0xC0) ∧ SameRegs [0x2D] s t ∧ SameLine s t ∧
      t.aborting = s.aborting ∧ Sent s t [0x05, 0x2D, m, d] ∧ SameRun s t ∧ t.results = s.results)

/-- R83, R87 and R153: `BITMOD` of TXBnCTRL changes TXREQ and TXP under the mask. Its byte is written as a `WRITE` writes one:
with TXREQ = 1 in it, set now or before, the failure flags are cleared; with TXREQ = 0 in it and 1 before, an abort is
requested (the model keeps the request in `aborting`, its own choice, assumption 14). A mask of 0 changes nothing. -/
def Obligations.BitmodTransmitControl : Prop :=
  ∀ (s : State) (slot : TxSlot) (m d : Byte), s.Inv → s.clear →
    ∃ t, exec (.txnBitmod (txCtrl slot) m d) s = .next t ∧
      (let w := s.modMask (txCtrl slot).toNat m
       let old := s.reg (txCtrl slot).toNat
       let request := if w.getLsbD 3 then d.getLsbD 3 else s.txPending slot
       t.reg (txCtrl slot).toNat =
          ((if w ≠ 0 ∧ request = true then old &&& 0x0F else old) &&& ~~~(w &&& 0x0B)) ||| (d &&& (w &&& 0x0B)) ∧
        (slot ∈ t.aborting ↔ if w = 0 then slot ∈ s.aborting
          else request = false ∧ (s.txPending slot = true ∨ slot ∈ s.aborting))) ∧
      (∀ x, x ≠ slot → (x ∈ t.aborting ↔ x ∈ s.aborting)) ∧
      SameRegs [(txCtrl slot).toNat] s t ∧ SameLine s t ∧ Sent s t [0x05, txCtrl slot, m, d] ∧ SameRun s t ∧
      t.results = s.results

/-- R83 and R84: `BITMOD` of a Configuration-only register, in Configuration mode, and of a buffer register of a transmit
buffer that is not pending, changes its W bits under the mask to the data's, and no other bit: the mask is the one sent where
the register is bit-modifiable (under the default CNF1, CNF2, CNF3 and TXRTSCTRL), and 0xFF elsewhere (the filters, the masks
and the buffers). In another mode a Configuration-only register takes its old or that value (R78); the receive buffers'
registers ignore a `BITMOD`. R153: a mask of 0 changes nothing in a bit-modifiable register, in any mode. -/
def Obligations.BitmodMaskCorners : Prop :=
  (∀ (s : State) (addr m d w : Byte), s.Inv → s.clear → (addr.toNat, w) ∈ configurationRegisters →
    ∃ t, exec (.txnBitmod addr m d) s = .next t ∧
      (t.reg addr.toNat =
          (s.reg addr.toNat &&& ~~~(s.modMask addr.toNat m &&& w)) ||| (d &&& (s.modMask addr.toNat m &&& w)) ∨
        (¬ s.inConfiguration ∧ t.reg addr.toNat = s.reg addr.toNat)) ∧
      SameRegs [addr.toNat] s t ∧
      SameLine s t ∧ t.aborting = s.aborting ∧ Sent s t [0x05, addr, m, d] ∧ SameRun s t ∧ t.results = s.results) ∧
  (∀ (s : State) (slot : TxSlot) (i : Nat) (m d : Byte), s.Inv → s.clear → i < 13 → s.txPending slot = false →
    ∃ t, exec (.txnBitmod (txSidh slot + BitVec.ofNat 8 i) m d) s = .next t ∧
      (let w := s.modMask ((txSidh slot).toNat + i) m &&& txBodyBits i
       t.reg ((txSidh slot).toNat + i) = (s.reg ((txSidh slot).toNat + i) &&& ~~~w) ||| (d &&& w)) ∧
      SameRegs [(txSidh slot).toNat + i] s t ∧ SameLine s t ∧
      t.aborting = s.aborting ∧ Sent s t [0x05, txSidh slot + BitVec.ofNat 8 i, m, d] ∧ SameRun s t ∧
      t.results = s.results) ∧
  (∀ (s : State) (slot : RxSlot) (i : Nat) (m d : Byte), s.Inv → s.clear → i < 13 →
    ∃ t, exec (.txnBitmod (rxSidh slot + BitVec.ofNat 8 i) m d) s = .next t ∧ SameRegs [] s t ∧ SameLine s t ∧
      t.aborting = s.aborting ∧ Sent s t [0x05, rxSidh slot + BitVec.ofNat 8 i, m, d] ∧ SameRun s t ∧
      t.results = s.results) ∧
  (∀ (s : State) (addr d : Byte), s.Inv → s.clear → addr.toNat < 128 → addr.toNat ∈ s.params.bitModifiable →
    ∃ t, exec (.txnBitmod addr 0x00 d) s = .next t ∧ SameRegs [] s t ∧ SameLine s t ∧ t.aborting = s.aborting ∧
      Sent s t [0x05, addr, 0x00, d] ∧ SameRun s t ∧ t.results = s.results)

/-- R81: an address at or above 0x80 and a block that runs past 0x7F are refused, by the serial instructions and by the
operations of the Register Access Layer. That an empty block at 0x80 is refused too is the model's choice, assumption 23. -/
def Obligations.OtherAddressesAreRefused : Prop :=
  ∀ (s : State) (addr : Byte) (n : Nat), (addr.toNat ≥ 128 ∨ addr.toNat + n > 128) →
    (∀ xs : List Byte, xs.length = n → exec (.txnRead addr xs) s = .next { s with refused := true } ∧
      exec (.txnWrite addr xs) s = .next { s with refused := true } ∧
      exec (.writeRegisters addr xs) s = .next { s with refused := true }) ∧
    exec (.readRegisters addr n) s = .next { s with refused := true } ∧
    (n = 1 → ∀ m d, exec (.txnBitmod addr m d) s = .next { s with refused := true } ∧
      exec (.readRegister addr) s = .next { s with refused := true } ∧
      exec (.writeRegister addr d) s = .next { s with refused := true } ∧
      exec (.modifyRegister addr m d) s = .next { s with refused := true })

/-- R27 and R338: CANSTAT is the stored OPMOD in bits 7:5, 0 in bits 4 and 0 and, in bits 3:1, the code of the flag of highest
priority that is set and enabled. That ICOD follows the flags in every state, without a step of the Controller agent (which R91
lets change it), is the model's choice, assumption 11. -/
def Obligations.CanstatReportsModeAndFlag : Prop :=
  ∀ (s : State), (s.reg 0x0E).getLsbD 4 = false ∧ (s.reg 0x0E).getLsbD 0 = false ∧
    s.reg 0x0E &&& 0xE0 = Memory.read s.mem 0x0E &&& 0xE0 ∧
    s.reg 0x0E &&& 0x0E =
      (let f := s.reg 0x2C &&& s.reg 0x2B
       if f.getLsbD 5 then 0x02 else if f.getLsbD 6 then 0x04 else if f.getLsbD 2 then 0x06 else if f.getLsbD 3 then 0x08
       else if f.getLsbD 4 then 0x0A else if f.getLsbD 0 then 0x0C else if f.getLsbD 1 then 0x0E else 0x00)

/-! ## The Register Access Layer -/

/-- R182-R186 and R188: each operation is exactly its one transaction, and returns the response bytes of the data phase,
whatever becomes of the transaction. -/
def Obligations.RegisterOperationsAreOneTransaction : Prop :=
  (∀ (s : State) (addr : Byte), addr.toNat < 128 →
    ∃ t inb ok v, exec (.txnRead addr [0x00]) s = .next t ∧
      t.transcript = s.transcript ++ [{ out := [0x03, addr, 0x00], inb := inb, ok := ok }] ∧ inb[2]? = some v ∧
      exec (.readRegister addr) s = .next { t with results := s.results ++ [.byte v] }) ∧
  (∀ (s : State) (addr : Byte) (n : Nat), addr.toNat < 128 → addr.toNat + n ≤ 128 →
    ∃ t inb ok, exec (.txnRead addr (zeros n)) s = .next t ∧
      t.transcript = s.transcript ++ [{ out := 0x03 :: addr :: zeros n, inb := inb, ok := ok }] ∧ inb.length = 2 + n ∧
      exec (.readRegisters addr n) s = .next { t with results := s.results ++ [.bytes (inb.drop 2)] }) ∧
  (∀ (s : State) (addr v : Byte), addr.toNat < 128 →
    ∃ t, exec (.txnWrite addr [v]) s = .next t ∧
      exec (.writeRegister addr v) s = .next { t with results := s.results ++ [.unit] }) ∧
  (∀ (s : State) (addr : Byte) (vs : List Byte), addr.toNat < 128 → addr.toNat + vs.length ≤ 128 →
    ∃ t, exec (.txnWrite addr vs) s = .next t ∧
      exec (.writeRegisters addr vs) s = .next { t with results := s.results ++ [.unit] }) ∧
  (∀ (s : State) (addr m d : Byte), addr.toNat < 128 →
    ∃ t, exec (.txnBitmod addr m d) s = .next t ∧
      exec (.modifyRegister addr m d) s = .next { t with results := s.results ++ [.unit] }) ∧
  (∀ (s : State),
    ∃ t inb ok v, exec (.txnReadStatus [0x00]) s = .next t ∧
      t.transcript = s.transcript ++ [{ out := [0xA0, 0x00], inb := inb, ok := ok }] ∧ inb[1]? = some v ∧
      exec .readStatus s = .next { t with results := s.results ++ [.byte v] })

/-- R182, R310 and R311: `readRegister` returns the register (but a draw from an unlocked receive buffer), `errorFlags` EFLG,
and `hasError` whether one of EFLG bits 7:3 is set; none of them changes anything. -/
def Obligations.RegisterReadsAndErrorFlags : Prop :=
  (∀ (s : State) (addr : Byte), s.clear → addr.toNat < 128 → s.unlockedRx addr.toNat = false →
    ∃ inb env, exec (.readRegister addr) s = .next { s with
        transcript := s.transcript ++ [{ out := [0x03, addr, 0x00], inb := inb, ok := true }], env := env
        results := s.results ++ [.byte (s.reg addr.toNat)] }) ∧
  (∀ (s : State), s.clear →
    ∃ inb env, exec .errorFlags s = .next { s with
        transcript := s.transcript ++ [{ out := [0x03, 0x2D, 0x00], inb := inb, ok := true }], env := env
        results := s.results ++ [.byte (s.reg 0x2D)] }) ∧
  (∀ (s : State), s.clear →
    ∃ inb env, exec .hasError s = .next { s with
        transcript := s.transcript ++ [{ out := [0x03, 0x2D, 0x00], inb := inb, ok := true }], env := env
        results := s.results ++ [.bool (decide (s.reg 0x2D &&& 0xF8 ≠ 0))] })

/-- R312-R315: each clear operation is one `BITMOD` that clears its bits of EFLG or CANINTF, and nothing else. -/
def Obligations.ClearOperations : Prop :=
  ∀ (s : State), s.Inv → s.modifies → s.clear →
    (∃ t, exec .clearReceiveOverflow s = .next t ∧ t.reg 0x2D = s.reg 0x2D &&& 0x3F ∧ SameRegs [0x2D] s t ∧
      SameLine s t ∧ t.aborting = s.aborting ∧ Sent s t [0x05, 0x2D, 0xC0, 0x00] ∧ SameRun s t ∧
      t.results = s.results ++ [.unit]) ∧
    (∃ t, exec .clearMessageError s = .next t ∧ t.reg 0x2C = s.reg 0x2C &&& 0x7F ∧ SameRegs [0x2C, 0x0E] s t ∧
      t.opmod = s.opmod ∧ LineFollows s t ∧ t.aborting = s.aborting ∧ Sent s t [0x05, 0x2C, 0x80, 0x00] ∧ SameRun s t ∧
      t.results = s.results ++ [.unit]) ∧
    (∃ t, exec .clearErrorInterrupt s = .next t ∧ t.reg 0x2C = s.reg 0x2C &&& 0xDF ∧ SameRegs [0x2C, 0x0E] s t ∧
      t.opmod = s.opmod ∧ LineFollows s t ∧ t.aborting = s.aborting ∧ Sent s t [0x05, 0x2C, 0x20, 0x00] ∧ SameRun s t ∧
      t.results = s.results ++ [.unit])

/-! ## Modes and bit timing -/

/-- R201 and R202: whatever the other agents do and whatever fails, `setMode` is one `BITMOD` of CANCTRL and then `k` reads
of CANSTAT, 1 to 10, with a sleep of 10 ms between two of them. It returns `Ok` if the last read shows the mode, and
`ModeTransitionFailure` if ten reads show otherwise; no earlier read shows it. -/
def Obligations.SetModeTrace : Prop :=
  ∀ (s : State) (mode : Mode),
    ∃ (t : State) (first last : Entry) (polls : List Entry), exec (.setMode mode) s = .next t ∧
      t.transcript = s.transcript ++ first :: (polls ++ [last]) ∧
      first.out = [0x05, 0x0F, 0xE0, modeBits mode] ∧ (∀ e ∈ polls ++ [last], e.out = [0x03, 0x0E, 0x00]) ∧
      (∀ e ∈ polls, e.inb.getD 2 0 &&& 0xE0 ≠ modeBits mode) ∧
      t.sleeps = s.sleeps ++ List.replicate polls.length 10 ∧
      ((polls.length ≤ 9 ∧ last.inb.getD 2 0 &&& 0xE0 = modeBits mode ∧ t.results = s.results ++ [.code .ok]) ∨
        (polls.length = 9 ∧ last.inb.getD 2 0 &&& 0xE0 ≠ modeBits mode ∧
          t.results = s.results ++ [.code .modeTransitionFailure])) ∧
      t.refused = s.refused ∧ t.cloudUp = s.cloudUp ∧ t.calls = s.calls

/-- R93 and R201: with the chip already in the mode, or taking it before the first poll, `setMode` returns `Ok` after two
transactions; REQOP and OPMOD are the mode, and nothing else changes. -/
def Obligations.SetModeSucceeds : Prop :=
  (∀ (s : State) (mode : Mode), s.Inv → s.modifies → s.quiet 2 → s.opmod = modeBits mode →
    ∃ t, exec (.setMode mode) s = .next t ∧ t.reg 0x0F = (s.reg 0x0F &&& 0x1F) ||| modeBits mode ∧
      SameRegs [0x0F] s t ∧ t.int = s.int ∧ t.aborting = s.aborting ∧
      Issued s t [[0x05, 0x0F, 0xE0, modeBits mode], [0x03, 0x0E, 0x00]] ∧ RunAfter 1 s t ∧
      t.results = s.results ++ [.code .ok]) ∧
  (∀ (s : State) (mode : Mode), s.Inv → s.modifies → s.prompt 2 →
    ∃ t, exec (.setMode mode) s = .next t ∧ t.reg 0x0F = (s.reg 0x0F &&& 0x1F) ||| modeBits mode ∧
      t.opmod = modeBits mode ∧ SameRegs [0x0F, 0x0E] s t ∧ t.int = s.int ∧ t.aborting = s.aborting ∧
      Issued s t [[0x05, 0x0F, 0xE0, modeBits mode], [0x03, 0x0E, 0x00]] ∧ RunAfter 1 s t ∧
      t.results = s.results ++ [.code .ok])

/-- R202 and R203: with the chip never taking the mode, `setMode` returns `ModeTransitionFailure` after 11 transactions and
9 sleeps, and REQOP keeps the request. -/
def Obligations.SetModeNeverTaken : Prop :=
  ∀ (s : State) (mode : Mode), s.Inv → s.modifies → s.quiet 11 → s.opmod ≠ modeBits mode →
    ∃ t, exec (.setMode mode) s = .next t ∧ t.reg 0x0F = (s.reg 0x0F &&& 0x1F) ||| modeBits mode ∧
      SameRegs [0x0F] s t ∧ t.int = s.int ∧ t.aborting = s.aborting ∧
      Issued s t ([0x05, 0x0F, 0xE0, modeBits mode] :: List.replicate 10 [0x03, 0x0E, 0x00]) ∧ HostAfter 10 s t ∧
      t.log = s.log ∧ t.sleeps = s.sleeps ++ List.replicate 9 10 ∧
      t.results = s.results ++ [.code .modeTransitionFailure]

/-- R207: `lookupBitTiming` returns the entry of the table, and none where the rate is no member of `Rate`, and does nothing
else. -/
def Obligations.LookupBitTiming : Prop :=
  ∀ (s : State) (clock : Clock) (rate : Rate),
    exec (.lookupBitTiming clock rate) s = .next { s with
      results := s.results ++ [.triple (if isRate rate then Config.bitTiming clock rate else none)] }

/-- R208: without an entry, as for a rate that is no member of `Rate`, `setBitrate` is `ConfigurationError` and does nothing, in
any state; with one, in Configuration mode, or from another mode with the chip taking Configuration before the first poll (R204,
R205), it writes CNF1, CNF2 and CNF3 in this order, returns `Ok` and leaves the chip in Configuration mode. -/
def Obligations.SetBitrate : Prop :=
  ∀ (clock : Clock) (rate : Rate),
    match bitTiming clock rate with
    | none => ∀ s : State, exec (.setBitrate clock rate) s =
        .next { s with results := s.results ++ [.code .configurationError] }
    | some (c1, c2, c3) => ∀ s : State, s.Inv → s.modifies → (s.quiet 5 ∧ s.inConfiguration) ∨ s.prompt 5 →
      ∃ t, exec (.setBitrate clock rate) s = .next t ∧
        t.reg 0x2A = c1 ∧ t.reg 0x29 = c2 ∧ t.reg 0x28 = c3 &&& 0xC7 ∧
        t.reg 0x0F = (s.reg 0x0F &&& 0x1F) ||| 0x80 ∧ t.reg 0x0E = (s.reg 0x0E &&& 0x1F) ||| 0x80 ∧
        SameRegs [0x0F, 0x0E, 0x28, 0x29, 0x2A] s t ∧ t.inConfiguration ∧ t.int = s.int ∧
        t.aborting = s.aborting ∧
        Issued s t [[0x05, 0x0F, 0xE0, 0x80], [0x03, 0x0E, 0x00], [0x02, 0x2A, c1], [0x02, 0x29, c2], [0x02, 0x28, c3]] ∧
        RunAfter 4 s t ∧ t.results = s.results ++ [.code .ok]

/-- R204: when Configuration mode is not reached, `setFilter`, `setMask` and (for a pair with an entry) `setBitrate` are the
mode request and the ten polls: they return `ModeTransitionFailure` and write nothing but REQOP. -/
def Obligations.ModeEntryFailurePropagates : Prop :=
  ∀ (s : State) (i : Instr), s.Inv → s.modifies → s.quiet 11 → ¬ s.inConfiguration →
    ((∃ f e v, i = .setFilter f e v) ∨ (∃ m e v, i = .setMask m e v) ∨
      (∃ clock rate, i = .setBitrate clock rate ∧ bitTiming clock rate ≠ none)) →
    ∃ t, exec i s = .next t ∧ t.reg 0x0F = (s.reg 0x0F &&& 0x1F) ||| 0x80 ∧ SameRegs [0x0F] s t ∧ t.int = s.int ∧
      t.aborting = s.aborting ∧
      Issued s t ([0x05, 0x0F, 0xE0, 0x80] :: List.replicate 10 [0x03, 0x0E, 0x00]) ∧ HostAfter 10 s t ∧
      t.log = s.log ∧ t.sleeps = s.sleeps ++ List.replicate 9 10 ∧
      t.results = s.results ++ [.code .modeTransitionFailure]

/-! ## The Frame Codec -/

/-- R233 and R234: `packId` puts each bit of the identifier where the spec says. -/
def Obligations.PackId : Prop :=
  ∀ (s : State) (v : Ident),
    exec (.packId false v) s = .next { s with results := s.results ++ [.bytes
      [v.extractLsb' 3 8, v.extractLsb' 0 3 ++ 0b00000#5, 0x00, 0x00]] } ∧
    exec (.packId true v) s = .next { s with results := s.results ++ [.bytes
      [v.extractLsb' 21 8, v.extractLsb' 18 3 ++ 0b010#3 ++ v.extractLsb' 16 2, v.extractLsb' 8 8, v.extractLsb' 0 8]] }

/-- R236: `decodeId` assembles an 11-bit value, or with IDE set a 29-bit value and the flag of bit 31. -/
def Obligations.DecodeId : Prop :=
  ∀ (s : State) (sidh sidl eid8 eid0 : Byte),
    exec (.decodeId sidh sidl eid8 eid0) s = .next { s with results := s.results ++ [.ident
      (if sidl.getLsbD 3 then
        0b100#3 ++ sidh ++ sidl.extractLsb' 5 3 ++ sidl.extractLsb' 0 2 ++ eid8 ++ eid0
      else 0#21 ++ sidh ++ sidl.extractLsb' 5 3)] }

/-- R235: `encodeFrame` of an admitted length gives the packed identifier, the length byte with the remote bit in bit 6, and
the payload. Beyond its precondition it still gives `5 + dlc` bytes: the spec states no value for those past the eighth
payload byte, and the model draws them (its own choice, assumption 10). -/
def Obligations.EncodeFrame : Prop :=
  (∀ (s : State) (f : Frame), f.dlc.toNat ≤ 8 →
    exec (.encodeFrame f) s = .next { s with results := s.results ++ [.bytes
      (packIdBytes (f.canId.getLsbD 31) (f.canId &&& if f.canId.getLsbD 31 then 0x1FFFFFFF else 0x7FF) ++
        [if f.canId.getLsbD 30 then f.dlc ||| 0x40 else f.dlc] ++ f.data.toList.take f.dlc.toNat)] }) ∧
  (∀ (s : State) (f : Frame), f.dlc.toNat > 8 →
    ∃ (rest : List Byte) (env : Env), rest.length = f.dlc.toNat - 8 ∧
      exec (.encodeFrame f) s = .next { s with env := env, results := s.results ++ [.bytes (frameBytes f ++ rest)] })

/-- R237: `decodeFrame` gives the identifier with the remote flag of the control byte, and the length, or `MalformedFrame`
for a length field above 8. -/
def Obligations.DecodeFrame : Prop :=
  ∀ (s : State) (sidh sidl eid8 eid0 dlc ctrl : Byte),
    exec (.decodeFrame sidh sidl eid8 eid0 dlc ctrl) s =
      if (dlc &&& 0x0F).toNat > 8 then .next { s with results := s.results ++ [.code .malformedFrame] }
      else .next { s with results := s.results ++ [.idDlc
        (unpackId sidh sidl eid8 eid0 ||| if ctrl.getLsbD 3 then 0x40000000 else 0) (dlc &&& 0x0F)] }

/-- R238: decoding the header of an encoded frame, with the remote flag in the control byte, gives back the identifier value,
the format flag, the remote flag and the length, and the payload stands after the header. -/
def Obligations.FrameRoundTrip : Prop :=
  ∀ (s : State) (f : Frame) (ctrl : Byte), f.dlc.toNat ≤ 8 → ctrl.getLsbD 3 = f.canId.getLsbD 30 →
    ∃ (b0 b1 b2 b3 b4 : Byte) (payload : List Byte),
      exec (.encodeFrame f) s = .next { s with results := s.results ++ [.bytes ([b0, b1, b2, b3, b4] ++ payload)] } ∧
      exec (.decodeFrame b0 b1 b2 b3 b4 ctrl) s = .next { s with results := s.results ++ [.idDlc
        (f.canId &&& (0xC0000000 ||| if f.canId.getLsbD 31 then 0x1FFFFFFF else 0x7FF)) f.dlc] } ∧
      payload.length = f.dlc.toNat ∧ ∀ i, i < f.dlc.toNat → payload[i]? = f.data.toList[i]?

/-! ## Filters, masks and the default configuration -/

/-- R261 and R262: in Configuration mode, or from another mode with the chip taking Configuration before the first poll (R204,
R205), `setFilter` and `setMask` write the packed identifier to the block's four registers (a mask has no bit 3 in SIDL), return
`Ok` and leave the chip in Configuration mode. -/
def Obligations.SetFilterAndMask : Prop :=
  (∀ (s : State) (f : FilterId) (ext : Bool) (v : Ident), s.Inv → s.modifies →
      (s.quiet 3 ∧ s.inConfiguration) ∨ s.prompt 3 →
    ∃ t, exec (.setFilter f ext v) s = .next t ∧
      (∀ i, i < 4 → some (t.reg ((filterBase f).toNat + i)) = (packIdBytes ext v)[i]?) ∧
      t.reg 0x0F = (s.reg 0x0F &&& 0x1F) ||| 0x80 ∧ t.reg 0x0E = (s.reg 0x0E &&& 0x1F) ||| 0x80 ∧
      SameRegs (0x0F :: 0x0E :: blockAt (filterBase f)) s t ∧ t.inConfiguration ∧ t.int = s.int ∧ t.aborting = s.aborting ∧
      Issued s t [[0x05, 0x0F, 0xE0, 0x80], [0x03, 0x0E, 0x00], 0x02 :: filterBase f :: packIdBytes ext v] ∧
      RunAfter 2 s t ∧ t.results = s.results ++ [.code .ok]) ∧
  (∀ (s : State) (m : MaskId) (ext : Bool) (v : Ident), s.Inv → s.modifies →
      (s.quiet 3 ∧ s.inConfiguration) ∨ s.prompt 3 →
    ∃ t, exec (.setMask m ext v) s = .next t ∧
      (∀ i, i < 4 → some (t.reg ((maskBase m).toNat + i)) =
        (packIdBytes ext v)[i]?.map (· &&& if i = 1 then 0xE3 else 0xFF)) ∧
      t.reg 0x0F = (s.reg 0x0F &&& 0x1F) ||| 0x80 ∧ t.reg 0x0E = (s.reg 0x0E &&& 0x1F) ||| 0x80 ∧
      SameRegs (0x0F :: 0x0E :: blockAt (maskBase m)) s t ∧ t.inConfiguration ∧ t.int = s.int ∧ t.aborting = s.aborting ∧
      Issued s t [[0x05, 0x0F, 0xE0, 0x80], [0x03, 0x0E, 0x00], 0x02 :: maskBase m :: packIdBytes ext v] ∧
      RunAfter 2 s t ∧ t.results = s.results ++ [.code .ok])

/-- R264 and R265: from Configuration mode, with no failure and no step of another agent, the default configuration is 32
transactions and no sleep, and leaves the state of R265, where TXBnCTRL is 0x00 whatever failure flag was set before
(assumption 25). -/
def Obligations.DefaultConfiguration : Prop :=
  ∀ (s : State), s.Inv → s.modifies → s.quiet 32 → s.inConfiguration →
    ∃ (t : State) (es : List Entry), exec .applyDefaultConfiguration s = .next t ∧
      t.results = s.results ++ [.code .ok] ∧ t.transcript = s.transcript ++ es ∧ es.length = 32 ∧ HostServed s t ∧ t.log = s.log ∧
      t.sleeps = s.sleeps ∧ t.settle = s.settle ∧ t.Inv ∧
      (∀ slot, t.reg (txCtrl slot).toNat = 0x00 ∧ ∀ a ∈ txBody slot, t.reg a = 0x00) ∧
      t.reg 0x60 = (s.reg 0x60 &&& 0x09) ||| 0x06 ∧ t.reg 0x70 = s.reg 0x70 &&& 0x0F ∧ t.reg 0x2B = 0xA3 ∧
      (∀ a ∈ [0x00, 0x01, 0x02, 0x03, 0x04, 0x06, 0x07, 0x08, 0x09, 0x0A, 0x0B, 0x10, 0x11, 0x12, 0x13, 0x14, 0x15, 0x16,
          0x17, 0x18, 0x19, 0x1A, 0x1B, 0x20, 0x21, 0x22, 0x23, 0x24, 0x25, 0x26, 0x27], t.reg a = 0x00) ∧
      t.reg 0x05 = 0x08 ∧ t.inConfiguration ∧ t.reg 0x0F = (s.reg 0x0F &&& 0x1F) ||| 0x80 ∧
      (∀ a ∈ [0x0C, 0x0D, 0x1C, 0x1D, 0x28, 0x29, 0x2A, 0x2C, 0x2D], t.reg a = s.reg a) ∧
      (∀ slot : RxSlot, ∀ i, i < 13 → t.reg ((rxSidh slot).toNat + i) = s.reg ((rxSidh slot).toNat + i))

/-! ## The buffers -/

/-- R281: whatever the other agents do and whatever fails, `send` of an admitted length is its three transactions, and its
result is what the last of them shows; a length above 8 is `MalformedFrame` with no transaction. -/
def Obligations.SendTrace : Prop :=
  (∀ (s : State) (slot : TxSlot) (f : Frame), f.dlc.toNat > 8 →
    exec (.send slot f) s = .next { s with results := s.results ++ [.code .malformedFrame] } ∧
    exec (.sendAny f) s = .next { s with results := s.results ++ [.code .malformedFrame] }) ∧
  (∀ (s : State) (slot : TxSlot) (f : Frame), f.dlc.toNat ≤ 8 →
    ∃ (t : State) (e1 e2 e3 : Entry), exec (.send slot f) s = .next t ∧
      t.transcript = s.transcript ++ [e1, e2, e3] ∧ e1.out = 0x02 :: txSidh slot :: frameBytes f ∧
      e1.out.length = 7 + f.dlc.toNat ∧ e2.out = [0x05, txCtrl slot, 0x08, 0x08] ∧ e3.out = [0x03, txCtrl slot, 0x00] ∧
      t.results = s.results ++
        [.code (if e3.inb.getD 2 0 &&& 0x70 ≠ 0 then .transmitFailure else .ok)] ∧
      t.sleeps = s.sleeps ∧ t.refused = s.refused ∧ t.cloudUp = s.cloudUp ∧ t.calls = s.calls)

/-- R281 and R87: `send` on a free slot stores the encoded frame in the buffer, sets TXREQ, clears the failure flags, and
returns `Ok`; nothing else changes. -/
def Obligations.SendOnAFreeSlot : Prop :=
  ∀ (s : State) (slot : TxSlot) (f : Frame), s.Inv → s.modifies → s.quiet 3 → f.dlc.toNat ≤ 8 → s.txPending slot = false →
    ∃ t, exec (.send slot f) s = .next t ∧
      (∀ i, i < 5 + f.dlc.toNat → some (t.reg ((txSidh slot).toNat + i)) = (frameBytes f)[i]?) ∧
      t.reg (txCtrl slot).toNat = (s.reg (txCtrl slot).toNat &&& 0x03) ||| 0x08 ∧
      (∀ x, x ∈ t.aborting ↔ x ∈ s.aborting ∧ x ≠ slot) ∧
      SameRegs ((txCtrl slot).toNat :: (List.range (5 + f.dlc.toNat)).map ((txSidh slot).toNat + ·)) s t ∧ t.int = s.int ∧
      Issued s t [0x02 :: txSidh slot :: frameBytes f, [0x05, txCtrl slot, 0x08, 0x08], [0x03, txCtrl slot, 0x00]] ∧
      RunAfter 2 s t ∧ t.results = s.results ++ [.code .ok]

/-- R283: `sendAny` reads the control registers in the order TXB0, TXB1, TXB2 and sends on the first free slot; with all
three pending it is `AllBuffersBusy` after three reads, and nothing changes. -/
def Obligations.SendAnyTakesTheFirstFreeSlot : Prop :=
  (∀ (s : State) (slot : TxSlot) (f : Frame), s.Inv → s.modifies → s.quiet 6 → f.dlc.toNat ≤ 8 → s.txPending slot = false →
    (∀ x, slotIndex x < slotIndex slot → s.txPending x = true) →
    ∃ t, exec (.sendAny f) s = .next t ∧
      (∀ i, i < 5 + f.dlc.toNat → some (t.reg ((txSidh slot).toNat + i)) = (frameBytes f)[i]?) ∧
      t.reg (txCtrl slot).toNat = (s.reg (txCtrl slot).toNat &&& 0x03) ||| 0x08 ∧
      (∀ x, x ∈ t.aborting ↔ x ∈ s.aborting ∧ x ≠ slot) ∧
      SameRegs ((txCtrl slot).toNat :: (List.range (5 + f.dlc.toNat)).map ((txSidh slot).toNat + ·)) s t ∧ t.int = s.int ∧
      Issued s t (([.txb0, .txb1, .txb2].take (slotIndex slot + 1)).map (fun x => [0x03, txCtrl x, 0x00]) ++
        [0x02 :: txSidh slot :: frameBytes f, [0x05, txCtrl slot, 0x08, 0x08], [0x03, txCtrl slot, 0x00]]) ∧
      RunAfter (slotIndex slot + 3) s t ∧ t.results = s.results ++ [.code .ok]) ∧
  (∀ (s : State) (f : Frame), s.Inv → s.quiet 3 → f.dlc.toNat ≤ 8 → (∀ x, s.txPending x = true) →
    ∃ t, exec (.sendAny f) s = .next t ∧ SameRegs [] s t ∧ t.int = s.int ∧ t.aborting = s.aborting ∧
      Issued s t [[0x03, 0x30, 0x00], [0x03, 0x40, 0x00], [0x03, 0x50, 0x00]] ∧ RunAfter 2 s t ∧
      t.results = s.results ++ [.code .allBuffersBusy])

/-- R284: `read` of a pending buffer with an admitted length returns the frame it holds, in four transactions, and clears its
flag and nothing else. R382: of a buffer that is not pending it reads draws, any bytes at all: it returns the frame that they
make, in four transactions, or `MalformedFrame` after one, and changes no register (that the byte of RXBnCTRL is a draw too is
R284's corner case; assumption 28). Whatever the other agents do and whatever fails, it is these transactions, and its result is
what they show. -/
def Obligations.ReadReturnsTheFrame : Prop :=
  (∀ (s : State) (slot : RxSlot), s.Inv → s.modifies → s.quiet 4 → s.rxPending slot = true → (s.rxDlc slot).toNat ≤ 8 →
    ∃ t f, exec (.read slot) s = .next t ∧ s.Holds slot f ∧ t.results = s.results ++ [.frame f] ∧ Consumed s t slot ∧
      Issued s t (readOuts (s.rxDlc slot) slot) ∧ HostAfter 3 s t ∧ t.log = s.log) ∧
  (∀ (s : State) (slot : RxSlot), s.Inv → s.modifies → s.quiet 4 → s.rxPending slot = false →
    (∃ t, exec (.read slot) s = .next t ∧ Consumed s t slot ∧ t.log = s.log) ∧
    ∀ (h : Vector Byte 5) (c : Byte) (d : Vector Byte 8), ∃ draws t,
      exec (.read slot) { s with env := { s.env with draws := draws } } = .next t ∧ Consumed s t slot ∧ t.log = s.log ∧
      if (h[4] &&& 0x0F).toNat ≤ 8 then
        t.results = s.results ++
            [.frame { canId := rxIdent h[0] h[1] h[2] h[3] c, dlc := h[4] &&& 0x0F, data := d }] ∧
          Issued s t (readOuts (h[4] &&& 0x0F) slot) ∧ HostAfter 3 s t
      else t.results = s.results ++ [.code .malformedFrame] ∧ Sent s t [0x03, rxSidh slot, 0, 0, 0, 0, 0] ∧ SameHost s t) ∧
  (∀ (s : State) (slot : RxSlot),
    ∃ (t : State) (e1 : Entry), exec (.read slot) s = .next t ∧ e1.out = [0x03, rxSidh slot, 0, 0, 0, 0, 0] ∧
      t.sleeps = s.sleeps ∧ t.refused = s.refused ∧ t.cloudUp = s.cloudUp ∧ t.calls = s.calls ∧
      if (e1.inb.getD 6 0 &&& 0x0F).toNat > 8 then
        t.transcript = s.transcript ++ [e1] ∧ t.results = s.results ++ [.code .malformedFrame]
      else
        ∃ (e2 e3 e4 : Entry) (f : Frame), t.transcript = s.transcript ++ [e1, e2, e3, e4] ∧
          [e1, e2, e3, e4].map Entry.out = readOuts (e1.inb.getD 6 0 &&& 0x0F) slot ∧
          t.results = s.results ++ [.frame f] ∧
          f.canId = rxIdent (e1.inb.getD 2 0) (e1.inb.getD 3 0) (e1.inb.getD 4 0) (e1.inb.getD 5 0) (e2.inb.getD 2 0) ∧
          f.dlc = e1.inb.getD 6 0 &&& 0x0F ∧ f.data.toList.take f.dlc.toNat = e3.inb.drop 2)

/-- R284, R286 and R383: `read` of a pending buffer whose length field is above 8 is `MalformedFrame` after one transaction,
and the flag stays set; so is `readAnyPending` while that buffer is RXB0, whatever RXB1 holds. -/
def Obligations.MalformedFrameSticks : Prop :=
  (∀ (s : State) (slot : RxSlot), s.clear → s.rxPending slot = true → (s.rxDlc slot).toNat > 8 →
    ∃ inb env, exec (.read slot) s = .next { s with
      transcript := s.transcript ++ [{ out := [0x03, rxSidh slot, 0, 0, 0, 0, 0], inb := inb, ok := true }], env := env
      results := s.results ++ [.code .malformedFrame] }) ∧
  (∀ (s : State), s.quiet 2 → s.rxPending .rxb0 = true → (s.rxDlc .rxb0).toNat > 8 →
    ∃ es env q n w, es.map Entry.out = [[0xA0, 0x00], [0x03, 0x61, 0, 0, 0, 0, 0]] ∧
      exec .readAnyPending s = .next { s with
        transcript := s.transcript ++ es, env := env, queue := q, edges := n, waits := w
        results := s.results ++ [.code .malformedFrame] } ∧ Served 1 s { s with queue := q, edges := n, waits := w })

/-- R285: `readAnyPending` reads RXB0 if it is pending, else RXB1; with neither it is `NoMessage` after one transaction. -/
def Obligations.ReadAnyPending : Prop :=
  (∀ (s : State) (slot : RxSlot), s.Inv → s.modifies → s.quiet 5 → s.rxPending slot = true →
    (slot = .rxb1 → s.rxPending .rxb0 = false) → (s.rxDlc slot).toNat ≤ 8 →
    ∃ t f, exec .readAnyPending s = .next t ∧ s.Holds slot f ∧ t.results = s.results ++ [.frame f] ∧ Consumed s t slot ∧
      Issued s t ([0xA0, 0x00] :: readOuts (s.rxDlc slot) slot) ∧ HostAfter 4 s t ∧ t.log = s.log) ∧
  (∀ (s : State), s.clear → s.rxPending .rxb0 = false → s.rxPending .rxb1 = false →
    ∃ inb env, exec .readAnyPending s = .next { s with
      transcript := s.transcript ++ [{ out := [0xA0, 0x00], inb := inb, ok := true }], env := env
      results := s.results ++ [.code .noMessage] })

/-! ## The interrupt path -/

/-- R339 and R340: the Interrupt Bridge appends a `CanMessage` event without a payload to a queue of fewer than ten events,
and drops it otherwise; it does nothing else. R344: under `FallingEdge` it runs once for each change of `INT` from deasserted
to asserted, and under `LowLevel` while `INT` is asserted. R345: it comes between any two steps, so it may be late, and a change
may be put off for any number of scheduling points; one that is not put off is served by the end of the next (`Served`: this
form of R345, and that under `LowLevel` the bridge runs at the end of the point, are the model's choice, assumption 15). R340:
another producer's event is appended in the same way; one of the tag `CanMessage` it does not send (assumption 29). No step of
another agent takes an event out of the queue. -/
def Obligations.OnInterrupt : Prop :=
  (∀ (s : State), exec .onInterrupt s = .next { s with
    queue := if s.queue.length < 10 then s.queue ++ [{ tag := .canMessage, payload := none }] else s.queue
    results := s.results ++ [.unit] }) ∧
  (∀ (s : State), s.params.intTrigger = .fallingEdge → applyMove .bridge s =
    match s.waits with
    | [] => if s.edges = 0 then s else { s with queue := pushed s.queue canEvent, edges := s.edges - 1 }
    | _ :: rest => { s with queue := pushed s.queue canEvent, waits := rest }) ∧
  (∀ (s : State), s.params.intTrigger = .lowLevel → applyMove .bridge s =
    if s.int then { s with queue := pushed s.queue canEvent } else s) ∧
  (∀ (s : State) (n : Nat), applyMove (.putOff n) s =
    if s.edges = 0 then s else { s with edges := s.edges - 1, waits := s.waits ++ [n] }) ∧
  (∀ (s : State) (e : Event), applyMove (.produce e) s =
    if e.tag = .canMessage then s else { s with queue := pushed s.queue e }) ∧
  (∀ (s : State), s.queue <+: s.schedule.queue ∧
    (∀ (ms : List Move) (rest : List (List Move)), s.env.turns = ms :: rest →
      Served 1 (applyMoves ms { s with env := { s.env with turns := rest } }) s.schedule) ∧
    (s.params.intTrigger = .fallingEdge → s.schedule.edges = 0) ∧
    (s.params.intTrigger = .lowLevel → s.schedule.int = true →
      canEvent ∈ s.schedule.queue ∨ 10 ≤ s.schedule.queue.length))

/-- R343: the dispatcher's arm reads one frame as `readAnyPending` does, and publishes it, in the characters of the
template of R343 (`payloadText`), exactly when the cloud link is up; with no message, and with a length field above 8 (R383), it
does nothing further: nothing is published, and the flag stays set. -/
def Obligations.OnCanMessage : Prop :=
  (∀ (s : State) (slot : RxSlot), s.Inv → s.modifies → s.quiet 5 → s.rxPending slot = true →
    (slot = .rxb1 → s.rxPending .rxb0 = false) → (s.rxDlc slot).toNat ≤ 8 →
    ∃ t f, exec .onCanMessage s = .next t ∧ s.Holds slot f ∧ t.results = s.results ++ [.unit] ∧ Consumed s t slot ∧
      Issued s t ([0xA0, 0x00] :: readOuts (s.rxDlc slot) slot) ∧
      HostAfter 4 s t ∧
      t.log = if s.cloudUp then s.log ++ [.publish (payloadText f)] else s.log) ∧
  (∀ (s : State), s.clear → s.rxPending .rxb0 = false → s.rxPending .rxb1 = false →
    ∃ inb env, exec .onCanMessage s = .next { s with
      transcript := s.transcript ++ [{ out := [0xA0, 0x00], inb := inb, ok := true }], env := env
      results := s.results ++ [.unit] }) ∧
  (∀ (s : State) (slot : RxSlot), s.quiet 2 → s.rxPending slot = true → (slot = .rxb1 → s.rxPending .rxb0 = false) →
    (s.rxDlc slot).toNat > 8 →
    ∃ es env q n w, es.map Entry.out = [[0xA0, 0x00], [0x03, rxSidh slot, 0, 0, 0, 0, 0]] ∧
      exec .onCanMessage s = .next { s with
        transcript := s.transcript ++ es, env := env, queue := q, edges := n, waits := w
        results := s.results ++ [.unit] } ∧ Served 1 s { s with queue := q, edges := n, waits := w })

/-! ## Start-up -/

/-- R333, R373, R374 and R394: `initialise` without an attached device is `InitializationFailure`, and for a pair without an
entry `ConfigurationError`; neither does anything. With an entry, and with the chip taking each requested mode before the
first poll and no failure, it is 40 transactions and one sleep of 10 ms, which end the settle time (assumption 6),
returns `Ok`, and leaves the state of R374. -/
def Obligations.Initialise : Prop :=
  (∀ (s : State) (clock : Clock) (rate : Rate),
    exec (.initialise clock rate false) s = .next { s with results := s.results ++ [.code .initializationFailure] }) ∧
  (∀ (s : State) (clock : Clock) (rate : Rate),
    match bitTiming clock rate with
    | none => exec (.initialise clock rate true) s = .next { s with results := s.results ++ [.code .configurationError] }
    | some (c1, c2, c3) => s.Inv → s.modifies → s.prompt 40 →
      ∃ t, exec (.initialise clock rate true) s = .next t ∧
        t.results = s.results ++ [.code .ok] ∧ t.sleeps = s.sleeps ++ [10] ∧ t.settle = 0 ∧ HostServed s t ∧
        t.log = s.log ∧ (∃ es, t.transcript = s.transcript ++ es ∧ es.length = 40) ∧ t.Inv ∧
        t.opmod = 0x00 ∧ t.reg 0x0F = 0x07 ∧ t.reg 0x2A = c1 ∧ t.reg 0x29 = c2 ∧ t.reg 0x28 = c3 &&& 0xC7 ∧
        t.reg 0x2B = 0xA3 ∧ t.reg 0x2C = 0x00 ∧ t.int = false ∧ t.reg 0x60 = 0x06 ∧ t.reg 0x70 = 0x00 ∧
        t.reg 0x05 = 0x08 ∧ (∀ f, ∀ a ∈ blockAt (filterBase f), a ≠ 0x05 → t.reg a = 0x00) ∧
        (∀ m, ∀ a ∈ blockAt (maskBase m), t.reg a = 0x00) ∧
        (∀ slot, t.reg (txCtrl slot).toNat = 0x00 ∧ ∀ a ∈ txBody slot, t.reg a = 0x00))

/-! ## The other agents -/

/-- R92 and R99: whatever the other agents do, they never set TXREQ, never clear a CANINTF flag or an overflow flag of EFLG,
never change a Caller-owned field, and never change a pending receive buffer. -/
def Obligations.AgentsKeepTheirBounds : Prop :=
  ∀ (s : State) (ms : List Move), s.Inv →
    (∀ slot, (applyMoves ms s).reg (txCtrl slot).toNat &&& ~~~s.reg (txCtrl slot).toNat &&& 0x08 = 0) ∧
    s.reg 0x2C &&& ~~~(applyMoves ms s).reg 0x2C = 0 ∧
    s.reg 0x2D &&& ~~~(applyMoves ms s).reg 0x2D &&& 0xC0 = 0 ∧
    (∀ a ∈ [0x0C, 0x28, 0x29, 0x2A, 0x2B], (applyMoves ms s).reg a = s.reg a) ∧
    (∀ f, ∀ a ∈ blockAt (filterBase f), (applyMoves ms s).reg a = s.reg a) ∧
    (∀ m, ∀ a ∈ blockAt (maskBase m), (applyMoves ms s).reg a = s.reg a) ∧
    (∀ slot, ∀ a ∈ txBody slot, (applyMoves ms s).reg a = s.reg a) ∧
    (∀ slot, (applyMoves ms s).reg (txCtrl slot).toNat &&& 0x03 = s.reg (txCtrl slot).toNat &&& 0x03) ∧
    (applyMoves ms s).reg 0x0D &&& 0x07 = s.reg 0x0D &&& 0x07 ∧
    (applyMoves ms s).reg 0x0F &&& 0x1F = s.reg 0x0F &&& 0x1F ∧
    (applyMoves ms s).reg 0x60 &&& 0x66 = s.reg 0x60 &&& 0x66 ∧
    (applyMoves ms s).reg 0x70 &&& 0x60 = s.reg 0x70 &&& 0x60 ∧
    (∀ slot, s.rxPending slot = true → (applyMoves ms s).rxPending slot = true ∧
      (applyMoves ms s).reg (rxCtrl slot).toNat = s.reg (rxCtrl slot).toNat ∧
      ∀ i, i < 13 → (applyMoves ms s).reg ((rxSidh slot).toNat + i) = s.reg ((rxSidh slot).toNat + i))

/-- R93, R94, R96 and R98: one step of another agent sets OPMOD only to the requested mode, or to ListenOnly from Sleep, and
REQOP only to ListenOnly from Sleep; a frame is received only in Normal, ListenOnly and Loopback mode, and a request to
transmit is served only in Normal and Loopback mode. R95: an overflow flag is set only in a mode that receives, with its buffer
pending, that of RXB0 only without rollover. R97: while TXBO is set no transmission completes. What each step leaves is `Leaves`:
the frame that a reception stores, with its remote flag and its filter, the flags of a transmission that completes, is lost, fails
or is aborted, the error state, the wake-up, the pins; a step whose condition does not hold changes nothing. A step of the
Controller agent moves `INT` with the flags and nothing else of the host. EWARN of EFLG is TXWAR or RXWAR (R30); that
TEC, REC and EFLG bits 5:1 may take any values, related to each other or not, where R97 has the bits consistent with the counters,
is the model's choice, assumption 19. That a step's condition on RXB0's filter is that FILHIT
can name it is R43's one bit; the request to abort is the model's own record (assumption 14). -/
def Obligations.AgentsFollowTheMode : Prop :=
  ∀ (s : State) (m : Move), s.Inv →
    ((applyMove m s).opmod = s.opmod ∨
      ((applyMove m s).opmod = s.reqop ∧ s.reqop ∈ [0x00, 0x20, 0x40, 0x60, 0x80]) ∨
      (s.opmod = 0x20 ∧ (applyMove m s).opmod = 0x60)) ∧
    ((applyMove m s).reqop = s.reqop ∨ (s.opmod = 0x20 ∧ (applyMove m s).reqop = 0x60)) ∧
    (s.opmod ∉ [0x00, 0x40, 0x60] →
      (applyMove m s).reg 0x2C &&& 0x03 = s.reg 0x2C &&& 0x03 ∧
      ∀ slot : RxSlot, ∀ i, i < 13 → (applyMove m s).reg ((rxSidh slot).toNat + i) = s.reg ((rxSidh slot).toNat + i)) ∧
    (s.opmod ∉ [0x00, 0x40] →
      (applyMove m s).reg 0x2C &&& 0x1C = s.reg 0x2C &&& 0x1C ∧
      ∀ slot, (applyMove m s).reg (txCtrl slot).toNat &&& 0x08 = s.reg (txCtrl slot).toNat &&& 0x08) ∧
    ((applyMove m s).reg 0x2D &&& ~~~s.reg 0x2D &&& 0x40 ≠ 0 →
      s.opmod ∈ [0x00, 0x40, 0x60] ∧ s.rxPending .rxb0 = true ∧ s.reg 0x60 &&& 0x04 = 0) ∧
    ((applyMove m s).reg 0x2D &&& ~~~s.reg 0x2D &&& 0x80 ≠ 0 →
      s.opmod ∈ [0x00, 0x40, 0x60] ∧ s.rxPending .rxb1 = true) ∧
    (s.reg 0x2D &&& 0x20 ≠ 0 → (applyMove m s).reg 0x2C &&& 0x1C = s.reg 0x2C &&& 0x1C) ∧
    Leaves m s (applyMove m s) ∧
    (ofController m = true → LineFollows s (applyMove m s) ∧ SameRun s (applyMove m s)) ∧
    (applyMove m s).transcript = s.transcript ∧ (applyMove m s).log = s.log ∧ (applyMove m s).results = s.results ∧
    (applyMove m s).params = s.params
end

