-- ==== Sys2Proof/Laws/Map.lean ====
section
/-! SUPPORT. What the map of this model says: one equation for each name of `chipMap` that a proof unfolds, true by `rfl`. A
proof about addresses rewrites with these and sees the spec's numbers. -/

namespace Sys2Proof.Machine

theorem canon_eq (a : Nat) : canon a = if a % 16 = 14 then 0x0E else if a % 16 = 15 then 0x0F else a := rfl

theorem blockOk_eq (addr : Byte) (n : Nat) : blockOk addr n = (decide (addr.toNat < 128) && decide (addr.toNat + n ≤ 128)) := rfl

theorem loadOk_eq (data : List Byte) : loadOk data = decide (data.length ≤ 13) := rfl

theorem bitTiming_eq (clock : Clock) (rate : Rate) :
    bitTiming clock rate = if isRate rate then Config.bitTiming clock rate else none := rfl

theorem registerAddrs_eq : registerAddrs =
    (List.range 128).filter fun a => decide (a % 16 < 14) || decide (a = 14) || decide (a = 15) := rfl

theorem isTx_eq (a : Nat) : isTx a = (decide (3 ≤ a / 16) && decide (a / 16 < 6) && decide (a % 16 < 14)) := rfl

theorem isRx_eq (a : Nat) : isRx a = (decide (6 ≤ a / 16) && decide (a / 16 < 8) && decide (a % 16 < 14)) := rfl

theorem isTxCtrl_eq (a : Nat) : isTxCtrl a = (isTx a && decide (a % 16 = 0)) := rfl

theorem normal_eq (a : Nat) (v : Byte) :
    normal a v = if a = 0x60 then (v &&& 0x6D) ||| ((v &&& 0x04) >>> 1) else v &&& implMask a := rfl

theorem resetDraw_eq (a : Nat) (b : Byte) : resetDraw a b = normal a (if a = 0x0D then b &&& 0x38 else b) := rfl

end Sys2Proof.Machine
end

