-- ==== Sys2Proof/Laws/Memory.lean ====
section
/-! SUPPORT. The laws of the register file: a read after a write, and that every operation keeps the canonical form. -/

namespace Sys2Proof.Machine

/-! ## Addresses -/

theorem mem_registerAddrs {a : Nat} :
    a ∈ registerAddrs ↔ a < 128 ∧ (a % 16 < 14 ∨ a = 14 ∨ a = 15) := by
  simp [registerAddrs_eq, List.mem_filter, or_assoc]

theorem canon_mem {a : Nat} (h : a < 128) : canon a ∈ registerAddrs := by
  rw [mem_registerAddrs, canon_eq]
  split
  · decide
  · split
    · decide
    · omega

theorem canon_of_mem {a : Nat} (h : a ∈ registerAddrs) : canon a = a := by
  rw [mem_registerAddrs] at h
  rw [canon_eq]
  split
  · omega
  · split <;> omega

@[simp] theorem canon_canon (a : Nat) : canon (canon a) = canon a := by
  rw [canon_eq a]
  split
  · rfl
  · split
    · rfl
    · simp [canon_eq, *]

theorem normal_normal (a : Nat) (v : Byte) : normal a (normal a v) = normal a v := by
  simp only [normal_eq]
  split
  · revert v; decide
  · rw [BitVec.and_assoc, BitVec.and_self]

theorem normal_resetDraw (a : Nat) (b : Byte) : normal a (resetDraw a b) = resetDraw a b :=
  normal_normal a _

/-! ## Look-up -/

theorem Memory.lookup_insert_self (m : Memory) (a : Nat) (v : Byte) :
    Memory.lookup (Memory.insert m a v) a = some v := by
  induction m with
  | nil => simp [Memory.insert, Memory.lookup]
  | cons c r ih =>
    obtain ⟨b, w⟩ := c
    simp only [Memory.insert]
    split
    · simp [Memory.lookup]
    · split
      · simp [Memory.lookup]
      · simp [Memory.lookup, *]

theorem Memory.lookup_insert_other (m : Memory) {a b : Nat} (v : Byte) (h : b ≠ a) :
    Memory.lookup (Memory.insert m a v) b = Memory.lookup m b := by
  induction m with
  | nil => simp [Memory.insert, Memory.lookup, h]
  | cons c r ih =>
    obtain ⟨x, w⟩ := c
    simp only [Memory.insert]
    split
    · simp [Memory.lookup, h]
    · split
      · subst_vars; simp [Memory.lookup, h]
      · simp only [Memory.lookup, ih]

theorem Memory.lookup_erase_self (m : Memory) (a : Nat) : Memory.lookup (Memory.erase m a) a = none := by
  induction m with
  | nil => rfl
  | cons c r ih =>
    obtain ⟨b, w⟩ := c
    simp only [Memory.erase]
    split
    · exact ih
    · simp [Memory.lookup, *]

theorem Memory.lookup_erase_other (m : Memory) {a b : Nat} (h : b ≠ a) :
    Memory.lookup (Memory.erase m a) b = Memory.lookup m b := by
  induction m with
  | nil => rfl
  | cons c r ih =>
    obtain ⟨x, w⟩ := c
    simp only [Memory.erase]
    split
    · subst_vars; simp [Memory.lookup, h, ih]
    · simp only [Memory.lookup, ih]

theorem Memory.mem_erase {m : Memory} {a : Nat} {c : Host.Cell} (h : c ∈ Memory.erase m a) : c ∈ m := by
  induction m with
  | nil => exact h
  | cons x r ih =>
    obtain ⟨b, w⟩ := x
    simp only [Memory.erase] at h
    split at h
    · exact List.mem_cons_of_mem _ (ih h)
    · rcases List.mem_cons.1 h with h | h
      · rw [h]; exact List.mem_cons_self
      · exact List.mem_cons_of_mem _ (ih h)

/-- A read after a write to the same address gives the byte written. -/
@[simp] theorem Memory.read_write_self (m : Memory) (a : Nat) (v : Byte) :
    Memory.read (Memory.write m a v) a = v := by
  unfold Memory.read Memory.write
  split
  · rw [Memory.lookup_erase_self]; simp [Memory.unlisted, *]
  · rw [Memory.lookup_insert_self]; rfl

/-- A write leaves every other address alone. -/
theorem Memory.read_write_other (m : Memory) {a b : Nat} (v : Byte) (h : b ≠ a) :
    Memory.read (Memory.write m a v) b = Memory.read m b := by
  unfold Memory.read Memory.write
  split
  · rw [Memory.lookup_erase_other _ h]
  · rw [Memory.lookup_insert_other _ _ h]

/-! ## The canonical form -/

theorem Memory.mem_insert {m : Memory} {a : Nat} {v : Byte} {c : Host.Cell} (h : c ∈ Memory.insert m a v) :
    c = (a, v) ∨ c ∈ m := by
  induction m with
  | nil => simpa [Memory.insert] using h
  | cons x r ih =>
    obtain ⟨b, w⟩ := x
    simp only [Memory.insert] at h
    split at h
    · simpa [or_assoc] using h
    · split at h
      · simp at h; rcases h with h | h <;> simp [h]
      · simp only [List.mem_cons] at h ⊢
        rcases h with h | h
        · exact .inr (.inl h)
        · rcases ih h with h | h
          · exact .inl h
          · exact .inr (.inr h)

theorem Memory.rising_cons {a : Nat} {v : Byte} {r : Memory} :
    Memory.rising ((a, v) :: r) = true ↔ (∀ c ∈ r, a < c.1) ∧ Memory.rising r = true := by
  simp [Memory.rising]

theorem Memory.rising_insert {m : Memory} (a : Nat) (v : Byte) (h : Memory.rising m = true) :
    Memory.rising (Memory.insert m a v) = true := by
  induction m with
  | nil => simp [Memory.insert, Memory.rising]
  | cons x r ih =>
    obtain ⟨b, w⟩ := x
    rw [Memory.rising_cons] at h
    simp only [Memory.insert]
    split
    · next hab =>
      rw [Memory.rising_cons, Memory.rising_cons]
      refine ⟨?_, h⟩
      intro c hc
      rcases List.mem_cons.1 hc with hc | hc
      · rw [hc]; exact hab
      · exact lt_trans hab (h.1 c hc)
    · split
      · next hab => subst hab; rw [Memory.rising_cons]; exact h
      · next h1 h2 =>
        rw [Memory.rising_cons]
        refine ⟨?_, ih h.2⟩
        intro c hc
        rcases Memory.mem_insert hc with hc | hc
        · rw [hc]; exact lt_of_le_of_ne (not_lt.1 h1) (fun e => h2 e.symm)
        · exact h.1 c hc

theorem Memory.rising_erase {m : Memory} (a : Nat) (h : Memory.rising m = true) :
    Memory.rising (Memory.erase m a) = true := by
  induction m with
  | nil => rfl
  | cons x r ih =>
    obtain ⟨b, w⟩ := x
    rw [Memory.rising_cons] at h
    simp only [Memory.erase]
    split
    · exact ih h.2
    · rw [Memory.rising_cons]
      exact ⟨fun c hc => h.1 c (Memory.mem_erase hc), ih h.2⟩

theorem Memory.cellOk_iff {a : Nat} {v : Byte} :
    Memory.cellOk (a, v) = true ↔ a ∈ registerAddrs ∧ normal a v = v ∧ resetValue a ≠ some v := by
  simp [Memory.cellOk, and_assoc]

theorem Memory.wf_iff {m : Memory} :
    Memory.wf m = true ↔ Memory.rising m = true ∧ (∀ c ∈ m, Memory.cellOk c = true) ∧
      ∀ a ∈ unspecifiedAddrs, (Memory.lookup m a).isSome = true := by
  simp [Memory.wf, and_assoc]

theorem resetValue_of_mem_unspecified {a : Nat} (h : a ∈ unspecifiedAddrs) : resetValue a = none := by
  simpa [unspecifiedAddrs] using (List.mem_filter.1 h).2

theorem mem_registerAddrs_of_unspecified {a : Nat} (h : a ∈ unspecifiedAddrs) : a ∈ registerAddrs :=
  (List.mem_filter.1 h).1

/-- Storing a byte that the register can hold keeps the canonical form. -/
theorem Memory.wf_write {m : Memory} {a : Nat} {v : Byte} (h : Memory.wf m = true) (ha : a ∈ registerAddrs)
    (hv : normal a v = v) : Memory.wf (Memory.write m a v) = true := by
  rw [Memory.wf_iff] at h ⊢
  obtain ⟨hr, hc, hu⟩ := h
  unfold Memory.write
  split
  · next hres =>
    refine ⟨Memory.rising_erase a hr, fun c h => hc c (Memory.mem_erase h), fun b hb => ?_⟩
    have hne : b ≠ a := by
      rintro rfl
      rw [resetValue_of_mem_unspecified hb] at hres
      cases hres
    rw [Memory.lookup_erase_other _ hne]
    exact hu b hb
  · next hres =>
    refine ⟨Memory.rising_insert a v hr, fun c h => ?_, fun b hb => ?_⟩
    · rcases Memory.mem_insert h with rfl | h
      · exact Memory.cellOk_iff.2 ⟨ha, hv, hres⟩
      · exact hc c h
    · by_cases hba : b = a
      · subst hba; rw [Memory.lookup_insert_self]; rfl
      · rw [Memory.lookup_insert_other _ _ hba]; exact hu b hb

set_option maxRecDepth 4000 in
theorem normal_resetValue_all :
    (registerAddrs.all fun a => match resetValue a with | some v => decide (normal a v = v) | none => true) = true := by
  decide

/-- A reset value holds only bits that its register has. -/
theorem normal_of_resetValue {a : Nat} {v : Byte} (ha : a ∈ registerAddrs) (hv : resetValue a = some v) :
    normal a v = v := by
  have h := List.all_eq_true.1 normal_resetValue_all a ha
  rw [hv] at h
  exact of_decide_eq_true h

/-- In the canonical form every register holds only bits that it has. -/
theorem Memory.normal_read {m : Memory} {a : Nat} (h : Memory.wf m = true) (ha : a ∈ registerAddrs) :
    normal a (Memory.read m a) = Memory.read m a := by
  rw [Memory.wf_iff] at h
  obtain ⟨-, hc, hu⟩ := h
  have key : ∀ (l : Memory) (v : Byte), (∀ c ∈ l, Memory.cellOk c = true) → Memory.lookup l a = some v →
      normal a v = v := by
    intro l v
    induction l with
    | nil => intro _ h; cases h
    | cons c r ih =>
      obtain ⟨b, w⟩ := c
      intro hl h
      unfold Memory.lookup at h
      split at h
      · next e => subst e; cases h; exact (Memory.cellOk_iff.1 (hl _ List.mem_cons_self)).2.1
      · exact ih (fun c h => hl c (List.mem_cons_of_mem _ h)) h
  unfold Memory.read
  cases hl : Memory.lookup m a with
  | some v => exact key m v hc hl
  | none =>
    by_cases hm : a ∈ unspecifiedAddrs
    · have := hu a hm; rw [hl] at this; cases this
    · have hne : resetValue a ≠ none := fun e => hm (List.mem_filter.2 ⟨ha, by simp [e]⟩)
      obtain ⟨v, hv⟩ := Option.ne_none_iff_exists'.1 hne
      simp only [Memory.unlisted, hv, Option.getD]
      exact normal_of_resetValue ha hv

/-! ## The register file after reset -/

theorem Memory.rising_map {l : List Nat} (f : Nat → Byte) (h : l.Pairwise (· < ·)) :
    Memory.rising (l.map fun a => (a, f a)) = true := by
  induction l with
  | nil => rfl
  | cons a r ih =>
    rw [List.pairwise_cons] at h
    rw [List.map_cons, Memory.rising_cons]
    refine ⟨?_, ih h.2⟩
    intro c hc
    obtain ⟨b, hb, rfl⟩ := List.mem_map.1 hc
    exact h.1 b hb

theorem unspecifiedAddrs_rising : unspecifiedAddrs.Pairwise (· < ·) :=
  (List.pairwise_lt_range.filter _).filter _

theorem Memory.lookup_map {l : List Nat} (f : Nat → Byte) {a : Nat} (h : a ∈ l) :
    Memory.lookup (l.map fun a => (a, f a)) a = some (f a) := by
  induction l with
  | nil => cases h
  | cons b r ih =>
    rw [List.map_cons]
    unfold Memory.lookup
    split
    · next e => rw [e]
    · next e => exact ih ((List.mem_cons.1 h).resolve_left e)

/-- A register file that lists a drawn byte for each register of unspecified reset, and nothing else, is canonical. -/
theorem Memory.wf_draws (f : Nat → Byte) (hf : ∀ a, normal a (f a) = f a) :
    Memory.wf (unspecifiedAddrs.map fun a => (a, f a)) = true := by
  rw [Memory.wf_iff]
  refine ⟨Memory.rising_map f unspecifiedAddrs_rising, ?_, fun a ha => by rw [Memory.lookup_map f ha]; rfl⟩
  intro c hc
  obtain ⟨a, ha, rfl⟩ := List.mem_map.1 hc
  exact Memory.cellOk_iff.2 ⟨mem_registerAddrs_of_unspecified ha, hf a,
    by rw [resetValue_of_mem_unspecified ha]; exact nofun⟩

theorem Memory.wf_powerOn : Memory.wf Memory.powerOn = true :=
  Memory.wf_draws (fun a => resetDraw a (Config.powerOnByte a)) fun a => normal_resetDraw a _

/-- The cells after `RESET`: the registers of the list, in order, each with a value it can hold. -/
theorem resetCells_eq_map (l : List Nat) (e : Env) (h : l.Nodup) :
    ∃ f : Nat → Byte, (∀ a, ∃ b, f a = resetDraw a b) ∧ (resetCells l e).1 = l.map fun a => (a, f a) := by
  induction l generalizing e with
  | nil => exact ⟨fun a => resetDraw a 0, fun a => ⟨0, rfl⟩, rfl⟩
  | cons x r ih =>
    rw [List.nodup_cons] at h
    obtain ⟨f, hf, hr⟩ := ih e.draw.2 h.2
    refine ⟨fun a => if a = x then resetDraw x e.draw.1 else f a, fun a => ?_, ?_⟩
    · dsimp only
      split
      · next e' => subst e'; exact ⟨_, rfl⟩
      · exact hf a
    · simp only [resetCells, List.map_cons, hr, if_true]
      congr 1
      refine List.map_congr_left fun a ha => ?_
      have : a ≠ x := fun e => h.1 (e ▸ ha)
      simp [this]

theorem unspecifiedAddrs_nodup : unspecifiedAddrs.Nodup :=
  unspecifiedAddrs_rising.imp fun h => Nat.ne_of_lt h

theorem Memory.wf_resetCells (e : Env) : Memory.wf (resetCells unspecifiedAddrs e).1 = true := by
  obtain ⟨f, hf, h⟩ := resetCells_eq_map unspecifiedAddrs e unspecifiedAddrs_nodup
  rw [h]
  refine Memory.wf_draws f fun a => ?_
  obtain ⟨b, hb⟩ := hf a
  rw [hb]; exact normal_resetDraw a b

theorem Memory.wf_scrambleCells {l : List Nat} {m : Memory} (e : Env) (hl : ∀ a ∈ l, a ∈ registerAddrs)
    (h : Memory.wf m = true) : Memory.wf (scrambleCells l m e).1 = true := by
  induction l generalizing m e with
  | nil => exact h
  | cons a r ih =>
    exact ih _ (fun b hb => hl b (List.mem_cons_of_mem _ hb))
      (Memory.wf_write h (hl a List.mem_cons_self) (normal_normal a _))

end Sys2Proof.Machine
end

