-- ==== Sys2Proof/Laws/State.lean ====
section
/-! SUPPORT. The small laws of the state's updates: one lemma for each field under each update, true by `rfl`, so that no
proof unfolds a record update; and what the updates leave of the registers. -/

namespace Sys2Proof.Machine

@[simp] theorem State.setEnv_mem (s : State) (e : Env) : (s.setEnv e).mem = s.mem := rfl
@[simp] theorem State.setEnv_int (s : State) (e : Env) : (s.setEnv e).int = s.int := rfl
@[simp] theorem State.setEnv_edges (s : State) (e : Env) : (s.setEnv e).edges = s.edges := rfl
@[simp] theorem State.setEnv_waits (s : State) (e : Env) : (s.setEnv e).waits = s.waits := rfl
@[simp] theorem State.setEnv_aborting (s : State) (e : Env) : (s.setEnv e).aborting = s.aborting := rfl
@[simp] theorem State.setEnv_settle (s : State) (e : Env) : (s.setEnv e).settle = s.settle := rfl
@[simp] theorem State.setEnv_queue (s : State) (e : Env) : (s.setEnv e).queue = s.queue := rfl
@[simp] theorem State.setEnv_log (s : State) (e : Env) : (s.setEnv e).log = s.log := rfl
@[simp] theorem State.setEnv_transcript (s : State) (e : Env) : (s.setEnv e).transcript = s.transcript := rfl
@[simp] theorem State.setEnv_refused (s : State) (e : Env) : (s.setEnv e).refused = s.refused := rfl
@[simp] theorem State.setEnv_cloudUp (s : State) (e : Env) : (s.setEnv e).cloudUp = s.cloudUp := rfl
@[simp] theorem State.setEnv_calls (s : State) (e : Env) : (s.setEnv e).calls = s.calls := rfl
@[simp] theorem State.setEnv_results (s : State) (e : Env) : (s.setEnv e).results = s.results := rfl
@[simp] theorem State.setEnv_sleeps (s : State) (e : Env) : (s.setEnv e).sleeps = s.sleeps := rfl
@[simp] theorem State.setEnv_env (s : State) (e : Env) : (s.setEnv e).env = e := rfl
@[simp] theorem State.setEnv_params (s : State) (e : Env) : (s.setEnv e).params = s.params := rfl

@[simp] theorem State.refuse_mem (s : State) : (s.refuse).mem = s.mem := rfl
@[simp] theorem State.refuse_int (s : State) : (s.refuse).int = s.int := rfl
@[simp] theorem State.refuse_edges (s : State) : (s.refuse).edges = s.edges := rfl
@[simp] theorem State.refuse_waits (s : State) : (s.refuse).waits = s.waits := rfl
@[simp] theorem State.refuse_aborting (s : State) : (s.refuse).aborting = s.aborting := rfl
@[simp] theorem State.refuse_settle (s : State) : (s.refuse).settle = s.settle := rfl
@[simp] theorem State.refuse_queue (s : State) : (s.refuse).queue = s.queue := rfl
@[simp] theorem State.refuse_log (s : State) : (s.refuse).log = s.log := rfl
@[simp] theorem State.refuse_transcript (s : State) : (s.refuse).transcript = s.transcript := rfl
@[simp] theorem State.refuse_refused (s : State) : (s.refuse).refused = true := rfl
@[simp] theorem State.refuse_cloudUp (s : State) : (s.refuse).cloudUp = s.cloudUp := rfl
@[simp] theorem State.refuse_calls (s : State) : (s.refuse).calls = s.calls := rfl
@[simp] theorem State.refuse_results (s : State) : (s.refuse).results = s.results := rfl
@[simp] theorem State.refuse_sleeps (s : State) : (s.refuse).sleeps = s.sleeps := rfl
@[simp] theorem State.refuse_env (s : State) : (s.refuse).env = s.env := rfl
@[simp] theorem State.refuse_params (s : State) : (s.refuse).params = s.params := rfl

@[simp] theorem State.ret_mem (s : State) (v : Value) : (s.ret v).mem = s.mem := rfl
@[simp] theorem State.ret_int (s : State) (v : Value) : (s.ret v).int = s.int := rfl
@[simp] theorem State.ret_edges (s : State) (v : Value) : (s.ret v).edges = s.edges := rfl
@[simp] theorem State.ret_waits (s : State) (v : Value) : (s.ret v).waits = s.waits := rfl
@[simp] theorem State.ret_aborting (s : State) (v : Value) : (s.ret v).aborting = s.aborting := rfl
@[simp] theorem State.ret_settle (s : State) (v : Value) : (s.ret v).settle = s.settle := rfl
@[simp] theorem State.ret_queue (s : State) (v : Value) : (s.ret v).queue = s.queue := rfl
@[simp] theorem State.ret_log (s : State) (v : Value) : (s.ret v).log = s.log := rfl
@[simp] theorem State.ret_transcript (s : State) (v : Value) : (s.ret v).transcript = s.transcript := rfl
@[simp] theorem State.ret_refused (s : State) (v : Value) : (s.ret v).refused = s.refused := rfl
@[simp] theorem State.ret_cloudUp (s : State) (v : Value) : (s.ret v).cloudUp = s.cloudUp := rfl
@[simp] theorem State.ret_calls (s : State) (v : Value) : (s.ret v).calls = s.calls := rfl
@[simp] theorem State.ret_results (s : State) (v : Value) : (s.ret v).results = s.results ++ [v] := rfl
@[simp] theorem State.ret_sleeps (s : State) (v : Value) : (s.ret v).sleeps = s.sleeps := rfl
@[simp] theorem State.ret_env (s : State) (v : Value) : (s.ret v).env = s.env := rfl
@[simp] theorem State.ret_params (s : State) (v : Value) : (s.ret v).params = s.params := rfl

@[simp] theorem State.note_mem (s : State) (r : LogRecord) : (s.note r).mem = s.mem := rfl
@[simp] theorem State.note_int (s : State) (r : LogRecord) : (s.note r).int = s.int := rfl
@[simp] theorem State.note_edges (s : State) (r : LogRecord) : (s.note r).edges = s.edges := rfl
@[simp] theorem State.note_waits (s : State) (r : LogRecord) : (s.note r).waits = s.waits := rfl
@[simp] theorem State.note_aborting (s : State) (r : LogRecord) : (s.note r).aborting = s.aborting := rfl
@[simp] theorem State.note_settle (s : State) (r : LogRecord) : (s.note r).settle = s.settle := rfl
@[simp] theorem State.note_queue (s : State) (r : LogRecord) : (s.note r).queue = s.queue := rfl
@[simp] theorem State.note_log (s : State) (r : LogRecord) : (s.note r).log = s.log ++ [r] := rfl
@[simp] theorem State.note_transcript (s : State) (r : LogRecord) : (s.note r).transcript = s.transcript := rfl
@[simp] theorem State.note_refused (s : State) (r : LogRecord) : (s.note r).refused = s.refused := rfl
@[simp] theorem State.note_cloudUp (s : State) (r : LogRecord) : (s.note r).cloudUp = s.cloudUp := rfl
@[simp] theorem State.note_calls (s : State) (r : LogRecord) : (s.note r).calls = s.calls := rfl
@[simp] theorem State.note_results (s : State) (r : LogRecord) : (s.note r).results = s.results := rfl
@[simp] theorem State.note_sleeps (s : State) (r : LogRecord) : (s.note r).sleeps = s.sleeps := rfl
@[simp] theorem State.note_env (s : State) (r : LogRecord) : (s.note r).env = s.env := rfl
@[simp] theorem State.note_params (s : State) (r : LogRecord) : (s.note r).params = s.params := rfl

@[simp] theorem State.record_mem (s : State) (x : Entry) : (s.record x).mem = s.mem := rfl
@[simp] theorem State.record_int (s : State) (x : Entry) : (s.record x).int = s.int := rfl
@[simp] theorem State.record_edges (s : State) (x : Entry) : (s.record x).edges = s.edges := rfl
@[simp] theorem State.record_waits (s : State) (x : Entry) : (s.record x).waits = s.waits := rfl
@[simp] theorem State.record_aborting (s : State) (x : Entry) : (s.record x).aborting = s.aborting := rfl
@[simp] theorem State.record_settle (s : State) (x : Entry) : (s.record x).settle = s.settle := rfl
@[simp] theorem State.record_queue (s : State) (x : Entry) : (s.record x).queue = s.queue := rfl
@[simp] theorem State.record_log (s : State) (x : Entry) : (s.record x).log = s.log := rfl
@[simp] theorem State.record_transcript (s : State) (x : Entry) : (s.record x).transcript = s.transcript ++ [x] := rfl
@[simp] theorem State.record_refused (s : State) (x : Entry) : (s.record x).refused = s.refused := rfl
@[simp] theorem State.record_cloudUp (s : State) (x : Entry) : (s.record x).cloudUp = s.cloudUp := rfl
@[simp] theorem State.record_calls (s : State) (x : Entry) : (s.record x).calls = s.calls := rfl
@[simp] theorem State.record_results (s : State) (x : Entry) : (s.record x).results = s.results := rfl
@[simp] theorem State.record_sleeps (s : State) (x : Entry) : (s.record x).sleeps = s.sleeps := rfl
@[simp] theorem State.record_env (s : State) (x : Entry) : (s.record x).env = s.env := rfl
@[simp] theorem State.record_params (s : State) (x : Entry) : (s.record x).params = s.params := rfl

@[simp] theorem State.setMem_mem (s : State) (m : Memory) : (s.setMem m).mem = m := rfl
@[simp] theorem State.setMem_int (s : State) (m : Memory) : (s.setMem m).int = Memory.level m := rfl
@[simp] theorem State.setMem_edges (s : State) (m : Memory) : (s.setMem m).edges = if Memory.level m && !s.int then s.edges + 1 else s.edges := rfl
@[simp] theorem State.setMem_waits (s : State) (m : Memory) : (s.setMem m).waits = s.waits := rfl
@[simp] theorem State.setMem_aborting (s : State) (m : Memory) : (s.setMem m).aborting = s.aborting := rfl
@[simp] theorem State.setMem_settle (s : State) (m : Memory) : (s.setMem m).settle = s.settle := rfl
@[simp] theorem State.setMem_queue (s : State) (m : Memory) : (s.setMem m).queue = s.queue := rfl
@[simp] theorem State.setMem_log (s : State) (m : Memory) : (s.setMem m).log = s.log := rfl
@[simp] theorem State.setMem_transcript (s : State) (m : Memory) : (s.setMem m).transcript = s.transcript := rfl
@[simp] theorem State.setMem_refused (s : State) (m : Memory) : (s.setMem m).refused = s.refused := rfl
@[simp] theorem State.setMem_cloudUp (s : State) (m : Memory) : (s.setMem m).cloudUp = s.cloudUp := rfl
@[simp] theorem State.setMem_calls (s : State) (m : Memory) : (s.setMem m).calls = s.calls := rfl
@[simp] theorem State.setMem_results (s : State) (m : Memory) : (s.setMem m).results = s.results := rfl
@[simp] theorem State.setMem_sleeps (s : State) (m : Memory) : (s.setMem m).sleeps = s.sleeps := rfl
@[simp] theorem State.setMem_env (s : State) (m : Memory) : (s.setMem m).env = s.env := rfl
@[simp] theorem State.setMem_params (s : State) (m : Memory) : (s.setMem m).params = s.params := rfl

@[simp] theorem State.setReg_aborting (s : State) (a : Nat) (v : Byte) : (s.setReg a v).aborting = s.aborting := rfl
@[simp] theorem State.setReg_waits (s : State) (a : Nat) (v : Byte) : (s.setReg a v).waits = s.waits := rfl
@[simp] theorem State.setReg_settle (s : State) (a : Nat) (v : Byte) : (s.setReg a v).settle = s.settle := rfl
@[simp] theorem State.setReg_queue (s : State) (a : Nat) (v : Byte) : (s.setReg a v).queue = s.queue := rfl
@[simp] theorem State.setReg_log (s : State) (a : Nat) (v : Byte) : (s.setReg a v).log = s.log := rfl
@[simp] theorem State.setReg_transcript (s : State) (a : Nat) (v : Byte) : (s.setReg a v).transcript = s.transcript := rfl
@[simp] theorem State.setReg_refused (s : State) (a : Nat) (v : Byte) : (s.setReg a v).refused = s.refused := rfl
@[simp] theorem State.setReg_cloudUp (s : State) (a : Nat) (v : Byte) : (s.setReg a v).cloudUp = s.cloudUp := rfl
@[simp] theorem State.setReg_calls (s : State) (a : Nat) (v : Byte) : (s.setReg a v).calls = s.calls := rfl
@[simp] theorem State.setReg_results (s : State) (a : Nat) (v : Byte) : (s.setReg a v).results = s.results := rfl
@[simp] theorem State.setReg_sleeps (s : State) (a : Nat) (v : Byte) : (s.setReg a v).sleeps = s.sleeps := rfl
@[simp] theorem State.setReg_env (s : State) (a : Nat) (v : Byte) : (s.setReg a v).env = s.env := rfl
@[simp] theorem State.setReg_params (s : State) (a : Nat) (v : Byte) : (s.setReg a v).params = s.params := rfl

@[simp] theorem State.poke_aborting (s : State) (a : Nat) (m v : Byte) : (s.poke a m v).aborting = s.aborting := rfl
@[simp] theorem State.poke_waits (s : State) (a : Nat) (m v : Byte) : (s.poke a m v).waits = s.waits := rfl
@[simp] theorem State.poke_settle (s : State) (a : Nat) (m v : Byte) : (s.poke a m v).settle = s.settle := rfl
@[simp] theorem State.poke_queue (s : State) (a : Nat) (m v : Byte) : (s.poke a m v).queue = s.queue := rfl
@[simp] theorem State.poke_log (s : State) (a : Nat) (m v : Byte) : (s.poke a m v).log = s.log := rfl
@[simp] theorem State.poke_transcript (s : State) (a : Nat) (m v : Byte) : (s.poke a m v).transcript = s.transcript := rfl
@[simp] theorem State.poke_refused (s : State) (a : Nat) (m v : Byte) : (s.poke a m v).refused = s.refused := rfl
@[simp] theorem State.poke_cloudUp (s : State) (a : Nat) (m v : Byte) : (s.poke a m v).cloudUp = s.cloudUp := rfl
@[simp] theorem State.poke_calls (s : State) (a : Nat) (m v : Byte) : (s.poke a m v).calls = s.calls := rfl
@[simp] theorem State.poke_results (s : State) (a : Nat) (m v : Byte) : (s.poke a m v).results = s.results := rfl
@[simp] theorem State.poke_sleeps (s : State) (a : Nat) (m v : Byte) : (s.poke a m v).sleeps = s.sleeps := rfl
@[simp] theorem State.poke_env (s : State) (a : Nat) (m v : Byte) : (s.poke a m v).env = s.env := rfl
@[simp] theorem State.poke_params (s : State) (a : Nat) (m v : Byte) : (s.poke a m v).params = s.params := rfl

@[simp] theorem State.enqueue_mem (s : State) (e : Event) : (s.enqueue e).mem = s.mem := by
  unfold State.enqueue; split <;> rfl
@[simp] theorem State.enqueue_int (s : State) (e : Event) : (s.enqueue e).int = s.int := by
  unfold State.enqueue; split <;> rfl
@[simp] theorem State.enqueue_edges (s : State) (e : Event) : (s.enqueue e).edges = s.edges := by
  unfold State.enqueue; split <;> rfl
@[simp] theorem State.enqueue_waits (s : State) (e : Event) : (s.enqueue e).waits = s.waits := by
  unfold State.enqueue; split <;> rfl
@[simp] theorem State.enqueue_aborting (s : State) (e : Event) : (s.enqueue e).aborting = s.aborting := by
  unfold State.enqueue; split <;> rfl
@[simp] theorem State.enqueue_settle (s : State) (e : Event) : (s.enqueue e).settle = s.settle := by
  unfold State.enqueue; split <;> rfl
@[simp] theorem State.enqueue_log (s : State) (e : Event) : (s.enqueue e).log = s.log := by
  unfold State.enqueue; split <;> rfl
@[simp] theorem State.enqueue_transcript (s : State) (e : Event) : (s.enqueue e).transcript = s.transcript := by
  unfold State.enqueue; split <;> rfl
@[simp] theorem State.enqueue_refused (s : State) (e : Event) : (s.enqueue e).refused = s.refused := by
  unfold State.enqueue; split <;> rfl
@[simp] theorem State.enqueue_cloudUp (s : State) (e : Event) : (s.enqueue e).cloudUp = s.cloudUp := by
  unfold State.enqueue; split <;> rfl
@[simp] theorem State.enqueue_calls (s : State) (e : Event) : (s.enqueue e).calls = s.calls := by
  unfold State.enqueue; split <;> rfl
@[simp] theorem State.enqueue_results (s : State) (e : Event) : (s.enqueue e).results = s.results := by
  unfold State.enqueue; split <;> rfl
@[simp] theorem State.enqueue_sleeps (s : State) (e : Event) : (s.enqueue e).sleeps = s.sleeps := by
  unfold State.enqueue; split <;> rfl
@[simp] theorem State.enqueue_env (s : State) (e : Event) : (s.enqueue e).env = s.env := by
  unfold State.enqueue; split <;> rfl
@[simp] theorem State.enqueue_params (s : State) (e : Event) : (s.enqueue e).params = s.params := by
  unfold State.enqueue; split <;> rfl

@[simp] theorem State.takeInterrupt_mem (s : State) : (s.takeInterrupt).mem = s.mem := State.enqueue_mem s _
@[simp] theorem State.takeInterrupt_int (s : State) : (s.takeInterrupt).int = s.int := State.enqueue_int s _
@[simp] theorem State.takeInterrupt_edges (s : State) : (s.takeInterrupt).edges = s.edges := State.enqueue_edges s _
@[simp] theorem State.takeInterrupt_waits (s : State) : (s.takeInterrupt).waits = s.waits := State.enqueue_waits s _
@[simp] theorem State.takeInterrupt_aborting (s : State) : (s.takeInterrupt).aborting = s.aborting := State.enqueue_aborting s _
@[simp] theorem State.takeInterrupt_settle (s : State) : (s.takeInterrupt).settle = s.settle := State.enqueue_settle s _
@[simp] theorem State.takeInterrupt_log (s : State) : (s.takeInterrupt).log = s.log := State.enqueue_log s _
@[simp] theorem State.takeInterrupt_transcript (s : State) : (s.takeInterrupt).transcript = s.transcript := State.enqueue_transcript s _
@[simp] theorem State.takeInterrupt_refused (s : State) : (s.takeInterrupt).refused = s.refused := State.enqueue_refused s _
@[simp] theorem State.takeInterrupt_cloudUp (s : State) : (s.takeInterrupt).cloudUp = s.cloudUp := State.enqueue_cloudUp s _
@[simp] theorem State.takeInterrupt_calls (s : State) : (s.takeInterrupt).calls = s.calls := State.enqueue_calls s _
@[simp] theorem State.takeInterrupt_results (s : State) : (s.takeInterrupt).results = s.results := State.enqueue_results s _
@[simp] theorem State.takeInterrupt_sleeps (s : State) : (s.takeInterrupt).sleeps = s.sleeps := State.enqueue_sleeps s _
@[simp] theorem State.takeInterrupt_env (s : State) : (s.takeInterrupt).env = s.env := State.enqueue_env s _
@[simp] theorem State.takeInterrupt_params (s : State) : (s.takeInterrupt).params = s.params := State.enqueue_params s _

@[simp] theorem State.finish_mem (s : State) (out inb : List Byte) (ok : Bool) : (s.finish out inb ok).mem = s.mem := by
  cases ok <;> rfl
@[simp] theorem State.finish_int (s : State) (out inb : List Byte) (ok : Bool) : (s.finish out inb ok).int = s.int := by
  cases ok <;> rfl
@[simp] theorem State.finish_edges (s : State) (out inb : List Byte) (ok : Bool) : (s.finish out inb ok).edges = s.edges := by
  cases ok <;> rfl
@[simp] theorem State.finish_waits (s : State) (out inb : List Byte) (ok : Bool) : (s.finish out inb ok).waits = s.waits := by
  cases ok <;> rfl
@[simp] theorem State.finish_aborting (s : State) (out inb : List Byte) (ok : Bool) : (s.finish out inb ok).aborting = s.aborting := by
  cases ok <;> rfl
@[simp] theorem State.finish_settle (s : State) (out inb : List Byte) (ok : Bool) : (s.finish out inb ok).settle = s.settle := by
  cases ok <;> rfl
@[simp] theorem State.finish_queue (s : State) (out inb : List Byte) (ok : Bool) : (s.finish out inb ok).queue = s.queue := by
  cases ok <;> rfl
@[simp] theorem State.finish_refused (s : State) (out inb : List Byte) (ok : Bool) : (s.finish out inb ok).refused = s.refused := by
  cases ok <;> rfl
@[simp] theorem State.finish_cloudUp (s : State) (out inb : List Byte) (ok : Bool) : (s.finish out inb ok).cloudUp = s.cloudUp := by
  cases ok <;> rfl
@[simp] theorem State.finish_calls (s : State) (out inb : List Byte) (ok : Bool) : (s.finish out inb ok).calls = s.calls := by
  cases ok <;> rfl
@[simp] theorem State.finish_results (s : State) (out inb : List Byte) (ok : Bool) : (s.finish out inb ok).results = s.results := by
  cases ok <;> rfl
@[simp] theorem State.finish_sleeps (s : State) (out inb : List Byte) (ok : Bool) : (s.finish out inb ok).sleeps = s.sleeps := by
  cases ok <;> rfl
@[simp] theorem State.finish_env (s : State) (out inb : List Byte) (ok : Bool) : (s.finish out inb ok).env = s.env := by
  cases ok <;> rfl
@[simp] theorem State.finish_params (s : State) (out inb : List Byte) (ok : Bool) : (s.finish out inb ok).params = s.params := by
  cases ok <;> rfl

@[simp] theorem State.finish_transcript (s : State) (out inb : List Byte) (ok : Bool) :
    (s.finish out inb ok).transcript = s.transcript ++ [{ out := out, inb := inb, ok := ok }] := by
  cases ok <;> rfl

@[simp] theorem State.finish_log (s : State) (out inb : List Byte) (ok : Bool) :
    (s.finish out inb ok).log = if ok then s.log else s.log ++ [.transportFailure] := by
  cases ok <;> rfl

/-! A register depends on the register file alone. -/

theorem State.reg_of_mem {s t : State} (h : s.mem = t.mem) (a : Nat) : s.reg a = t.reg a := by
  unfold State.reg; rw [h]

theorem State.opmod_of_mem {s t : State} (h : s.mem = t.mem) : s.opmod = t.opmod := by
  unfold State.opmod; rw [State.reg_of_mem h]

theorem State.pendingTx_of_mem {s t : State} (h : s.mem = t.mem) (a : Nat) : s.pendingTx a = t.pendingTx a := by
  unfold State.pendingTx State.txPending
  simp only [State.reg_of_mem h]

theorem State.unlockedRx_of_mem {s t : State} (h : s.mem = t.mem) (a : Nat) : s.unlockedRx a = t.unlockedRx a := by
  unfold State.unlockedRx State.rxPending
  simp only [State.reg_of_mem h]

theorem State.rxPending_of_mem {s t : State} (h : s.mem = t.mem) (x : RxSlot) : s.rxPending x = t.rxPending x := by
  unfold State.rxPending; rw [State.reg_of_mem h]

theorem State.txPending_of_mem {s t : State} (h : s.mem = t.mem) (x : TxSlot) : s.txPending x = t.txPending x := by
  unfold State.txPending; rw [State.reg_of_mem h]

end Sys2Proof.Machine
end

