-- ==== Sys2Proof/Laws/Registers.lean ====
section
/-! SUPPORT. What a register reads as after a register is changed, and what the chip's own operations can do: `Chip s t`
says everything that an effect of transaction bytes leaves alone. -/

namespace Sys2Proof.Machine

/-- A register reads as the bits it can hold of what it was given. -/
theorem State.reg_setReg_self (s : State) {a b : Nat} (v : Byte) (hab : canon b = canon a)
    (h : canon a ≠ Addr.canstat) : (s.setReg a v).reg b = normal (canon a) v := by
  unfold State.reg State.setReg
  rw [hab, if_neg h]
  exact Memory.read_write_self _ _ _

/-- A register other than the one changed reads as before; ICOD of CANSTAT follows CANINTF and CANINTE. -/
theorem State.reg_setReg_other (s : State) {a b : Nat} (v : Byte) (hab : canon b ≠ canon a)
    (h : canon b ≠ Addr.canstat ∨ (canon a ≠ Addr.canintf ∧ canon a ≠ Addr.caninte)) :
    (s.setReg a v).reg b = s.reg b := by
  unfold State.reg State.setReg
  simp only [State.setMem_mem]
  split
  · next hb =>
    rcases h with h | h
    · exact absurd hb h
    · unfold Memory.canstat
      rw [Memory.read_write_other _ _ (Ne.symm h.1), Memory.read_write_other _ _ (Ne.symm h.2),
        Memory.read_write_other _ _ (by rw [← hb]; exact hab)]
  · exact Memory.read_write_other _ _ hab

theorem sameRegs_refl (l : List Nat) (s : State) : SameRegs l s s := fun _ _ _ => rfl

theorem SameRegs.trans {l : List Nat} {s t u : State} (h1 : SameRegs l s t) (h2 : SameRegs l t u) : SameRegs l s u :=
  fun a ha hl => (h2 a ha hl).trans (h1 a ha hl)

theorem SameRegs.mono {l l' : List Nat} {s t : State} (h : SameRegs l s t) (hl : ∀ a ∈ l, a ∈ l') : SameRegs l' s t :=
  fun a ha hn => h a ha fun hm => hn (hl _ hm)

theorem sameRegs_of_mem {l : List Nat} {s t : State} (h : t.mem = s.mem) : SameRegs l s t :=
  fun a _ _ => State.reg_of_mem h a

/-- A change of one register leaves the others alone. -/
theorem sameRegs_setReg (s : State) (a : Nat) (v : Byte) (h1 : canon a ≠ Addr.canintf) (h2 : canon a ≠ Addr.caninte) :
    SameRegs [canon a] s (s.setReg a v) :=
  fun _ _ hb => State.reg_setReg_other s v (by simpa using hb) (.inr ⟨h1, h2⟩)

/-- A change of CANINTF or CANINTE changes ICOD too. -/
theorem sameRegs_setReg_flags (s : State) (a : Nat) (v : Byte) :
    SameRegs [canon a, Addr.canstat] s (s.setReg a v) := by
  intro b _ hb
  simp only [List.mem_cons, List.not_mem_nil, or_false, not_or] at hb
  exact State.reg_setReg_other s v hb.1 (.inl hb.2)

/-! ## What an effect of the chip leaves alone -/

/-- `t` comes from `s` by an effect of the chip: the invariants of the register file are kept, and nothing of the host
changes. -/
structure Chip (s t : State) : Prop where
  wf : Memory.wf s.mem = true → Memory.wf t.mem = true
  level : s.int = Memory.level s.mem → t.int = Memory.level t.mem
  nodup : s.aborting.Nodup → t.aborting.Nodup
  queue : t.queue = s.queue
  waits : t.waits = s.waits
  log : t.log = s.log
  transcript : t.transcript = s.transcript
  refused : t.refused = s.refused
  cloudUp : t.cloudUp = s.cloudUp
  calls : t.calls = s.calls
  results : t.results = s.results
  sleeps : t.sleeps = s.sleeps
  params : t.params = s.params

theorem Chip.refl (s : State) : Chip s s :=
  ⟨id, id, id, rfl, rfl, rfl, rfl, rfl, rfl, rfl, rfl, rfl, rfl⟩

theorem Chip.trans {s t u : State} (h : Chip s t) (k : Chip t u) : Chip s u where
  wf := fun x => k.wf (h.wf x)
  level := fun x => k.level (h.level x)
  nodup := fun x => k.nodup (h.nodup x)
  queue := k.queue.trans h.queue
  waits := k.waits.trans h.waits
  log := k.log.trans h.log
  transcript := k.transcript.trans h.transcript
  refused := k.refused.trans h.refused
  cloudUp := k.cloudUp.trans h.cloudUp
  calls := k.calls.trans h.calls
  results := k.results.trans h.results
  sleeps := k.sleeps.trans h.sleeps
  params := k.params.trans h.params

theorem chip_setEnv (s : State) (e : Env) : Chip s (s.setEnv e) :=
  ⟨id, id, id, rfl, rfl, rfl, rfl, rfl, rfl, rfl, rfl, rfl, rfl⟩

theorem chip_setMem (s : State) {m : Memory} (h : Memory.wf s.mem = true → Memory.wf m = true) : Chip s (s.setMem m) :=
  ⟨h, fun _ => rfl, id, rfl, rfl, rfl, rfl, rfl, rfl, rfl, rfl, rfl, rfl⟩

theorem chip_setReg (s : State) {a : Nat} (v : Byte) (ha : a < 128) : Chip s (s.setReg a v) :=
  chip_setMem s fun h => Memory.wf_write h (canon_mem ha) (normal_normal _ _)

theorem chip_poke (s : State) {a : Nat} (m v : Byte) (ha : a < 128) : Chip s (s.poke a m v) := chip_setReg s _ ha

theorem nodup_abortsAfter {l : List TxSlot} (h : l.Nodup) (x : TxSlot) (old new : Byte) :
    (abortsAfter l x old new).Nodup := by
  unfold abortsAfter
  split
  · exact h.filter _
  · split
    · next hc =>
      rw [List.nodup_cons]
      refine ⟨?_, h⟩
      simp only [Bool.and_eq_true, Bool.not_eq_true', List.contains_eq_mem, decide_eq_false_iff_not] at hc
      exact hc.2
    · exact h

theorem chip_noteAbort (s : State) (a : Nat) (v old : Byte) : Chip s (s.noteAbort a v old) := by
  unfold State.noteAbort
  split
  · split
    · exact ⟨id, id, fun h => nodup_abortsAfter h _ _ _, rfl, rfl, rfl, rfl, rfl, rfl, rfl, rfl, rfl, rfl⟩
    · exact Chip.refl s
  · exact Chip.refl s

theorem canon_lt {a : Nat} (ha : a < 128) : canon a < 128 := (mem_registerAddrs.1 (canon_mem ha)).1

/-- Everything that `writeByte` can do: one register takes a value, and a request to abort may be made or ended. -/
theorem State.writeByte_cases (s : State) (addr : Nat) (v : Byte) :
    ((configOnly (canon addr) = true ∧ s.opmod ≠ 0x80) ∧
      s.writeByte addr v =
        (s.setEnv s.env.draw.2).setReg (canon addr)
          (if s.env.draw.1.getLsbD 0 then merge (canon addr) v (s.reg addr) else s.reg addr)) ∨
    (¬ (configOnly (canon addr) = true ∧ s.opmod ≠ 0x80) ∧ s.pendingTx (canon addr) = true ∧
      s.writeByte addr v = (s.setEnv s.env.draw.2).setReg (canon addr) s.env.draw.1) ∨
    (¬ (configOnly (canon addr) = true ∧ s.opmod ≠ 0x80) ∧ s.pendingTx (canon addr) = false ∧
      s.writeByte addr v =
        (s.setReg (canon addr) (merge (canon addr) v (s.reg addr))).noteAbort (canon addr) v (s.reg addr)) := by
  have hreg : s.reg (canon addr) = s.reg addr := by unfold State.reg; rw [canon_canon]
  unfold State.writeByte
  simp only [hreg, Bool.and_eq_true, decide_eq_true_eq, show modeBits .configuration = (0x80 : Byte) from rfl]
  by_cases hc : configOnly (canon addr) = true ∧ s.opmod ≠ 0x80
  · rw [if_pos hc]; exact .inl ⟨hc, rfl⟩
  · rw [if_neg hc]
    cases hp : s.pendingTx (canon addr)
    · exact .inr (.inr ⟨hc, rfl, rfl⟩)
    · exact .inr (.inl ⟨hc, rfl, rfl⟩)

theorem chip_writeByte (s : State) {addr : Nat} (v : Byte) (ha : addr < 128) : Chip s (s.writeByte addr v) := by
  rcases s.writeByte_cases addr v with ⟨_, h⟩ | ⟨_, _, h⟩ | ⟨_, _, h⟩ <;> rw [h]
  · exact (chip_setEnv s _).trans (chip_setReg _ _ (canon_lt ha))
  · exact (chip_setEnv s _).trans (chip_setReg _ _ (canon_lt ha))
  · exact (chip_setReg s _ (canon_lt ha)).trans (chip_noteAbort _ _ _ _)

theorem chip_writeBlock (data : List Byte) (s : State) {addr : Nat} (h : addr + data.length ≤ 128) :
    Chip s (s.writeBlock addr data) := by
  induction data generalizing s addr with
  | nil => exact Chip.refl s
  | cons v r ih =>
    rw [List.length_cons] at h
    exact (chip_writeByte s v (by omega)).trans (ih _ (by omega))

/-- Everything that `BIT MODIFY` can do: nothing under a mask of 0, else one write. -/
theorem State.bitModify_cases (s : State) (addr : Nat) (m d : Byte) :
    (s.maskAt addr m = 0 ∧ s.bitModify addr m d = s) ∨
      (s.maskAt addr m ≠ 0 ∧ s.bitModify addr m d =
        s.writeByte addr ((s.reg addr &&& ~~~s.maskAt addr m) ||| (d &&& s.maskAt addr m))) := by
  unfold State.bitModify
  by_cases h : s.maskAt addr m = 0
  · exact .inl ⟨h, if_pos h⟩
  · exact .inr ⟨h, if_neg h⟩

theorem chip_bitModify (s : State) {addr : Nat} (m d : Byte) (ha : addr < 128) : Chip s (s.bitModify addr m d) := by
  rcases s.bitModify_cases addr m d with ⟨_, h⟩ | ⟨_, h⟩ <;> rw [h]
  · exact Chip.refl s
  · exact chip_writeByte s _ ha

theorem chip_chipReset (s : State) : Chip s s.chipReset := by
  have hwf := Memory.wf_resetCells s.env
  unfold State.chipReset
  generalize resetCells unspecifiedAddrs s.env = r at hwf ⊢
  exact ⟨fun _ => hwf, fun _ => rfl, fun _ => List.nodup_nil, rfl, rfl, rfl, rfl, rfl, rfl, rfl, rfl, rfl, rfl⟩

theorem chip_scramble (s : State) : Chip s s.scramble := by
  have hwf : Memory.wf s.mem = true → Memory.wf (scrambleCells registerAddrs s.mem s.env).1 = true :=
    Memory.wf_scrambleCells _ fun _ h => h
  unfold State.scramble
  generalize scrambleCells registerAddrs s.mem s.env = r at hwf ⊢
  exact (chip_setEnv s _).trans (chip_setMem _ hwf)

/-- A transaction within the settle time: draws, and a `RESET` begins a settle time. -/
theorem chip_unsettled (s : State) (out : List Byte) (k : Nat) : Chip s (s.unsettled out k) := by
  have h := chip_scramble s
  unfold State.unsettled
  generalize s.scramble = t at h ⊢
  obtain ⟨h1, h2, h3, h4, h5, h6, h7, h8, h9, h10, h11, h12, h13⟩ := h
  exact ⟨h1, h2, h3, h4, h5, h6, h7, h8, h9, h10, h11, h12, h13⟩

/-- No effect of the chip touches the settle time but `RESET`. -/
theorem State.settle_writeByte (s : State) (addr : Nat) (v : Byte) : (s.writeByte addr v).settle = s.settle := by
  rcases s.writeByte_cases addr v with ⟨_, h⟩ | ⟨_, _, h⟩ | ⟨_, _, h⟩ <;> rw [h]
  · rfl
  · rfl
  · unfold State.noteAbort
    split
    · split <;> rfl
    · rfl

theorem State.settle_writeBlock (data : List Byte) (s : State) (addr : Nat) :
    (s.writeBlock addr data).settle = s.settle := by
  induction data generalizing s addr with
  | nil => rfl
  | cons v r ih => exact (ih _ _).trans (s.settle_writeByte _ _)

theorem State.settle_bitModify (s : State) (addr : Nat) (m d : Byte) : (s.bitModify addr m d).settle = s.settle := by
  rcases s.bitModify_cases addr m d with ⟨_, h⟩ | ⟨_, h⟩ <;> rw [h]
  exact s.settle_writeByte _ _

/-- `writeByte` changes no register but its own; a write to CANINTF or CANINTE changes ICOD of CANSTAT too. -/
theorem sameRegs_writeByte (s : State) (addr : Nat) (v : Byte) :
    SameRegs [canon addr, Addr.canstat] s (s.writeByte addr v) ∧
      (canon addr ≠ Addr.canintf → canon addr ≠ Addr.caninte → SameRegs [canon addr] s (s.writeByte addr v)) := by
  have key : ∃ (u : State) (w : Byte), u.mem = s.mem ∧
      (s.writeByte addr v).mem = (u.setReg (canon addr) w).mem := by
    rcases s.writeByte_cases addr v with ⟨_, h⟩ | ⟨_, _, h⟩ | ⟨_, _, h⟩ <;> rw [h]
    · exact ⟨s.setEnv _, _, rfl, rfl⟩
    · exact ⟨s.setEnv _, _, rfl, rfl⟩
    · refine ⟨s, merge (canon addr) v (s.reg addr), rfl, ?_⟩
      unfold State.noteAbort
      split
      · split <;> rfl
      · rfl
  obtain ⟨u, w, hu, hw⟩ := key
  constructor
  · intro b hb hl
    rw [State.reg_of_mem hw, ← State.reg_of_mem hu]
    exact sameRegs_setReg_flags u (canon addr) w b hb (by rwa [canon_canon])
  · intro h1 h2 b hb hl
    rw [State.reg_of_mem hw, ← State.reg_of_mem hu]
    exact sameRegs_setReg u (canon addr) w (by rwa [canon_canon]) (by rwa [canon_canon]) b hb (by rwa [canon_canon])

end Sys2Proof.Machine
end

