-- ==== Sys2Proof/Laws/Transactions.lean ====
section
/-! SUPPORT. What one transaction can do: its cases, its lengths, and that it keeps the invariant. `Reaches s t` says what
every operation of the layer leaves of the host, whatever the other agents do. -/

namespace Sys2Proof.Machine

/-! ## Lengths -/

@[simp] theorem Env.drawN_length (n : Nat) (e : Env) : (Env.drawN n e).1.length = n := by
  induction n generalizing e with
  | zero => rfl
  | succ k ih => simp [Env.drawN, ih]

@[simp] theorem State.readBlock_length (s : State) (a n : Nat) (e : Env) : (s.readBlock a n e).1.length = n := by
  induction n generalizing a e with
  | zero => rfl
  | succ k ih => simp [State.readBlock, ih]

@[simp] theorem State.rxBytes_length (s : State) (slot : RxSlot) (i n : Nat) (e : Env) :
    (s.rxBytes slot i n e).1.length = n := by
  induction n generalizing i e with
  | zero => rfl
  | succ k ih => simp [State.rxBytes, ih]

/-- A byte that `READ` returns is exact unless it comes from an unlocked receive buffer. -/
theorem State.readBlock_getElem? (s : State) (a n : Nat) (e : Env) (i : Nat) (hi : i < n)
    (h : s.unlockedRx (a + i) = false) : (s.readBlock a n e).1[i]? = some (s.reg (a + i)) := by
  induction n generalizing a e i with
  | zero => omega
  | succ k ih =>
    unfold State.readBlock
    cases i with
    | zero => simp [State.readCell, show s.unlockedRx a = false from h]
    | succ j =>
      rw [List.getElem?_cons_succ, ih (a + 1) _ j (by omega) (by rw [show a + 1 + j = a + (j + 1) by omega]; exact h)]
      rw [show a + 1 + j = a + (j + 1) by omega]

/-! ## The cases of a transaction -/

/-- The link of the next transaction, taken from the list when it has one. -/
theorem Env.link_cons {e : Env} {l : Link} {r : List Link} (h : e.links = l :: r) :
    e.link = (l, { e with links := r }) := by
  unfold Env.link; rw [h]

/-- What becomes of the next transaction, where the list has its outcome and it may fail. -/
theorem State.link_cons {s : State} {l : Link} {r : List Link} (h : s.env.links = l :: r)
    (hl : l = .ok ∨ s.params.transportMayFail = true) : s.link = l := by
  unfold State.link
  rw [Env.link_cons h]
  split
  · rfl
  · next hf => exact (hl.resolve_right hf).symm

@[simp] theorem reply_length {out : List Byte} {respond : State → List Byte × Env} {ok : Bool} {s : State}
    (h : ∀ u, (respond u).1.length = out.length) : (reply out respond ok s).1.length = out.length := by
  unfold reply
  split
  · exact h s
  · exact Env.drawN_length _ _

theorem linkOk_seen {l : Link} (h : linkOk l = true) (n : Nat) : linkSeen l n = n := by
  cases l with
  | ok => rfl
  | cut k => cases h

/-- The state at a transaction once its outcome and its response are fixed: only the choices have moved on. -/
abbrev State.sent (s : State) (out : List Byte) (respond : State → List Byte × Env) : State :=
  s.setEnv (reply out respond (linkOk s.link) (s.setEnv s.env.link.2)).2

/-- Outside the settle time: the effect of the bytes the chip has seen, recorded, and logged if the transaction failed. -/
theorem transact_settled (out : List Byte) (respond : State → List Byte × Env) (effect : Nat → State → State) {s : State}
    (h : s.settle = 0) :
    (transact out respond effect s).2 =
      (effect (linkSeen s.link out.length) (s.sent out respond)).finish out (transact out respond effect s).1
        (linkOk s.link) := by
  unfold transact
  simp only [State.setEnv_settle, h, if_true]
  rfl

/-- Within the settle time: a draw in every register, and a `RESET` begins a settle time. -/
theorem transact_unsettled (out : List Byte) (respond : State → List Byte × Env) (effect : Nat → State → State)
    {s : State} (h : s.settle ≠ 0) :
    (transact out respond effect s).2 =
      ((s.sent out respond).unsettled out (linkSeen s.link out.length)).finish out (transact out respond effect s).1
        (linkOk s.link) := by
  unfold transact
  simp only [State.setEnv_settle, h, if_false]
  rfl

/-- A transaction that succeeds outside the settle time: the chip's response and the whole effect. -/
theorem transact_clear (out : List Byte) (respond : State → List Byte × Env) (effect : Nat → State → State) {s : State}
    {r : List Link} (hs : s.settle = 0) (hl : s.env.links = .ok :: r) :
    transact out respond effect s =
      ((respond (s.setEnv { s.env with links := r })).1,
       (effect out.length (s.setEnv (respond (s.setEnv { s.env with links := r })).2)).record
         { out := out, inb := (respond (s.setEnv { s.env with links := r })).1, ok := true }) := by
  unfold transact
  rw [State.link_cons hl (.inl rfl), Env.link_cons hl]
  simp only [reply, State.setEnv_settle, hs, linkOk, linkSeen, decide_true, Bool.and_self, if_true]
  rfl

/-- A transaction that fails after `k` bytes, outside the settle time: draws, and the effect of those bytes. -/
theorem transact_cut (out : List Byte) (respond : State → List Byte × Env) (effect : Nat → State → State) {s : State}
    {k : Nat} {r : List Link} (hs : s.settle = 0)
    (hp : s.params.transportMayFail = true) (hl : s.env.links = .cut k :: r) :
    transact out respond effect s =
      ((Env.drawN out.length { s.env with links := r }).1,
       (effect (min k out.length) (s.setEnv (Env.drawN out.length { s.env with links := r }).2)).finish out
         (Env.drawN out.length { s.env with links := r }).1 false) := by
  unfold transact
  rw [State.link_cons hl (.inr hp), Env.link_cons hl]
  simp only [reply, State.setEnv_settle, hs, linkOk, linkSeen, reduceCtorEq, decide_false, Bool.false_and, if_true]
  rfl

theorem transact_length (out : List Byte) (respond : State → List Byte × Env) (effect : Nat → State → State) (s : State)
    (h : ∀ u, (respond u).1.length = out.length) : (transact out respond effect s).1.length = out.length :=
  reply_length h

/-! ## What an operation leaves of the host -/

/-- `t` comes from `s` by transactions, delays and steps of other agents: the invariant is kept, the observations only
grow, and the marks, the results and the program are as before. -/
structure Reaches (s t : State) : Prop where
  inv : s.Inv → t.Inv
  refused : t.refused = s.refused
  cloudUp : t.cloudUp = s.cloudUp
  calls : t.calls = s.calls
  results : t.results = s.results
  transcript : s.transcript <+: t.transcript
  log : s.log <+: t.log
  sleeps : s.sleeps <+: t.sleeps
  params : t.params = s.params

theorem Reaches.refl (s : State) : Reaches s s :=
  ⟨id, rfl, rfl, rfl, rfl, List.prefix_rfl, List.prefix_rfl, List.prefix_rfl, rfl⟩

theorem Reaches.trans {s t u : State} (h : Reaches s t) (k : Reaches t u) : Reaches s u where
  inv := fun x => k.inv (h.inv x)
  refused := k.refused.trans h.refused
  cloudUp := k.cloudUp.trans h.cloudUp
  calls := k.calls.trans h.calls
  results := k.results.trans h.results
  transcript := h.transcript.trans k.transcript
  log := h.log.trans k.log
  sleeps := h.sleeps.trans k.sleeps
  params := k.params.trans h.params

theorem Chip.reaches {s t : State} (h : Chip s t) : Reaches s t where
  inv := fun ⟨a, b, c, d, e⟩ => ⟨h.wf a, h.level b, by rw [h.queue]; exact c, by rw [h.transcript]; exact d, h.nodup e⟩
  refused := h.refused
  cloudUp := h.cloudUp
  calls := h.calls
  results := h.results
  transcript := by rw [h.transcript]
  log := by rw [h.log]
  sleeps := by rw [h.sleeps]
  params := h.params

theorem reaches_finish (s : State) {out inb : List Byte} (ok : Bool) (h : inb.length = out.length) :
    Reaches s (s.finish out inb ok) where
  inv := fun ⟨a, b, c, d, e⟩ => by
    refine ⟨by simpa using a, by simpa using b, by simpa using c, ?_, by simpa using e⟩
    intro x hx
    rw [State.finish_transcript, List.mem_append, List.mem_singleton] at hx
    rcases hx with hx | rfl
    · exact d x hx
    · exact h
  refused := by simp
  cloudUp := by simp
  calls := by simp
  results := by simp
  transcript := by rw [State.finish_transcript]; exact List.prefix_append _ _
  log := by
    rw [State.finish_log]
    split
    · exact List.prefix_rfl
    · exact List.prefix_append _ _
  sleeps := by simp
  params := by simp

/-- A transaction, whatever becomes of it: the effect is one of the chip, and it is recorded. -/
theorem reaches_transact (out : List Byte) (respond : State → List Byte × Env) (effect : Nat → State → State) (s : State)
    (h : ∀ u, (respond u).1.length = out.length) (he : ∀ k u, Chip u (effect k u)) :
    Reaches s (transact out respond effect s).2 := by
  have hl := transact_length out respond effect s h
  by_cases hs : s.settle = 0
  · rw [transact_settled _ _ _ hs]
    exact ((chip_setEnv s _).trans (he _ _)).reaches.trans (reaches_finish _ _ hl)
  · rw [transact_unsettled _ _ _ hs]
    exact ((chip_setEnv s _).trans (chip_unsettled _ _ _)).reaches.trans (reaches_finish _ _ hl)

theorem transact_transcript (out : List Byte) (respond : State → List Byte × Env) (effect : Nat → State → State)
    (s : State) (he : ∀ k u, Chip u (effect k u)) :
    ∃ ok, (transact out respond effect s).2.transcript =
      s.transcript ++ [{ out := out, inb := (transact out respond effect s).1, ok := ok }] := by
  refine ⟨linkOk s.link, ?_⟩
  by_cases hs : s.settle = 0
  · rw [transact_settled _ _ _ hs, State.finish_transcript, (he _ _).transcript]; rfl
  · rw [transact_unsettled _ _ _ hs, State.finish_transcript, (chip_unsettled _ _ _).transcript]; rfl

end Sys2Proof.Machine
end

