-- ==== Sys2Proof/Laws/Agents.lean ====
section
/-! SUPPORT. What a step of another agent and a scheduling point can do to the host's side of the state: `Agent s t`. -/

namespace Sys2Proof.Machine

/-- `t` comes from `s` by steps of the agents other than the Caller. -/
structure Agent (s t : State) : Prop where
  wf : Memory.wf s.mem = true → Memory.wf t.mem = true
  level : s.int = Memory.level s.mem → t.int = Memory.level t.mem
  nodup : s.aborting.Nodup → t.aborting.Nodup
  queue : s.queue.length ≤ 10 → t.queue.length ≤ 10
  settle : t.settle = s.settle
  log : t.log = s.log
  transcript : t.transcript = s.transcript
  refused : t.refused = s.refused
  cloudUp : t.cloudUp = s.cloudUp
  calls : t.calls = s.calls
  results : t.results = s.results
  sleeps : t.sleeps = s.sleeps
  params : t.params = s.params

theorem Agent.refl (s : State) : Agent s s := ⟨id, id, id, id, rfl, rfl, rfl, rfl, rfl, rfl, rfl, rfl, rfl⟩

theorem Agent.trans {s t u : State} (h : Agent s t) (k : Agent t u) : Agent s u where
  wf := fun x => k.wf (h.wf x)
  level := fun x => k.level (h.level x)
  nodup := fun x => k.nodup (h.nodup x)
  queue := fun x => k.queue (h.queue x)
  settle := k.settle.trans h.settle
  log := k.log.trans h.log
  transcript := k.transcript.trans h.transcript
  refused := k.refused.trans h.refused
  cloudUp := k.cloudUp.trans h.cloudUp
  calls := k.calls.trans h.calls
  results := k.results.trans h.results
  sleeps := k.sleeps.trans h.sleeps
  params := k.params.trans h.params

theorem Agent.reaches {s t : State} (h : Agent s t) : Reaches s t where
  inv := fun ⟨a, b, c, d, e⟩ => ⟨h.wf a, h.level b, h.queue c, by rw [h.transcript]; exact d, h.nodup e⟩
  refused := h.refused
  cloudUp := h.cloudUp
  calls := h.calls
  results := h.results
  transcript := by rw [h.transcript]
  log := by rw [h.log]
  sleeps := by rw [h.sleeps]
  params := h.params

theorem agent_setReg (s : State) {a : Nat} (v : Byte) (ha : a < 128) : Agent s (s.setReg a v) where
  wf := (chip_setReg s v ha).wf
  level := (chip_setReg s v ha).level
  nodup := id
  queue := id
  settle := rfl
  log := rfl
  transcript := rfl
  refused := rfl
  cloudUp := rfl
  calls := rfl
  results := rfl
  sleeps := rfl
  params := rfl

theorem agent_poke (s : State) {a : Nat} (m v : Byte) (ha : a < 128) : Agent s (s.poke a m v) := agent_setReg s _ ha

theorem agent_enqueue (s : State) (e : Event) : Agent s (s.enqueue e) where
  wf := by simp
  level := by simp
  nodup := by simp
  queue := by
    intro h
    unfold State.enqueue Config.queueCap
    split
    · simp only [List.length_append, List.length_cons, List.length_nil]; omega
    · exact h
  settle := by simp
  log := by simp
  transcript := by simp
  refused := by simp
  cloudUp := by simp
  calls := by simp
  results := by simp
  sleeps := by simp
  params := by simp

theorem agent_storeBytes (data : List Byte) (s : State) {a : Nat} (h : a + data.length ≤ 128) :
    Agent s (s.storeBytes a data) := by
  induction data generalizing s a with
  | nil => exact Agent.refl s
  | cons v r ih =>
    rw [List.length_cons] at h
    exact (agent_setReg s v (by omega)).trans (ih _ (by omega))

theorem txCtrl_lt (x : TxSlot) : (txCtrl x).toNat < 128 := by cases x <;> decide

theorem rxCtrl_lt (x : RxSlot) : (rxCtrl x).toNat < 128 := by cases x <;> decide

theorem rxSidh_le (x : RxSlot) : (rxSidh x).toNat + 13 ≤ 128 := by cases x <;> decide

theorem txSidh_le (x : TxSlot) : (txSidh x).toNat + 13 ≤ 128 := by cases x <;> decide

theorem storedPayload_length (f : BusFrame) (fill : Bool) : (storedPayload f fill).length ≤ 8 := by
  unfold storedPayload
  split
  · simp
  · simp only [List.length_take, Vector.length_toList]; omega

theorem agent_storeFrame (s : State) (x : RxSlot) (f : BusFrame) (y : FilterId) (fill : Bool) :
    Agent s (s.storeFrame x f y fill) := by
  have hl : (rxSidh x).toNat + ([f.sidh, f.sidl, f.eid8, f.eid0, f.dlc] ++ storedPayload f fill).length ≤ 128 := by
    have := storedPayload_length f fill
    have := rxSidh_le x
    simp only [List.length_append, List.length_cons, List.length_nil]
    omega
  unfold State.storeFrame
  exact ((agent_storeBytes _ s hl).trans (agent_poke _ _ _ (rxCtrl_lt x))).trans (agent_poke _ _ _ (by decide))

theorem agent_raise (s : State) (b : Bool) (m : Byte) : Agent s (s.raise b m) := by
  unfold State.raise
  split
  · exact agent_poke _ _ _ (by decide)
  · exact Agent.refl s

theorem agent_setEflg (s : State) (v : Byte) (b : Bool) : Agent s (s.setEflg v b) :=
  (agent_poke s _ _ (by decide)).trans (agent_raise _ _ _)

theorem agent_aborting (s : State) (x : TxSlot) : Agent s { s with aborting := s.aborting.filter fun t => decide (t ≠ x) } :=
  ⟨id, id, fun h => h.filter _, id, rfl, rfl, rfl, rfl, rfl, rfl, rfl, rfl, rfl⟩

/-- The changes of `INT` that the bridge has not served concern no other field. -/
theorem agent_edges (s : State) (n : Nat) (w : List Nat) : Agent s { s with edges := n, waits := w } :=
  ⟨id, id, id, id, rfl, rfl, rfl, rfl, rfl, rfl, rfl, rfl, rfl⟩

theorem State.dropEdge_shape (s : State) : ∃ n w, s.dropEdge = { s with edges := n, waits := w } := by
  unfold State.dropEdge
  split
  · exact ⟨_, s.waits, rfl⟩
  · exact ⟨s.edges, _, rfl⟩

/-- Everything that the bridge can do: an event, if the queue takes it, and under `FallingEdge` one change of `INT` less that
is not served. -/
theorem State.bridge_cases (s : State) :
    s.bridge = s ∨ s.bridge = s.takeInterrupt ∨ s.bridge = s.takeInterrupt.dropEdge := by
  unfold State.bridge
  cases s.params.intTrigger <;> dsimp only <;> split <;> simp

theorem agent_takeInterrupt (s : State) : Agent s s.takeInterrupt := agent_enqueue s _

theorem agent_bridge (s : State) : Agent s s.bridge := by
  rcases s.bridge_cases with h | h | h <;> rw [h]
  · exact Agent.refl s
  · exact agent_takeInterrupt s
  · obtain ⟨n, w, hd⟩ := s.takeInterrupt.dropEdge_shape
    rw [hd]
    exact (agent_takeInterrupt s).trans (agent_edges _ n w)

theorem agent_putOff (s : State) (n : Nat) : Agent s (s.putOff n) := by
  unfold State.putOff
  split
  · exact Agent.refl s
  · exact agent_edges s _ _

theorem agent_takeInterrupts (n : Nat) (s : State) : Agent s (State.takeInterrupts n s) := by
  induction n generalizing s with
  | zero => exact Agent.refl s
  | succ k ih => exact (agent_takeInterrupt s).trans (ih _)

theorem agent_serve (s : State) : Agent s s.serve := by
  unfold State.serve State.endPoint
  refine (agent_takeInterrupts s.due s).trans ?_
  split
  · exact agent_edges _ _ _
  · exact Agent.refl _

/-- One step of another agent. -/
theorem agent_applyMove (m : Move) (s : State) : Agent s (applyMove m s) := by
  cases m with
  | enterMode =>
    simp only [applyMove]
    split
    · exact agent_poke _ _ _ (by decide)
    · exact Agent.refl s
  | receive x f y fill =>
    simp only [applyMove]
    split
    · exact agent_storeFrame s x f y fill
    · exact Agent.refl s
  | overflow x b =>
    simp only [applyMove]
    split
    · exact (agent_poke _ _ _ (by decide)).trans (agent_raise _ _ _)
    · exact Agent.refl s
  | txDone x =>
    simp only [applyMove]
    split
    · exact (agent_poke _ _ _ (txCtrl_lt x)).trans (agent_poke _ _ _ (by decide))
    · exact Agent.refl s
  | txLost x =>
    simp only [applyMove]
    split
    · exact agent_poke _ _ _ (txCtrl_lt x)
    · exact Agent.refl s
  | txError x tec eflg merrf errif drop =>
    simp only [applyMove]
    split
    · exact (((agent_poke _ _ _ (txCtrl_lt x)).trans (agent_setReg _ _ (by decide))).trans
        (agent_setEflg _ _ _)).trans (agent_raise _ _ _)
    · exact Agent.refl s
  | txAbort x =>
    simp only [applyMove]
    split
    · exact (agent_poke _ _ _ (txCtrl_lt x)).trans (agent_aborting _ x)
    · exact Agent.refl s
  | txClearFlags x mask => exact agent_poke _ _ _ (txCtrl_lt x)
  | errors tec recv eflg errif merrf =>
    exact (((agent_setReg _ _ (by decide)).trans (agent_setReg _ _ (by decide))).trans
        (agent_setEflg _ _ _)).trans (agent_raise _ _ _)
  | wake reqop =>
    simp only [applyMove]
    split
    · refine Agent.trans ?_ (agent_poke _ _ _ (by decide))
      split
      · exact (agent_poke _ _ _ (by decide)).trans (agent_poke _ _ _ (by decide))
      · exact agent_poke _ _ _ (by decide)
    · exact Agent.refl s
  | rtsPins levels => exact agent_poke _ _ _ (by decide)
  | bridge => exact agent_bridge s
  | putOff n => exact agent_putOff s n
  | produce e =>
    simp only [applyMove]
    split
    · exact Agent.refl s
    · exact agent_enqueue s e

theorem agent_applyMoves (ms : List Move) (s : State) : Agent s (applyMoves ms s) := by
  induction ms generalizing s with
  | nil => exact Agent.refl s
  | cons m r ih => exact (agent_applyMove m s).trans (ih _)

theorem agent_setEnv (s : State) (e : Env) : Agent s (s.setEnv e) :=
  ⟨id, id, id, id, rfl, rfl, rfl, rfl, rfl, rfl, rfl, rfl, rfl⟩

/-- A scheduling point. -/
theorem agent_schedule (s : State) : Agent s s.schedule :=
  ((agent_setEnv s _).trans (agent_applyMoves _ _)).trans (agent_serve _)

theorem reaches_schedule (s : State) : Reaches s s.schedule := (agent_schedule s).reaches

/-- A delay of the Caller: a scheduling point, and one more recorded delay. -/
theorem reaches_sleep (s : State) (ms : Nat) : Reaches s (s.sleep ms) := by
  have h : Reaches s { s with sleeps := s.sleeps ++ [ms], settle := s.settle - ms } :=
    ⟨id, rfl, rfl, rfl, rfl, List.prefix_rfl, List.prefix_rfl, List.prefix_append _ _, rfl⟩
  exact h.trans (reaches_schedule _)

theorem sleep_sleeps (s : State) (ms : Nat) : (s.sleep ms).sleeps = s.sleeps ++ [ms] := (agent_schedule _).sleeps

/-- At a scheduling point where no other agent steps, the bridge serves what it has not put off, and nothing else happens. -/
theorem schedule_of_nil {s : State} {r : List (List Move)} (h : s.env.turns = [] :: r) :
    s.schedule = (s.setEnv { s.env with turns := r }).serve := by
  unfold State.schedule Env.turn
  rw [h]
  rfl

end Sys2Proof.Machine
end

