-- ==== Sys2Proof/Machine/AnyMap.lean ====
section
/-! DEFINITION. The machine at any chip map, any set of bit rates and any bit-timing table (00_scope.md R7, R8 and
30_encoding.md R138: a model takes them as arguments). `exec`, `step` and `State.reset` have fixed types without that argument,
and are this machine at the default: `execAt_default`, `stepAt_default` and `resetAt_default` in Laws/AnyMap.lean. -/

namespace Sys2Proof.Machine

/-- The dispatch of an instruction to its meaning, at the parameters of the argument. -/
def execAt [Inhabited ChipParam] (i : Instr) (s : State) : Host.Outcome State Fault Refusal :=
  match i with
  | .txnReset => execTxnReset s
  | .txnRead addr dummy => execTxnRead addr dummy s
  | .txnWrite addr data => execTxnWrite addr data s
  | .txnBitmod addr mask data => execTxnBitmod addr mask data s
  | .txnReadStatus dummy => execTxnReadStatus dummy s
  | .txnRxStatus dummy => execTxnRxStatus dummy s
  | .txnReadRx0 dummy => execTxnReadRx0 dummy s
  | .txnReadRx1 dummy => execTxnReadRx1 dummy s
  | .txnLoadTx0 data => execTxnLoadTx0 data s
  | .txnLoadTx1 data => execTxnLoadTx1 data s
  | .txnLoadTx2 data => execTxnLoadTx2 data s
  | .txnRtsTx0 => execTxnRtsTx0 s
  | .txnRtsTx1 => execTxnRtsTx1 s
  | .txnRtsTx2 => execTxnRtsTx2 s
  | .txnRtsAll => execTxnRtsAll s
  | .readRegister addr => execReadRegister addr s
  | .readRegisters addr n => execReadRegisters addr n s
  | .writeRegister addr value => execWriteRegister addr value s
  | .writeRegisters addr values => execWriteRegisters addr values s
  | .modifyRegister addr mask data => execModifyRegister addr mask data s
  | .reset => execReset s
  | .readStatus => execReadStatus s
  | .setMode mode => execSetMode mode s
  | .lookupBitTiming clock rate => execLookupBitTiming clock rate s
  | .setBitrate clock rate => execSetBitrate clock rate s
  | .packId ext value => execPackId ext value s
  | .decodeId sidh sidl eid8 eid0 => execDecodeId sidh sidl eid8 eid0 s
  | .encodeFrame frame => execEncodeFrame frame s
  | .decodeFrame sidh sidl eid8 eid0 dlc ctrl => execDecodeFrame sidh sidl eid8 eid0 dlc ctrl s
  | .setFilter filter ext value => execSetFilter filter ext value s
  | .setMask mask ext value => execSetMask mask ext value s
  | .applyDefaultConfiguration => execApplyDefaultConfiguration s
  | .send slot frame => execSend slot frame s
  | .sendAny frame => execSendAny frame s
  | .read slot => execRead slot s
  | .readAnyPending => execReadAnyPending s
  | .errorFlags => execErrorFlags s
  | .hasError => execHasError s
  | .clearReceiveOverflow => execClearReceiveOverflow s
  | .clearMessageError => execClearMessageError s
  | .clearErrorInterrupt => execClearErrorInterrupt s
  | .onInterrupt => execOnInterrupt s
  | .onCanMessage => execOnCanMessage s
  | .initialise clock rate attachOk => execInitialise clock rate attachOk s

/-- The parameters, as the argument that the definitions of the machine take. -/
abbrev withParam (p : ChipParam) : Inhabited ChipParam := ⟨p⟩

/-- A map, with the free set of rates and the free table. -/
abbrev withMap (map : ChipMap) : Inhabited ChipParam := withParam { map := map }

/-- One step of the machine that has the given parameters. -/
def stepAt (p : ChipParam) (s : State) : Host.Outcome State Fault Refusal :=
  @callerTurn (withParam p) (@execAt (withParam p)) s

/-- The machine at power-on that has the given parameters (70_reset_and_hazards.md R370). -/
def State.resetAt (p : ChipParam) : State := { State.reset with mem := @Memory.powerOn (withParam p) }

end Sys2Proof.Machine
end

