-- ==== Sys2Proof/Laws/AnyMap.lean ====
section
/-! SUPPORT. The machine at any parameters, at the default ones, is the machine: `exec`, `step` and `State.reset` are it. -/

namespace Sys2Proof.Machine

theorem execAt_default (i : Instr) (s : State) : execAt i s = exec i s := by cases i <;> rfl

theorem stepAt_default (s : State) : stepAt default s = step s := by
  have h : @execAt (withParam default) = exec := funext fun i => funext fun u => execAt_default i u
  unfold stepAt
  rw [h]
  rfl

theorem resetAt_default : State.resetAt default = State.reset := rfl

end Sys2Proof.Machine
end

