-- ==== Sys2Proof/Laws/Encoding.lean ====
section
/-! SUPPORT. What each transaction format admits, and that any opcode byte but the fifteen is refused. -/

namespace Sys2Proof

@[simp] theorem decodeCmd_ok {op : Byte} {rest : List Byte} {i j : Instr} :
    decodeCmd op rest i = .ok j ↔ rest = [] ∧ j = i := by
  cases rest <;> simp [decodeCmd, eq_comm]

@[simp] theorem decodeAddr_ok {op : Byte} {rest : List Byte} {f : Byte → List Byte → Instr} {j : Instr} :
    decodeAddr op rest f = .ok j ↔ ∃ a xs, rest = a :: xs ∧ j = f a xs := by
  cases rest <;> simp [decodeAddr, eq_comm]

@[simp] theorem decodeBitmod_ok {op : Byte} {rest : List Byte} {j : Instr} :
    decodeBitmod op rest = .ok j ↔ ∃ a m d, rest = [a, m, d] ∧ j = .txnBitmod a m d := by
  constructor
  · intro h
    unfold decodeBitmod at h
    split at h
    · cases h; exact ⟨_, _, _, rfl, rfl⟩
    · cases h
  · rintro ⟨a, m, d, rfl, rfl⟩; rfl

/-- An opcode byte outside the fifteen is no instruction (30_encoding.md R133). -/
theorem decode_unknown {op : Byte} (rest : List Byte) (h : op ∉ Opcode.all) :
    decode (op :: rest) = .error (.unknownOpcode op) := by
  simp only [Opcode.all, List.mem_cons, List.not_mem_nil, or_false, not_or] at h
  unfold decode
  simp only [h, if_false]

end Sys2Proof
end

