-- ==== Sys2Proof/Laws/Operations.lean ====
section
/-! SUPPORT. That every operation of the layer, whatever the other agents do, leaves a state that `Reaches` says comes from
the one it was called in. -/

namespace Sys2Proof.Machine

/-! ## The serial instructions -/

theorem chip_ite {s t : State} (c : Prop) [Decidable c] (h : Chip s t) : Chip s (if c then t else s) := by
  split
  · exact h
  · exact Chip.refl s

theorem noResponse_length (out : List Byte) (s : State) : (noResponse out s).1.length = out.length :=
  Env.drawN_length _ _

theorem readResponse_length (op addr : Byte) (dummy : List Byte) (s : State) :
    (readResponse addr dummy.length s).1.length = (op :: addr :: dummy).length := by
  simp [readResponse]; omega

theorem statusResponse_length (op : Byte) (dummy : List Byte) (s : State) :
    (statusResponse dummy.length s).1.length = (op :: dummy).length := by
  simp [statusResponse]

theorem rxStatusResponse_length (op : Byte) (dummy : List Byte) (s : State) :
    (rxStatusResponse dummy.length s).1.length = (op :: dummy).length := by
  simp [rxStatusResponse]

theorem rxResponse_length (op : Byte) (slot : RxSlot) (dummy : List Byte) (s : State) :
    (rxResponse slot dummy.length s).1.length = (op :: dummy).length := by
  simp [rxResponse]

theorem reaches_issueReset (s : State) : Reaches s (issueReset s).2 :=
  reaches_transact _ _ _ s (noResponse_length _) fun _ u => chip_ite _ (chip_chipReset u)

theorem reaches_issueRead (addr : Byte) (dummy : List Byte) (s : State) : Reaches s (issueRead addr dummy s).2 :=
  reaches_transact _ _ _ s (readResponse_length _ _ _) fun _ u => Chip.refl u

theorem reaches_issueWrite {addr : Byte} {data : List Byte} (s : State) (h : addr.toNat + data.length ≤ 128) :
    Reaches s (issueWrite addr data s).2 :=
  reaches_transact _ _ _ s (noResponse_length _) fun _ u =>
    chip_writeBlock _ u (Nat.le_trans (Nat.add_le_add_left (List.length_take_le' _ _) _) h)

theorem reaches_issueBitmod {addr : Byte} (mask data : Byte) (s : State) (h : addr.toNat < 128) :
    Reaches s (issueBitmod addr mask data s).2 :=
  reaches_transact _ _ _ s (noResponse_length _) fun _ u => chip_ite _ (chip_bitModify u _ _ h)

theorem reaches_issueReadStatus (dummy : List Byte) (s : State) : Reaches s (issueReadStatus dummy s).2 :=
  reaches_transact _ _ _ s (statusResponse_length _ _) fun _ u => Chip.refl u

theorem reaches_issueRxStatus (dummy : List Byte) (s : State) : Reaches s (issueRxStatus dummy s).2 :=
  reaches_transact _ _ _ s (rxStatusResponse_length _ _) fun _ u => Chip.refl u

theorem reaches_issueReadRx (op : Byte) (slot : RxSlot) (dummy : List Byte) (s : State) :
    Reaches s (issueReadRx op slot dummy s).2 :=
  reaches_transact _ _ _ s (rxResponse_length _ _ _) fun _ u => chip_ite _ (chip_poke u _ _ (by decide))

theorem reaches_issueLoadTx (op : Byte) (slot : TxSlot) {data : List Byte} (s : State) (h : data.length ≤ 13) :
    Reaches s (issueLoadTx op slot data s).2 :=
  reaches_transact _ _ _ s (noResponse_length _) fun _ u =>
    chip_writeBlock _ u (Nat.le_trans (Nat.add_le_add_left (Nat.le_trans (List.length_take_le' _ _) h) _) (txSidh_le slot))

theorem chip_requestToSend (s : State) (slot : TxSlot) : Chip s (s.requestToSend slot) :=
  chip_writeByte s _ (txCtrl_lt slot)

theorem chip_foldl_requestToSend (slots : List TxSlot) (s : State) : Chip s (slots.foldl State.requestToSend s) := by
  induction slots generalizing s with
  | nil => exact Chip.refl s
  | cons x r ih => exact (chip_requestToSend s x).trans (ih _)

theorem reaches_issueRts (op : Byte) (slots : List TxSlot) (s : State) : Reaches s (issueRts op slots s).2 :=
  reaches_transact _ _ _ s (noResponse_length _) fun _ u => chip_ite _ (chip_foldl_requestToSend _ u)

/-! ## Register access -/

theorem reaches_readRegister (addr : Byte) (s : State) : Reaches s (readRegister addr s).2 := reaches_issueRead _ _ s

theorem reaches_readRegisters (addr : Byte) (n : Nat) (s : State) : Reaches s (readRegisters addr n s).2 :=
  reaches_issueRead _ _ s

theorem reaches_writeRegister {addr : Byte} (v : Byte) (s : State) (h : addr.toNat < 128) :
    Reaches s (writeRegister addr v s) := reaches_issueWrite s h

theorem reaches_writeRegisters {addr : Byte} {vs : List Byte} (s : State) (h : addr.toNat + vs.length ≤ 128) :
    Reaches s (writeRegisters addr vs s) := reaches_issueWrite s h

theorem reaches_modifyRegister {addr : Byte} (m d : Byte) (s : State) (h : addr.toNat < 128) :
    Reaches s (modifyRegister addr m d s) := reaches_issueBitmod m d s h

theorem reaches_resetChip (s : State) : Reaches s (resetChip s) :=
  (reaches_issueReset s).trans (reaches_sleep _ _)

theorem reaches_readStatus (s : State) : Reaches s (readStatus s).2 := reaches_issueReadStatus _ s

/-! ## Modes and bit timing -/

theorem reaches_pollMode (p : Byte) (n : Nat) (s : State) : Reaches s (pollMode p n s).2 := by
  induction n generalizing s with
  | zero => exact Reaches.refl s
  | succ k ih =>
    unfold pollMode
    dsimp only
    split
    · exact reaches_readRegister _ s
    · split
      · exact reaches_readRegister _ s
      · exact ((reaches_readRegister _ s).trans (reaches_sleep _ _)).trans (ih _)

theorem reaches_setMode (m : Mode) (s : State) : Reaches s (setMode m s).2 :=
  ((reaches_modifyRegister _ _ s (by decide)).trans (reaches_schedule _)).trans (reaches_pollMode _ _ _)

theorem reaches_writeTiming (t : Byte × Byte × Byte) (s : State) : Reaches s (writeTiming t s) :=
  ((((reaches_writeRegister _ s (by decide)).trans (reaches_schedule _)).trans
    (reaches_writeRegister _ _ (by decide))).trans (reaches_schedule _)).trans (reaches_writeRegister _ _ (by decide))

theorem reaches_setTiming (e : Option (Byte × Byte × Byte)) (s : State) : Reaches s (setTiming e s).2 := by
  unfold setTiming
  split
  · exact Reaches.refl s
  · dsimp only
    split
    · exact ((reaches_setMode _ s).trans (reaches_schedule _)).trans (reaches_writeTiming _ _)
    · exact reaches_setMode _ s

/-! ## Filters and masks -/

@[simp] theorem packIdBytes_length (ext : Bool) (v : Ident) : (packIdBytes ext v).length = 4 := by
  unfold packIdBytes; cases ext <;> rfl

theorem filterBase_le (f : FilterId) : (filterBase f).toNat + 4 ≤ 128 := by cases f <;> decide

theorem maskBase_le (m : MaskId) : (maskBase m).toNat + 4 ≤ 128 := by cases m <;> decide

theorem reaches_setBlock {base : Byte} (ext : Bool) (v : Ident) (s : State) (h : base.toNat + 4 ≤ 128) :
    Reaches s (setBlock base ext v s).2 := by
  unfold setBlock
  dsimp only
  split
  · exact ((reaches_setMode _ s).trans (reaches_schedule _)).trans (reaches_writeRegisters _ (by simpa using h))
  · exact reaches_setMode _ s

theorem reaches_clearBlocks (l : List (Byte × Bool)) (s : State) (h : ∀ b ∈ l, b.1.toNat + 4 ≤ 128) :
    Reaches s (clearBlocks l s).2 := by
  induction l generalizing s with
  | nil => exact Reaches.refl s
  | cons b r ih =>
    have hb := (reaches_schedule s).trans (reaches_setBlock b.2 0 s.schedule (h b List.mem_cons_self))
    unfold clearBlocks
    dsimp only
    split
    · exact hb.trans (ih _ fun x hx => h x (List.mem_cons_of_mem _ hx))
    · exact hb

theorem defaultBlocks_le : ∀ b ∈ defaultBlocks, b.1.toNat + 4 ≤ 128 := by
  have h : (defaultBlocks.all fun b => decide (b.1.toNat + 4 ≤ 128)) = true := by decide
  simpa using h

theorem reaches_defaultWrites (s : State) : Reaches s (defaultWrites s) := by
  unfold defaultWrites
  refine (reaches_writeRegisters s (by decide)).trans <| (reaches_schedule _).trans <|
    (reaches_writeRegisters _ (by decide)).trans <| (reaches_schedule _).trans <|
    (reaches_writeRegisters _ (by decide)).trans <| (reaches_schedule _).trans <|
    (reaches_writeRegister _ _ (by decide)).trans <| (reaches_schedule _).trans <|
    (reaches_writeRegister _ _ (by decide)).trans <| (reaches_schedule _).trans <|
    (reaches_writeRegister _ _ (by decide)).trans <| (reaches_schedule _).trans <|
    (reaches_modifyRegister _ _ _ (by decide)).trans <| (reaches_schedule _).trans <|
    reaches_modifyRegister _ _ _ (by decide)

theorem reaches_dropStale (s t : State) : Reaches t (s.dropStale t) := (agent_applyMoves _ t).reaches

theorem reaches_applyDefaultConfiguration (s : State) : Reaches s (applyDefaultConfiguration s).2 := by
  have h := (reaches_defaultWrites s).trans (reaches_clearBlocks defaultBlocks _ defaultBlocks_le)
  unfold applyDefaultConfiguration
  dsimp only
  split
  · exact h.trans (reaches_dropStale s _)
  · exact h

/-! ## Buffers -/

theorem frameBytes_length_le (f : Frame) : (frameBytes f).length ≤ 13 := by
  simp only [frameBytes, frameHeader, List.length_append, packIdBytes_length, List.length_cons, List.length_nil,
    List.length_take, Vector.length_toList]
  omega

theorem reaches_sendFrame (slot : TxSlot) (f : Frame) (s : State) : Reaches s (sendFrame slot f s).2 := by
  have h : (txSidh slot).toNat + (frameBytes f).length ≤ 128 :=
    Nat.le_trans (Nat.add_le_add_left (frameBytes_length_le f) _) (txSidh_le slot)
  exact (((reaches_writeRegisters s h).trans (reaches_schedule _)).trans
    (reaches_modifyRegister _ _ _ (txCtrl_lt slot))).trans ((reaches_schedule _).trans (reaches_readRegister _ _))

theorem reaches_send (slot : TxSlot) (f : Frame) (s : State) : Reaches s (send slot f s).2 := by
  unfold send
  split
  · exact Reaches.refl s
  · exact reaches_sendFrame slot f s

theorem reaches_sendScan (slots : List TxSlot) (f : Frame) (s : State) : Reaches s (sendScan slots f s).2 := by
  induction slots generalizing s with
  | nil => exact Reaches.refl s
  | cons x r ih =>
    unfold sendScan
    dsimp only
    split
    · cases r with
      | nil => exact reaches_readRegister _ s
      | cons y q => exact ((reaches_readRegister _ s).trans (reaches_schedule _)).trans (ih _)
    · exact ((reaches_readRegister _ s).trans (reaches_schedule _)).trans (reaches_sendFrame _ _ _)

theorem reaches_sendAny (f : Frame) (s : State) : Reaches s (sendAny f s).2 := by
  unfold sendAny
  split
  · exact Reaches.refl s
  · exact reaches_sendScan _ _ s

theorem reaches_setEnv (s : State) (e : Env) : Reaches s (s.setEnv e) := (agent_setEnv s e).reaches

theorem rxCtrlResponse_length (slot : RxSlot) (s : State) : (rxCtrlResponse slot s).1.length = 3 := by
  unfold rxCtrlResponse
  split
  · exact readResponse_length Opcode.read (rxCtrl slot) [0] s
  · exact Env.drawN_length 3 _

theorem reaches_readRxCtrl (slot : RxSlot) (s : State) : Reaches s (readRxCtrl slot s).2 :=
  reaches_transact _ _ _ s (rxCtrlResponse_length slot) fun _ u => Chip.refl u

theorem reaches_readBody (slot : RxSlot) (h : List Byte) (s : State) : Reaches s (readBody slot h s).2 :=
  (reaches_readRxCtrl slot s).trans <| (reaches_schedule _).trans <| (reaches_readRegisters _ _ _).trans <|
    (reaches_schedule _).trans <| (reaches_modifyRegister _ _ _ (by decide)).trans (reaches_setEnv _ _)

theorem reaches_readSlot (slot : RxSlot) (s : State) : Reaches s (readSlot slot s).2 := by
  unfold readSlot
  dsimp only
  split
  · exact reaches_readRegisters _ _ s
  · exact (reaches_readRegisters _ _ s).trans ((reaches_schedule _).trans (reaches_readBody _ _ _))

theorem reaches_readAny (s : State) : Reaches s (readAny s).2 := by
  unfold readAny
  dsimp only
  split
  · exact (reaches_readStatus s).trans ((reaches_schedule _).trans (reaches_readSlot _ _))
  · split
    · exact (reaches_readStatus s).trans ((reaches_schedule _).trans (reaches_readSlot _ _))
    · exact reaches_readStatus s

/-! ## Start-up -/

theorem reaches_bring (t : Byte × Byte × Byte) (s : State) : Reaches s (bring t s).2 := by
  have h1 := ((reaches_resetChip s).trans (reaches_schedule _)).trans (reaches_applyDefaultConfiguration _)
  unfold bring
  dsimp only
  split
  · have h2 := (h1.trans (reaches_schedule _)).trans (reaches_setTiming (some t) _)
    split
    · exact (h2.trans (reaches_schedule _)).trans (reaches_setMode _ _)
    · exact h2
  · exact h1

theorem reaches_initialiseWith (ok : Bool) (e : Option (Byte × Byte × Byte)) (s : State) :
    Reaches s (initialiseWith ok e s).2 := by
  unfold initialiseWith
  split
  · split
    · exact Reaches.refl s
    · exact reaches_bring _ s
  · exact Reaches.refl s

end Sys2Proof.Machine
end

