-- ==== Sys2Proof/Laws/PerInstr.lean ====
section
/-! SUPPORT. A statement per instruction, about its encoding: a serial instruction starts with one of the 15 opcode bytes of
30_encoding.md R124 and is at least as long as the shortest transaction of that opcode (R121-R129); an operation of the
layer has no bytes at all (30_encoding.md, preface). -/

namespace Sys2Proof.Laws.EncodeOpcode

/-- The bytes of `i`, if it has any, start with an admitted opcode and are long enough for it. -/
def Statement (i : Instr) : Prop :=
  ∀ bytes, encode i = some bytes → ∃ op rest, bytes = op :: rest ∧ op ∈ Opcode.all ∧ minLength op ≤ bytes.length

/-- Bytes that are `op :: rest` meet the statement when `op` and their length do. -/
theorem of_encode (i : Instr) (op : Byte) (rest : List Byte) (k : Nat) (h : encode i = some (op :: rest)) (hop : op ∈ Opcode.all)
    (hmin : minLength op = k) (hlen : k ≤ rest.length + 1) : Statement i := by
  intro bytes hb
  obtain rfl : op :: rest = bytes := Option.some.inj (h.symm.trans hb)
  exact ⟨op, rest, rfl, hop, hmin ▸ hlen⟩

/-- An instruction without an encoding meets the statement. -/
theorem of_none (i : Instr) (h : encode i = none) : Statement i := fun _ hb => nomatch h.symm.trans hb

theorem txnReset : Statement .txnReset :=
  of_encode _ _ _ 1 rfl (by decide) (by decide) (by simp)
theorem txnRead (addr : Byte) (dummy : List Byte) : Statement (.txnRead addr dummy) :=
  of_encode _ _ _ 2 rfl (by decide) (by decide) (by simp)
theorem txnWrite (addr : Byte) (data : List Byte) : Statement (.txnWrite addr data) :=
  of_encode _ _ _ 2 rfl (by decide) (by decide) (by simp)
theorem txnBitmod (addr mask data : Byte) : Statement (.txnBitmod addr mask data) :=
  of_encode _ _ _ 4 rfl (by decide) (by decide) (by simp)
theorem txnReadStatus (dummy : List Byte) : Statement (.txnReadStatus dummy) :=
  of_encode _ _ _ 1 rfl (by decide) (by decide) (by simp)
theorem txnRxStatus (dummy : List Byte) : Statement (.txnRxStatus dummy) :=
  of_encode _ _ _ 1 rfl (by decide) (by decide) (by simp)
theorem txnReadRx0 (dummy : List Byte) : Statement (.txnReadRx0 dummy) :=
  of_encode _ _ _ 1 rfl (by decide) (by decide) (by simp)
theorem txnReadRx1 (dummy : List Byte) : Statement (.txnReadRx1 dummy) :=
  of_encode _ _ _ 1 rfl (by decide) (by decide) (by simp)
theorem txnLoadTx0 (data : List Byte) : Statement (.txnLoadTx0 data) :=
  of_encode _ _ _ 1 rfl (by decide) (by decide) (by simp)
theorem txnLoadTx1 (data : List Byte) : Statement (.txnLoadTx1 data) :=
  of_encode _ _ _ 1 rfl (by decide) (by decide) (by simp)
theorem txnLoadTx2 (data : List Byte) : Statement (.txnLoadTx2 data) :=
  of_encode _ _ _ 1 rfl (by decide) (by decide) (by simp)
theorem txnRtsTx0 : Statement .txnRtsTx0 :=
  of_encode _ _ _ 1 rfl (by decide) (by decide) (by simp)
theorem txnRtsTx1 : Statement .txnRtsTx1 :=
  of_encode _ _ _ 1 rfl (by decide) (by decide) (by simp)
theorem txnRtsTx2 : Statement .txnRtsTx2 :=
  of_encode _ _ _ 1 rfl (by decide) (by decide) (by simp)
theorem txnRtsAll : Statement .txnRtsAll :=
  of_encode _ _ _ 1 rfl (by decide) (by decide) (by simp)
theorem readRegister (addr : Byte) : Statement (.readRegister addr) := of_none _ rfl
theorem readRegisters (addr : Byte) (n : Nat) : Statement (.readRegisters addr n) := of_none _ rfl
theorem writeRegister (addr value : Byte) : Statement (.writeRegister addr value) := of_none _ rfl
theorem writeRegisters (addr : Byte) (values : List Byte) : Statement (.writeRegisters addr values) := of_none _ rfl
theorem modifyRegister (addr mask data : Byte) : Statement (.modifyRegister addr mask data) := of_none _ rfl
theorem reset : Statement .reset := of_none _ rfl
theorem readStatus : Statement .readStatus := of_none _ rfl
theorem setMode (mode : Mode) : Statement (.setMode mode) := of_none _ rfl
theorem lookupBitTiming (clock : Clock) (rate : Rate) : Statement (.lookupBitTiming clock rate) := of_none _ rfl
theorem setBitrate (clock : Clock) (rate : Rate) : Statement (.setBitrate clock rate) := of_none _ rfl
theorem packId (ext : Bool) (value : Ident) : Statement (.packId ext value) := of_none _ rfl
theorem decodeId (sidh sidl eid8 eid0 : Byte) : Statement (.decodeId sidh sidl eid8 eid0) := of_none _ rfl
theorem encodeFrame (frame : Frame) : Statement (.encodeFrame frame) := of_none _ rfl
theorem decodeFrame (sidh sidl eid8 eid0 dlc ctrl : Byte) : Statement (.decodeFrame sidh sidl eid8 eid0 dlc ctrl) := of_none _ rfl
theorem setFilter (filter : FilterId) (ext : Bool) (value : Ident) : Statement (.setFilter filter ext value) := of_none _ rfl
theorem setMask (mask : MaskId) (ext : Bool) (value : Ident) : Statement (.setMask mask ext value) := of_none _ rfl
theorem applyDefaultConfiguration : Statement .applyDefaultConfiguration := of_none _ rfl
theorem send (slot : TxSlot) (frame : Frame) : Statement (.send slot frame) := of_none _ rfl
theorem sendAny (frame : Frame) : Statement (.sendAny frame) := of_none _ rfl
theorem read (slot : RxSlot) : Statement (.read slot) := of_none _ rfl
theorem readAnyPending : Statement .readAnyPending := of_none _ rfl
theorem errorFlags : Statement .errorFlags := of_none _ rfl
theorem hasError : Statement .hasError := of_none _ rfl
theorem clearReceiveOverflow : Statement .clearReceiveOverflow := of_none _ rfl
theorem clearMessageError : Statement .clearMessageError := of_none _ rfl
theorem clearErrorInterrupt : Statement .clearErrorInterrupt := of_none _ rfl
theorem onInterrupt : Statement .onInterrupt := of_none _ rfl
theorem onCanMessage : Statement .onCanMessage := of_none _ rfl
theorem initialise (clock : Clock) (rate : Rate) (attachOk : Bool) : Statement (.initialise clock rate attachOk) := of_none _ rfl

end Sys2Proof.Laws.EncodeOpcode
end

