-- ==== Sys2Proof/Laws/Quiet.lean ====
section
/-! SUPPORT. What a transaction and a scheduling point do when nothing disturbs them: each consumes one entry of its list of
choices (`Calm`), and the rest is the effect on the register file. -/

namespace Sys2Proof.Machine

/-! ## Draws leave the other choices alone -/

@[simp] theorem Env.draw_links (e : Env) : e.draw.2.links = e.links := by
  unfold Env.draw; split <;> rfl

@[simp] theorem Env.draw_turns (e : Env) : e.draw.2.turns = e.turns := by
  unfold Env.draw; split <;> rfl

@[simp] theorem Env.drawN_links (n : Nat) (e : Env) : (Env.drawN n e).2.links = e.links := by
  induction n generalizing e with
  | zero => rfl
  | succ k ih => simp [Env.drawN, ih]

@[simp] theorem Env.drawN_turns (n : Nat) (e : Env) : (Env.drawN n e).2.turns = e.turns := by
  induction n generalizing e with
  | zero => rfl
  | succ k ih => simp [Env.drawN, ih]

@[simp] theorem State.readCell_links (s : State) (a : Nat) (e : Env) : (s.readCell a e).2.links = e.links := by
  unfold State.readCell; split <;> simp

@[simp] theorem State.readCell_turns (s : State) (a : Nat) (e : Env) : (s.readCell a e).2.turns = e.turns := by
  unfold State.readCell; split <;> simp

@[simp] theorem State.readBlock_links (s : State) (a n : Nat) (e : Env) : (s.readBlock a n e).2.links = e.links := by
  induction n generalizing a e with
  | zero => rfl
  | succ k ih => simp [State.readBlock, ih]

@[simp] theorem State.readBlock_turns (s : State) (a n : Nat) (e : Env) : (s.readBlock a n e).2.turns = e.turns := by
  induction n generalizing a e with
  | zero => rfl
  | succ k ih => simp [State.readBlock, ih]

theorem State.writeByte_links (s : State) (a : Nat) (v : Byte) :
    (s.writeByte a v).env.links = s.env.links ∧ (s.writeByte a v).env.turns = s.env.turns := by
  rcases s.writeByte_cases a v with ⟨_, h⟩ | ⟨_, _, h⟩ | ⟨_, _, h⟩ <;> rw [h]
  · simp
  · simp
  · unfold State.noteAbort
    split
    · split <;> simp
    · simp

theorem State.writeBlock_links (d : List Byte) (s : State) (a : Nat) :
    (s.writeBlock a d).env.links = s.env.links ∧ (s.writeBlock a d).env.turns = s.env.turns := by
  induction d generalizing s a with
  | nil => exact ⟨rfl, rfl⟩
  | cons v r ih =>
    have h1 := ih (s.writeByte a v) (a + 1)
    have h2 := s.writeByte_links a v
    exact ⟨h1.1.trans h2.1, h1.2.trans h2.2⟩

theorem State.bitModify_links (s : State) (a : Nat) (m d : Byte) :
    (s.bitModify a m d).env.links = s.env.links ∧ (s.bitModify a m d).env.turns = s.env.turns := by
  rcases s.bitModify_cases a m d with ⟨_, h⟩ | ⟨_, h⟩ <;> rw [h]
  · exact ⟨rfl, rfl⟩
  · exact s.writeByte_links a _

/-! ## Runs that nothing disturbs -/

/-- `t` comes from `s` by `k` transactions that succeed and `j` scheduling points at which no other agent steps; nothing of the
host but the transcript changes, and the event queue, which the bridge serves at the scheduling points. -/
structure Calm (k j : Nat) (s t : State) : Prop where
  settle : t.settle = s.settle
  links : t.env.links = s.env.links.drop k
  turns : t.env.turns = s.env.turns.drop j
  queue : j = 0 → t.queue = s.queue
  waits : j = 0 → t.waits = s.waits
  log : t.log = s.log
  refused : t.refused = s.refused
  cloudUp : t.cloudUp = s.cloudUp
  calls : t.calls = s.calls
  results : t.results = s.results
  sleeps : t.sleeps = s.sleeps
  params : t.params = s.params

theorem Calm.refl (s : State) : Calm 0 0 s s := ⟨rfl, rfl, rfl, fun _ => rfl, fun _ => rfl, rfl, rfl, rfl, rfl, rfl, rfl, rfl⟩

theorem Calm.trans {k j k' j' : Nat} {s t u : State} (h : Calm k j s t) (g : Calm k' j' t u) :
    Calm (k + k') (j + j') s u where
  settle := g.settle.trans h.settle
  links := by rw [g.links, h.links, List.drop_drop]
  turns := by rw [g.turns, h.turns, List.drop_drop]
  queue := fun e => (g.queue (by omega)).trans (h.queue (by omega))
  waits := fun e => (g.waits (by omega)).trans (h.waits (by omega))
  log := g.log.trans h.log
  refused := g.refused.trans h.refused
  cloudUp := g.cloudUp.trans h.cloudUp
  calls := g.calls.trans h.calls
  results := g.results.trans h.results
  sleeps := g.sleeps.trans h.sleeps
  params := g.params.trans h.params

theorem Calm.sameHost {k : Nat} {s t : State} (h : Calm k 0 s t) : SameHost s t :=
  ⟨h.queue rfl, h.waits rfl, h.cloudUp, h.refused, h.calls⟩

theorem Calm.sameRun {k : Nat} {s t : State} (h : Calm k 0 s t) : SameRun s t :=
  ⟨h.sameHost, h.log, h.sleeps, h.settle⟩

theorem Issued.refl (s : State) : Issued s s [] := ⟨[], by simp, rfl, by simp⟩

theorem Issued.trans {s t u : State} {l l' : List (List Byte)} (h : Issued s t l) (g : Issued t u l') :
    Issued s u (l ++ l') := by
  obtain ⟨es, h1, h2, h3⟩ := h
  obtain ⟨fs, g1, g2, g3⟩ := g
  refine ⟨es ++ fs, by rw [g1, h1, List.append_assoc], by rw [List.map_append, h2, g2], ?_⟩
  intro e he
  rcases List.mem_append.1 he with he | he
  · exact h3 e he
  · exact g3 e he

theorem Issued.of_eq {s t : State} (h : t.transcript = s.transcript) : Issued s t [] := ⟨[], by simp [h], rfl, by simp⟩

theorem Issued.of_sent {s t : State} {out : List Byte} (h : Sent s t out) : Issued s t [out] := by
  obtain ⟨inb, _, h⟩ := h
  exact ⟨_, h, rfl, by simp⟩

/-- The choices of the next transaction, out of those of a quiet or prompt run. -/
theorem take_replicate_drop {α : Type} {l : List α} {x : α} {n k : Nat} (h : l.take n = List.replicate n x) (hk : k < n) :
    l.drop k = x :: l.drop (k + 1) := by
  have hl : n ≤ l.length := by
    have := congrArg List.length h
    simp only [List.length_take, List.length_replicate] at this
    omega
  have hk' : k < l.length := by omega
  rw [List.drop_eq_getElem_cons hk']
  congr 1
  have h1 : (l.take n)[k]'(by rw [List.length_take]; omega) = x := by
    simp only [h, List.getElem_replicate]
  rwa [List.getElem_take] at h1

theorem head_of_take {α : Type} {l : List α} {x : α} {n : Nat} (h : l.take n = List.replicate n x) (hn : 0 < n) :
    l = x :: l.drop 1 := by
  simpa using take_replicate_drop h hn

theorem head_cons {α : Type} {l : List α} {x : α} (h : l.head? = some x) : l = x :: l.drop 1 := by
  cases l with
  | nil => cases h
  | cons a r => simpa using h

/-- A transaction that nothing disturbs, from its response and its effect. -/
theorem transact_calm (out : List Byte) (respond : State → List Byte × Env) (effect : Nat → State → State) {s : State}
    (hc : s.clear) (hr : ∀ u, (respond u).1.length = out.length)
    (hl : ∀ u, (respond u).2.links = u.env.links ∧ (respond u).2.turns = u.env.turns)
    (he : ∀ u, (effect out.length u).env.links = u.env.links ∧ (effect out.length u).env.turns = u.env.turns)
    (hs : ∀ u, (effect out.length u).settle = u.settle)
    (hch : ∀ u, Chip u (effect out.length u)) :
    ∃ (e : Env), transact out respond effect s =
        ((respond (s.setEnv { s.env with links := s.env.links.drop 1 })).1,
          (effect out.length (s.setEnv e)).record
            { out := out, inb := (respond (s.setEnv { s.env with links := s.env.links.drop 1 })).1, ok := true }) ∧
      Calm 1 0 s (transact out respond effect s).2 ∧ Sent s (transact out respond effect s).2 out := by
  have h := transact_clear out respond effect (r := s.env.links.drop 1) hc.1 (head_cons hc.2)
  refine ⟨_, h, ?_, ?_⟩
  · rw [h]
    have c := hch (s.setEnv (respond (s.setEnv { s.env with links := s.env.links.drop 1 })).2)
    have e1 := he (s.setEnv (respond (s.setEnv { s.env with links := s.env.links.drop 1 })).2)
    have l1 := hl (s.setEnv { s.env with links := s.env.links.drop 1 })
    exact ⟨hs _, e1.1.trans l1.1, e1.2.trans l1.2, fun _ => c.queue, fun _ => c.waits, c.log, c.refused, c.cloudUp, c.calls, c.results,
      c.sleeps, c.params⟩
  · rw [h]
    refine ⟨(respond (s.setEnv { s.env with links := s.env.links.drop 1 })).1, hr _, ?_⟩
    simp only [State.record_transcript]
    rw [(hch _).transcript]
    rfl

theorem noResponse_links (out : List Byte) (u : State) :
    (noResponse out u).2.links = u.env.links ∧ (noResponse out u).2.turns = u.env.turns := by
  simp [noResponse]

/-- A `WRITE` that nothing disturbs: the bytes are written to a state that differs in the choices only. -/
theorem issueWrite_calm (addr : Byte) (data : List Byte) {s : State} (hc : s.clear)
    (h : addr.toNat + data.length ≤ 128) :
    (∃ (e : Env) (x : Entry), (issueWrite addr data s).2 = ((s.setEnv e).writeBlock addr.toNat data).record x) ∧
      Calm 1 0 s (issueWrite addr data s).2 ∧ Sent s (issueWrite addr data s).2 (0x02 :: addr :: data) := by
  have ht : ∀ n, n = (Opcode.write :: addr :: data).length → data.take (n - 2) = data := by
    intro n hn
    rw [hn]
    exact List.take_of_length_le (by simp)
  obtain ⟨e, h1, h2, h3⟩ := transact_calm (Opcode.write :: addr :: data) (noResponse (Opcode.write :: addr :: data))
    (fun k s => s.writeBlock addr.toNat (data.take (k - 2))) hc (noResponse_length _) (noResponse_links _)
    (fun u => by rw [ht _ rfl]; exact u.writeBlock_links ..)
    (fun u => by rw [ht _ rfl]; exact u.settle_writeBlock ..)
    (fun u => by rw [ht _ rfl]; exact chip_writeBlock _ u h)
  have h4 := congrArg Prod.snd h1
  dsimp only at h4
  rw [ht _ rfl] at h4
  exact ⟨⟨e, _, h4⟩, h2, h3⟩

/-- A `BITMOD` that nothing disturbs. -/
theorem issueBitmod_calm (addr m d : Byte) {s : State} (hc : s.clear) (h : addr.toNat < 128) :
    (∃ (e : Env) (x : Entry), (issueBitmod addr m d s).2 = ((s.setEnv e).bitModify addr.toNat m d).record x) ∧
      Calm 1 0 s (issueBitmod addr m d s).2 ∧ Sent s (issueBitmod addr m d s).2 [0x05, addr, m, d] := by
  obtain ⟨e, h1, h2, h3⟩ := transact_calm [Opcode.bitmod, addr, m, d] (noResponse [Opcode.bitmod, addr, m, d])
    (fun k s => if 4 ≤ k then s.bitModify addr.toNat m d else s) hc (noResponse_length _) (noResponse_links _)
    (fun u => u.bitModify_links ..) (fun u => u.settle_bitModify ..) (fun u => chip_bitModify u m d h)
  exact ⟨⟨e, _, congrArg Prod.snd h1⟩, h2, h3⟩

/-- A `READ` that nothing disturbs: exact bytes but from unlocked receive buffers, and nothing changes. -/
theorem issueRead_calm (addr : Byte) (dummy : List Byte) {s : State} (hc : s.clear) :
    ∃ (inb : List Byte) (e : Env), issueRead addr dummy s =
        (inb, { s with transcript := s.transcript ++ [{ out := 0x03 :: addr :: dummy, inb := inb, ok := true }], env := e }) ∧
      e.links = s.env.links.drop 1 ∧ e.turns = s.env.turns ∧ inb.length = 2 + dummy.length ∧
      ∀ i, i < dummy.length → s.unlockedRx (addr.toNat + i) = false → inb[2 + i]? = some (s.reg (addr.toNat + i)) := by
  have h := transact_clear (Opcode.read :: addr :: dummy) (readResponse addr dummy.length) (fun _ s => s)
    (r := s.env.links.drop 1) hc.1 (head_cons hc.2)
  refine ⟨_, _, h, ?_, ?_, ?_, ?_⟩
  · simp [readResponse]
  · simp [readResponse]
  · simp [readResponse]
  · intro i hi hu
    have hb := State.readBlock_getElem? (s.setEnv { s.env with links := s.env.links.drop 1 }) addr.toNat dummy.length
      (Env.drawN 2 { s.env with links := s.env.links.drop 1 }).2 i hi hu
    unfold readResponse
    dsimp only [State.setEnv_env]
    rw [List.getElem?_append_right (by simp), Env.drawN_length, Nat.add_sub_cancel_left]
    exact hb

/-! ## Scheduling points at which only the bridge runs -/

theorem State.takeInterrupt_eq (s : State) : s.takeInterrupt = { s with queue := pushed s.queue canEvent } := by
  unfold State.takeInterrupt State.enqueue pushed canEvent Config.queueCap
  split <;> rfl

/-- `n + 1` sends of one event, the first of them made. -/
theorem pushed_append_replicate (q : List Event) (n : Nat) (e : Event) :
    pushed q e ++ List.replicate (min n (10 - (pushed q e).length)) e =
      q ++ List.replicate (min (n + 1) (10 - q.length)) e := by
  unfold pushed
  split
  · rw [List.append_assoc, List.singleton_append, ← List.replicate_succ, List.length_append, List.length_singleton]
    congr 2
    omega
  · rw [show min n (10 - q.length) = 0 by omega, show min (n + 1) (10 - q.length) = 0 by omega]

/-- `n` events of the bridge, as far as the queue takes them. -/
theorem State.takeInterrupts_eq (n : Nat) (s : State) :
    State.takeInterrupts n s =
      { s with queue := s.queue ++ List.replicate (min n (10 - s.queue.length)) canEvent } := by
  induction n generalizing s with
  | zero => simp [State.takeInterrupts]
  | succ k ih =>
    unfold State.takeInterrupts
    rw [ih, State.takeInterrupt_eq]
    simp only [pushed_append_replicate]

/-- Under `FallingEdge` the bridge sends an event for each change of `INT` that it has not served or put off beyond the point. -/
theorem State.serve_fallingEdge {s : State} (h : s.params.intTrigger = .fallingEdge) :
    s.serve = { s with
      queue := s.queue ++ List.replicate (min (s.edges + s.waits.count 0) (10 - s.queue.length)) canEvent
      edges := 0
      waits := later 1 s.waits } := by
  unfold State.serve State.due State.endPoint
  rw [State.takeInterrupts_eq]
  simp only [h]

/-- Under `LowLevel` it sends one event while `INT` is asserted. -/
theorem State.serve_lowLevel {s : State} (h : s.params.intTrigger = .lowLevel) :
    s.serve = { s with
      queue := s.queue ++ List.replicate (min (if s.int then 1 else 0) (10 - s.queue.length)) canEvent } := by
  unfold State.serve State.due State.endPoint
  rw [State.takeInterrupts_eq]
  simp only [h]

/-- The end of a scheduling point touches the queue and the changes not served alone. -/
theorem State.serve_shape (s : State) : ∃ q n w, s.serve = { s with queue := q, edges := n, waits := w } := by
  cases h : s.params.intTrigger
  · exact ⟨_, _, _, State.serve_fallingEdge h⟩
  · exact ⟨_, s.edges, s.waits, State.serve_lowLevel h⟩

/-- The changes that have waited to the end at the next of `n + 1` points. -/
theorem count_later (w : List Nat) (n : Nat) :
    (w.filter (· < n)).length + ((w.filter (n ≤ ·)).map (· - n)).count 0 = (w.filter (· < n + 1)).length := by
  induction w with
  | nil => rfl
  | cons x r ih =>
    simp only [List.filter_cons, decide_eq_true_eq]
    rcases Nat.lt_trichotomy x n with h | h | h
    · rw [if_pos h, if_neg (by omega), if_pos (by omega), List.length_cons, List.length_cons]; omega
    · rw [if_neg (by omega), if_pos (by omega), if_pos (by omega), List.map_cons, List.count_cons, List.length_cons,
        if_pos (by simp [h])]
      omega
    · rw [if_neg (by omega), if_pos (by omega), if_neg (by omega), List.map_cons, List.count_cons,
        if_neg (by simp; omega)]
      omega

theorem later_later (w : List Nat) (n : Nat) :
    later 1 ((w.filter (n ≤ ·)).map (· - n)) = (w.filter (n + 1 ≤ ·)).map (· - (n + 1)) := by
  unfold later
  induction w with
  | nil => rfl
  | cons x r ih =>
    simp only [List.filter_cons, decide_eq_true_eq]
    rcases Nat.lt_trichotomy x n with h | h | h
    · rw [if_neg (by omega), if_neg (by omega)]; exact ih
    · rw [if_pos (by omega), if_neg (by omega), List.map_cons, List.filter_cons, if_neg (by simp; omega)]; exact ih
    · rw [if_pos (by omega), if_pos (by omega), List.map_cons, List.filter_cons, if_pos (by simp; omega), List.map_cons,
        List.map_cons, ih]
      congr 1

theorem served_serve (s : State) : Served 1 s s.serve := by
  unfold Served
  cases h : s.params.intTrigger
  · rw [State.serve_fallingEdge h]
    have := count_later s.waits 0
    simp only [Nat.not_lt_zero, decide_false, List.filter_false, List.length_nil, Nat.zero_le, decide_true,
      List.filter_true, Nat.sub_zero, List.map_id_fun', id, Nat.zero_add] at this
    refine ⟨?_, rfl, rfl⟩
    dsimp only
    rw [this]
  · rw [State.serve_lowLevel h]; exact ⟨rfl, rfl, rfl⟩

/-- A scheduling point after `n` others, the line and the parameters being the same. -/
theorem Served.serve {n : Nat} {s t : State} (h : Served n s t) (hi : t.int = s.int) (hp : t.params = s.params) :
    Served (n + 1) s t.serve := by
  unfold Served at h ⊢
  cases hs : s.params.intTrigger <;> rw [hs] at h <;> dsimp only at h ⊢
  · rw [State.serve_fallingEdge (by rw [hp]; exact hs)]
    obtain ⟨h1, h2, h3⟩ := h
    have hc := count_later s.waits n
    refine ⟨?_, rfl, by dsimp only; rw [h3, later_later]⟩
    dsimp only
    rw [h1, h2, h3, List.append_assoc, List.replicate_append_replicate, List.length_append, List.length_replicate]
    congr 2
    omega
  · rw [State.serve_lowLevel (by rw [hp]; exact hs)]
    refine ⟨?_, h.2⟩
    dsimp only
    rw [h.1, hi, List.append_assoc, List.replicate_append_replicate, List.length_append, List.length_replicate]
    congr 2
    cases s.int
    · simp
    · simp only [if_true]; omega

/-- A scheduling point at which no other agent steps. -/
theorem schedule_idle {s : State} (h : s.env.turns.head? = some []) :
    s.schedule = (s.setEnv { s.env with turns := s.env.turns.drop 1 }).serve := schedule_of_nil (head_cons h)

theorem schedule_idle_calm {s : State} (h : s.env.turns.head? = some []) : Calm 0 1 s s.schedule := by
  obtain ⟨q, n, w, hs⟩ := (s.setEnv { s.env with turns := s.env.turns.drop 1 }).serve_shape
  rw [schedule_idle h, hs]
  exact ⟨rfl, rfl, rfl, nofun, nofun, rfl, rfl, rfl, rfl, rfl, rfl, rfl⟩

end Sys2Proof.Machine
end

