-- ==== Sys2Proof/Laws/Writes.lean ====
section
/-! SUPPORT. What a register reads as after a write or a bit-modify, and what of the rest of the state a write can touch. -/

namespace Sys2Proof.Machine

theorem canon_eq_self {a : Nat} (h : a % 16 < 14) : canon a = a := by
  rw [canon_eq]; split
  · omega
  · split <;> omega

/-- A register holds only bits that it has (10_state.md R52). -/
theorem State.normal_reg {s : State} (h : Memory.wf s.mem = true) {a : Nat} (ha : a < 128) (hc : canon a ≠ Addr.canstat) :
    normal (canon a) (s.reg a) = s.reg a := by
  unfold State.reg; rw [if_neg hc]; exact Memory.normal_read h (canon_mem ha)

theorem and_eq_of_normal {s : State} (h : Memory.wf s.mem = true) {a : Nat} (ha : a < 128) (hc : canon a = a)
    (h60 : a ≠ 0x60) (hs : a ≠ Addr.canstat) : s.reg a &&& implMask a = s.reg a := by
  have := State.normal_reg h ha (by rwa [hc])
  rw [hc, normal_eq] at this
  rwa [if_neg h60] at this

/-- OPMOD depends on the stored CANSTAT alone. -/
theorem State.opmod_eq (s : State) : s.opmod = Memory.read s.mem Addr.canstat &&& modeMask := by
  have hcanon : canon Addr.canstat = Addr.canstat := by decide
  unfold State.opmod State.reg
  rw [if_pos hcanon]
  unfold Memory.canstat
  generalize Memory.read s.mem Addr.canstat = x
  generalize Memory.read s.mem Addr.canintf &&& Memory.read s.mem Addr.caninte = y
  have hi : icodOf y &&& modeMask = 0 := by
    show Mcp2515.icod y &&& 0xE0 = 0
    unfold Mcp2515.icod
    repeat' split
    all_goals decide
  rw [BitVec.and_or_distrib_right, hi, BitVec.and_assoc, BitVec.and_self]
  exact BitVec.or_zero

theorem State.opmod_setReg (s : State) {a : Nat} (v : Byte) (h : canon a ≠ Addr.canstat) :
    (s.setReg a v).opmod = s.opmod := by
  rw [State.opmod_eq, State.opmod_eq]
  unfold State.setReg
  rw [State.setMem_mem, Memory.read_write_other _ _ (Ne.symm h)]

/-! ## The interrupt line -/

/-- The line follows the flags in every state that a register change leaves. -/
theorem level_eq (s : State) : Memory.level s.mem = decide (s.reg 0x2C &&& s.reg 0x2B ≠ 0) := rfl

theorem sameLine_setMem {s : State} {m : Memory} (hi : s.int = Memory.level s.mem)
    (h1 : Memory.read m Addr.canintf = Memory.read s.mem Addr.canintf)
    (h2 : Memory.read m Addr.caninte = Memory.read s.mem Addr.caninte) : SameLine s (s.setMem m) := by
  have hl : Memory.level m = s.int := by rw [hi]; unfold Memory.level; rw [h1, h2]
  refine ⟨by rw [State.setMem_int, hl], ?_⟩
  rw [State.setMem_edges, hl]
  cases s.int <;> rfl

theorem sameLine_setReg {s : State} {a : Nat} (v : Byte) (hi : s.int = Memory.level s.mem)
    (h1 : canon a ≠ Addr.canintf) (h2 : canon a ≠ Addr.caninte) : SameLine s (s.setReg a v) :=
  sameLine_setMem hi (Memory.read_write_other _ _ (Ne.symm h1)) (Memory.read_write_other _ _ (Ne.symm h2))

theorem lineFollows_setReg (s : State) (a : Nat) (v : Byte) : LineFollows s (s.setReg a v) := ⟨rfl, rfl⟩

/-! ## One write -/

/-- A write is direct: the register takes the value, and no draw is made. -/
abbrev State.direct (s : State) (a : Nat) : Prop :=
  ¬ (configOnly (canon a) = true ∧ s.opmod ≠ 0x80) ∧ s.pendingTx (canon a) = false

theorem State.writeByte_direct {s : State} {a : Nat} (h : s.direct a) (v : Byte) :
    s.writeByte a v =
      (s.setReg (canon a) (merge (canon a) v (s.reg a))).noteAbort (canon a) v (s.reg a) := by
  rcases s.writeByte_cases a v with ⟨h1, _⟩ | ⟨_, h1, _⟩ | ⟨_, _, h1⟩
  · exact absurd h1 h.1
  · rw [h.2] at h1; cases h1
  · exact h1

@[simp] theorem State.noteAbort_mem (s : State) (a : Nat) (v o : Byte) : (s.noteAbort a v o).mem = s.mem := by
  unfold State.noteAbort; split
  · split <;> rfl
  · rfl

@[simp] theorem State.noteAbort_int (s : State) (a : Nat) (v o : Byte) : (s.noteAbort a v o).int = s.int := by
  unfold State.noteAbort; split
  · split <;> rfl
  · rfl

@[simp] theorem State.noteAbort_edges (s : State) (a : Nat) (v o : Byte) : (s.noteAbort a v o).edges = s.edges := by
  unfold State.noteAbort; split
  · split <;> rfl
  · rfl

theorem State.reg_noteAbort (s : State) (a : Nat) (v o : Byte) (b : Nat) : (s.noteAbort a v o).reg b = s.reg b :=
  State.reg_of_mem (by simp) b

/-- The value that a direct write leaves. -/
theorem State.reg_writeByte {s : State} {a b : Nat} (h : s.direct a) (v : Byte) (hb : canon b = canon a)
    (hc : canon a ≠ Addr.canstat) : (s.writeByte a v).reg b = normal (canon a) (merge (canon a) v (s.reg a)) := by
  rw [State.writeByte_direct h, State.reg_noteAbort]
  have := State.reg_setReg_self s (a := canon a) (b := b) (merge (canon a) v (s.reg a))
    (by rw [canon_canon]; exact hb) (by rwa [canon_canon])
  rwa [canon_canon] at this

/-- Everything that a write leaves of the rest: it is a change of one register of a state with the same register file. -/
theorem State.writeByte_shape (s : State) (a : Nat) (v : Byte) :
    ∃ w, (s.writeByte a v).mem = (s.setReg (canon a) w).mem ∧
      (s.writeByte a v).int = (s.setReg (canon a) w).int ∧
      (s.writeByte a v).edges = (s.setReg (canon a) w).edges := by
  rcases s.writeByte_cases a v with ⟨_, h⟩ | ⟨_, _, h⟩ | ⟨_, _, h⟩ <;> rw [h]
  · exact ⟨_, rfl, rfl, rfl⟩
  · exact ⟨_, rfl, rfl, rfl⟩
  · exact ⟨merge (canon a) v (s.reg a), by simp, by simp, by simp⟩

theorem lineFollows_writeByte (s : State) (a : Nat) (v : Byte) : LineFollows s (s.writeByte a v) := by
  obtain ⟨w, h1, h2, h3⟩ := s.writeByte_shape a v
  refine ⟨?_, ?_⟩
  · rw [h2, ← level_eq, h1]; rfl
  · rw [h3, h2]; rfl

theorem sameLine_writeByte {s : State} {a : Nat} (v : Byte) (hi : s.int = Memory.level s.mem)
    (h1 : canon a ≠ Addr.canintf) (h2 : canon a ≠ Addr.caninte) : SameLine s (s.writeByte a v) := by
  obtain ⟨w, _, g2, g3⟩ := s.writeByte_shape a v
  have := sameLine_setReg (a := canon a) w hi (by rwa [canon_canon]) (by rwa [canon_canon])
  exact ⟨g2.trans this.1, g3.trans this.2⟩

/-- A write to CANSTAT changes nothing (20_memory.md R89). -/
theorem merge_canstat (v o : Byte) : merge Addr.canstat v o = o := by
  unfold merge
  have h1 : writeMask Addr.canstat = 0 := by decide
  have h2 : isTxCtrl Addr.canstat = false := by decide
  simpa [h1, h2] using BitVec.and_allOnes (x := o)

theorem normal_canstat (o : Byte) : normal Addr.canstat o = o &&& modeMask := by
  have h1 : implMask Addr.canstat = modeMask := by decide
  rw [normal_eq, if_neg (by decide), h1]

theorem State.reg_canstat (s : State) {a : Nat} (h : canon a = Addr.canstat) : s.reg a = Memory.canstat s.mem := by
  unfold State.reg; rw [if_pos h]

theorem State.writeByte_canstat {s : State} {a : Nat} (h : canon a = Addr.canstat) (v : Byte) :
    SameRegs [] s (s.writeByte a v) ∧ (s.writeByte a v).opmod = s.opmod := by
  have hd : s.direct a := by
    refine ⟨?_, ?_⟩
    · rw [h]; rintro ⟨h, _⟩; revert h; decide
    · rw [h]
      have : isTxBody Addr.canstat = false := by decide
      unfold State.pendingTx
      rw [this]; rfl
  have hm : Memory.read (s.writeByte a v).mem Addr.canstat &&& modeMask = Memory.read s.mem Addr.canstat &&& modeMask := by
    rw [State.writeByte_direct hd, State.noteAbort_mem]
    unfold State.setReg
    rw [State.setMem_mem, canon_canon, h, merge_canstat, Memory.read_write_self, normal_canstat,
      BitVec.and_assoc, BitVec.and_self, State.reg_canstat s h, ← State.opmod_eq]
    unfold State.opmod
    rw [State.reg_canstat s (by decide)]
  have ho : ∀ b, b ≠ Addr.canstat → Memory.read (s.writeByte a v).mem b = Memory.read s.mem b := by
    intro b hb
    rw [State.writeByte_direct hd, State.noteAbort_mem]
    unfold State.setReg
    rw [State.setMem_mem, canon_canon, h, Memory.read_write_other _ _ hb]
  refine ⟨?_, by rw [State.opmod_eq, State.opmod_eq, hm]⟩
  intro b _ _
  by_cases hb : canon b = Addr.canstat
  · rw [State.reg_canstat _ hb, State.reg_canstat _ hb]
    unfold Memory.canstat
    rw [hm, ho _ (by decide), ho _ (by decide)]
  · unfold State.reg
    rw [if_neg hb, if_neg hb, ho _ hb]

/-- No write of the Caller changes OPMOD. -/
theorem State.opmod_writeByte (s : State) (a : Nat) (v : Byte) : (s.writeByte a v).opmod = s.opmod := by
  by_cases h : canon a = Addr.canstat
  · exact (State.writeByte_canstat h v).2
  · obtain ⟨w, h1, _, _⟩ := s.writeByte_shape a v
    rw [State.opmod_of_mem h1, State.opmod_setReg s w (by rwa [canon_canon])]

/-- Only a write to TXBnCTRL makes or ends a request to abort. -/
theorem State.aborting_writeByte (s : State) {a : Nat} (v : Byte) (h : isTxCtrl (canon a) = false) :
    (s.writeByte a v).aborting = s.aborting := by
  rcases s.writeByte_cases a v with ⟨_, g⟩ | ⟨_, _, g⟩ | ⟨_, _, g⟩ <;> rw [g]
  · rfl
  · rfl
  · unfold State.noteAbort
    split
    · rw [h]; rfl
    · rfl

theorem mem_abortsAfter {l : List TxSlot} {x y : TxSlot} {old new : Byte} :
    x ∈ abortsAfter l y old new ↔
      if x = y then anySet new txreqBit = false ∧ (anySet old txreqBit = true ∨ x ∈ l) else x ∈ l := by
  unfold abortsAfter
  by_cases hx : x = y
  · subst hx
    cases anySet new txreqBit <;> cases anySet old txreqBit <;> by_cases hm : x ∈ l <;> simp [hm]
  · cases anySet new txreqBit <;> cases anySet old txreqBit <;> by_cases hm : y ∈ l <;> simp [hm, hx]

theorem txSlotOf_ctrl (x : TxSlot) : txSlotOf (txCtrl x).toNat = some x := by cases x <;> decide

theorem canon_txCtrl (x : TxSlot) : canon (txCtrl x).toNat = (txCtrl x).toNat := by cases x <;> decide

theorem isTxCtrl_ctrl (x : TxSlot) : isTxCtrl (txCtrl x).toNat = true := by cases x <;> decide

theorem direct_txCtrl (s : State) (x : TxSlot) : s.direct (txCtrl x).toNat := by
  rw [State.direct, canon_txCtrl]
  have h1 : configOnly (txCtrl x).toNat = false := by cases x <;> decide
  have h2 : isTxBody (txCtrl x).toNat = false := by cases x <;> decide
  refine ⟨fun h => ?_, ?_⟩
  · rw [h1] at h; exact Bool.false_ne_true h.1
  unfold State.pendingTx; rw [h2]; rfl

/-- The requests to abort after a write to TXBnCTRL. -/
theorem State.aborting_writeCtrl (s : State) (x : TxSlot) (v : Byte) :
    (s.writeByte (txCtrl x).toNat v).aborting = abortsAfter s.aborting x (s.reg (txCtrl x).toNat) v := by
  rw [State.writeByte_direct (direct_txCtrl s x), canon_txCtrl]
  unfold State.noteAbort
  rw [txSlotOf_ctrl]
  dsimp only
  rw [isTxCtrl_ctrl]
  rfl

/-! ## What a write leaves in its register -/

set_option maxRecDepth 100000 in
/-- Every W bit exists, and but for CANSTAT, RXB0CTRL, EFLG and the TXBnCTRL a write takes its W bits (`wBits`). -/
theorem masks_all : (registerAddrs.all fun a =>
    decide (writeMask a &&& implMask a = writeMask a) &&
    (decide (a = 0x0E) || decide (a = 0x60) || decide (a = 0x2D) || isTxCtrl a ||
      (decide (clearMask a = 0) && decide (writeMask a = wBits a)))) = true := by
  decide

theorem and_masks (old v w i : Byte) (h1 : old &&& i = old) (h2 : w &&& i = w) :
    ((old &&& ~~~w) ||| (v &&& w)) &&& i = (old &&& ~~~w) ||| (v &&& w) := by
  rw [← h1, ← h2]
  ext k hk
  simp only [BitVec.getElem_and, BitVec.getElem_or, BitVec.getElem_not]
  cases old[k] <;> cases v[k] <;> cases w[k] <;> cases i[k] <;> rfl

theorem isTxCtrl_cases {a : Nat} (h : isTxCtrl a = true) : a = 0x30 ∨ a = 0x40 ∨ a = 0x50 := by
  rw [isTxCtrl_eq, isTx_eq] at h
  simp only [Bool.and_eq_true, decide_eq_true_eq] at h
  omega

theorem anySet_txreq (v : Byte) : anySet v txreqBit = v.getLsbD 3 := by revert v; decide

/-- The eight bits, one by one. -/
theorem byte_ext {x y : Byte} (h : ∀ k, k < 8 → x.getLsbD k = y.getLsbD k) : x = y := BitVec.eq_of_getLsbD_eq h

/-- The byte that a direct write leaves, in the terms of the spec. -/
theorem normal_merge {a : Nat} {old : Byte} (v : Byte) (ha : a ∈ registerAddrs) (hs : a ≠ 0x0E) (ho : normal a old = old) :
    normal a (merge a v old) = written a old v := by
  have hm := List.all_eq_true.1 masks_all a ha
  by_cases h1 : a = 0x30 ∨ a = 0x40 ∨ a = 0x50
  · have key : ∀ b : Nat, isTxCtrl b = true → writeMask b = 0x0B → implMask b = 0x7B → clearMask b = 0 → b ≠ 0x60 →
        b = a → normal a (merge a v old) = written a old v := by
      intro b hb hw hi hc h6 hab
      subst hab
      rw [normal_eq, if_neg h6, hi] at ho ⊢
      unfold merge written
      rw [hb, hw, hc, anySet_txreq, if_pos h1, show txFailBits = (0x70 : Byte) from rfl]
      rw [← ho]
      cases h : v.getLsbD 3 <;> apply byte_ext <;> intro k hk <;>
        (rcases k with _ | _ | _ | _ | _ | _ | _ | _ | k <;> first | omega | simp_all)
    rcases h1 with h | h | h <;> exact key _ (by decide) (by decide) (by decide) (by decide) (by decide) h.symm
  by_cases h2 : a = 0x60
  · subst h2
    rw [← ho]
    have hw : writeMask 0x60 = 0x64 := by decide
    have hc : clearMask 0x60 = 0 := by decide
    unfold merge written
    rw [show isTxCtrl 0x60 = false by decide, hw, hc]
    simp only [normal_eq]
    apply byte_ext; intro k hk
    rcases k with _ | _ | _ | _ | _ | _ | _ | _ | k <;> first | omega | simp
  by_cases h3 : a = 0x2D
  · subst h3
    rw [← ho]
    have hw : writeMask 0x2D = 0xC0 := by decide
    have hc : clearMask 0x2D = 0xC0 := by decide
    have hi : implMask 0x2D = 0xFF := by decide
    unfold merge written
    rw [show isTxCtrl 0x2D = false by decide, hw, hc]
    simp only [normal_eq, hi]
    apply byte_ext; intro k hk
    rcases k with _ | _ | _ | _ | _ | _ | _ | _ | k <;> first | omega | simp [Bool.and_comm]
  have htx : isTxCtrl a = false := by
    cases h : isTxCtrl a
    · rfl
    · exact absurd (isTxCtrl_cases h) h1
  simp only [htx, hs, h2, h3, decide_false, Bool.or_false, Bool.false_or, Bool.and_eq_true, decide_eq_true_eq] at hm
  rw [normal_eq, if_neg h2] at ho ⊢
  unfold merge written
  rw [htx, if_neg h1, if_neg h2, if_neg h3, hm.2.1, ← hm.2.2]
  have : v &&& writeMask a &&& (old ||| ~~~0) = v &&& writeMask a := by
    rw [show (~~~(0 : Byte)) = BitVec.allOnes 8 by decide, BitVec.or_allOnes, BitVec.and_allOnes]
  simp only [Bool.false_and, Bool.false_eq_true, if_false, this]
  exact and_masks old v _ _ ho hm.1

/-- Everything that a direct write leaves in its register (20_memory.md R77, R87, R88; 10_state.md R30, R43). -/
theorem State.reg_writeByte_written {s : State} {a b : Nat} (h : s.direct a) (hm : Memory.wf s.mem = true) (ha : a < 128)
    (hb : canon b = canon a) (hc : canon a ≠ Addr.canstat) (v : Byte) :
    (s.writeByte a v).reg b = written (canon a) (s.reg a) v := by
  rw [State.reg_writeByte h v hb hc]
  exact normal_merge v (canon_mem ha) hc (State.normal_reg hm ha hc)

/-! ## The transmit buffers of the default configuration -/

/-- A default configuration that fails, or that a transport failure or the settle time disturbs, is its writes alone. -/
theorem applyDefaultConfiguration_of_not {s : State}
    (h : ¬ ((clearBlocks defaultBlocks (defaultWrites s)).1 = .ok ∧
      undisturbed s (clearBlocks defaultBlocks (defaultWrites s)).2 = true)) :
    applyDefaultConfiguration s = clearBlocks defaultBlocks (defaultWrites s) := if_neg h

theorem staleFlags_and (old : Byte) : staleFlags old &&& txFailBits = staleFlags old := by revert old; decide

/-- Of the three TXBnCTRL the stale flags are cleared, one buffer after the other. -/
theorem State.dropStale_eq (s t : State) : s.dropStale t =
    ((t.poke 0x30 (staleFlags (s.reg 0x30)) 0).poke 0x40 (staleFlags (s.reg 0x40)) 0).poke 0x50 (staleFlags (s.reg 0x50)) 0 := by
  have h (x : TxSlot) (u : State) : applyMove (.txClearFlags x (staleFlags (s.reg (txCtrl x).toNat))) u =
      u.poke (txCtrl x).toNat (staleFlags (s.reg (txCtrl x).toNat)) 0 := by
    simp only [applyMove, staleFlags_and]
  simp only [State.dropStale, List.map, applyMoves, h]
  rfl

/-- No other register changes. -/
theorem sameRegs_dropStale (s t : State) : SameRegs [0x30, 0x40, 0x50] t (s.dropStale t) := by
  rw [State.dropStale_eq]
  have h (u : State) (a : Nat) (m : Byte) (ha : a ∈ [0x30, 0x40, 0x50]) : SameRegs [0x30, 0x40, 0x50] u (u.poke a m 0) := by
    refine (sameRegs_setReg u a _ ?_ ?_).mono ?_ <;> revert a <;> decide
  exact ((h _ _ _ (by decide)).trans (h _ _ _ (by decide))).trans (h _ _ _ (by decide))

end Sys2Proof.Machine
end

