-- ==== Sys2Proof/Tests/Slice0.lean ====
section
/-! SUPPORT. The model's own tests. Expected results come from spec/95_test_vectors.md (its row is named at each) and from
the rules named; the ill-formed terms are those that spec/20_memory.md R81 and spec/40_serial_transactions.md R158 refuse.
The last part shows, for every statement that has hypotheses, a state and operands that meet them. -/

namespace Sys2Proof.Tests

open Sys2Proof.Machine

set_option maxRecDepth 100000

/-! ## The checks of WellFormed, one ill-formed term each -/

theorem test_read_past_7f_is_ill_formed : (Instr.txnRead 0x7F [0, 0]).wellFormed = false := by decide
theorem test_read_at_80_is_ill_formed : (Instr.txnRead 0x80 []).wellFormed = false := by decide
theorem test_read_to_7f_is_well_formed : (Instr.txnRead 0x7F [0]).wellFormed = true := by decide
theorem test_write_past_7f_is_ill_formed : (Instr.txnWrite 0x7E [1, 2, 3]).wellFormed = false := by decide
theorem test_bitmod_at_80_is_ill_formed : (Instr.txnBitmod 0x80 0xFF 0).wellFormed = false := by decide
theorem test_load_tx0_of_14_is_ill_formed : (Instr.txnLoadTx0 (zeros 14)).wellFormed = false := by decide
theorem test_load_tx1_of_14_is_ill_formed : (Instr.txnLoadTx1 (zeros 14)).wellFormed = false := by decide
theorem test_load_tx2_of_14_is_ill_formed : (Instr.txnLoadTx2 (zeros 14)).wellFormed = false := by decide
theorem test_load_tx0_of_13_is_well_formed : (Instr.txnLoadTx0 (zeros 13)).wellFormed = true := by decide
theorem test_readRegister_at_80_is_ill_formed : (Instr.readRegister 0x80).wellFormed = false := by decide
theorem test_readRegisters_past_7f_is_ill_formed : (Instr.readRegisters 0x7F 2).wellFormed = false := by decide
theorem test_writeRegister_at_ff_is_ill_formed : (Instr.writeRegister 0xFF 0).wellFormed = false := by decide
theorem test_writeRegisters_past_7f_is_ill_formed : (Instr.writeRegisters 0x70 (zeros 17)).wellFormed = false := by decide
theorem test_modifyRegister_at_80_is_ill_formed : (Instr.modifyRegister 0x80 1 1).wellFormed = false := by decide
theorem test_rate_below_5k_is_ill_formed : (Instr.lookupBitTiming .mhz8 ⟨4999⟩).wellFormed = false := by decide
theorem test_rate_above_1m_is_ill_formed : (Instr.setBitrate .mhz8 ⟨1000001⟩).wellFormed = false := by decide
theorem test_initialise_rate_is_checked : (Instr.initialise .mhz20 ⟨0⟩ true).wellFormed = false := by decide
theorem test_encodeFrame_of_9_is_ill_formed : (Instr.encodeFrame ⟨0, 9, payloadOf []⟩).wellFormed = false := by decide

/-! ## Decoding: words written out bit by bit from spec/30_encoding.md R121-R127 -/

theorem test_decode_reset : decode [0b11000000] = .ok .txnReset := by decide
theorem test_decode_read : decode [0b00000011, 0x61, 0, 0, 0, 0, 0] = .ok (.txnRead 0x61 [0, 0, 0, 0, 0]) := by decide
theorem test_decode_write : decode [0b00000010, 0x31, 0x24] = .ok (.txnWrite 0x31 [0x24]) := by decide
theorem test_decode_bitmod : decode [0b00000101, 0x2C, 0x01, 0x00] = .ok (.txnBitmod 0x2C 0x01 0x00) := by decide
theorem test_decode_readStatus : decode [0b10100000, 0x00] = .ok (.txnReadStatus [0]) := by decide
theorem test_decode_rxStatus : decode [0b10110000, 0x00] = .ok (.txnRxStatus [0]) := by decide
theorem test_decode_readRx0 : decode [0b10010000] = .ok (.txnReadRx0 []) := by decide
theorem test_decode_readRx1 : decode [0b10010100, 0x00] = .ok (.txnReadRx1 [0]) := by decide
theorem test_decode_loadTx0 : decode [0b01000000, 0x24, 0x60] = .ok (.txnLoadTx0 [0x24, 0x60]) := by decide
theorem test_decode_loadTx1 : decode [0b01000010, 0xFF] = .ok (.txnLoadTx1 [0xFF]) := by decide
theorem test_decode_loadTx2 : decode [0b01000100] = .ok (.txnLoadTx2 []) := by decide
theorem test_decode_rtsTx0 : decode [0b10000001] = .ok .txnRtsTx0 := by decide
theorem test_decode_rtsTx1 : decode [0b10000010] = .ok .txnRtsTx1 := by decide
theorem test_decode_rtsTx2 : decode [0b10000100] = .ok .txnRtsTx2 := by decide
theorem test_decode_rtsAll : decode [0b10000111] = .ok .txnRtsAll := by decide

/-- T17 and R133: the `LOAD TX BUFFER` form that starts at D0 is not admitted. -/
theorem test_decode_refuses_41 : decode [0x41, 0x00] = .error (.unknownOpcode 0x41) := by decide
/-- R133: nor the `READ RX BUFFER` and `RTS` forms outside the fifteen. -/
theorem test_decode_refuses_92_and_80 :
    decode [0x92] = .error (.unknownOpcode 0x92) ∧ decode [0x80] = .error (.unknownOpcode 0x80) := by decide
/-- T18: a `BITMOD` of three bytes. -/
theorem test_decode_refuses_short_bitmod : decode [0x05, 0x2C, 0x01] = .error (.badLength 0x05 3) := by decide
theorem test_decode_refuses_long_command : decode [0xC0, 0x00] = .error (.badLength 0xC0 2) := by decide
theorem test_decode_refuses_empty : decode [] = .error .emptyTransaction := by decide
/-- The table's one byte of `READ`, with its address byte 0x00. -/
theorem test_table_word_of_read : decodeTableWord 8 0x03 = some (.txnRead 0x00 []) := by decide
theorem test_table_word_of_bitmod : decodeTableWord 8 0x05 = some (.txnBitmod 0 0 0) := by decide

/-! ## A small state -/

/-- After reset with every register of unspecified reset at 0, and the choices of a run that nothing disturbs. -/
def base (n : Nat) (turn : List Move) : State :=
  { State.reset with
    mem := unspecifiedAddrs.map fun a => (a, 0)
    env := { draws := List.replicate (20 * n) 0x5A, links := List.replicate n .ok, turns := List.replicate n turn, seed := 0 } }

/-- The quiet one. -/
def idle (n : Nat) : State := base n []

/-- The state after a call. -/
def after (i : Instr) (s : State) : State :=
  match exec i s with
  | .next t => t
  | .fault _ => s
  | .refused _ => s

/-- The state that an outcome answers. -/
def answer (o : Host.Outcome State Fault Refusal) (d : State) : State :=
  match o with
  | .next t => t
  | .fault _ => d
  | .refused _ => d

/-- `s` under another trigger of the Interrupt Bridge. -/
def under (x : IntTrigger) (s : State) : State := { s with params := { s.params with intTrigger := x } }

/-- The bytes received in the last transaction, from the `k`-th on. -/
def received (k : Nat) (s : State) : List Byte := (s.transcript.getLast?.map fun e => e.inb.drop k).getD []

/-- The bytes sent in the transactions of a run from an empty transcript. -/
def sentBytes (s : State) : List (List Byte) := s.transcript.map Entry.out

/-- RXB0 holds the standard frame 0x123 with the bytes DE AD BE, and is pending. -/
def holding (s : State) : State :=
  (s.storeBytes 0x61 [0x24, 0x60, 0x00, 0x00, 0x03, 0xDE, 0xAD, 0xBE]).poke Addr.canintf 0x01 0x01

/-- RXB1 holds the extended remote frame 0x1ABCDE with DLC 0, accepted by RXF2, and is pending. -/
def holding1 (s : State) : State :=
  ((s.storeBytes 0x71 [0x00, 0xCA, 0xBC, 0xDE, 0x40]).setReg 0x70 0x0A).poke Addr.canintf 0x02 0x02

def frame123 : Frame := { canId := 0x123, dlc := 3, data := payloadOf [0xDE, 0xAD, 0xBE] }

/-! ## Serial instructions (95_test_vectors.md 2.1) -/

/-- T1. -/
theorem test_reset : let t := after .txnReset ((idle 1).setReg 0x0F 0x07 |>.setReg 0x30 0x08)
    t.reg 0x0F = 0x87 ∧ t.reg 0x0E = 0x80 ∧ t.reg 0x2C = 0x00 ∧ t.reg 0x30 = 0x00 := by decide
/-- R150 and R166: a `RESET` within the settle time of another, and one of which nothing came across. -/
theorem test_reset_within_settle :
    (after .txnReset { idle 1 with settle := 1 }).settle = 10 ∧
    (after .txnReset { idle 1 with settle := 1, env := { (idle 1).env with links := [.cut 0] } }).settle = 1 := by decide
/-- T3. -/
theorem test_read_header : received 2 (after (.txnRead 0x61 (zeros 5)) (holding (idle 1))) = [0x24, 0x60, 0, 0, 0x03] := by
  decide
/-- T20: a mirror of CANCTRL. -/
theorem test_read_mirror : received 2 (after (.txnRead 0x3F [0]) (idle 1)) = [0x87] := by decide
/-- T4, and R30: a 1 written to an overflow flag does not set it, a 0 clears it. -/
theorem test_write_cnf1_and_eflg :
    (after (.txnWrite 0x2A [0x03]) (idle 1)).reg 0x2A = 0x03 ∧
    (after (.txnWrite 0x2D [0x80]) ((idle 1).setReg 0x2D 0x45)).reg 0x2D = 0x05 := by decide
/-- T5: outside Configuration mode a draw decides; 0x5A has bit 0 clear, so the old value stays. -/
theorem test_write_cnf1_in_normal_mode :
    (after (.txnWrite 0x2A [0x03]) ((idle 1).poke Addr.canstat 0xE0 0x00)).reg 0x2A ∈ [0x00, (0x03 : Byte)] := by decide
/-- T7. -/
theorem test_bitmod_clears_one_flag :
    (after (.txnBitmod 0x2C 0x01 0x00) ((idle 1).setReg 0x2C 0x23)).reg 0x2C = 0x22 := by decide
/-- T9: setting TXREQ clears MLOA; and R153's pseudocode writes a TXREQ that is set back, with the same effect (R87). -/
theorem test_bitmod_txreq :
    (after (.txnBitmod 0x40 0x08 0x08) ((idle 1).setReg 0x40 0x20)).reg 0x40 = 0x08 ∧
    (after (.txnBitmod 0x40 0x03 0x03) ((idle 1).setReg 0x40 0x28)).reg 0x40 = 0x0B := by decide
/-- T11. -/
theorem test_readStatus_layout :
    received 1 (after (.txnReadStatus [0, 0]) ((idle 1).setReg 0x30 0x08 |>.setReg 0x2C 0x09)) = [0x25, 0x25] := by decide
/-- T12. -/
theorem test_rxStatus_rxb1 :
    received 1 (after (.txnRxStatus [0]) ((idle 1).setReg 0x70 0x02 |>.setReg 0x2C 0x02)) = [0x82] := by decide
/-- T13. -/
theorem test_readRx0 : let t := after (.txnReadRx0 (zeros 5)) (holding (idle 1))
    received 1 t = [0x24, 0x60, 0, 0, 0x03] ∧ t.reg 0x2C = 0x00 := by decide
/-- R157: only RX1IF is cleared. -/
theorem test_readRx1 : let t := after (.txnReadRx1 [0]) (holding (holding1 (idle 1)))
    received 1 t = [0x00] ∧ t.reg 0x2C = 0x01 := by decide
/-- T14. -/
theorem test_loadTx0 : let t := after (.txnLoadTx0 [0x24, 0x60, 0x00, 0x00, 0x03, 0xDE, 0xAD, 0xBE]) (idle 1)
    (List.range 8).map (fun i => t.reg (0x31 + i)) = [0x24, 0x60, 0x00, 0x00, 0x03, 0xDE, 0xAD, 0xBE] := by decide
/-- R159's example, and the U bits of SIDL. -/
theorem test_loadTx1 : let t := after (.txnLoadTx1 [0xFF, 0xFF]) (idle 1)
    t.reg 0x41 = 0xFF ∧ t.reg 0x42 = 0xEB := by decide
/-- R160's example. -/
theorem test_loadTx2 : let t := after (.txnLoadTx2 [0x00, 0xCA, 0xBC, 0xDE, 0x00]) (idle 1)
    t.reg 0x52 = 0xCA ∧ t.reg 0x54 = 0xDE := by decide
/-- T15. -/
theorem test_rtsTx0 : (after .txnRtsTx0 ((idle 1).setReg 0x30 0x70)).reg 0x30 = 0x08 := by decide
theorem test_rtsTx1 : (after .txnRtsTx1 ((idle 1).setReg 0x40 0x03)).reg 0x40 = 0x0B := by decide
theorem test_rtsTx2 : let t := after .txnRtsTx2 (idle 1); t.reg 0x50 = 0x08 ∧ t.reg 0x40 = 0x00 := by decide
/-- T16. -/
theorem test_rtsAll : let t := after .txnRtsAll (idle 1); t.reg 0x30 = 0x08 ∧ t.reg 0x40 = 0x08 ∧ t.reg 0x50 = 0x08 := by
  decide

/-! ## Register access (95_test_vectors.md 2.2) -/

/-- A1. -/
theorem test_readRegister : (after (.readRegister 0x30) ((idle 1).setReg 0x30 0x08)).results = [.byte 0x08] := by decide
/-- A7: a failure is logged, and the chip is unchanged. -/
theorem test_readRegister_failure :
    let t := after (.readRegister 0x0E) { idle 0 with env := { (idle 0).env with links := [.cut 1] } }
    t.log = [.transportFailure] ∧ t.mem = (idle 0).mem := by decide
/-- A2: one transaction of two bytes, and no bytes returned. -/
theorem test_readRegisters_zero : let t := after (.readRegisters 0x61 0) (idle 1)
    t.results = [.bytes []] ∧ sentBytes t = [[0x03, 0x61]] := by decide
/-- A8: CANINTE is written by the prefix of three bytes only. -/
theorem test_writeRegister_prefix :
    let e := (idle 0).env
    (after (.writeRegister 0x2B 0xA3) { idle 0 with env := { e with links := [.cut 2] } }).reg 0x2B = 0x00 ∧
    (after (.writeRegister 0x2B 0xA3) { idle 0 with env := { e with links := [.cut 3] } }).reg 0x2B = 0xA3 := by decide
/-- A3. -/
theorem test_writeRegisters_empty : let t := after (.writeRegisters 0x31 []) (idle 1)
    sentBytes t = [[0x02, 0x31]] ∧ t.mem = (idle 1).mem := by decide
/-- A4. -/
theorem test_modifyRegister_mask_zero : let t := after (.modifyRegister 0x2C 0x00 0xFF) (idle 1)
    sentBytes t = [[0x05, 0x2C, 0x00, 0xFF]] ∧ t.reg 0x2C = 0x00 := by decide
/-- A5. -/
theorem test_reset_operation : let t := after .reset (idle 1)
    sentBytes t = [[0xC0]] ∧ t.sleeps = [10] ∧ t.settle = 0 := by decide
/-- A6. -/
theorem test_readStatus : (after .readStatus ((idle 1).setReg 0x2C 0x02)).results = [.byte 0x02] := by decide

/-! ## Modes and bit timing (95_test_vectors.md 2.3) -/

/-- M1. -/
theorem test_setMode_already_there : let t := after (.setMode .configuration) (idle 2)
    sentBytes t = [[0x05, 0x0F, 0xE0, 0x80], [0x03, 0x0E, 0x00]] ∧ t.results = [.code .ok] ∧ t.sleeps = [] := by decide
/-- M2: the chip switches after the second poll. -/
theorem test_setMode_third_poll :
    let t := after (.setMode .normal)
      { idle 4 with env := { (idle 4).env with turns := [[], [], [.enterMode]] } }
    t.transcript.length = 4 ∧ t.sleeps = [10, 10] ∧ t.results = [.code .ok] ∧ t.reg 0x0E = 0x00 := by decide
/-- The machine whose set of rates is 33.3 kbps, 125 kbps and a rate below the range, and whose table has an entry for every
key (30_encoding.md R138: a model takes the set as an argument). -/
def threeRates : ChipParam :=
  { rates := [⟨33300⟩, ⟨125000⟩, ⟨4999⟩], bitTiming := fun _ _ => some (0x03, 0xF1, 0x05) }

/-- A member of the set is admitted; a rate that is no member is not, nor is one below 5 kbps. -/
theorem test_rate_members :
    let admits (r : Rate) := @Instr.wellFormed (withParam threeRates) (.setBitrate .mhz16 r)
    admits ⟨33300⟩ = true ∧ admits ⟨125000⟩ = true ∧ admits ⟨250000⟩ = false ∧ admits ⟨4999⟩ = false := by decide
/-- R207: a rate outside the set has no entry, and `setBitrate` is `ConfigurationError` for it with no transaction. -/
theorem test_rate_outside_the_set :
    let run (r : Rate) := answer (@execAt (withParam threeRates) (.setBitrate .mhz16 r) (idle 5)) (idle 5)
    run ⟨250000⟩ = { idle 5 with results := [.code .configurationError] } ∧ (run ⟨125000⟩).results = [.code .ok] ∧
      (run ⟨125000⟩).reg 0x29 = 0xF1 := by decide
/-- M6 and M7 for a table that has no entry, and one that has. -/
theorem test_setBitrate :
    setTiming none (idle 1) = (.configurationError, idle 1) ∧
    (let r := setTiming (some (0x03, 0xF1, 0x05)) (idle 5)
     r.1 = .ok ∧ sentBytes r.2 = [[0x05, 0x0F, 0xE0, 0x80], [0x03, 0x0E, 0x00], [0x02, 0x2A, 0x03], [0x02, 0x29, 0xF1],
       [0x02, 0x28, 0x05]] ∧ r.2.reg 0x28 = 0x05) := by decide

/-! ## Frame codec (95_test_vectors.md 2.4) -/

/-- C9 and C4. -/
theorem test_packId :
    (after (.packId true 0x12345678) (idle 0)).results = [.bytes [0x91, 0xA8, 0x56, 0x78]] ∧
    (after (.packId false 0xFFFF) (idle 0)).results = [.bytes [0xFF, 0xE0, 0x00, 0x00]] := by decide
/-- S5. -/
theorem test_decodeId : (after (.decodeId 0x00 0xCA 0xBC 0xDE) (idle 0)).results = [.ident 0x801ABCDE] := by decide
/-- C17. -/
theorem test_encodeFrame :
    (after (.encodeFrame { canId := 0xC01ABCDE, dlc := 2, data := payloadOf [1, 2] }) (idle 0)).results =
      [.bytes [0x00, 0xCA, 0xBC, 0xDE, 0x42, 0x01, 0x02]] := by decide
/-- C26 and C25. -/
theorem test_decodeFrame :
    (after (.decodeFrame 0xFF 0xF7 0 0 0x08 0x00) (idle 0)).results = [.idDlc 0x7FF 8] ∧
    (after (.decodeFrame 0x00 0xCA 0xBC 0xDE 0x40 0x08) (idle 0)).results = [.idDlc 0xC01ABCDE 0] := by decide
/-- C30. -/
theorem test_decodeFrame_malformed :
    (after (.decodeFrame 0 0 0 0 0x4F 0x00) (idle 0)).results = [.code .malformedFrame] := by decide

/-! ## Filters and masks (95_test_vectors.md 2.5) -/

/-- FM2. -/
theorem test_setFilter : let t := after (.setFilter .rxf5 true 0x1ABCDE) (idle 3)
    t.results = [.code .ok] ∧ t.transcript.getLast?.map Entry.out = some [0x02, 0x18, 0x00, 0xCA, 0xBC, 0xDE] := by decide
/-- FM3. -/
theorem test_setMask : let t := after (.setMask .mask1 true 0x1FFFFFFF) (idle 3)
    t.transcript.getLast?.map Entry.out = some [0x02, 0x24, 0xFF, 0xEB, 0xFF, 0xFF] ∧ t.reg 0x25 = 0xE3 := by decide
/-- FM5. -/
theorem test_applyDefaultConfiguration : let t := after .applyDefaultConfiguration (idle 32)
    t.results = [.code .ok] ∧ t.transcript.length = 32 ∧ t.reg 0x60 = 0x06 ∧ t.reg 0x05 = 0x08 := by decide
/-- R265, the row of TXBnCTRL: 0x00, whatever was set before, and ABTF where the chip completes the abort of a pending buffer
since; after a transport failure or a failed mode transition, of which R265 says nothing, the flags stay (20_memory.md R77). -/
theorem test_applyDefaultConfiguration_flags :
    let s := (idle 32).setReg 0x30 0x70
    let pending := ((base 32 [.enterMode]).setReg 0x30 0x0B).poke Addr.canstat 0xE0 0x00
    let aborts := { pending with env := { pending.env with turns := [.txAbort .txb0] :: pending.env.turns } }
    let fails := { s with env := { s.env with links := .cut 16 :: s.env.links } }
    (after .applyDefaultConfiguration s).reg 0x30 = 0x00 ∧ (after .applyDefaultConfiguration aborts).reg 0x30 = 0x40 ∧
      (after .applyDefaultConfiguration fails).reg 0x30 = 0x70 ∧
      (after .applyDefaultConfiguration (s.poke Addr.canstat 0xE0 0x00)).reg 0x30 = 0x70 := by
  decide

/-! ## Buffers (95_test_vectors.md 2.6) -/

/-- B1. -/
theorem test_send : let t := after (.send .txb0 frame123) (idle 3)
    sentBytes t = [[0x02, 0x31, 0x24, 0x60, 0x00, 0x00, 0x03, 0xDE, 0xAD, 0xBE], [0x05, 0x30, 0x08, 0x08],
      [0x03, 0x30, 0x00]] ∧ t.results = [.code .ok] := by decide
/-- B2: the agent sets MLOA between the `BITMOD` and the `READ`. -/
theorem test_send_failure :
    let s := (idle 3).poke Addr.canstat 0xE0 0x00
    let t := after (.send .txb2 { frame123 with canId := 0x801ABCDE })
      { s with env := { s.env with turns := [[], [.txLost .txb2]] } }
    t.results = [.code .transmitFailure] ∧ t.reg 0x50 = 0x28 := by decide
/-- B5. -/
theorem test_sendAny : let t := after (.sendAny { frame123 with dlc := 1 }) ((idle 6).setReg 0x30 0x08 |>.setReg 0x40 0x08)
    t.results = [.code .ok] ∧ t.transcript.length = 6 ∧ t.reg 0x50 = 0x08 := by decide
/-- S2 and S3. -/
theorem test_sendAny_rejections :
    (after (.sendAny { frame123 with dlc := 9 }) (idle 0)).results = [.code .malformedFrame] ∧
    (after (.sendAny frame123) ((idle 3).setReg 0x30 0x08 |>.setReg 0x40 0x08 |>.setReg 0x50 0x08)).results =
      [.code .allBuffersBusy] := by decide
/-- R284's example: the five bytes past the length are draws; and B12: RXB0CTRL, read of a slot that is not pending, is. -/
theorem test_read : let t := after (.read .rxb0) (holding (idle 4))
    t.results = [.frame { canId := 0x123, dlc := 3, data := payloadOf [0xDE, 0xAD, 0xBE, 0x5A, 0x5A, 0x5A, 0x5A, 0x5A] }] ∧
      t.reg 0x2C = 0x00 ∧ (readRxCtrl .rxb0 (idle 1)).1 = 0x5A := by decide
/-- B8. -/
theorem test_read_malformed : let t := after (.read .rxb0) ((holding (idle 4)).setReg 0x65 0x09)
    t.results = [.code .malformedFrame] ∧ t.reg 0x2C = 0x01 := by decide
/-- S4: both pending, RXB0 is read and RX1IF stays. -/
theorem test_readAnyPending : let t := after .readAnyPending (holding1 (holding (idle 5)))
    (sentBytes t).take 2 = [[0xA0, 0x00], [0x03, 0x61, 0, 0, 0, 0, 0]] ∧ t.reg 0x2C = 0x02 := by decide
/-- B10. -/
theorem test_readAnyPending_none : (after .readAnyPending (idle 1)).results = [.code .noMessage] := by decide

/-! ## Error flags (95_test_vectors.md 2.7) -/

/-- E1. -/
theorem test_errorFlags : (after .errorFlags ((idle 1).setReg 0x2D 0x41)).results = [.byte 0x41] := by decide
/-- E3 and E4. -/
theorem test_hasError :
    (after .hasError ((idle 1).setReg 0x2D 0x07)).results = [.bool false] ∧
    (after .hasError ((idle 1).setReg 0x2D 0x08)).results = [.bool true] := by decide
/-- E7 and E8. -/
theorem test_clearReceiveOverflow :
    (after .clearReceiveOverflow ((idle 1).setReg 0x2D 0xC5)).reg 0x2D = 0x05 ∧
    (after .clearReceiveOverflow ((idle 1).setReg 0x2D 0x30)).reg 0x2D = 0x30 := by decide
/-- E9. -/
theorem test_clearMessageError : (after .clearMessageError ((idle 1).setReg 0x2C 0xA1)).reg 0x2C = 0x21 := by decide
/-- E10. -/
theorem test_clearErrorInterrupt : (after .clearErrorInterrupt ((idle 1).setReg 0x2C 0x21)).reg 0x2C = 0x01 := by decide

/-! ## The interrupt path (95_test_vectors.md 2.8) and start-up (2.9) -/

/-- I1 and I2. -/
theorem test_onInterrupt :
    let ev : Event := { tag := .start, payload := none }
    (after .onInterrupt { idle 0 with queue := List.replicate 9 ev }).queue.length = 10 ∧
    (after .onInterrupt { idle 0 with queue := List.replicate 10 ev }).queue = List.replicate 10 ev := by decide
/-- S8: the characters of the source's example, `Char.ofNat` giving LF, TAB, the double quote and the braces. -/
theorem test_onCanMessage_publishes :
    (after .onCanMessage { holding (idle 5) with cloudUp := true }).log =
      [.publish ([0x7B, 0x0A, 0x09, 0x22, 0x69, 0x64, 0x22, 0x3A, 0x20, 0x22, 0x32, 0x39, 0x31, 0x22, 0x2C, 0x0A, 0x09, 0x20,
        0x22, 0x64, 0x6C, 0x63, 0x22, 0x3A, 0x20, 0x22, 0x33, 0x22, 0x2C, 0x0A, 0x09, 0x22, 0x64, 0x61, 0x74, 0x61, 0x22,
        0x3A, 0x20, 0x22, 0x64, 0x65, 0x20, 0x61, 0x64, 0x20, 0x62, 0x65, 0x20, 0x22, 0x0A, 0x7D].map Char.ofNat)] := by
  decide
/-- I5. -/
theorem test_onCanMessage_without_cloud : let t := after .onCanMessage (holding (idle 5))
    t.log = [] ∧ t.reg 0x2C = 0x00 ∧ t.int = false := by decide
/-- R1. -/
theorem test_initialise_unattached : let t := after (.initialise .mhz16 ⟨500000⟩ false) (idle 0)
    t.results = [.code .initializationFailure] ∧ t.transcript = [] := by decide
/-- R2. -/
theorem test_initialise_without_entry : initialiseWith true none (idle 0) = (.configurationError, idle 0) := by decide
/-- I3 and I4: under `FallingEdge` two flags that rise one after the other are one event. -/
theorem test_bridge_falling_edge :
    let s := ((idle 0).setReg 0x2B 0xA3).poke Addr.canintf 0x01 0x01
    let s := s.serve.poke Addr.canintf 0x02 0x02
    s.serve.queue = [{ tag := .canMessage, payload := none }] := by decide
/-- R344 and U21: under `LowLevel` a scheduling point with `INT` asserted is one event or more. -/
theorem test_bridge_low_level :
    let s := (under .lowLevel (idle 2)).setReg 0x2B 0xA3 |>.poke Addr.canintf 0x01 0x01
    s.schedule.queue.length = 1 ∧ (s.bridge.schedule.schedule).queue.length = 3 := by decide

/-- R345 and R390: with the queue full, a late bridge comes between the dispatcher's receive and its first transaction, and
its event finds a place; one that is not late has dropped it. -/
theorem test_bridge_after_the_receive :
    let ev : Event := { tag := .canMessage, payload := none }
    let s := { idle 3 with queue := List.replicate 10 ev, edges := 1 }
    let late := { s with env := { s.env with turns := [.putOff 1] :: s.env.turns } }
    (answer (step late) late).queue = List.replicate 10 ev ∧ (answer (step s) s).queue = List.replicate 9 ev := by decide

/-! ## The steps of the Controller agent (20_memory.md R94, R96) -/

/-- A standard remote frame, its SRR set, accepted for RXB1 by RXF3: RXRTR and FILHIT are set, D3 stays as it was. -/
theorem test_receive_a_remote_frame :
    let f : BusFrame := ⟨0x24, 0x70, 0x00, 0x00, 0x03, #v[0xDE, 0xAD, 0xBE, 0xEF, 0, 0, 0, 0]⟩
    let t := applyMove (.receive .rxb1 f .rxf3 false) ((idle 1).poke Addr.canstat 0xE0 0x00)
    t.reg 0x70 = 0x0B ∧ t.reg 0x71 = 0x24 ∧ t.reg 0x72 = 0x70 ∧ t.reg 0x78 = 0xBE ∧ t.reg 0x79 = 0x00 ∧ t.reg 0x2C = 0x02 := by
  decide
/-- R30: EWARN is set with RXWAR, and not alone. -/
theorem test_ewarn_follows :
    (applyMove (.errors 0 96 0x02 false false) (idle 1)).reg 0x2D = 0x03 ∧
      (applyMove (.errors 0 0 0x01 false false) (idle 1)).reg 0x2D = 0x00 := by decide
/-- An abort that the Caller has requested is carried out: ABTF is set, and no request is left. -/
theorem test_abort_a_request :
    let t := after (.txnWrite 0x30 [0x00]) (((idle 1).poke Addr.canstat 0xE0 0x00).setReg 0x30 0x08)
    (applyMove (.txAbort .txb0) t).reg 0x30 = 0x40 ∧ (applyMove (.txAbort .txb0) t).aborting = [] := by decide

/-! ## The step -/

/-- Line 3 of program P1 as the first instruction after reset: one transaction is made, and no call is left. -/
theorem test_step_runs_the_table_word :
    let s := (idle 2).withFetchWord 8 0xC0
    let t := answer (step s) s
    sentBytes t = [[0xC0]] ∧ t.calls = [] := by decide
/-- I7: an operation from interrupt context is refused. -/
theorem test_step_refuses_interrupt_context :
    let s := { idle 1 with calls := [.op .interrupt (.readRegister 0x30)] }
    let t := answer (step s) s
    t.refused = true ∧ t.transcript = [] := by decide

/-! ## Another chip map (00_scope.md R7) -/

/-- The MCP2515 with other opcodes for `RESET` and `READ`, and an address space of 256 registers. -/
def otherMap : ChipMap := { mcp2515 with opReset := 0xC1, opRead := 0x0B, space := 0x100 }

/-- The decoder and the encoder read the opcodes of the map that they are given. -/
theorem test_other_map_decodes :
    @decode (withMap otherMap) [0xC1] = .ok .txnReset ∧
      @decode (withMap otherMap) [0xC0] = .error (.unknownOpcode 0xC0) ∧ @encode (withMap otherMap) .txnReset = some [0xC1] := by
  decide
/-- And so does every transaction that an operation issues; an address of that map's space is no refusal. -/
theorem test_other_map_steps :
    let s := { idle 1 with calls := [.op .caller (.readRegister 0x90)] }
    sentBytes (answer (stepAt { map := otherMap } s) s) = [[0x0B, 0x90, 0x00]] ∧ (answer (stepAt { map := otherMap } s) s).refused = false ∧
      (answer (step s) s).refused = true := by decide

/-! ## Witnesses: for each statement with hypotheses, states and operands that meet them, clause by clause -/

/-- A transaction of `idle` that is cut after `k` bytes. -/
def cutting (k : Nat) : State := { idle 1 with env := { (idle 1).env with links := [.cut k] } }

/-- The next `n` transactions of a run in which the chip takes each requested mode at once. -/
def takes (n : Nat) : State := base n [.enterMode]

/-- `s` in the mode of the bits `b`. -/
def inMode (b : Byte) (s : State) : State := s.poke Addr.canstat 0xE0 b

theorem witness_decode_of_encode :
    encode (.txnWrite 0x31 [0x24]) = some [0x02, 0x31, 0x24] ∧ encode .txnRtsAll = some [0x87] := by decide

theorem witness_encode_of_decode :
    decode [0x44, 0xFF] = .ok (.txnLoadTx2 [0xFF]) ∧ decode [0x05, 0x7F, 0xFF, 0x01] = .ok (.txnBitmod 0x7F 0xFF 0x01) := by
  decide

theorem witness_other_bytes_are_refused :
    (0x41 : Byte) ∉ [0xC0, 0x03, 0x02, 0x05, 0xA0, 0xB0, 0x90, 0x94, 0x40, 0x42, 0x44, 0x81, 0x82, 0x84, (0x87 : Byte)] ∧
      (0x00 : Byte) ∉ [0xC0, 0x03, 0x02, 0x05, 0xA0, 0xB0, 0x90, 0x94, 0x40, 0x42, 0x44, 0x81, 0x82, 0x84, (0x87 : Byte)] ∧
      [(0x2C : Byte), 0x01].length ≠ 3 ∧ [(0x2C : Byte), 0x01, 0x00, 0x00].length ≠ 3 := by decide

/-- `idle` with one call to make. -/
def calling (c : Call) : State := { idle 1 with calls := [c] }

theorem witness_step_runs_the_next_call :
    (calling (.txn .caller [0x90])).calls = .txn .caller [0x90] :: [] ∧ decode [0x90] = .ok (.txnReadRx0 []) ∧
      (calling (.op .caller .readStatus)).calls = .op .caller .readStatus :: [] ∧
      (calling (.sleep 10)).calls = .sleep 10 :: [] ∧ decodeTableWord 8 0xA0 = some (.txnReadStatus []) := by decide

theorem witness_other_contexts_are_refused :
    (calling (.op .interrupt .readStatus)).calls = .op .interrupt .readStatus :: [] ∧ Instr.readStatus ≠ .onInterrupt ∧
      (calling (.op .interrupt .onInterrupt)).calls = .op .interrupt .onInterrupt :: [] ∧
      (calling (.op .otherTask .reset)).calls = .op .otherTask .reset :: [] ∧ Context.interrupt ≠ .caller ∧
      (calling (.txn .interrupt [0xC0])).calls = .txn .interrupt [0xC0] :: [] := by decide

/-- `idle` with one event in the queue. -/
def queued (tag : EventTag) : State := { idle 1 with queue := [{ tag := tag, payload := none }] }

theorem witness_dispatcher_takes_the_head :
    (idle 1).calls = [] ∧ (idle 1).schedule.queue = [] ∧
      (queued .canMessage).schedule.queue = { tag := .canMessage, payload := none } :: [] ∧
      (queued .cloudConnected).schedule.queue = { tag := .cloudConnected, payload := none } :: [] ∧
      (queued .cloudDisconnected).schedule.queue = { tag := .cloudDisconnected, payload := none } :: [] ∧
      (queued .start).schedule.queue = { tag := .start, payload := none } :: [] ∧
      EventTag.start ∉ [EventTag.canMessage, .cloudConnected, .cloudDisconnected] := by decide

/-- Also of `ObservationsOnlyGrow`, whose last part asks for a mark that is set. -/
theorem witness_every_step_keeps_the_invariant :
    ({ calling (.sleep 10) with refused := true } : State).Inv ∧
      ∃ t, step { calling (.sleep 10) with refused := true } = .next t := ⟨by decide, _, rfl⟩

/-- The premises of the statements about one transaction that has no others, and of `ClearOperations`. -/
theorem witness_clear : (idle 1).Inv ∧ (idle 1).modifies ∧ (idle 1).clear := by decide

theorem witness_reset_operation :
    (idle 1).Inv ∧ (idle 1).clear ∧ (idle 1).env.turns.head? = some [] := by decide

theorem witness_every_transaction_is_recorded :
    encode (.txnRead 0x7F [0x00]) = some [0x03, 0x7F, 0x00] ∧ (Instr.txnRead 0x7F [0x00]).wellFormed = true ∧
      Instr.txnRead 0x7F [0x00] ≠ .txnReset ∧ (idle 1).Inv := by decide

theorem witness_failed_transaction_read :
    (cutting 2).settle = 0 ∧ (cutting 2).params.transportMayFail = true ∧ (cutting 2).env.links.head? = some (.cut 2) ∧
      encode (.txnRead 0x0E [0x00]) = some [0x03, 0x0E, 0x00] ∧ (Instr.txnRead 0x0E [0x00]).wellFormed = true ∧
      encode (.txnReadStatus []) = some [0xA0] := by decide

/-- The bytes of an instruction, and those of none. -/
theorem witness_failed_transaction_of_any_instruction :
    (cutting 1).settle = 0 ∧ (cutting 1).params.transportMayFail = true ∧ (cutting 1).env.links.head? = some (.cut 1) ∧
      encode (.txnLoadTx1 [0xFF]) = some [0x42, 0xFF] ∧ (Instr.txnLoadTx1 [0xFF]).wellFormed = true ∧
      decode ([0x42, 0xFF].take 1) = .ok (.txnLoadTx1 []) ∧ encode (.txnWrite 0x7F [0x00]) = some [0x02, 0x7F, 0x00] ∧
      (Instr.txnWrite 0x7F [0x00]).wellFormed = true ∧ decode ([0x02, 0x7F, 0x00].take 1) = .error (.badLength 0x02 1) := by
  decide

theorem witness_failed_transaction_reset_and_bitmod :
    (cutting 0).settle = 0 ∧ (cutting 0).env.links.head? = some (.cut 0) ∧ encode .txnReset = some [0xC0] ∧
      (cutting 3).settle = 0 ∧ (cutting 3).env.links.head? = some (.cut 3) ∧
      encode (.txnBitmod 0x2C 0x01 0x00) = some [0x05, 0x2C, 0x01, 0x00] ∧
      (Instr.txnBitmod 0x2C 0x01 0x00).wellFormed = true := by decide

/-- The write ends at the last register; its second byte comes across and lands; RESET and BITMOD come across whole. -/
theorem witness_failed_transaction_write :
    (cutting 4).Inv ∧ (cutting 4).settle = 0 ∧ (cutting 4).params.transportMayFail = true ∧
      (cutting 4).env.links.head? = some (.cut 4) ∧ 1 + 3 ≤ 4 ∧ 1 ≤ 4 ∧ 4 ≤ 4 ∧
      Lands (cutting 4) 0x2B ([0xA3, 0x00, 0xFF].take (4 - 2)) 1 ∧ (0x2B + 1) % 16 ≠ 14 ∧
      ((0x2B : Byte).toNat, (0xFF : Byte)) ∈ plainRegisters := by decide

theorem witness_failed_transaction_write_ends :
    (0x7F : Byte).toNat < 128 ∧ (0x7F : Byte).toNat + [(0x00 : Byte)].length ≤ 128 ∧
      (0x2B : Byte).toNat + [(0xA3 : Byte), 0x00].length ≤ 128 := by decide

/-- The statement's conclusion is about some choices `env`: none is ruled out by the state. -/
theorem witness_settle_time_leaves_anything :
    ({ idle 1 with settle := 1 } : State).settle ≠ 0 ∧ encode .txnReset = some [0xC0] ∧ Instr.txnReset.wellFormed = true ∧
      encode (.txnWrite 0x7F [0x00]) = some [0x02, 0x7F, 0x00] ∧ (Instr.txnWrite 0x7F [0x00]).wellFormed = true := by decide

/-- The last register, none at all, and one byte too many. -/
theorem witness_read_returns_the_registers :
    (idle 1).clear ∧ (0x7F : Byte).toNat < 128 ∧ (0x7F : Byte).toNat + [(0x00 : Byte)].length ≤ 128 ∧
      (idle 1).unlockedRx ((0x7F : Byte).toNat + 0) = false ∧ (0x7F : Byte).toNat + [(0x00 : Byte), 0x00].length > 128 ∧
      (holding (idle 1)).clear ∧ (holding (idle 1)).unlockedRx 0x61 = false := by decide

/-- RXB0 pending, only RXB1 pending with each kind of filter code. -/
theorem witness_rx_status_samples_the_buffers :
    (holding (idle 1)).clear ∧ ((holding (idle 1)).reg 0x2C).getLsbD 0 = true ∧
      (holding1 (idle 1)).clear ∧ ((holding1 (idle 1)).reg 0x2C).getLsbD 0 = false ∧
      ((holding1 (idle 1)).reg 0x2C).getLsbD 1 = true ∧ ((holding1 (idle 1)).reg 0x70 &&& 7).toNat < 6 := by decide

theorem witness_read_rx_buffer_clears_its_flag :
    (holding (idle 1)).Inv ∧ (holding (idle 1)).clear ∧ (holding (idle 1)).rxPending .rxb0 = true ∧
      (holding1 (idle 1)).Inv ∧ (holding1 (idle 1)).clear ∧ (holding1 (idle 1)).rxPending .rxb1 = true := by decide

theorem witness_write_plain_register :
    (idle 1).Inv ∧ (idle 1).clear ∧ ((0x7E : Byte).toNat, (0x00 : Byte)) ∈ plainRegisters ∧
      ((0x0F : Byte).toNat, (0xFF : Byte)) ∈ plainRegisters ∧ ((0x2B : Byte).toNat, (0xFF : Byte)) ∈ plainRegisters ∧
      ((0x70 : Byte).toNat, (0x60 : Byte)) ∈ plainRegisters := by decide

/-- In Configuration mode and in another. -/
theorem witness_write_configuration_register :
    (idle 1).Inv ∧ (idle 1).clear ∧ (idle 1).inConfiguration ∧
      ((0x27 : Byte).toNat, (0xFF : Byte)) ∈ configurationRegisters ∧
      (inMode 0x00 (idle 1)).Inv ∧ (inMode 0x00 (idle 1)).clear ∧ ¬ (inMode 0x00 (idle 1)).inConfiguration ∧
      ((0x0D : Byte).toNat, (0x07 : Byte)) ∈ configurationRegisters := by decide

/-- A byte for a transmit buffer that the same block keeps from being pending, one for a Configuration-only register, and the
last of a block's two bytes for CANCTRL, of which the first does not stay. -/
theorem witness_write_block_lands :
    Lands (idle 1) 0x2A (zeros 20) 7 ∧ Lands (idle 1) 0x2A (zeros 20) 0 ∧ Lands (idle 1) 0x0F (zeros 17) 16 := by decide

/-- The first of those two bytes, a byte for a pending buffer, and one for CNF1 outside Configuration mode do not. -/
theorem test_what_does_not_land :
    ¬ Lands (idle 1) 0x0F (zeros 17) 0 ∧ ¬ Lands ((idle 1).setReg 0x30 0x08) 0x31 [0x24] 0 ∧
      ¬ Lands (inMode 0x00 (idle 1)) 0x2A [0x03] 0 := by decide

/-- The whole address space, and a block that leaves the transmit buffers alone. -/
theorem witness_write_block_frame :
    (idle 1).Inv ∧ (idle 1).clear ∧ (0x00 : Byte).toNat < 128 ∧ (0x00 : Byte).toNat + (zeros 128).length ≤ 128 ∧
      (0x7F : Byte).toNat + (zeros 1).length ≤ 128 ∧
      ∀ i, i < (zeros 1).length → (0x7F : Byte).toNat + i ≠ (txCtrl .txb2).toNat := by decide

/-- A free buffer, a pending one, and one byte too many. -/
theorem witness_load_tx_buffer :
    (idle 1).Inv ∧ (idle 1).clear ∧ (idle 1).txPending .txb2 = false ∧ (zeros 13).length ≤ 13 ∧
      ((idle 1).setReg 0x50 0x08).Inv ∧ ((idle 1).setReg 0x50 0x08).clear ∧ (zeros 14).length > 13 := by decide

theorem witness_bitmod_plain_register :
    (idle 1).Inv ∧ (idle 1).clear ∧ ((0x1C : Byte).toNat, (0x00 : Byte)) ∈ plainRegisters ∧
      ((0x1E : Byte).toNat, (0x00 : Byte)) ∈ plainRegisters := by decide

theorem witness_bitmod_mask_corners :
    (idle 1).Inv ∧ (idle 1).clear ∧ (idle 1).inConfiguration ∧
      ((0x25 : Byte).toNat, (0xE3 : Byte)) ∈ configurationRegisters ∧
      ((0x28 : Byte).toNat, (0xC7 : Byte)) ∈ configurationRegisters ∧ ¬ (inMode 0x00 (idle 1)).inConfiguration ∧
      (idle 1).txPending .txb2 = false ∧ 12 < 13 ∧ (0x7F : Byte).toNat < 128 ∧
      (0x7F : Byte).toNat ∈ (idle 1).params.bitModifiable := by decide

/-- The premise of the operations that bit-modify: reset meets it, and so does every state of a run from it, since no step
changes the parameters. -/
theorem witness_modifies : State.reset.modifies ∧ (idle 1).modifies ∧ (takes 1).modifies := by decide

/-- Address 0x80 with no byte at all, and a block of two bytes at 0x7F. -/
theorem witness_other_addresses_are_refused :
    (0x80 : Byte).toNat ≥ 128 ∧ (0x7F : Byte).toNat + 2 > 128 ∧ [(0x00 : Byte), 0x00].length = 2 ∧
      (0xFF : Byte).toNat + 1 > 128 := by decide

theorem witness_register_operations :
    (0x7F : Byte).toNat < 128 ∧ (0x7F : Byte).toNat + 1 ≤ 128 ∧ (0x00 : Byte).toNat + 128 ≤ 128 ∧
      (0x60 : Byte).toNat + (zeros 32).length ≤ 128 := by decide

theorem witness_register_reads_and_error_flags :
    (idle 1).clear ∧ (0x7F : Byte).toNat < 128 ∧ (idle 1).unlockedRx (0x7F : Byte).toNat = false ∧
      (holding (idle 1)).clear ∧ (holding (idle 1)).unlockedRx (0x61 : Byte).toNat = false := by decide

theorem witness_set_mode_succeeds :
    (idle 2).Inv ∧ (idle 2).modifies ∧ (idle 2).quiet 2 ∧ (idle 2).opmod = modeBits .configuration ∧
      (inMode 0x20 (idle 2)).Inv ∧ (inMode 0x20 (idle 2)).modifies ∧ (inMode 0x20 (idle 2)).quiet 2 ∧ (inMode 0x20 (idle 2)).opmod = modeBits .sleep ∧
      (takes 2).Inv ∧ (takes 2).modifies ∧ (takes 2).prompt 2 := by decide

theorem witness_set_mode_never_taken :
    (idle 11).Inv ∧ (idle 11).modifies ∧ (idle 11).quiet 11 ∧ (idle 11).opmod ≠ modeBits .normal := by decide

/-- In Configuration mode, and from Normal mode with the chip taking Configuration. -/
theorem witness_set_bitrate :
    (idle 5).Inv ∧ (idle 5).modifies ∧ (idle 5).quiet 5 ∧ (idle 5).inConfiguration ∧ (inMode 0x00 (takes 5)).Inv ∧
      (inMode 0x00 (takes 5)).modifies ∧ (inMode 0x00 (takes 5)).prompt 5 ∧ ¬ (inMode 0x00 (takes 5)).inConfiguration := by
  decide

theorem witness_mode_entry_failure :
    (inMode 0x00 (idle 11)).Inv ∧ (inMode 0x00 (idle 11)).modifies ∧ (inMode 0x00 (idle 11)).quiet 11 ∧ ¬ (inMode 0x00 (idle 11)).inConfiguration := by
  decide

/-- The longest admitted frame, and the shortest one that is not. -/
theorem witness_encode_frame :
    ({ frame123 with dlc := 8 } : Frame).dlc.toNat ≤ 8 ∧ ({ frame123 with dlc := 9 } : Frame).dlc.toNat > 8 := by decide

/-- A standard frame, and an extended remote one. -/
theorem witness_frame_round_trip :
    ({ frame123 with dlc := 8 } : Frame).dlc.toNat ≤ 8 ∧ (0xF7 : Byte).getLsbD 3 = frame123.canId.getLsbD 30 ∧
      (0x08 : Byte).getLsbD 3 = ({ frame123 with canId := 0xC01ABCDE } : Frame).canId.getLsbD 30 := by decide

theorem witness_set_filter_and_mask :
    (idle 3).Inv ∧ (idle 3).modifies ∧ (idle 3).quiet 3 ∧ (idle 3).inConfiguration ∧ (inMode 0x60 (takes 3)).Inv ∧
      (inMode 0x60 (takes 3)).modifies ∧ (inMode 0x60 (takes 3)).prompt 3 ∧ ¬ (inMode 0x60 (takes 3)).inConfiguration := by
  decide

theorem witness_default_configuration : (idle 32).Inv ∧ (idle 32).modifies ∧ (idle 32).quiet 32 ∧ (idle 32).inConfiguration := by decide

theorem witness_send_trace :
    ({ frame123 with dlc := 9 } : Frame).dlc.toNat > 8 ∧ ({ frame123 with dlc := 8 } : Frame).dlc.toNat ≤ 8 := by decide

theorem witness_send_on_a_free_slot :
    (idle 3).Inv ∧ (idle 3).modifies ∧ (idle 3).quiet 3 ∧ ({ frame123 with dlc := 8 } : Frame).dlc.toNat ≤ 8 ∧
      (idle 3).txPending .txb1 = false := by decide

/-- The last slot is the only free one; none is. -/
theorem witness_send_any_takes_the_first_free_slot :
    let s := (idle 6).setReg 0x30 0x08 |>.setReg 0x40 0x08
    s.Inv ∧ s.modifies ∧ s.quiet 6 ∧ frame123.dlc.toNat ≤ 8 ∧ s.txPending .txb2 = false ∧ s.txPending .txb0 = true ∧
      s.txPending .txb1 = true ∧ (s.setReg 0x50 0x08).Inv ∧ (s.setReg 0x50 0x08).modifies ∧ (s.setReg 0x50 0x08).quiet 3 ∧
      (s.setReg 0x50 0x08).txPending .txb2 = true := by decide

/-- Each buffer pending, and none. -/
theorem witness_read_returns_the_frame :
    (idle 4).Inv ∧ (idle 4).modifies ∧ (idle 4).quiet 4 ∧ (idle 4).rxPending .rxb0 = false ∧ (idle 4).rxPending .rxb1 = false ∧
    (holding (idle 4)).Inv ∧ (holding (idle 4)).modifies ∧ (holding (idle 4)).quiet 4 ∧ (holding (idle 4)).rxPending .rxb0 = true ∧
      ((holding (idle 4)).rxDlc .rxb0).toNat ≤ 8 ∧ (holding1 (idle 4)).Inv ∧ (holding1 (idle 4)).modifies ∧ (holding1 (idle 4)).quiet 4 ∧
      (holding1 (idle 4)).rxPending .rxb1 = true ∧ ((holding1 (idle 4)).rxDlc .rxb1).toNat ≤ 8 := by decide

/-- A length field of 9 in RXB0, while RXB1 is pending too; also of `OnCanMessage`, with one of 15 in RXB1 alone. -/
theorem witness_malformed_frame_sticks :
    let s := (holding1 (holding (idle 2))).setReg 0x65 0x09
    let u := (holding1 (idle 2)).setReg 0x75 0x0F
    s.clear ∧ s.quiet 2 ∧ s.rxPending .rxb0 = true ∧ (s.rxDlc .rxb0).toNat > 8 ∧ s.rxPending .rxb1 = true ∧
      u.quiet 2 ∧ u.rxPending .rxb1 = true ∧ u.rxPending .rxb0 = false ∧ (u.rxDlc .rxb1).toNat > 8 := by decide

/-- Also of `OnCanMessage`: RXB0 pending, only RXB1 pending, neither. -/
theorem witness_read_any_pending :
    (holding (idle 5)).Inv ∧ (holding (idle 5)).modifies ∧ (holding (idle 5)).quiet 5 ∧ (holding (idle 5)).rxPending .rxb0 = true ∧
      ((holding (idle 5)).rxDlc .rxb0).toNat ≤ 8 ∧ (holding1 (idle 5)).Inv ∧ (holding1 (idle 5)).modifies ∧ (holding1 (idle 5)).quiet 5 ∧
      (holding1 (idle 5)).rxPending .rxb1 = true ∧ (holding1 (idle 5)).rxPending .rxb0 = false ∧
      ((holding1 (idle 5)).rxDlc .rxb1).toNat ≤ 8 ∧ (idle 1).clear ∧ (idle 1).rxPending .rxb0 = false ∧
      (idle 1).rxPending .rxb1 = false := by decide

/-- Both triggers, a point at which a change is put off, and an asserted line under `LowLevel`. -/
theorem witness_on_interrupt :
    (base 1 [.putOff 2]).env.turns = [.putOff 2] :: [] ∧
    (idle 1).params.intTrigger = .fallingEdge ∧ (under .lowLevel (idle 1)).params.intTrigger = .lowLevel ∧
      ((under .lowLevel (idle 1)).setReg 0x2B 0xA3 |>.poke Addr.canintf 0x01 0x01).schedule.int = true := by decide

theorem witness_initialise : (takes 40).Inv ∧ (takes 40).modifies ∧ (takes 40).prompt 40 := by decide

/-- Also of `AgentsFollowTheMode`: a pending buffer, a mode in which nothing is received, one in which nothing is sent. -/
theorem witness_agents_keep_their_bounds :
    (holding (idle 1)).Inv ∧ (holding (idle 1)).rxPending .rxb0 = true ∧ (idle 1).Inv ∧
      (idle 1).opmod ∉ [0x00, 0x40, (0x60 : Byte)] ∧ (inMode 0x60 (idle 1)).Inv ∧
      (inMode 0x60 (idle 1)).opmod ∉ [0x00, (0x40 : Byte)] := by decide

/-- A frame lost in each buffer, without rollover and with it, and a transmission held up by TXBO. -/
theorem witness_agents_follow_the_mode :
    let s := inMode 0x00 (holding1 (holding (idle 1)))
    let lost := fun (u : State) (m : Move) => (applyMove m u).reg 0x2D &&& ~~~u.reg 0x2D
    s.Inv ∧ s.opmod ∈ [0x00, 0x40, (0x60 : Byte)] ∧ s.rxPending .rxb0 = true ∧ s.rxPending .rxb1 = true ∧
      lost s (.overflow .rxb0 true) &&& 0x40 ≠ 0 ∧ lost (s.setReg 0x60 0x04) (.overflow .rxb0 true) &&& 0x80 ≠ 0 ∧
      lost s (.overflow .rxb1 false) &&& 0x80 ≠ 0 ∧ (s.setReg 0x2D 0x20).reg 0x2D &&& 0x20 ≠ 0 := by decide

/-- The conditions of the steps that `Leaves` describes, each met: an abort by ABAT and one that the Caller has requested. -/
theorem witness_leaves :
    let s := inMode 0x00 ((idle 1).setReg 0x30 0x08)
    s.reqop ∈ [0x00, 0x20, 0x40, 0x60, (0x80 : Byte)] ∧ s.rxPending .rxb0 = false ∧ s.mayTransmit .txb0 ∧
      s.reg 0x2D &&& 0x20 = 0 ∧ (s.setReg 0x0F 0x10).reg 0x0F &&& 0x10 ≠ 0 ∧
      TxSlot.txb0 ∈ (after (.txnWrite 0x30 [0x00]) s).aborting ∧ (inMode 0x20 s).opmod = 0x20 ∧ (inMode 0x20 s).Inv := by
  decide

end Sys2Proof.Tests
end

/-! SUPPORT. A serial instruction is one transaction, and what every transaction leaves of the host (00_scope.md R12; 10_state.md
R58, R59; 41_register_access.md R181). The effects of the fifteen instructions have three shapes: none, one that waits for enough
bytes, and a block of data bytes. -/

namespace Sys2Proof.Machine

/-! ## The settle time -/

/-- Of all bytes only those of a `RESET` begin a settle time within a settle time. -/
theorem State.settle_unsettled (s : State) {out : List Byte} (k : Nat) (h : out.head? ≠ some Opcode.reset) :
    (s.unsettled out k).settle = s.settle := by
  simp [State.unsettled, resetSeen, h]

theorem State.settle_foldl_requestToSend (slots : List TxSlot) (s : State) :
    (slots.foldl State.requestToSend s).settle = s.settle := by
  induction slots generalizing s with
  | nil => rfl
  | cons x r ih => exact (ih _).trans (s.settle_writeByte _ _)

/-! ## The parts of a serial transaction -/

/-- The response has as many bytes as are sent, the effect is one of the chip, and it leaves the settle time alone but for a
`RESET`. -/
structure SerialParts (out : List Byte) (respond : State → List Byte × Env) (effect : Nat → State → State) : Prop where
  length : ∀ u, (respond u).1.length = out.length
  chip : ∀ k u, Chip u (effect k u)
  settle : out.head? ≠ some Opcode.reset → ∀ k u, (effect k u).settle = u.settle

section

variable {out : List Byte} {respond : State → List Byte × Env}

/-- The transactions that only read. -/
theorem serialParts_read (hlen : ∀ u, (respond u).1.length = out.length) : SerialParts out respond fun _ s => s :=
  ⟨hlen, fun _ u => Chip.refl u, fun _ _ _ => rfl⟩

/-- The transactions that act once `n` bytes have been received. -/
theorem serialParts_once {n : Nat} {act : State → State} (hlen : ∀ u, (respond u).1.length = out.length)
    (hact : ∀ u, Chip u (act u)) (hs : out.head? ≠ some Opcode.reset → ∀ u, (act u).settle = u.settle) :
    SerialParts out respond fun k s => if n ≤ k then act s else s where
  length := hlen
  chip := fun _ u => chip_ite _ (hact u)
  settle := fun h k u => by
    split
    · exact hs h u
    · rfl

/-- The transactions that write the data bytes received after the first `n` bytes. -/
theorem serialParts_block {n addr : Nat} {data : List Byte} (h : addr + data.length ≤ 128) :
    SerialParts out (noResponse out) fun k s => s.writeBlock addr (data.take (k - n)) where
  length := noResponse_length out
  chip := fun _ u => chip_writeBlock _ u (Nat.le_trans (Nat.add_le_add_left (List.length_take_le' _ _) _) h)
  settle := fun _ _ u => u.settle_writeBlock _ _

end

/-! ## The serial instructions -/

theorem addr_lt_of_blockOk {addr : Byte} {n : Nat} (h : blockOk addr n = true) : addr.toNat < 128 := by
  simp only [blockOk_eq, Bool.and_eq_true, decide_eq_true_eq] at h
  exact h.1

theorem block_le_of_blockOk {addr : Byte} {n : Nat} (h : blockOk addr n = true) : addr.toNat + n ≤ 128 := by
  simp only [blockOk_eq, Bool.and_eq_true, decide_eq_true_eq] at h
  exact h.2

theorem body_le_of_loadOk (slot : TxSlot) {data : List Byte} (h : loadOk data = true) :
    (txSidh slot).toNat + data.length ≤ 128 := by
  rw [loadOk_eq, decide_eq_true_eq] at h
  exact Nat.le_trans (Nat.add_le_add_left h _) (txSidh_le slot)

/-- Only `RESET` is encoded with the opcode of `RESET` (30_encoding.md R124). -/
theorem encode_head_ne_reset {i : Instr} {out : List Byte} (h : encode i = some out) (hi : i ≠ .txnReset) :
    out.head? ≠ some Opcode.reset := by
  cases i with
  | txnReset => exact absurd rfl hi
  | txnRead | txnWrite | txnBitmod | txnReadStatus | txnRxStatus | txnReadRx0 | txnReadRx1 | txnLoadTx0 | txnLoadTx1
  | txnLoadTx2 | txnRtsTx0 | txnRtsTx1 | txnRtsTx2 | txnRtsAll =>
    cases h
    exact fun hop => absurd (Option.some.inj hop) (by decide)
  | _ => cases h

/-- Each serial instruction of admitted operands is the transaction of its bytes, with a response and an effect of its own. -/
theorem exec_eq_transact {i : Instr} {out : List Byte} (h : encode i = some out) (hi : i.wellFormed = true) :
    ∃ respond effect, (∀ s, exec i s = .next (transact out respond effect s).2) ∧ SerialParts out respond effect := by
  cases i with
  | txnReset =>
    cases h
    exact ⟨_, _, fun _ => rfl, serialParts_once (noResponse_length _) chip_chipReset fun hop => absurd rfl hop⟩
  | txnRead addr dummy =>
    cases h
    exact ⟨_, _, fun _ => congrArg _ (if_pos hi), serialParts_read (readResponse_length _ _ _)⟩
  | txnWrite addr data =>
    cases h
    exact ⟨_, _, fun _ => congrArg _ (if_pos hi), serialParts_block (block_le_of_blockOk hi)⟩
  | txnBitmod addr mask data =>
    cases h
    exact ⟨_, _, fun _ => congrArg _ (if_pos hi), serialParts_once (noResponse_length _)
      (fun u => chip_bitModify u _ _ (addr_lt_of_blockOk hi)) fun _ u => u.settle_bitModify _ _ _⟩
  | txnReadStatus dummy =>
    cases h
    exact ⟨_, _, fun _ => rfl, serialParts_read (statusResponse_length _ _)⟩
  | txnRxStatus dummy =>
    cases h
    exact ⟨_, _, fun _ => rfl, serialParts_read (rxStatusResponse_length _ _)⟩
  | txnReadRx0 | txnReadRx1 =>
    cases h
    exact ⟨_, _, fun _ => rfl, serialParts_once (rxResponse_length _ _ _) (fun u => chip_poke u _ _ (by decide))
      fun _ u => u.poke_settle _ _ _⟩
  | txnLoadTx0 | txnLoadTx1 | txnLoadTx2 =>
    cases h
    exact ⟨_, _, fun _ => congrArg _ (if_pos hi), serialParts_block (body_le_of_loadOk _ hi)⟩
  | txnRtsTx0 | txnRtsTx1 | txnRtsTx2 | txnRtsAll =>
    cases h
    exact ⟨_, _, fun _ => rfl, serialParts_once (noResponse_length _) (chip_foldl_requestToSend _)
      fun _ => State.settle_foldl_requestToSend _⟩
  | _ => cases h

/-! ## What a transaction leaves of the host -/

theorem Chip.sameHost_finish {s u : State} (h : Chip s u) (out inb : List Byte) (ok : Bool) :
    SameHost s (u.finish out inb ok) := by
  simp [SameHost, h.queue, h.waits, h.cloudUp, h.refused, h.calls]

section

variable {out : List Byte} {respond : State → List Byte × Env} {effect : Nat → State → State}

/-- Within the settle time and outside it, a transaction is an effect of the chip, then its record. -/
theorem transact_eq_finish (h : SerialParts out respond effect) (s : State) :
    ∃ u inb ok, (transact out respond effect s).2 = u.finish out inb ok ∧ inb.length = out.length ∧ Chip s u ∧
      (out.head? ≠ some Opcode.reset → u.settle = s.settle) := by
  have hlen := transact_length out respond effect s h.length
  by_cases hs : s.settle = 0
  · exact ⟨_, _, _, transact_settled _ _ _ hs, hlen, (chip_setEnv s _).trans (h.chip _ _), fun hop => h.settle hop _ _⟩
  · exact ⟨_, _, _, transact_unsettled _ _ _ hs, hlen, (chip_setEnv s _).trans (chip_unsettled _ _ _),
      fun hop => State.settle_unsettled _ _ hop⟩

end

/-- Settles O15: an admitted serial instruction is the transaction of its bytes, which is an effect of the chip and then the
record. -/
theorem everyTransactionIsRecorded : Obligations.EveryTransactionIsRecorded := by
  intro s i out henc hwf
  obtain ⟨respond, effect, hexec, hparts⟩ := exec_eq_transact henc hwf
  obtain ⟨u, inb, ok, ht, hlen, hchip, hsettle⟩ := transact_eq_finish hparts s
  refine ⟨u.finish out inb ok, inb, ok, by rw [hexec, ht], hlen, ?_, ?_, hchip.sameHost_finish out inb ok, ?_, ?_,
    (hchip.reaches.trans (reaches_finish u ok hlen)).inv, fun hi => ?_⟩
  · rw [State.finish_transcript, hchip.transcript]
  · rw [State.finish_log, hchip.log]
  · rw [State.finish_results, hchip.results]
  · rw [State.finish_sleeps, hchip.sleeps]
  · rw [State.finish_settle, hsettle (encode_head_ne_reset henc hi)]

end Sys2Proof.Machine

/-! SUPPORT. What one step of the machine can do (10_state.md R20-R24): the next call runs after a scheduling point, every step keeps
the invariant and only adds to the observations (`Grows`), the state at power-on meets the invariant, and what CANSTAT reads as in
every state. -/

namespace Sys2Proof.Machine

/-! ## The next call -/

/-- A step with a call left is a scheduling point and then that call. -/
theorem step_of_calls_cons {s : State} {c : Call} {rest : List Call} (h : s.calls = c :: rest) :
    step s = runCall exec c (State.schedule { s with calls := rest }) := by
  unfold step callerTurn
  rw [h]

/-- The Caller may call every instruction (60_exceptions.md R348). -/
theorem runCall_op_caller (i : Instr) (s : State) : runCall exec (.op .caller i) s = exec i s := rfl

/-- The Caller's bytes run the instruction that they decode to. -/
theorem runCall_txn_caller {out : List Byte} {i : Instr} (h : decode out = .ok i) (s : State) :
    runCall exec (.txn .caller out) s = exec i s := by
  simp only [runCall, runBytes, h]
  exact runCall_op_caller i s

theorem decode_of_decodeTableWord {nbits w : Nat} {i : Instr} (h : decodeTableWord nbits w = some i) :
    decode (tableBytes nbits w) = .ok i := by
  unfold decodeTableWord at h
  split at h
  · next hd => rw [hd, Option.some.inj h]
  · cases h

/-- Settles O5: a step runs the first call, and the Caller's calls are the instructions that they say. -/
theorem stepRunsTheNextCall : Obligations.StepRunsTheNextCall := by
  refine ⟨fun s out rest i hc hd => ?_, fun s rest i hc => ?_, fun s rest ms hc => ?_, fun s nbits w i hd => ?_⟩
  · rw [step_of_calls_cons hc, runCall_txn_caller hd]
  · rw [step_of_calls_cons hc, runCall_op_caller]
  · rw [step_of_calls_cons hc]
    rfl
  · have hc : (s.withFetchWord nbits w).calls = .txn .caller (tableBytes nbits w) :: s.calls := rfl
    rw [step_of_calls_cons hc, runCall_txn_caller (decode_of_decodeTableWord hd)]
    rfl

/-! ## Power-on -/

theorem Memory.lookup_map_of_not_mem {l : List Nat} (f : Nat → Byte) {a : Nat} (h : a ∉ l) :
    Memory.lookup (l.map fun a => (a, f a)) a = none := by
  induction l with
  | nil => rfl
  | cons b r ih =>
    rw [List.mem_cons, not_or] at h
    rw [List.map_cons, Memory.lookup, if_neg h.1]
    exact ih h.2

/-- Where the register file lists the registers of unspecified reset only, every other one reads as its reset value. -/
theorem Memory.read_draws (f : Nat → Byte) {a : Nat} {v : Byte} (h : resetValue a = some v) :
    Memory.read (unspecifiedAddrs.map fun a => (a, f a)) a = v := by
  have hnot : a ∉ unspecifiedAddrs := fun hm => nomatch h.symm.trans (resetValue_of_mem_unspecified hm)
  rw [Memory.read, Memory.lookup_map_of_not_mem f hnot, Option.getD_none, Memory.unlisted, h, Option.getD_some]

/-- At power-on no flag is set, so that `INT` is deasserted (10_state.md R57, R60). -/
theorem Memory.level_powerOn : Memory.level Memory.powerOn = false := by
  have hf : Memory.read Memory.powerOn Addr.canintf = 0 := Memory.read_draws _ rfl
  have he : Memory.read Memory.powerOn Addr.caninte = 0 := Memory.read_draws _ rfl
  rw [Memory.level, hf, he]
  rfl

/-- Settles O12: the register file at power-on is canonical, and the rest of the state is empty. -/
theorem powerOnMeetsTheInvariant : Obligations.PowerOnMeetsTheInvariant :=
  ⟨Memory.wf_powerOn, Memory.level_powerOn.symm, Nat.zero_le _, (fun _ he => nomatch he), List.nodup_nil⟩

/-! ## CANSTAT -/

/-- ICOD at its place in CANSTAT (60_exceptions.md R338). -/
theorem icodOf_eq (f : Byte) : icodOf f =
    if f.getLsbD 5 then 0x02 else if f.getLsbD 6 then 0x04 else if f.getLsbD 2 then 0x06 else if f.getLsbD 3 then 0x08
    else if f.getLsbD 4 then 0x0A else if f.getLsbD 0 then 0x0C else if f.getLsbD 1 then 0x0E else 0x00 := rfl

/-- ICOD lies in bits 3:1. -/
theorem icodOf_and (f : Byte) : icodOf f &&& 0x0E = icodOf f := by revert f; decide

/-- CANSTAT is the stored OPMOD, and ICOD of the flags that are set and enabled. -/
theorem State.reg_canstat_eq (s : State) :
    s.reg 0x0E = (Memory.read s.mem 0x0E &&& 0xE0) ||| (icodOf (s.reg 0x2C &&& s.reg 0x2B) &&& 0x0E) := by
  rw [icodOf_and]
  rfl

/-- Settles O33: OPMOD and ICOD stand in disjoint fields of CANSTAT, which leave bits 4 and 0 out. -/
theorem canstatReportsModeAndFlag : Obligations.CanstatReportsModeAndFlag := by
  intro s
  refine ⟨?_, ?_, State.opmod_eq s, ?_⟩
  · simp [State.reg_canstat_eq]
  · simp [State.reg_canstat_eq]
  · calc
      s.reg 0x0E &&& 0x0E = icodOf (s.reg 0x2C &&& s.reg 0x2B) &&& 0x0E := by
        simp [State.reg_canstat_eq, BitVec.and_or_distrib_right, BitVec.and_assoc]
      _ = icodOf (s.reg 0x2C &&& s.reg 0x2B) := icodOf_and _
      _ = _ := icodOf_eq _

/-! ## What every step keeps -/

/-- `t` comes from `s` by what a step is made of: the invariant is kept, the transcript, the log, the results and the delays only
grow, a refusal mark that is set stays, and the parameters are as before. Unlike `Reaches` it lets the Caller return values, set
the refusal mark, take calls and events, and set the cloud-link flag. -/
structure Grows (s t : State) : Prop where
  inv : s.Inv → t.Inv
  transcript : s.transcript <+: t.transcript
  log : s.log <+: t.log
  results : s.results <+: t.results
  sleeps : s.sleeps <+: t.sleeps
  refused : s.refused = true → t.refused = true
  params : t.params = s.params

theorem Grows.trans {s t u : State} (h : Grows s t) (k : Grows t u) : Grows s u where
  inv := fun x => k.inv (h.inv x)
  transcript := h.transcript.trans k.transcript
  log := h.log.trans k.log
  results := h.results.trans k.results
  sleeps := h.sleeps.trans k.sleeps
  refused := fun x => k.refused (h.refused x)
  params := k.params.trans h.params

theorem Reaches.grows {s t : State} (h : Reaches s t) : Grows s t where
  inv := h.inv
  transcript := h.transcript
  log := h.log
  results := by rw [h.results]
  sleeps := h.sleeps
  refused := fun x => h.refused.trans x
  params := h.params

theorem Grows.refl (s : State) : Grows s s := (Reaches.refl s).grows

/-- An event less leaves the queue within its capacity (10_state.md R56). -/
theorem grows_dequeue {s : State} {e : Event} {rest : List Event} (h : s.queue = e :: rest) :
    Grows s { s with queue := rest } where
  inv := fun ⟨hmem, hint, hqueue, htranscript, haborting⟩ => by
    rw [h, List.length_cons] at hqueue
    exact ⟨hmem, hint, Nat.le_of_succ_le hqueue, htranscript, haborting⟩
  transcript := List.prefix_rfl
  log := List.prefix_rfl
  results := List.prefix_rfl
  sleeps := List.prefix_rfl
  refused := id
  params := rfl

theorem grows_calls (s : State) (rest : List Call) : Grows s { s with calls := rest } :=
  ⟨id, List.prefix_rfl, List.prefix_rfl, List.prefix_rfl, List.prefix_rfl, id, rfl⟩

theorem grows_cloudUp (s : State) (up : Bool) : Grows s { s with cloudUp := up } :=
  ⟨id, List.prefix_rfl, List.prefix_rfl, List.prefix_rfl, List.prefix_rfl, id, rfl⟩

theorem grows_refuse (s : State) : Grows s s.refuse :=
  ⟨id, List.prefix_rfl, List.prefix_rfl, List.prefix_rfl, List.prefix_rfl, fun _ => rfl, rfl⟩

theorem grows_ret (s : State) (v : Value) : Grows s (s.ret v) :=
  ⟨id, List.prefix_rfl, List.prefix_rfl, List.prefix_append _ _, List.prefix_rfl, id, rfl⟩

theorem grows_note (s : State) (r : LogRecord) : Grows s (s.note r) :=
  ⟨id, List.prefix_rfl, List.prefix_append _ _, List.prefix_rfl, List.prefix_rfl, id, rfl⟩

/-- An operation of the layer that returns a value to its Caller. -/
theorem Reaches.grows_ret {s t : State} (h : Reaches s t) (v : Value) : Grows s (t.ret v) :=
  h.grows.trans (Machine.grows_ret t v)

/-- An instruction that is refused unless its operands are admitted. -/
theorem grows_or_refuse {s t : State} {c : Prop} [Decidable c] (h : c → Grows s t) :
    Grows s (if c then t else s.refuse) := by
  split
  · next hc => exact h hc
  · exact grows_refuse s

theorem publishValue_frame (f : Frame) (s : State) :
    publishValue (.frame f) s = if s.cloudUp then s.note (.publish (json f)) else s := rfl

theorem grows_publishValue (v : Value) (s : State) : Grows s (publishValue v s) := by
  cases v with
  | frame f =>
    rw [publishValue_frame]
    split
    · exact grows_note s _
    · exact Grows.refl s
  | _ => exact Grows.refl s

/-! ## Every instruction, every call and every step -/

/-- The outcome is a next state, which grows from `s`. -/
def Onward (s : State) (o : Host.Outcome State Fault Refusal) : Prop := ∃ t, o = .next t ∧ Grows s t

theorem Onward.next {s t : State} (h : Grows s t) : Onward s (.next t) := ⟨t, rfl, h⟩

theorem Onward.after {s u : State} {o : Host.Outcome State Fault Refusal} (h : Grows s u) (k : Onward u o) : Onward s o := by
  obtain ⟨t, ho, hg⟩ := k
  exact ⟨t, ho, h.trans hg⟩

theorem Onward.grows {s t : State} (h : Onward s (.next t)) : Grows s t := by
  obtain ⟨u, hu, hg⟩ := h
  cases hu
  exact hg

theorem onward_execDecodeFrame (sidh sidl eid8 eid0 dlc ctrl : Byte) (s : State) :
    Onward s (execDecodeFrame sidh sidl eid8 eid0 dlc ctrl s) := by
  unfold execDecodeFrame
  split
  · exact .next (grows_ret s _)
  · exact .next (grows_ret s _)

/-- A refused instruction sets the refusal mark; any other one does what its operation may do, and returns its value. -/
theorem onward_exec (i : Instr) (s : State) : Onward s (exec i s) := by
  cases i with
  | txnReset => exact .next (reaches_issueReset s).grows
  | txnRead addr dummy => exact .next (grows_or_refuse fun _ => (reaches_issueRead addr dummy s).grows)
  | txnWrite addr data =>
    exact .next (grows_or_refuse fun h => (reaches_issueWrite s (block_le_of_blockOk h)).grows)
  | txnBitmod addr mask data =>
    exact .next (grows_or_refuse fun h => (reaches_issueBitmod mask data s (addr_lt_of_blockOk h)).grows)
  | txnReadStatus dummy => exact .next (reaches_issueReadStatus dummy s).grows
  | txnRxStatus dummy => exact .next (reaches_issueRxStatus dummy s).grows
  | txnReadRx0 | txnReadRx1 => exact .next (reaches_issueReadRx _ _ _ s).grows
  | txnLoadTx0 | txnLoadTx1 | txnLoadTx2 =>
    exact .next (grows_or_refuse fun h => (reaches_issueLoadTx _ _ s (of_decide_eq_true h)).grows)
  | txnRtsTx0 | txnRtsTx1 | txnRtsTx2 | txnRtsAll => exact .next (reaches_issueRts _ _ s).grows
  | readRegister addr => exact .next (grows_or_refuse fun _ => (reaches_readRegister addr s).grows_ret _)
  | readRegisters addr n => exact .next (grows_or_refuse fun _ => (reaches_readRegisters addr n s).grows_ret _)
  | writeRegister addr value =>
    exact .next (grows_or_refuse fun h => (reaches_writeRegister value s (addr_lt_of_blockOk h)).grows_ret _)
  | writeRegisters addr values =>
    exact .next (grows_or_refuse fun h => (reaches_writeRegisters s (block_le_of_blockOk h)).grows_ret _)
  | modifyRegister addr mask data =>
    exact .next (grows_or_refuse fun h => (reaches_modifyRegister mask data s (addr_lt_of_blockOk h)).grows_ret _)
  | reset => exact .next ((reaches_resetChip s).grows_ret _)
  | readStatus => exact .next ((reaches_readStatus s).grows_ret _)
  | setMode mode => exact .next ((reaches_setMode mode s).grows_ret _)
  | setBitrate clock rate => exact .next ((reaches_setTiming _ s).grows_ret _)
  | lookupBitTiming | packId | decodeId => exact .next (grows_ret s _)
  | encodeFrame frame => exact .next ((reaches_setEnv s _).grows_ret _)
  | decodeFrame => exact onward_execDecodeFrame _ _ _ _ _ _ s
  | setFilter filter ext value => exact .next ((reaches_setBlock ext value s (filterBase_le filter)).grows_ret _)
  | setMask mask ext value => exact .next ((reaches_setBlock ext value s (maskBase_le mask)).grows_ret _)
  | applyDefaultConfiguration => exact .next ((reaches_applyDefaultConfiguration s).grows_ret _)
  | send slot frame => exact .next ((reaches_send slot frame s).grows_ret _)
  | sendAny frame => exact .next ((reaches_sendAny frame s).grows_ret _)
  | read slot => exact .next ((reaches_readSlot slot s).grows_ret _)
  | readAnyPending => exact .next ((reaches_readAny s).grows_ret _)
  | errorFlags | hasError => exact .next ((reaches_readRegister _ s).grows_ret _)
  | clearReceiveOverflow | clearMessageError | clearErrorInterrupt =>
    exact .next ((reaches_modifyRegister _ _ s (by decide)).grows_ret _)
  | onInterrupt => exact .next ((agent_takeInterrupt s).reaches.grows_ret _)
  | onCanMessage =>
    exact .next (((reaches_readAny s).grows.trans (grows_publishValue _ _)).trans (grows_ret _ _))
  | initialise clock rate attachOk => exact .next ((reaches_initialiseWith attachOk _ s).grows_ret _)

theorem onward_runInstr (ctx : Context) (i : Instr) (s : State) : Onward s (runInstr exec ctx i s) := by
  unfold runInstr
  split
  · exact onward_exec i s
  · exact .next (grows_refuse s)

theorem onward_runBytes (ctx : Context) (out : List Byte) (s : State) : Onward s (runBytes exec ctx out s) := by
  unfold runBytes
  split
  · exact onward_runInstr ctx _ s
  · exact .next (grows_refuse s)

theorem onward_runCall (c : Call) (s : State) : Onward s (runCall exec c s) := by
  cases c with
  | txn ctx out => exact onward_runBytes ctx out s
  | op ctx i => exact onward_runInstr ctx i s
  | sleep ms => exact .next (reaches_sleep s ms).grows

theorem onward_dispatchEvent (e : Event) (s : State) : Onward s (dispatchEvent exec e s) := by
  unfold dispatchEvent
  cases e.tag with
  | canMessage => exact .after (reaches_schedule s).grows (onward_exec .onCanMessage _)
  | cloudConnected | cloudDisconnected => exact .next (grows_cloudUp s _)
  | _ => exact .next (Grows.refl s)

theorem onward_dispatchHead (s : State) : Onward s (dispatchHead exec s) := by
  unfold dispatchHead
  split
  · exact .next (Grows.refl s)
  · next hq => exact .after (grows_dequeue hq) (onward_dispatchEvent _ _)

/-- Every step answers a next state, and only adds to the observations. -/
theorem onward_step (s : State) : Onward s (step s) := by
  unfold step callerTurn
  split
  · exact .after (reaches_schedule s).grows (onward_dispatchHead _)
  · exact .after ((grows_calls s _).trans (reaches_schedule _).grows) (onward_runCall _ _)

theorem grows_of_step {s t : State} (h : step s = .next t) : Grows s t := (h ▸ onward_step s).grows

/-- Settles O9: every transaction, delay, step of another agent and act of the Caller keeps the invariant. -/
theorem everyStepKeepsTheInvariant : Obligations.EveryStepKeepsTheInvariant :=
  fun _ _ hinv hstep => (grows_of_step hstep).inv hinv

/-- Settles O10: every part of a step adds to the observations, and none clears the refusal mark or changes the parameters. -/
theorem observationsOnlyGrow : Obligations.ObservationsOnlyGrow := by
  intro s t hstep
  have h := grows_of_step hstep
  exact ⟨h.transcript, h.log, h.results, h.sleeps, h.refused, h.params⟩

end Sys2Proof.Machine

/-! SUPPORT. What the agents other than the Caller can change (20_memory.md R90-R99): every step keeps the bits that `State.kept`
lists, sets none of `State.unset`, and clears none of `neverCleared`. -/

namespace Sys2Proof.Machine

/-! ## Bits that stay, that are not set, and that are not cleared -/

theorem and_ff (v : Byte) : v &&& 0xFF = v := BitVec.and_allOnes

/-- Of a register that held `old` and holds `new`: the bits of `k` are as before, none of `n` has been set and none of `c` cleared. -/
def Within (k n c old new : Byte) : Prop :=
  ∀ i, (k.getLsbD i = true → new.getLsbD i = old.getLsbD i) ∧
    (n.getLsbD i = true → new.getLsbD i = true → old.getLsbD i = true) ∧
    (c.getLsbD i = true → old.getLsbD i = true → new.getLsbD i = true)

section

variable {k n c old new : Byte}

theorem Within.refl (k n c old : Byte) : Within k n c old old := fun _ => ⟨fun _ => rfl, fun _ => id, fun _ => id⟩

theorem Within.trans {mid : Byte} (h : Within k n c old mid) (g : Within k n c mid new) : Within k n c old new := fun i =>
  ⟨fun hk => ((g i).1 hk).trans ((h i).1 hk), fun hn => (h i).2.1 hn ∘ (g i).2.1 hn,
    fun hc => (g i).2.2 hc ∘ (h i).2.2 hc⟩

/-- A bit of a byte that lies in a mask is a bit of the mask. -/
theorem getLsbD_of_and_eq {x m : Byte} (h : x &&& m = x) {i : Nat} (hi : x.getLsbD i = true) : m.getLsbD i = true := by
  rw [← h, BitVec.getLsbD_and, Bool.and_eq_true] at hi
  exact hi.2

theorem Within.and_eq (h : Within k n c old new) {x : Byte} (hx : x &&& k = x) : new &&& x = old &&& x := by
  apply byte_ext
  intro i _
  rw [BitVec.getLsbD_and, BitVec.getLsbD_and]
  cases hi : x.getLsbD i
  · simp
  · rw [(h i).1 (getLsbD_of_and_eq hx hi)]

theorem Within.eq (h : Within k n c old new) (hk : 0xFF &&& k = 0xFF) : new = old := by
  have hall := h.and_eq hk
  rwa [and_ff, and_ff] at hall

theorem Within.set_none (h : Within k n c old new) {x : Byte} (hx : x &&& n = x) : new &&& ~~~old &&& x = 0 := by
  apply byte_ext
  intro i hlt
  have hset := (h i).2.1
  cases hi : x.getLsbD i
  · simp [hi]
  · have hset := hset (getLsbD_of_and_eq hx hi)
    cases hnew : new.getLsbD i
    · simp [hnew]
    · simp [hset hnew]

theorem Within.cleared_none (h : Within k n c old new) {x : Byte} (hx : x &&& c = x) : old &&& ~~~new &&& x = 0 :=
  Within.set_none (k := 0) (n := c) (c := 0) (fun i => ⟨by simp, (h i).2.2, by simp⟩) hx

theorem Within.mono (h : Within k n c old new) {k' n' : Byte} (hk : k' &&& k = k') (hn : n' &&& n = n') :
    Within k' n' c old new := fun i =>
  ⟨fun hi => (h i).1 (getLsbD_of_and_eq hk hi), fun hi => (h i).2.1 (getLsbD_of_and_eq hn hi), (h i).2.2⟩

/-- A field outside the kept bits takes a value that sets none of `n` and has all of `c`. -/
theorem within_field {m v : Byte} (hk : m &&& k = 0) (hn : m &&& v &&& n = 0) (hc : m &&& ~~~v &&& c = 0) (x : Byte) :
    Within k n c old ((old &&& ~~~(m &&& x)) ||| (v &&& (m &&& x))) := by
  intro i
  have hk := congrArg (·.getLsbD i) hk
  have hn := congrArg (·.getLsbD i) hn
  have hc := congrArg (·.getLsbD i) hc
  by_cases hi : i < 8
  · simp only [BitVec.getLsbD_and, BitVec.getLsbD_or, BitVec.getLsbD_not, hi, decide_true, Bool.true_and] at hk hn hc ⊢
    cases hm : m.getLsbD i
    · simp
    · simp only [hm, Bool.true_and, show BitVec.getLsbD (0 : Byte) i = false from BitVec.getLsbD_zero] at hk hn hc ⊢
      grind
  · simp [BitVec.getLsbD_of_ge, Nat.le_of_not_lt hi]

end

/-! ## What no step of another agent changes -/

/-- The bits that the Caller owns (20_memory.md R92). -/
def callerBits (a : Nat) : Byte :=
  if a ∈ [0x0C, 0x28, 0x29, 0x2A, 0x2B] ∨ isFilter a = true ∨ isMask a = true ∨ isTxBody a = true then 0xFF
  else if isTxCtrl a then 0x03
  else if a = 0x0D then 0x07
  else if a = 0x0F then 0x1F
  else if a = 0x60 then 0x66
  else if a = 0x70 then 0x60
  else 0x00

/-- The registers of a pending receive buffer (20_memory.md R99). -/
def State.pendingBits (s : State) (a : Nat) : Byte :=
  match rxSlotOf a with
  | some slot => if s.rxPending slot then 0xFF else 0x00
  | none => 0x00

/-- TXBO of EFLG holds up every transmission (20_memory.md R97). -/
abbrev State.mayComplete (s : State) : Prop := s.transmitting = true ∧ s.reg 0x2D &&& 0x20 = 0

/-- What one step leaves in a mode that does not receive, or does not transmit (20_memory.md R94, R96, R97). -/
def State.idleBits (s : State) (a : Nat) : Byte :=
  if a = 0x2C then (if s.receiving then 0x00 else 0x03) ||| (if s.mayComplete then 0x00 else 0x1C)
  else if isTxCtrl a then (if s.transmitting then 0x00 else 0x08)
  else if isRxBody a then (if s.receiving then 0x00 else 0xFF)
  else 0x00

/-- The bits that one step of another agent from `s` keeps. -/
def State.kept (s : State) (a : Nat) : Byte := callerBits a ||| s.pendingBits a ||| s.idleBits a

/-- A mask that lies in one of two masks lies in both together. -/
theorem and_or_of_left {x k : Byte} (h : x &&& k = x) (l : Byte) : x &&& (k ||| l) = x := by
  apply byte_ext
  intro i _
  have hi := congrArg (·.getLsbD i) h
  simp only [BitVec.getLsbD_and, BitVec.getLsbD_or] at hi ⊢
  cases hx : x.getLsbD i
  · rfl
  · rw [hx, Bool.true_and] at hi
    simp [hi]

theorem State.and_kept_of_callerBits (s : State) {a : Nat} {x : Byte} (h : x &&& callerBits a = x) : x &&& s.kept a = x :=
  and_or_of_left (and_or_of_left h _) _

/-- The bits that one step of another agent from `s` does not set: TXREQ, and the overflow flags of a buffer that cannot
overflow (20_memory.md R95). -/
def State.unset (s : State) (a : Nat) : Byte :=
  if isTxCtrl a then 0x08
  else if a = 0x2D then
    (if s.receiving = true ∧ s.rxPending .rxb0 = true ∧ s.reg 0x60 &&& 0x04 = 0 then 0x00 else 0x40) |||
      (if s.receiving = true ∧ s.rxPending .rxb1 = true then 0x00 else 0x80)
  else 0x00

/-- The flags that no other agent clears: CANINTF and the overflow flags of EFLG (20_memory.md R92, R99). -/
def neverCleared (a : Nat) : Byte := if a = 0x2C then 0xFF else if a = 0x2D then 0xC0 else 0x00

/-! ## One change of a register -/

theorem State.setReg_eq_poke (s : State) (a : Nat) (v : Byte) : s.setReg a v = s.poke a 0xFF v := by
  have hv : (s.reg a &&& ~~~(0xFF : Byte)) ||| (v &&& 0xFF) = v := by
    rw [and_ff, show (~~~0xFF : Byte) = 0#8 from rfl, BitVec.and_zero, BitVec.zero_or]
  rw [State.poke, hv]

/-- Of an existing field every bit that exists takes the value's. -/
theorem and_impl_field (old m v i : Byte) :
    ((old &&& ~~~m) ||| (v &&& m)) &&& i = (old &&& i &&& ~~~(m &&& i)) ||| (v &&& (m &&& i)) := by
  apply byte_ext
  intro k hk
  simp only [BitVec.getLsbD_and, BitVec.getLsbD_or, BitVec.getLsbD_not, hk]
  cases old.getLsbD k <;> cases m.getLsbD k <;> cases v.getLsbD k <;> cases i.getLsbD k <;> rfl

/-- What the stored register holds once a field of it takes a value. -/
theorem State.read_poke {s : State} (h : Memory.wf s.mem = true) {a : Nat} (ha : a ∈ registerAddrs) (m v : Byte)
    (h60 : a = 0x60 → m = 0x09) :
    Memory.read (s.poke a m v).mem a =
      (Memory.read s.mem a &&& ~~~(m &&& implMask a)) ||| (v &&& (m &&& implMask a)) := by
  have hold := Memory.normal_read h ha
  have hread : Memory.read (s.poke a m v).mem a = normal a ((s.reg a &&& ~~~m) ||| (v &&& m)) := by
    rw [State.poke, State.setReg, State.setMem_mem, canon_of_mem ha, Memory.read_write_self]
  rw [hread]
  by_cases h6 : a = 0x60
  · subst h6
    have hi : implMask 0x60 = 0x6F := by decide
    have hreg : s.reg 0x60 = Memory.read s.mem 0x60 := rfl
    rw [hreg, hi, ← hold]
    generalize Memory.read s.mem 0x60 = old
    rw [h60 rfl]
    simp only [normal_eq]
    apply byte_ext
    intro k hk
    interval_cases k <;> simp
  · rw [normal_eq, if_neg h6] at hold ⊢
    have hreg : s.reg a &&& implMask a = Memory.read s.mem a := by
      by_cases hc : a = 0x0E
      · subst hc
        exact (State.opmod_eq s).trans hold
      · have : s.reg a = Memory.read s.mem a := by
          rw [State.reg, canon_of_mem ha]
          exact if_neg hc
        rw [this, hold]
    rw [← hreg]
    exact and_impl_field _ _ _ _

theorem State.read_poke_other (s : State) {a b : Nat} (m v : Byte) (h : b ≠ canon a) :
    Memory.read (s.poke a m v).mem b = Memory.read s.mem b := Memory.read_write_other _ _ h

/-! ## Steps of the Controller agent -/

/-- `t` comes from `s` by changes that a step of the Controller agent may make in a state `o`: the bits of `State.kept` and of
`State.unset` are those of `o`, `INT` moves with the flags and does not fall, and the queue and what the bridge has put off stay. -/
structure Controlled (o s t : State) : Prop where
  agent : Agent s t
  within : ∀ a, Within (o.kept a) (o.unset a) (neverCleared a) (Memory.read s.mem a) (Memory.read t.mem a)
  line : LineFollows s t
  rises : s.int = true → t.int = true
  queue : t.queue = s.queue
  waits : t.waits = s.waits

theorem Controlled.refl (o : State) {s : State} (h : s.Inv) : Controlled o s s where
  agent := Agent.refl s
  within := fun _ => Within.refl _ _ _ _
  line := ⟨h.2.1, by cases s.int <;> rfl⟩
  rises := id
  queue := rfl
  waits := rfl

theorem Controlled.trans {o s t u : State} (h : Controlled o s t) (g : Controlled o t u) : Controlled o s u where
  agent := h.agent.trans g.agent
  within := fun a => (h.within a).trans (g.within a)
  line := by
    refine ⟨g.line.1, ?_⟩
    have h1 := h.rises
    have h2 := g.rises
    rw [g.line.2, h.line.2]
    cases hs : s.int <;> cases ht : t.int <;> cases hu : u.int <;> simp_all
  rises := g.rises ∘ h.rises
  queue := g.queue.trans h.queue
  waits := g.waits.trans h.waits

theorem Controlled.inv {o s t : State} (h : Controlled o s t) (hs : s.Inv) : t.Inv := h.agent.reaches.inv hs

/-- One more change, in the state that the first has left. -/
theorem Controlled.andThen {o s t u : State} (h : Controlled o s t) (hs : s.Inv) (g : t.Inv → Controlled o t u) :
    Controlled o s u := h.trans (g (h.inv hs))

/-- A pending flag of CANINTF that is enabled in CANINTE stays so. -/
theorem anySet_mono {f f' e : Byte} (h : f &&& ~~~f' = 0) (hs : anySet f e = true) : anySet f' e = true := by
  simp only [anySet, decide_eq_true_eq] at hs ⊢
  intro h0
  refine hs (byte_ext fun i hi => ?_)
  have h := congrArg (·.getLsbD i) h
  have h0 := congrArg (·.getLsbD i) h0
  simp only [BitVec.getLsbD_and, BitVec.getLsbD_not, hi] at h h0 ⊢
  cases hf : f'.getLsbD i <;> simp_all

/-- A change of one field outside the bits that `o` keeps. -/
theorem controlled_poke (o : State) {s : State} (hs : s.Inv) {a : Nat} (m v : Byte) (ha : a ∈ registerAddrs)
    (h60 : a = 0x60 → m = 0x09) (hk : m &&& o.kept a = 0) (hn : m &&& v &&& o.unset a = 0)
    (hc : m &&& ~~~v &&& neverCleared a = 0) : Controlled o s (s.poke a m v) := by
  have hwithin : ∀ b, Within (o.kept b) (o.unset b) (neverCleared b) (Memory.read s.mem b)
      (Memory.read (s.poke a m v).mem b) := by
    intro b
    by_cases hb : b = a
    · rw [hb, State.read_poke hs.1 ha m v h60]
      exact within_field hk hn hc _
    · rw [State.read_poke_other s m v (by rwa [canon_of_mem ha])]
      exact Within.refl _ _ _ _
  refine ⟨agent_poke s m v (mem_registerAddrs.1 ha).1, hwithin, lineFollows_setReg s a _, fun hint => ?_, rfl, rfl⟩
  have he : Memory.read (s.poke a m v).mem 0x2B = Memory.read s.mem 0x2B :=
    (hwithin 0x2B).eq (o.and_kept_of_callerBits (by decide))
  have hf := (hwithin 0x2C).cleared_none (x := 0xFF) rfl
  rw [and_ff] at hf
  rw [hs.2.1] at hint
  show intLevel (Memory.read (s.poke a m v).mem 0x2C) (Memory.read (s.poke a m v).mem 0x2B) = true
  rw [he]
  exact anySet_mono hf hint

/-! ## The kept bits of the registers that the Controller agent changes -/

theorem rxBody_facts (slot : RxSlot) {i : Nat} (hi : i < 13) :
    (rxSidh slot).toNat + i ∈ registerAddrs ∧ isRxBody ((rxSidh slot).toNat + i) = true ∧
      rxSlotOf ((rxSidh slot).toNat + i) = some slot ∧ callerBits ((rxSidh slot).toNat + i) = 0x00 ∧
      isTxCtrl ((rxSidh slot).toNat + i) = false := by
  have h : ∀ slot ∈ [RxSlot.rxb0, .rxb1], ∀ i ∈ List.range 13,
      (rxSidh slot).toNat + i ∈ registerAddrs ∧ isRxBody ((rxSidh slot).toNat + i) = true ∧
      rxSlotOf ((rxSidh slot).toNat + i) = some slot ∧ callerBits ((rxSidh slot).toNat + i) = 0x00 ∧
      isTxCtrl ((rxSidh slot).toNat + i) = false := by decide
  exact h slot (by cases slot <;> decide) i (List.mem_range.2 hi)

theorem rxSidh_ge (slot : RxSlot) : 0x60 < (rxSidh slot).toNat := by cases slot <;> decide

theorem State.pendingBits_some (s : State) {a : Nat} {slot : RxSlot} (h : rxSlotOf a = some slot) :
    s.pendingBits a = if s.rxPending slot then 0xFF else 0x00 := by
  rw [State.pendingBits, h]

theorem State.pendingBits_none (s : State) {a : Nat} (h : rxSlotOf a = none) : s.pendingBits a = 0x00 := by
  rw [State.pendingBits, h]

theorem State.idleBits_other (s : State) {a : Nat} (h : a ≠ 0x2C) (htx : isTxCtrl a = false) (hrx : isRxBody a = false) :
    s.idleBits a = 0x00 := by
  simp [State.idleBits, h, htx, hrx]

theorem State.kept_rxBody (s : State) (slot : RxSlot) {i : Nat} (hi : i < 13) :
    s.kept ((rxSidh slot).toNat + i) =
      (if s.rxPending slot then 0xFF else 0x00) ||| (if s.receiving then 0x00 else 0xFF) := by
  obtain ⟨-, hbody, hslot, hcaller, hctrl⟩ := rxBody_facts slot hi
  have hne : (rxSidh slot).toNat + i ≠ 0x2C := by have := rxSidh_ge slot; omega
  simp [State.kept, s.pendingBits_some hslot, State.idleBits, hbody, hcaller, hctrl, hne]

theorem State.kept_txCtrl (s : State) (slot : TxSlot) :
    s.kept (txCtrl slot).toNat = 0x03 ||| (if s.transmitting then 0x00 else 0x08) := by
  have hcaller : callerBits (txCtrl slot).toNat = 0x03 := by cases slot <;> decide
  have hrx : rxSlotOf (txCtrl slot).toNat = none := by cases slot <;> decide
  have hne : (txCtrl slot).toNat ≠ 0x2C := by cases slot <;> decide
  simp [State.kept, s.pendingBits_none hrx, State.idleBits, isTxCtrl_ctrl, hcaller, hne]

theorem State.kept_rxCtrl (s : State) (slot : RxSlot) (h : s.rxPending slot = false) :
    s.kept (rxCtrl slot).toNat = callerBits (rxCtrl slot).toNat := by
  have hrx : rxSlotOf (rxCtrl slot).toNat = some slot := by cases slot <;> decide
  have hmode : s.idleBits (rxCtrl slot).toNat = 0x00 := by
    cases slot <;> exact s.idleBits_other (by decide) (by decide) (by decide)
  simp [State.kept, s.pendingBits_some hrx, hmode, h]

theorem State.kept_canintf (s : State) : s.kept 0x2C =
    (if s.receiving then 0x00 else 0x03) ||| (if s.mayComplete then 0x00 else 0x1C) := by
  have hcaller : callerBits 0x2C = 0x00 := by decide
  simp [State.kept, hcaller, s.pendingBits_none (a := 0x2C) (by decide), State.idleBits]

/-- The other registers that the Controller agent shares with the Caller, or has alone. -/
theorem State.kept_shared (s : State) {a : Nat} (ha : a ∈ [0x0D, 0x0E, 0x0F, 0x1C, 0x1D, 0x2D]) : s.kept a = callerBits a := by
  have h : ∀ a ∈ [0x0D, 0x0E, 0x0F, 0x1C, 0x1D, 0x2D],
      a ≠ 0x2C ∧ rxSlotOf a = none ∧ isTxCtrl a = false ∧ isRxBody a = false := by decide
  obtain ⟨hne, hslot, htx, hrx⟩ := h a ha
  simp [State.kept, s.pendingBits_none hslot, s.idleBits_other hne htx hrx]

theorem State.unset_other (s : State) {a : Nat} (h : isTxCtrl a = false) (h' : a ≠ 0x2D) : s.unset a = 0x00 := by
  simp [State.unset, h, h']

theorem State.unset_txCtrl (s : State) (slot : TxSlot) : s.unset (txCtrl slot).toNat = 0x08 := by
  simp [State.unset, isTxCtrl_ctrl]

/-! ## The changes that the steps are made of -/

section

variable (o : State) {s : State}

/-- A change of a register of the error state or of the pins, in the bits that are not the Caller's. -/
theorem controlled_shared (hs : s.Inv) {a : Nat} (m v : Byte) (ha : a ∈ [0x0D, 0x0E, 0x0F, 0x1C, 0x1D])
    (hm : m &&& callerBits a = 0) : Controlled o s (s.poke a m v) := by
  have h : ∀ a ∈ [0x0D, 0x0E, 0x0F, 0x1C, 0x1D],
      a ∈ [0x0D, 0x0E, 0x0F, 0x1C, 0x1D, 0x2D] ∧ a ∈ registerAddrs ∧ a ≠ 0x60 ∧ isTxCtrl a = false ∧ a ≠ 0x2D ∧ neverCleared a = 0 := by decide
  obtain ⟨hshared, hreg, h60, htx, heflg, hclear⟩ := h a ha
  refine controlled_poke o hs m v hreg (fun h => absurd h h60) ?_ ?_ ?_
  · rwa [o.kept_shared hshared]
  · simp [o.unset_other htx heflg]
  · simp [hclear]

/-- An error counter takes a value. -/
theorem controlled_counter (hs : s.Inv) {a : Nat} (v : Byte) (ha : a ∈ [0x1C, 0x1D]) : Controlled o s (s.setReg a v) := by
  rw [State.setReg_eq_poke]
  exact controlled_shared o hs _ _ (by revert a; decide) (by revert a; decide)

/-- A flag of CANINTF is raised. -/
theorem controlled_flags (hs : s.Inv) (m : Byte) (hm : m &&& o.kept 0x2C = 0) : Controlled o s (s.poke 0x2C m m) := by
  refine controlled_poke o hs m m (by decide) (fun h => absurd h (by decide)) hm ?_ ?_
  · simp [o.unset_other (a := 0x2C) (by decide) (by decide)]
  · simp

/-- A change of the controller's bits of TXBnCTRL, with TXREQ cleared or left alone. -/
theorem controlled_txCtrl (hs : s.Inv) (slot : TxSlot) (m v : Byte) (hk : m &&& o.kept (txCtrl slot).toNat = 0)
    (hv : m &&& v &&& 0x08 = 0) : Controlled o s (s.poke (txCtrl slot).toNat m v) := by
  have h : (txCtrl slot).toNat ∈ registerAddrs ∧ (txCtrl slot).toNat ≠ 0x60 ∧ neverCleared (txCtrl slot).toNat = 0 := by
    cases slot <;> decide
  refine controlled_poke o hs m v h.1 (fun h' => absurd h' h.2.1) hk ?_ ?_
  · rwa [o.unset_txCtrl]
  · simp [h.2.2]

theorem controlled_raise (hs : s.Inv) (b : Bool) (m : Byte) (hm : m &&& o.kept 0x2C = 0) : Controlled o s (s.raise b m) := by
  cases b
  · exact Controlled.refl o hs
  · exact controlled_flags o hs m hm

/-- A field disjoint from the bits that are not to be set may take any value. -/
theorem and_and_eq_zero {m u : Byte} (h : m &&& u = 0) (v : Byte) : m &&& v &&& u = 0 := by
  rw [BitVec.and_assoc, BitVec.and_comm v, ← BitVec.and_assoc, h]
  exact BitVec.zero_and

/-- The flags of errors and of a wake-up are never kept. -/
theorem and_kept_canintf {m : Byte} (hm : m ∈ [errifBit, merrfBit, wakifBit]) : m &&& o.kept 0x2C = 0 := by
  rw [o.kept_canintf]
  revert m
  split <;> split <;> decide

/-- EFLG bits 5:0 and the flag for their change. -/
theorem controlled_setEflg (hs : s.Inv) (v : Byte) (b : Bool) : Controlled o s (s.setEflg v b) := by
  have hset : eflgStatusBits &&& o.unset 0x2D = 0 := by
    rw [State.unset, if_neg (by decide), if_pos rfl]
    split <;> split <;> decide
  have h1 : Controlled o s (s.poke Addr.eflg eflgStatusBits (warned v)) := by
    refine controlled_poke o hs _ _ (by decide) (by decide) ?_ (and_and_eq_zero hset _) (and_and_eq_zero (by decide) _)
    exact (congrArg _ (o.kept_shared (a := 0x2D) (by decide))).trans (by decide)
  exact h1.andThen hs fun h => controlled_raise o h _ _ (and_kept_canintf o (by decide))

/-- A frame is stored in a buffer that is not pending, in a mode that receives. -/
theorem controlled_storeBytes {slot : RxSlot} (hr : o.receiving = true) (hp : o.rxPending slot = false) (data : List Byte)
    (hs : s.Inv) {i : Nat} (hi : i + data.length ≤ 13) :
    Controlled o s (s.storeBytes ((rxSidh slot).toNat + i) data) := by
  induction data generalizing s i with
  | nil => exact Controlled.refl o hs
  | cons v r ih =>
    rw [List.length_cons] at hi
    obtain ⟨hreg, -, -, -, htx⟩ := rxBody_facts slot (show i < 13 by omega)
    have hge := rxSidh_ge slot
    have hkept : o.kept ((rxSidh slot).toNat + i) = 0 := by
      rw [o.kept_rxBody slot (by omega), hr, hp]
      rfl
    have h1 : Controlled o s (s.setReg ((rxSidh slot).toNat + i) v) := by
      rw [State.setReg_eq_poke]
      refine controlled_poke o hs _ _ hreg (fun h => by omega) (by simp [hkept]) ?_ ?_
      · simp [o.unset_other htx (by omega)]
      · simp [neverCleared, show (rxSidh slot).toNat + i ≠ 0x2C by omega, show (rxSidh slot).toNat + i ≠ 0x2D by omega]
    exact h1.andThen hs fun h => ih (i := i + 1) h (by omega)

end

theorem controlled_storeFrame {s : State} (hs : s.Inv) (slot : RxSlot) (f : BusFrame) (x : FilterId) (fill : Bool)
    (hr : s.receiving = true) (hp : s.rxPending slot = false) : Controlled s s (s.storeFrame slot f x fill) := by
  have hlen := storedPayload_length f fill
  have h1 := controlled_storeBytes s hr hp ([f.sidh, f.sidl, f.eid8, f.eid0, f.dlc] ++ storedPayload f fill) hs (i := 0)
    (by simp only [List.length_append, List.length_cons, List.length_nil]; omega)
  have hctrl {u : State} (hu : u.Inv) (v : Byte) :
      Controlled s u (u.poke (rxCtrl slot).toNat (rxrtrBit ||| filhitMask slot) v) := by
    have h : ∀ slot : RxSlot, (rxCtrl slot).toNat ∈ registerAddrs ∧
        ((rxCtrl slot).toNat = 0x60 → rxrtrBit ||| filhitMask slot = 0x09) ∧ isTxCtrl (rxCtrl slot).toNat = false ∧
        (rxCtrl slot).toNat ≠ 0x2D ∧ neverCleared (rxCtrl slot).toNat = 0 ∧
        (rxrtrBit ||| filhitMask slot) &&& callerBits (rxCtrl slot).toNat = 0 := fun slot => by
      cases slot <;> decide
    obtain ⟨hreg, h60, htx, heflg, hclear, hk⟩ := h slot
    refine controlled_poke s hu _ v hreg h60 ?_ ?_ ?_
    · rwa [s.kept_rxCtrl slot hp]
    · simp [s.unset_other htx heflg]
    · simp [hclear]
  have hflag : rxIf slot &&& s.kept 0x2C = 0 := by
    rw [s.kept_canintf, hr, if_pos rfl]
    cases slot <;> split <;> decide
  exact (h1.andThen hs fun h => hctrl h _).andThen hs fun h => controlled_flags s h _ hflag

/-! ## One step -/

theorem State.canTransmit_iff {s : State} {slot : TxSlot} :
    s.canTransmit slot = true ↔ s.transmitting = true ∧ s.txPending slot = true := by
  rw [State.canTransmit, Bool.and_eq_true]

/-- In a mode that transmits, the Controller agent has TXBnCTRL but for TXP. -/
theorem State.and_kept_txCtrl {s : State} (h : s.transmitting = true) (slot : TxSlot) {m : Byte} (hm : m &&& 0x03 = 0) :
    m &&& s.kept (txCtrl slot).toNat = 0 := by
  rw [s.kept_txCtrl, if_pos h]
  exact hm

theorem State.overflowSlot_eq (s : State) (slot : RxSlot) :
    s.overflowSlot slot = if slot = .rxb0 ∧ s.reg 0x60 &&& 0x04 = 0 then RxSlot.rxb0 else .rxb1 := by
  have hb : anySet (s.reg (rxCtrl .rxb0).toNat) buktBit = decide (s.reg 0x60 &&& 0x04 ≠ 0) := rfl
  cases slot
  · rw [State.overflowSlot, hb]
    simp
  · rfl

/-- The overflow flag of the buffer that a lost frame was for may be set (20_memory.md R95). -/
theorem and_unset_rxOvr {s : State} {slot : RxSlot} (hr : s.receiving = true) (hp : s.rxPending slot = true)
    (ho : s.rxPending (s.overflowSlot slot) = true) :
    rxOvr (s.overflowSlot slot) &&& rxOvr (s.overflowSlot slot) &&& s.unset 0x2D = 0 := by
  rw [State.unset, if_neg (by decide), if_pos rfl]
  rw [State.overflowSlot_eq] at ho ⊢
  split
  · next h =>
    rw [if_pos ⟨hr, h.1 ▸ hp, h.2⟩]
    split <;> decide
  · next h =>
    rw [if_neg h] at ho
    rw [if_pos (c := s.receiving = true ∧ s.rxPending .rxb1 = true) ⟨hr, ho⟩]
    split <;> decide

/-- The flag of a transmission that completes (20_memory.md R96, R97). -/
theorem and_kept_txIf {s : State} (h : s.mayComplete) (slot : TxSlot) : txIf slot &&& s.kept 0x2C = 0 := by
  rw [s.kept_canintf, if_pos h]
  cases slot <;> split <;> decide

/-- Every step of the Controller agent stays within the bounds of R92 to R99. -/
theorem controlled_applyMove {s : State} (hs : s.Inv) {m : Move} (hm : ofController m = true) :
    Controlled s s (applyMove m s) := by
  cases m with
  | bridge | putOff | produce => cases hm
  | enterMode =>
    simp only [applyMove]
    split
    · exact controlled_shared s hs _ _ (a := 0x0E) (by decide) (by decide)
    · exact Controlled.refl s hs
  | receive slot f x fill =>
    simp only [applyMove]
    split
    · next h =>
      simp only [Bool.and_eq_true, Bool.not_eq_true'] at h
      exact controlled_storeFrame hs slot f x fill h.1.1.1 h.1.1.2
    · exact Controlled.refl s hs
  | overflow slot errif =>
    simp only [applyMove]
    split
    · next h =>
      simp only [Bool.and_eq_true] at h
      obtain ⟨⟨hr, hp⟩, ho⟩ := h
      refine Controlled.andThen (controlled_poke s hs _ _ (by decide) (fun h => absurd h (by decide)) ?_
        (and_unset_rxOvr hr hp ho) (by simp)) hs fun h => controlled_raise s h _ _ (and_kept_canintf s (by decide))
      exact (congrArg _ (s.kept_shared (a := 0x2D) (by decide))).trans BitVec.and_zero
    · exact Controlled.refl s hs
  | txDone slot =>
    simp only [applyMove]
    split
    · next h =>
      simp only [Bool.and_eq_true, Bool.not_eq_true', State.canTransmit_iff] at h
      obtain ⟨⟨ht, -⟩, ho⟩ := h
      have hc : s.mayComplete := ⟨ht, of_not_not (of_decide_eq_false ho)⟩
      exact (controlled_txCtrl s hs slot _ _ (State.and_kept_txCtrl ht slot (by decide)) (by decide)).andThen hs
        fun h => controlled_flags s h _ (and_kept_txIf hc slot)
    · exact Controlled.refl s hs
  | txLost slot =>
    simp only [applyMove]
    split
    · next h =>
      exact controlled_txCtrl s hs slot _ _ (State.and_kept_txCtrl (State.canTransmit_iff.1 h).1 slot (by decide)) (by decide)
    · exact Controlled.refl s hs
  | txError slot tec eflg merrf errif drop =>
    simp only [applyMove]
    split
    · next h =>
      have hctrl : Controlled s s (s.poke (txCtrl slot).toNat
          (if (!(drop && anySet (s.reg Addr.canctrl) osmBit)) = true then txerrBit else txerrBit ||| txreqBit) txerrBit) :=
        controlled_txCtrl s hs slot _ _ (State.and_kept_txCtrl (State.canTransmit_iff.1 h).1 slot (by split <;> decide))
          (by split <;> decide)
      exact ((hctrl.andThen hs fun h => controlled_counter s h (a := 0x1C) tec (by decide)).andThen hs
        fun h => controlled_setEflg s h eflg errif).andThen hs
        fun h => controlled_raise s h _ _ (and_kept_canintf s (by decide))
    · exact Controlled.refl s hs
  | txAbort slot =>
    simp only [applyMove]
    split
    · next h =>
      rw [State.canAbort, Bool.and_eq_true] at h
      have hctrl := controlled_txCtrl s hs slot (abtfBit ||| txreqBit) abtfBit (State.and_kept_txCtrl h.1 slot (by decide))
        (by decide)
      exact ⟨hctrl.agent.trans (agent_aborting _ slot), hctrl.within, hctrl.line, hctrl.rises, hctrl.queue, hctrl.waits⟩
    · exact Controlled.refl s hs
  | txClearFlags slot mask =>
    refine controlled_txCtrl s hs slot _ _ ?_ (by simp)
    rw [s.kept_txCtrl, BitVec.and_assoc]
    have h : txFailBits &&& (0x03 ||| if s.transmitting = true then 0x00 else 0x08) = 0 := by split <;> decide
    rw [h]
    exact BitVec.and_zero
  | errors tec recv eflg errif merrf =>
    exact (((controlled_counter s hs (a := 0x1C) tec (by decide)).andThen hs
      fun h => controlled_counter s h (a := 0x1D) recv (by decide)).andThen hs
      fun h => controlled_setEflg s h eflg errif).andThen hs
      fun h => controlled_raise s h _ _ (and_kept_canintf s (by decide))
  | wake reqop =>
    simp only [applyMove]
    split
    · have h1 := controlled_shared s hs modeMask (modeBits .listenOnly) (a := 0x0E) (by decide) (by decide)
      refine Controlled.andThen ?_ hs fun h => controlled_flags s h _ (and_kept_canintf s (by decide))
      split
      · exact h1.andThen hs fun h => controlled_shared s h _ _ (a := 0x0F) (by decide) (by decide)
      · exact h1
    · exact Controlled.refl s hs
  | rtsPins levels => exact controlled_shared s hs _ _ (a := 0x0D) (by decide) (by decide)

/-! ## Any steps of the other agents -/

/-- The Interrupt Bridge and the other producers leave the register file, the line and the requests to abort alone. -/
theorem applyMove_of_host {m : Move} (h : ofController m = false) (s : State) :
    (applyMove m s).mem = s.mem ∧ (applyMove m s).int = s.int ∧ (applyMove m s).aborting = s.aborting := by
  cases m with
  | bridge =>
    simp only [applyMove]
    rcases s.bridge_cases with hb | hb | hb <;> rw [hb]
    · exact ⟨rfl, rfl, rfl⟩
    · simp
    · obtain ⟨n, w, hd⟩ := s.takeInterrupt.dropEdge_shape
      rw [hd]
      simp
  | putOff n =>
    simp only [applyMove, State.putOff]
    split <;> exact ⟨rfl, rfl, rfl⟩
  | produce e =>
    simp only [applyMove]
    split
    · exact ⟨rfl, rfl, rfl⟩
    · simp
  | _ => cases h

/-- What any number of steps of the other agents keep: the Caller's bits and the pending receive buffers, with no TXREQ set and no
flag cleared (20_memory.md R92, R99). -/
def Lasting (s t : State) : Prop :=
  ∀ a, Within (callerBits a ||| s.pendingBits a) (if isTxCtrl a then 0x08 else 0x00) (neverCleared a)
    (Memory.read s.mem a) (Memory.read t.mem a)

theorem State.reg_eq_read (s : State) {a : Nat} (ha : canon a = a) (h : a ≠ 0x0E) : s.reg a = Memory.read s.mem a := by
  rw [State.reg, ha]
  exact if_neg h

theorem Lasting.reg {s t : State} (h : Lasting s t) {a : Nat} (ha : canon a = a) (hne : a ≠ 0x0E) :
    Within (callerBits a ||| s.pendingBits a) (if isTxCtrl a then 0x08 else 0x00) (neverCleared a) (s.reg a) (t.reg a) := by
  rw [s.reg_eq_read ha hne, t.reg_eq_read ha hne]
  exact h a

theorem lasting_applyMove {s : State} (hs : s.Inv) (m : Move) : Lasting s (applyMove m s) := by
  intro a
  cases hm : ofController m
  · rw [(applyMove_of_host hm s).1]
    exact Within.refl _ _ _ _
  · refine ((controlled_applyMove hs hm).within a).mono ?_ ?_
    · exact and_or_of_left (BitVec.and_self (x := callerBits a ||| s.pendingBits a)) _
    · rw [State.unset]
      cases isTxCtrl a
      · exact BitVec.zero_and
      · exact BitVec.and_self

theorem Lasting.flags {s t : State} (h : Lasting s t) : s.reg 0x2C &&& ~~~t.reg 0x2C = 0 := by
  have hc := (h.reg (a := 0x2C) (by decide) (by decide)).cleared_none (x := 0xFF) rfl
  rwa [and_ff] at hc

theorem Lasting.rxPending {s t : State} (h : Lasting s t) {slot : RxSlot} (hp : s.rxPending slot = true) :
    t.rxPending slot = true := anySet_mono h.flags hp

theorem Lasting.pendingBits {s t : State} (h : Lasting s t) (a : Nat) : s.pendingBits a &&& t.pendingBits a = s.pendingBits a := by
  unfold State.pendingBits
  split
  · next slot _ =>
    cases hp : s.rxPending slot
    · exact BitVec.zero_and
    · rw [h.rxPending hp]
      rfl
  · rfl

/-- A mask that grows while other bits stay. -/
theorem or_and_or_of_and_eq {p q : Byte} (h : p &&& q = p) (c : Byte) : (c ||| p) &&& (c ||| q) = c ||| p := by
  apply byte_ext
  intro i _
  have hq := getLsbD_of_and_eq (i := i) h
  simp only [BitVec.getLsbD_and, BitVec.getLsbD_or]
  cases hp : p.getLsbD i
  · cases c.getLsbD i <;> rfl
  · simp [hq hp]

theorem Lasting.trans {s t u : State} (h : Lasting s t) (g : Lasting t u) : Lasting s u := by
  intro a
  refine (h a).trans ((g a).mono ?_ (BitVec.and_self))
  exact or_and_or_of_and_eq (h.pendingBits a) _

theorem lasting_applyMoves (ms : List Move) {s : State} (hs : s.Inv) : Lasting s (applyMoves ms s) := by
  induction ms generalizing s with
  | nil => exact fun a => Within.refl _ _ _ _
  | cons m r ih => exact (lasting_applyMove hs m).trans (ih ((agent_applyMove m s).reaches.inv hs))

/-- Settles O59, by induction on the moves: `Lasting` is kept by every step and is transitive, because no flag of a pending buffer is
cleared. -/
theorem agentsKeepTheirBounds : Obligations.AgentsKeepTheirBounds := by
  intro s ms hs
  have h := lasting_applyMoves ms hs
  generalize applyMoves ms s = t at h ⊢
  have caller {a : Nat} (ha : canon a = a) (hne : a ≠ 0x0E) {x : Byte} (hx : x &&& callerBits a = x) :
      t.reg a &&& x = s.reg a &&& x := (h.reg ha hne).and_eq (and_or_of_left hx _)
  have pending {a : Nat} {slot : RxSlot} (hp : s.rxPending slot = true)
      (ha : canon a = a ∧ a ≠ 0x0E ∧ rxSlotOf a = some slot) : t.reg a = s.reg a := by
    refine (h.reg ha.1 ha.2.1).eq ?_
    rw [s.pendingBits_some ha.2.2, if_pos hp, BitVec.or_comm]
    exact and_or_of_left rfl _
  have callerAll {a : Nat} (ha : canon a = a ∧ a ≠ 0x0E ∧ callerBits a = 0xFF) : t.reg a = s.reg a :=
    (h.reg ha.1 ha.2.1).eq (and_or_of_left (by rw [ha.2.2]; rfl) _)
  refine ⟨fun slot => ?_, h.flags, ?_, fun a ha => callerAll ?_, fun f a ha => callerAll ?_, fun m a ha => callerAll ?_,
    fun slot a ha => callerAll ?_, fun slot => ?_, ?_, ?_, ?_, ?_,
    fun slot hp => ⟨h.rxPending hp, pending hp ?_, fun i hi => pending hp ?_⟩⟩
  · refine (h.reg (canon_txCtrl slot) (by cases slot <;> decide)).set_none ?_
    rw [isTxCtrl_ctrl]
    rfl
  · exact (h.reg (a := 0x2D) (by decide) (by decide)).cleared_none (x := 0xC0) rfl
  · revert a; decide
  · revert a; cases f <;> decide
  · revert a; cases m <;> decide
  · revert a; cases slot <;> decide
  · exact caller (canon_txCtrl slot) (by cases slot <;> decide) (by cases slot <;> decide)
  · exact caller (by decide) (by decide) (by decide)
  · exact caller (by decide) (by decide) (by decide)
  · exact caller (by decide) (by decide) (by decide)
  · exact caller (by decide) (by decide) (by decide)
  · cases slot <;> decide
  · obtain ⟨hreg, -, hslot, -, -⟩ := rxBody_facts slot hi
    have := rxSidh_ge slot
    exact ⟨canon_of_mem hreg, by omega, hslot⟩

end Sys2Proof.Machine

/-! SUPPORT. What each step of another agent leaves of the registers (20_memory.md R91-R98; 60_exceptions.md R345), and the modes in
which it may act. -/

namespace Sys2Proof.Machine

/-! ## What one change of a register leaves -/

section

variable {s : State} {a : Nat}

/-- A field of a register takes a value. -/
theorem State.reg_poke (hs : s.Inv) (ha : a ∈ registerAddrs) (hne : a ≠ 0x0E) (m v : Byte) (hm : m &&& implMask a = m)
    (h60 : a = 0x60 → m = 0x09) : (s.poke a m v).reg a = (s.reg a &&& ~~~m) ||| (v &&& m) := by
  rw [State.reg_eq_read _ (canon_of_mem ha) hne, State.reg_eq_read _ (canon_of_mem ha) hne, State.read_poke hs.1 ha m v h60, hm]

theorem sameRegs_poke (s : State) (m v : Byte) (ha : canon a = a) (hf : a ≠ 0x2C) (he : a ≠ 0x2B) :
    SameRegs [a] s (s.poke a m v) := by
  have h := sameRegs_setReg s a ((s.reg a &&& ~~~m) ||| (v &&& m)) (by rwa [ha]) (by rwa [ha])
  rwa [ha] at h

theorem sameRegs_poke_flags (s : State) (m v : Byte) : SameRegs [0x2C, 0x0E] s (s.poke 0x2C m v) :=
  sameRegs_setReg_flags s 0x2C _

theorem State.opmod_poke (s : State) (m v : Byte) (ha : canon a ≠ 0x0E) : (s.poke a m v).opmod = s.opmod :=
  s.opmod_setReg _ ha

theorem or_self_field (x m : Byte) : (x &&& ~~~m) ||| (m &&& m) = x ||| m := by
  apply byte_ext
  intro i hi
  simp only [BitVec.getLsbD_or, BitVec.getLsbD_and, BitVec.getLsbD_not, hi]
  cases x.getLsbD i <;> cases m.getLsbD i <;> rfl

theorem zero_field (x m : Byte) : (x &&& ~~~m) ||| (0 &&& m) = x &&& ~~~m := by simp

/-- Flags of CANINTF are raised. -/
theorem State.reg_poke_flags (hs : s.Inv) (m : Byte) : (s.poke 0x2C m m).reg 0x2C = s.reg 0x2C ||| m := by
  have hm : m &&& implMask 0x2C = m := BitVec.and_allOnes
  rw [State.reg_poke hs (by decide) (by decide) m m hm (fun h => absurd h (by decide)), or_self_field]

/-- OPMOD takes a pattern, and the rest of CANSTAT stays. -/
theorem State.reg_poke_canstat (hs : s.Inv) (v : Byte) :
    (s.poke 0x0E modeMask v).reg 0x0E = (s.reg 0x0E &&& 0x1F) ||| (v &&& 0xE0) := by
  have hread := State.read_poke hs.1 (a := 0x0E) (by decide) modeMask v (fun h => absurd h (by decide))
  have hother := sameRegs_poke s (a := 0x0E) modeMask v (by decide) (by decide) (by decide)
  have hm : modeMask &&& implMask 0x0E = 0xE0 := by decide
  rw [State.reg_canstat_eq, State.reg_canstat_eq, hother 0x2C (by decide) (by decide), hother 0x2B (by decide) (by decide), hread, hm]
  generalize Memory.read s.mem 0x0E = r
  generalize icodOf (s.reg 0x2C &&& s.reg 0x2B) = c
  apply byte_ext
  intro k hk
  interval_cases k <;> simp

theorem State.opmod_poke_canstat (hs : s.Inv) (v : Byte) : (s.poke 0x0E modeMask v).opmod = v &&& 0xE0 := by
  have h : (s.poke 0x0E modeMask v).opmod = (s.poke 0x0E modeMask v).reg 0x0E &&& 0xE0 := rfl
  rw [h, State.reg_poke_canstat hs, BitVec.and_or_distrib_right, BitVec.and_assoc, BitVec.and_assoc]
  simp

/-- A field of TXBnCTRL takes a value. -/
theorem State.reg_poke_txCtrl (hs : s.Inv) (slot : TxSlot) (m v : Byte) (hm : m &&& 0x7B = m) :
    (s.poke (txCtrl slot).toNat m v).reg (txCtrl slot).toNat = (s.reg (txCtrl slot).toNat &&& ~~~m) ||| (v &&& m) := by
  have h : ∀ slot : TxSlot, (txCtrl slot).toNat ∈ registerAddrs ∧ (txCtrl slot).toNat ≠ 0x0E ∧
      implMask (txCtrl slot).toNat = 0x7B ∧ (txCtrl slot).toNat ≠ 0x60 := fun slot => by cases slot <;> decide
  obtain ⟨hreg, hne, hi, h60⟩ := h slot
  exact State.reg_poke hs hreg hne m v (by rwa [hi]) fun h => absurd h h60

theorem sameRegs_poke_txCtrl (s : State) (slot : TxSlot) (m v : Byte) :
    SameRegs [(txCtrl slot).toNat] s (s.poke (txCtrl slot).toNat m v) :=
  sameRegs_poke s m v (canon_txCtrl slot) (by cases slot <;> decide) (by cases slot <;> decide)

theorem State.opmod_poke_txCtrl (s : State) (slot : TxSlot) (m v : Byte) : (s.poke (txCtrl slot).toNat m v).opmod = s.opmod :=
  s.opmod_poke m v (by cases slot <;> decide)

/-! ## The flags of errors -/

theorem State.reg_raise (hs : s.Inv) (b : Bool) (m : Byte) : (s.raise b m).reg 0x2C = s.reg 0x2C ||| (if b then m else 0x00) := by
  cases b
  · exact BitVec.or_zero.symm
  · exact State.reg_poke_flags hs m

theorem sameRegs_raise (s : State) (b : Bool) (m : Byte) : SameRegs [0x2C, 0x0E] s (s.raise b m) := by
  cases b
  · exact sameRegs_refl _ s
  · exact sameRegs_poke_flags s m m

theorem State.opmod_raise (s : State) (b : Bool) (m : Byte) : (s.raise b m).opmod = s.opmod := by
  cases b
  · rfl
  · exact s.opmod_poke m m (by decide)

theorem State.aborting_raise (s : State) (b : Bool) (m : Byte) : (s.raise b m).aborting = s.aborting := by cases b <;> rfl

theorem warned_eq (v : Byte) : warned v &&& 0x3F = withEwarn (v &&& 0x3F) := by revert v; decide

/-- A field changes its register exactly when it takes another value. -/
theorem field_ne_iff (x v m : Byte) : (x &&& ~~~m) ||| (v &&& m) ≠ x ↔ x &&& m ≠ v &&& m := by
  refine not_congr ⟨fun h => ?_, fun h => ?_⟩
  · rw [← h]
    apply byte_ext
    intro i hi
    simp only [BitVec.getLsbD_or, BitVec.getLsbD_and, BitVec.getLsbD_not, hi]
    cases x.getLsbD i <;> cases m.getLsbD i <;> cases v.getLsbD i <;> rfl
  · rw [← h]
    apply byte_ext
    intro i hi
    simp only [BitVec.getLsbD_or, BitVec.getLsbD_and, BitVec.getLsbD_not, hi]
    cases x.getLsbD i <;> cases m.getLsbD i <;> rfl

/-- EFLG bits 5:0 take a value, and ERRIF and MERRF are raised. -/
theorem errorsTaken_setEflg (hs : s.Inv) (eflg : Byte) (errif merrf : Bool) :
    ErrorsTaken eflg errif merrf s ((s.setEflg eflg errif).raise merrf merrfBit) ∧
      SameRegs [0x2D, 0x2C, 0x0E] s ((s.setEflg eflg errif).raise merrf merrfBit) ∧
      ((s.setEflg eflg errif).raise merrf merrfBit).aborting = s.aborting := by
  have hfield : (s.poke 0x2D 0x3F (warned eflg)).reg 0x2D = (s.reg 0x2D &&& ~~~0x3F) ||| (warned eflg &&& 0x3F) :=
    State.reg_poke hs (by decide) (by decide) _ _ (by decide) (by decide)
  have hsame1 : SameRegs [0x2D] s (s.poke 0x2D 0x3F (warned eflg)) := sameRegs_poke s _ _ (by decide) (by decide) (by decide)
  have hs1 : (s.poke 0x2D 0x3F (warned eflg)).Inv := (agent_poke s _ _ (by decide)).reaches.inv hs
  have hop1 : (s.poke 0x2D 0x3F (warned eflg)).opmod = s.opmod := s.opmod_poke _ _ (by decide)
  have hdef : s.setEflg eflg errif = (s.poke 0x2D 0x3F (warned eflg)).raise
      (errif && decide (s.reg 0x2D &&& 0x3F ≠ warned eflg &&& 0x3F)) errifBit := rfl
  rw [hdef]
  have hab1 : (s.poke 0x2D 0x3F (warned eflg)).aborting = s.aborting := rfl
  generalize s.poke 0x2D 0x3F (warned eflg) = u at hfield hsame1 hs1 hop1 hab1 ⊢
  set b := errif && decide (s.reg 0x2D &&& 0x3F ≠ warned eflg &&& 0x3F) with hb
  have hs2 : (u.raise b errifBit).Inv := (agent_raise u _ _).reaches.inv hs1
  have hsame : SameRegs [0x2C, 0x0E] u ((u.raise b errifBit).raise merrf merrfBit) :=
    (sameRegs_raise u _ _).trans (sameRegs_raise _ _ _)
  have h2D : ((u.raise b errifBit).raise merrf merrfBit).reg 0x2D = (s.reg 0x2D &&& ~~~0x3F) ||| (warned eflg &&& 0x3F) :=
    (hsame 0x2D (by decide) (by decide)).trans hfield
  refine ⟨⟨?_, ?_, ?_⟩, ?_, ?_⟩
  · rw [h2D, warned_eq]
    rfl
  · rw [State.reg_raise hs2, State.reg_raise hs1, hsame1 0x2C (by decide) (by decide), h2D]
    have hcond : (b = true) ↔ (errif = true ∧ (s.reg 0x2D &&& ~~~0x3F) ||| (warned eflg &&& 0x3F) ≠ s.reg 0x2D) := by
      rw [hb, Bool.and_eq_true, decide_eq_true_eq, field_ne_iff]
    simp only [← hcond]
    rfl
  · rw [State.opmod_raise, State.opmod_raise, hop1]
  · exact (hsame1.mono (by decide)).trans (hsame.mono (by decide))
  · rw [State.aborting_raise, State.aborting_raise, hab1]

end

/-! ## A frame is stored -/

/-- The registers of a receive buffer from `i` on: bit 2 of SIDL and bit 7 of DLC do not exist (10_state.md R45, R47). -/
theorem normal_rxBody (slot : RxSlot) {i : Nat} (hi : i < 13) (v : Byte) :
    normal ((rxSidh slot).toNat + i) v = v &&& (if i = 1 then 0xFB else if i = 4 then 0x7F else 0xFF) := by
  have h : ∀ slot ∈ [RxSlot.rxb0, .rxb1], ∀ i ∈ List.range 13, (rxSidh slot).toNat + i ≠ 0x60 ∧
      implMask ((rxSidh slot).toNat + i) = if i = 1 then 0xFB else if i = 4 then 0x7F else 0xFF := by decide
  obtain ⟨h60, hi'⟩ := h slot (by cases slot <;> decide) i (List.mem_range.2 hi)
  rw [normal_eq, if_neg h60, hi']

theorem sameRegs_setReg_rxBody (s : State) (slot : RxSlot) {i : Nat} (hi : i < 13) (v : Byte) :
    SameRegs [(rxSidh slot).toNat + i] s (s.setReg ((rxSidh slot).toNat + i) v) := by
  obtain ⟨hreg, -⟩ := rxBody_facts slot hi
  have hge := rxSidh_ge slot
  rw [State.setReg_eq_poke]
  exact sameRegs_poke s _ v (canon_of_mem hreg) (by omega) (by omega)

/-- Bytes stored from register `i` of a receive buffer on change no other register. -/
theorem sameRegs_storeBytes (slot : RxSlot) (data : List Byte) (s : State) {i : Nat} (hi : i + data.length ≤ 13) :
    SameRegs ((List.range data.length).map ((rxSidh slot).toNat + i + ·)) s
      (s.storeBytes ((rxSidh slot).toNat + i) data) := by
  induction data generalizing s i with
  | nil => exact sameRegs_refl _ s
  | cons v r ih =>
    rw [List.length_cons] at hi
    refine ((sameRegs_setReg_rxBody s slot (show i < 13 by omega) v).mono ?_).trans
      ((ih (i := i + 1) _ (by omega)).mono ?_)
    · intro a ha
      rw [List.mem_singleton.1 ha]
      exact List.mem_map.2 ⟨0, by simp, rfl⟩
    · intro a ha
      obtain ⟨j, hj, rfl⟩ := List.mem_map.1 ha
      rw [List.mem_range] at hj
      exact List.mem_map.2 ⟨j + 1, by simp [hj], by omega⟩

theorem reg_storeBytes (slot : RxSlot) (data : List Byte) (s : State) {i : Nat} (hi : i + data.length ≤ 13) (j : Nat)
    (hj : j < data.length) :
    (s.storeBytes ((rxSidh slot).toNat + i) data).reg ((rxSidh slot).toNat + (i + j)) =
      normal ((rxSidh slot).toNat + (i + j)) data[j] := by
  induction data generalizing s i j with
  | nil => cases hj
  | cons v r ih =>
    rw [List.length_cons] at hi
    cases j with
    | zero =>
      obtain ⟨hreg, -⟩ := rxBody_facts slot (show i < 13 by omega)
      have hge := rxSidh_ge slot
      have hrest := sameRegs_storeBytes slot r (s.setReg ((rxSidh slot).toNat + i) v) (i := i + 1) (by omega)
        ((rxSidh slot).toNat + i) (mem_registerAddrs.1 hreg).1 (by
          rw [canon_of_mem hreg]
          intro hmem
          obtain ⟨j, -, hj⟩ := List.mem_map.1 hmem
          omega)
      have hself := State.reg_setReg_self s v (a := (rxSidh slot).toNat + i) rfl
        (by rw [canon_of_mem hreg]; show _ ≠ 0x0E; omega)
      rw [canon_of_mem hreg] at hself
      exact hrest.trans hself
    | succ k =>
      have h := ih (s.setReg ((rxSidh slot).toNat + i) v) (i := i + 1) (by omega) k (by simpa using hj)
      rw [show i + 1 + k = i + (k + 1) by omega] at h
      exact h

theorem storedPayload_getElem (f : BusFrame) (fill : Bool) (i : Nat) (hi : i < (storedPayload f fill).length) :
    (storedPayload f fill)[i] = f.data[i]'(Nat.lt_of_lt_of_le hi (storedPayload_length f fill)) := by
  cases fill <;> simp [storedPayload]

theorem lt_storedPayload_length {f : BusFrame} {fill : Bool} {i : Nat} (hi : i < 8) :
    i < (storedPayload f fill).length ↔ i < (f.dlc &&& 0x0F).toNat ∨ fill = true := by
  have hdlc : dlcOf f.dlc = f.dlc &&& 0x0F := rfl
  cases fill
  · rw [storedPayload, if_neg Bool.false_ne_true, hdlc, List.length_take, Vector.length_toList, or_iff_left Bool.false_ne_true]
    omega
  · simp [storedPayload, hi]

theorem receiving_iff (s : State) : s.receiving = true ↔ s.opmod ∈ [0x00, 0x40, 0x60] := by
  have h : s.receiving = (decide (s.opmod = 0x00) || decide (s.opmod = 0x60) || decide (s.opmod = 0x40)) := rfl
  rw [h]
  simp only [Bool.or_eq_true, decide_eq_true_eq, List.mem_cons, List.not_mem_nil, or_false]
  tauto

theorem transmitting_iff (s : State) : s.transmitting = true ↔ s.opmod ∈ [0x00, 0x40] := by
  have h : s.transmitting = (decide (s.opmod = 0x00) || decide (s.opmod = 0x40)) := rfl
  rw [h]
  simp

theorem filterNamed_iff (slot : RxSlot) (x : FilterId) :
    filterNamed slot x = true ↔ (slot = .rxb0 → x = .rxf0 ∨ x = .rxf1) := by
  cases slot <;> cases x <;> decide

theorem busRemote_eq (f : BusFrame) :
    busRemote f = if f.sidl.getLsbD 3 then f.dlc.getLsbD 6 else f.sidl.getLsbD 4 := by
  have h3 : ∀ v : Byte, anySet v exideBit = v.getLsbD 3 := by decide
  have h4 : ∀ v : Byte, anySet v srrBit = v.getLsbD 4 := by decide
  have h6 : ∀ v : Byte, anySet v rtrBit = v.getLsbD 6 := by decide
  rw [busRemote, busExt, h3, h4, h6]

/-- RXRTR and FILHIT of a received frame (10_state.md R43, R44). -/
theorem receivedCtrl_eq (slot : RxSlot) (f : BusFrame) (x : FilterId) {old : Byte} (hx : filterNamed slot x = true)
    (hold : normal (rxCtrl slot).toNat old = old) :
    (old &&& ~~~(rxrtrBit ||| filhitMask slot)) |||
        (((if busRemote f then rxrtrBit else 0) ||| filterCode x) &&& (rxrtrBit ||| filhitMask slot)) =
      receivedCtrl slot f x old := by
  rw [receivedCtrl, ← busRemote_eq]
  generalize busRemote f = b
  have h0 : ∀ old : Byte, normal 0x60 old = old → ∀ b : Bool, ∀ x ∈ [FilterId.rxf0, .rxf1],
      (old &&& ~~~(rxrtrBit ||| filhitMask .rxb0)) |||
        (((if b then rxrtrBit else 0) ||| filterCode x) &&& (rxrtrBit ||| filhitMask .rxb0)) =
      (old &&& 0x66) ||| (if b then 0x08 else 0x00) ||| filterNumber x := by decide
  have h1 : ∀ old : Byte, normal 0x70 old = old → ∀ b : Bool, ∀ x ∈ [FilterId.rxf0, .rxf1, .rxf2, .rxf3, .rxf4, .rxf5],
      (old &&& ~~~(rxrtrBit ||| filhitMask .rxb1)) |||
        (((if b then rxrtrBit else 0) ||| filterCode x) &&& (rxrtrBit ||| filhitMask .rxb1)) =
      (old &&& 0x60) ||| (if b then 0x08 else 0x00) ||| filterNumber x := by decide
  cases slot
  · exact h0 old hold b x (by revert hx; cases x <;> decide)
  · exact h1 old hold b x (by cases x <;> decide)

/-! ## What one step leaves -/

/-- A step with a condition has its effect, or does nothing. -/
theorem effect_or_same {c P A : Prop} [Decidable c] [Decidable P] {s t u : State} (ht : (if c then u else s) = t)
    (hc : c ↔ P) (h : P → u = t → A) : if P then A else t = s := by
  by_cases hp : P
  · rw [if_pos hp]
    exact h hp ((if_pos (hc.2 hp)).symm.trans ht)
  · rw [if_neg hp]
    exact ht.symm.trans (if_neg (mt hc.1 hp))

theorem isModeBits_iff (b : Byte) : isModeBits b = true ↔ b ∈ [0x00, 0x20, 0x40, 0x60, 0x80] := by revert b; decide

theorem State.reqop_and (s : State) : s.reqop &&& 0xE0 = s.reqop := by
  have h : s.reqop = s.reg 0x0F &&& 0xE0 := rfl
  rw [h, BitVec.and_assoc, BitVec.and_self]

theorem mayTransmit_iff (s : State) (slot : TxSlot) : s.canTransmit slot = true ↔ s.mayTransmit slot := by
  rw [State.canTransmit_iff, transmitting_iff]

/-- The bytes of a frame that a reception stores (20_memory.md R94). -/
def storedBytes (f : BusFrame) (fill : Bool) : List Byte := [f.sidh, f.sidl, f.eid8, f.eid0, f.dlc] ++ storedPayload f fill

theorem storedBytes_length (f : BusFrame) (fill : Bool) : (storedBytes f fill).length = 5 + (storedPayload f fill).length := by
  rw [storedBytes, List.length_append]
  rfl

theorem storedBytes_length_le (f : BusFrame) (fill : Bool) : (storedBytes f fill).length ≤ 13 := by
  have := storedPayload_length f fill
  rw [storedBytes_length]
  omega

theorem State.opmod_storeBytes (slot : RxSlot) (data : List Byte) (s : State) {i : Nat} (hi : i + data.length ≤ 13) :
    (s.storeBytes ((rxSidh slot).toNat + i) data).opmod = s.opmod := by
  induction data generalizing s i with
  | nil => rfl
  | cons v r ih =>
    rw [List.length_cons] at hi
    obtain ⟨hreg, -⟩ := rxBody_facts slot (show i < 13 by omega)
    have hge := rxSidh_ge slot
    refine (ih (i := i + 1) _ (by omega)).trans (s.opmod_setReg v ?_)
    rw [canon_of_mem hreg]
    show _ ≠ 0x0E
    omega

theorem State.aborting_storeBytes (data : List Byte) (s : State) (a : Nat) : (s.storeBytes a data).aborting = s.aborting := by
  induction data generalizing s a with
  | nil => rfl
  | cons v r ih => exact ih _ _

theorem rxCtrl_facts (slot : RxSlot) : (rxCtrl slot).toNat ∈ registerAddrs ∧ (rxCtrl slot).toNat ≠ 0x2C ∧
    (rxCtrl slot).toNat ≠ 0x2B ∧ (rxCtrl slot).toNat ≠ 0x0E ∧ (rxCtrl slot).toNat < (rxSidh slot).toNat ∧
    (rxrtrBit ||| filhitMask slot) &&& implMask (rxCtrl slot).toNat = rxrtrBit ||| filhitMask slot ∧
    ((rxCtrl slot).toNat = 0x60 → rxrtrBit ||| filhitMask slot = 0x09) := by cases slot <;> decide

/-- The registers of a receive buffer that hold the frame, CTRL aside. -/
theorem rxBody_not_mem (slot : RxSlot) {i : Nat} (hi : i < 13) :
    canon ((rxSidh slot).toNat + i) ∉ [(rxCtrl slot).toNat, 0x2C, 0x0E] := by
  obtain ⟨hreg, -⟩ := rxBody_facts slot hi
  have hge := rxSidh_ge slot
  obtain ⟨-, -, -, -, hctrl, -⟩ := rxCtrl_facts slot
  rw [canon_of_mem hreg]
  simp only [List.mem_cons, List.not_mem_nil, or_false]
  omega

section

variable {s : State} (slot : RxSlot) (f : BusFrame) (x : FilterId) (fill : Bool)

/-- The state once the bytes of a frame are stored. -/
def State.filled (s : State) (slot : RxSlot) (f : BusFrame) (fill : Bool) : State :=
  s.storeBytes (rxSidh slot).toNat (storedBytes f fill)

/-- The value that CTRL takes under RXRTR and FILHIT. -/
def kindBits (f : BusFrame) (x : FilterId) : Byte := (if busRemote f then rxrtrBit else 0) ||| filterCode x

theorem State.storeFrame_eq : s.storeFrame slot f x fill =
    ((s.filled slot f fill).poke (rxCtrl slot).toNat (rxrtrBit ||| filhitMask slot) (kindBits f x)).poke 0x2C
      (rxIf slot) (rxIf slot) := rfl

theorem State.inv_filled (hs : s.Inv) : (s.filled slot f fill).Inv :=
  (agent_storeBytes _ s (Nat.le_trans (Nat.add_le_add_left (storedBytes_length_le f fill) _) (rxSidh_le slot))).reaches.inv hs

theorem sameRegs_filled :
    SameRegs ((List.range (storedBytes f fill).length).map ((rxSidh slot).toNat + ·)) s (s.filled slot f fill) :=
  sameRegs_storeBytes slot (storedBytes f fill) s (i := 0) (by rw [Nat.zero_add]; exact storedBytes_length_le f fill)

/-- A byte that is stored. -/
theorem State.reg_filled {j : Nat} (hj : j < (storedBytes f fill).length) :
    (s.filled slot f fill).reg ((rxSidh slot).toNat + j) =
      (storedBytes f fill)[j] &&& (if j = 1 then 0xFB else if j = 4 then 0x7F else 0xFF) := by
  have hle := storedBytes_length_le f fill
  have h := reg_storeBytes slot (storedBytes f fill) s (i := 0) (by omega) j hj
  rw [Nat.zero_add] at h
  exact h.trans (normal_rxBody slot (by omega) _)

theorem sameRegs_ctrl_of_filled : SameRegs [(rxCtrl slot).toNat] (s.filled slot f fill)
    ((s.filled slot f fill).poke (rxCtrl slot).toNat (rxrtrBit ||| filhitMask slot) (kindBits f x)) := by
  obtain ⟨hreg, h2C, h2B, -⟩ := rxCtrl_facts slot
  exact sameRegs_poke _ _ _ (canon_of_mem hreg) h2C h2B

theorem sameRegs_storeFrame_of_filled :
    SameRegs [(rxCtrl slot).toNat, 0x2C, 0x0E] (s.filled slot f fill) (s.storeFrame slot f x fill) :=
  ((sameRegs_ctrl_of_filled slot f x fill).mono (by simp)).trans ((sameRegs_poke_flags _ _ _).mono (by simp))

/-- What the buffer holds is what has been stored, CTRL aside. -/
theorem State.reg_storeFrame_body {j : Nat} (hj : j < 13) :
    (s.storeFrame slot f x fill).reg ((rxSidh slot).toNat + j) = (s.filled slot f fill).reg ((rxSidh slot).toNat + j) :=
  sameRegs_storeFrame_of_filled slot f x fill _ (mem_registerAddrs.1 (rxBody_facts slot hj).1).1 (rxBody_not_mem slot hj)

/-- What the buffer's registers hold beyond those bytes is as before. -/
theorem State.reg_filled_other {j : Nat} (hj : j < 13) (hge : (storedBytes f fill).length ≤ j) :
    (s.filled slot f fill).reg ((rxSidh slot).toNat + j) = s.reg ((rxSidh slot).toNat + j) := by
  obtain ⟨hreg, -⟩ := rxBody_facts slot hj
  refine sameRegs_filled slot f fill _ (mem_registerAddrs.1 hreg).1 ?_
  rw [canon_of_mem hreg]
  intro hmem
  obtain ⟨i, hi, h⟩ := List.mem_map.1 hmem
  rw [List.mem_range] at hi
  omega

/-- A register outside the buffer's body is as before the bytes were stored. -/
theorem State.reg_filled_low {a : Nat} (ha : a ∈ registerAddrs) (hlt : a < (rxSidh slot).toNat) :
    (s.filled slot f fill).reg a = s.reg a := by
  refine sameRegs_filled slot f fill a (mem_registerAddrs.1 ha).1 ?_
  rw [canon_of_mem ha]
  intro hmem
  obtain ⟨i, -, h⟩ := List.mem_map.1 hmem
  omega

theorem State.reg_storeFrame_ctrl (hs : s.Inv) (hx : filterNamed slot x = true) :
    (s.storeFrame slot f x fill).reg (rxCtrl slot).toNat = receivedCtrl slot f x (s.reg (rxCtrl slot).toNat) := by
  obtain ⟨hreg, h2C, h2B, h0E, hlt, hm, h60⟩ := rxCtrl_facts slot
  have hnormal := State.normal_reg hs.1 (mem_registerAddrs.1 hreg).1 (by rwa [canon_of_mem hreg])
  rw [canon_of_mem hreg] at hnormal
  rw [State.storeFrame_eq, sameRegs_poke_flags _ _ _ _ (mem_registerAddrs.1 hreg).1 (by rw [canon_of_mem hreg]; simp [h2C, h0E]),
    State.reg_poke (State.inv_filled slot f fill hs) hreg h0E _ _ hm h60, State.reg_filled_low slot f fill hreg hlt]
  exact receivedCtrl_eq slot f x hx hnormal

theorem State.reg_storeFrame_flags (hs : s.Inv) :
    (s.storeFrame slot f x fill).reg 0x2C = s.reg 0x2C ||| rxIf slot := by
  have hge := rxSidh_ge slot
  obtain ⟨hreg, h2C, h2B, -⟩ := rxCtrl_facts slot
  rw [State.storeFrame_eq, State.reg_poke_flags ((agent_poke _ _ _ (rxCtrl_lt slot)).reaches.inv (State.inv_filled slot f fill hs)),
    sameRegs_ctrl_of_filled slot f x fill 0x2C (by decide) fun h => h2C (List.mem_singleton.1 h).symm,
    State.reg_filled_low slot f fill (by decide) (by omega)]

theorem sameRegs_storeFrame : SameRegs (receivedRegs slot) s (s.storeFrame slot f x fill) := by
  refine ((sameRegs_filled slot f fill).mono fun a ha => ?_).trans
    ((sameRegs_storeFrame_of_filled slot f x fill).mono (by simp [receivedRegs]))
  obtain ⟨i, hi, rfl⟩ := List.mem_map.1 ha
  have hle := storedBytes_length_le f fill
  rw [List.mem_range] at hi
  simp only [receivedRegs, List.mem_cons, List.mem_map, List.mem_range]
  exact .inr (.inr (.inr ⟨i, by omega, rfl⟩))

theorem State.opmod_storeFrame : (s.storeFrame slot f x fill).opmod = s.opmod := by
  obtain ⟨hreg, -, -, h0E, -⟩ := rxCtrl_facts slot
  rw [State.storeFrame_eq, State.opmod_poke _ _ _ (by decide), State.opmod_poke _ _ _ (by rwa [canon_of_mem hreg])]
  exact State.opmod_storeBytes slot _ s (i := 0) (by rw [Nat.zero_add]; exact storedBytes_length_le f fill)

end

theorem leaves_enterMode {s t : State} (hs : s.Inv) (ht : applyMove .enterMode s = t) : Leaves .enterMode s t := by
  refine effect_or_same ht (isModeBits_iff _) fun _ hu => ?_
  rw [← hu]
  refine ⟨?_, sameRegs_poke s (a := 0x0E) _ _ (by decide) (by decide) (by decide), rfl⟩
  exact (State.reg_poke_canstat hs _).trans (by rw [s.reqop_and])

theorem leaves_receive {s t : State} (hs : s.Inv) {slot : RxSlot} {f : BusFrame} {x : FilterId} {fill : Bool}
    (ht : applyMove (.receive slot f x fill) s = t) : Leaves (.receive slot f x fill) s t := by
  have hcond : (s.receiving && !s.rxPending slot && filterNamed slot x && s.mayAccept slot f) = true ↔
      s.opmod ∈ [0x00, 0x40, 0x60] ∧ s.rxPending slot = false ∧ (slot = .rxb0 → x = .rxf0 ∨ x = .rxf1) := by
    have haccept : s.mayAccept slot f = true := rfl
    rw [haccept, Bool.and_true, Bool.and_eq_true, Bool.and_eq_true, receiving_iff, filterNamed_iff, Bool.not_eq_true',
      and_assoc]
  refine effect_or_same ht hcond fun ⟨_, _, hx⟩ hu => ?_
  rw [← hu]
  refine ⟨fun i hi => ?_, fun i hi => ?_, State.reg_storeFrame_ctrl slot f x fill hs ((filterNamed_iff slot x).2 hx), ?_,
    sameRegs_storeFrame slot f x fill, State.opmod_storeFrame slot f x fill, State.aborting_storeBytes _ s _⟩
  · rw [State.reg_storeFrame_body slot f x fill (by omega),
      State.reg_filled slot f fill (by rw [storedBytes_length]; omega)]
    simp only [storedBytes]
    rcases i with _ | _ | _ | _ | _ | i
    · exact and_ff _
    · rfl
    · exact and_ff _
    · exact and_ff _
    · rfl
    · omega
  · have hD0 : (rxD0 slot).toNat + i = (rxSidh slot).toNat + (5 + i) := by
      have : (rxD0 slot).toNat = (rxSidh slot).toNat + 5 := by cases slot <;> rfl
      omega
    rw [hD0, State.reg_storeFrame_body slot f x fill (by omega)]
    split
    · next h =>
      have hlt := (lt_storedPayload_length (f := f) (fill := fill) hi).2 h
      rw [State.reg_filled slot f fill (by rw [storedBytes_length]; omega), if_neg (by omega), if_neg (by omega), and_ff,
        ← storedPayload_getElem f fill i hlt]
      simp [storedBytes, Nat.add_comm 5 i]
    · next h =>
      have hge := (lt_storedPayload_length (f := f) (fill := fill) hi).not.2 h
      exact State.reg_filled_other slot f fill (by omega) (by rw [storedBytes_length]; omega)
  · rw [State.reg_storeFrame_flags slot f x fill hs]
    cases slot <;> rfl

theorem leaves_overflow {s t : State} (hs : s.Inv) {slot : RxSlot} {errif : Bool}
    (ht : applyMove (.overflow slot errif) s = t) : Leaves (.overflow slot errif) s t := by
  have hcond : (s.receiving && s.rxPending slot && s.rxPending (s.overflowSlot slot)) = true ↔
      s.opmod ∈ [0x00, 0x40, 0x60] ∧ s.rxPending slot = true ∧
        s.rxPending (if slot = .rxb0 ∧ s.reg 0x60 &&& 0x04 = 0 then RxSlot.rxb0 else .rxb1) = true := by
    rw [Bool.and_eq_true, Bool.and_eq_true, receiving_iff, State.overflowSlot_eq, and_assoc]
  refine effect_or_same ht hcond fun _ hu => ?_
  rw [State.overflowSlot_eq] at hu
  generalize (if slot = .rxb0 ∧ s.reg 0x60 &&& 0x04 = 0 then RxSlot.rxb0 else .rxb1) = hit at hu ⊢
  have hovr : rxOvr hit = if hit = .rxb0 then 0x40 else 0x80 := by cases hit <;> rfl
  have hsame1 : SameRegs [0x2D] s (s.poke 0x2D (rxOvr hit) (rxOvr hit)) :=
    sameRegs_poke s _ _ (by decide) (by decide) (by decide)
  have hsame2 := sameRegs_raise (s.poke 0x2D (rxOvr hit) (rxOvr hit)) errif errifBit
  have h2D : (s.poke 0x2D (rxOvr hit) (rxOvr hit)).reg 0x2D = s.reg 0x2D ||| rxOvr hit := by
    rw [State.reg_poke hs (by decide) (by decide) _ _ (by cases hit <;> decide) (fun h => absurd h (by decide)),
      or_self_field]
  have hs1 := (agent_poke s (a := 0x2D) (rxOvr hit) (rxOvr hit) (by decide)).reaches.inv hs
  rw [← hu]
  refine ⟨?_, ?_, (hsame1.mono (by decide)).trans (hsame2.mono (by decide)), ?_, ?_⟩
  · rw [← hovr, ← h2D]
    exact hsame2 0x2D (by decide) (by decide)
  · rw [← hsame1 0x2C (by decide) (by decide)]
    exact State.reg_raise hs1 errif errifBit
  · exact (State.opmod_raise _ _ _).trans (s.opmod_poke _ _ (by decide))
  · exact State.aborting_raise _ _ _

theorem leaves_txDone {s t : State} (hs : s.Inv) {slot : TxSlot} (ht : applyMove (.txDone slot) s = t) :
    Leaves (.txDone slot) s t := by
  have hcond : (s.canTransmit slot && !anySet (s.reg Addr.eflg) txboBit) = true ↔
      s.mayTransmit slot ∧ s.reg 0x2D &&& 0x20 = 0 := by
    rw [Bool.and_eq_true, mayTransmit_iff, Bool.not_eq_true', anySet, decide_eq_false_iff_not, not_not]
    rfl
  refine effect_or_same ht hcond fun _ hu => ?_
  have hsame1 := sameRegs_poke_txCtrl s slot txreqBit 0
  have hs1 := (agent_poke s (a := (txCtrl slot).toNat) txreqBit 0 (txCtrl_lt slot)).reaches.inv hs
  have hsame2 := sameRegs_poke_flags (s.poke (txCtrl slot).toNat txreqBit 0) (txIf slot) (txIf slot)
  rw [← hu]
  refine ⟨?_, ?_, (hsame1.mono (by simp)).trans (hsame2.mono (by simp)), ?_, rfl⟩
  · refine (hsame2 _ (txCtrl_lt slot) (by cases slot <;> decide)).trans ?_
    exact (State.reg_poke_txCtrl hs slot _ _ (by decide)).trans (zero_field _ _)
  · have hif : txIf slot = 0x04 <<< slotIndex slot := by cases slot <;> rfl
    rw [← hsame1 0x2C (by decide) (by cases slot <;> decide), ← hif]
    exact State.reg_poke_flags hs1 _
  · exact (State.opmod_poke _ _ _ (by decide)).trans (s.opmod_poke_txCtrl slot _ _)

theorem leaves_txLost {s t : State} (hs : s.Inv) {slot : TxSlot} (ht : applyMove (.txLost slot) s = t) :
    Leaves (.txLost slot) s t := by
  refine effect_or_same ht (mayTransmit_iff s slot) fun _ hu => ?_
  rw [← hu]
  refine ⟨?_, sameRegs_poke_txCtrl s slot _ _, rfl⟩
  exact (State.reg_poke_txCtrl hs slot _ _ (by decide)).trans (or_self_field _ _)

/-- An error counter takes a value. -/
theorem State.reg_setReg_counter (s : State) {a : Nat} (ha : a ∈ [0x1C, 0x1D]) (v : Byte) : (s.setReg a v).reg a = v := by
  have h : ∀ a ∈ [0x1C, 0x1D], canon a = a ∧ a ≠ 0x0E ∧ a ≠ 0x60 ∧ implMask a = 0xFF := by decide
  obtain ⟨hc, h0E, h60, hi⟩ := h a ha
  rw [State.reg_setReg_self s v rfl (by rwa [hc]), hc, normal_eq, if_neg h60, hi, and_ff]

theorem sameRegs_setReg_counter (s : State) {a : Nat} (ha : a ∈ [0x1C, 0x1D]) (v : Byte) : SameRegs [a] s (s.setReg a v) := by
  have h : ∀ a ∈ [0x1C, 0x1D], canon a = a ∧ canon a ≠ 0x2C ∧ canon a ≠ 0x2B := by decide
  obtain ⟨hc, h2C, h2B⟩ := h a ha
  have hsame := sameRegs_setReg s a v h2C h2B
  rwa [hc] at hsame

theorem ErrorsTaken.of_eq {eflg : Byte} {errif merrf : Bool} {s u t : State} (h : ErrorsTaken eflg errif merrf u t)
    (h2D : u.reg 0x2D = s.reg 0x2D) (h2C : u.reg 0x2C = s.reg 0x2C) (hop : u.opmod = s.opmod) :
    ErrorsTaken eflg errif merrf s t := by
  unfold ErrorsTaken at h ⊢
  rwa [h2D, h2C, hop] at h

/-- TXBnCTRL after a bus error, in one-shot mode perhaps without its request (20_memory.md R96 (c)). -/
theorem txError_ctrl (old : Byte) (dropped : Bool) :
    (old &&& ~~~(if (!dropped) = true then txerrBit else txerrBit ||| txreqBit)) |||
        (txerrBit &&& (if (!dropped) = true then txerrBit else txerrBit ||| txreqBit)) =
      (old &&& if dropped = true then 0xF7 else 0xFF) ||| 0x10 := by
  revert old dropped
  decide

theorem leaves_txError {s t : State} (hs : s.Inv) {slot : TxSlot} {tec eflg : Byte} {merrf errif drop : Bool}
    (ht : applyMove (.txError slot tec eflg merrf errif drop) s = t) :
    Leaves (.txError slot tec eflg merrf errif drop) s t := by
  refine effect_or_same ht (mayTransmit_iff s slot) fun _ hu => ?_
  have hdrop : (drop && anySet (s.reg Addr.canctrl) osmBit) = true ↔ drop = true ∧ s.reg 0x0F &&& 0x08 ≠ 0 := by
    rw [Bool.and_eq_true, anySet, decide_eq_true_eq]
    rfl
  simp only [← hdrop]
  generalize (drop && anySet (s.reg Addr.canctrl) osmBit) = dropped at hu ⊢
  set m := if (!dropped) = true then txerrBit else txerrBit ||| txreqBit with hm
  have hm7B : m &&& 0x7B = m := by
    rw [hm]
    cases dropped <;> decide
  have hsame1 := sameRegs_poke_txCtrl s slot m txerrBit
  have hctrl := State.reg_poke_txCtrl hs slot m txerrBit hm7B
  have hop1 := s.opmod_poke_txCtrl slot m txerrBit
  have hs1 := (agent_poke s (a := (txCtrl slot).toNat) m txerrBit (txCtrl_lt slot)).reaches.inv hs
  have hab1 : (s.poke (txCtrl slot).toNat m txerrBit).aborting = s.aborting := rfl
  generalize s.poke (txCtrl slot).toNat m txerrBit = u at hu hsame1 hctrl hop1 hs1 hab1
  have hsame2 := sameRegs_setReg_counter u (a := 0x1C) (by decide) tec
  have hs2 := (agent_setReg u (a := 0x1C) tec (by decide)).reaches.inv hs1
  have hne : ∀ slot : TxSlot, (txCtrl slot).toNat ∉ [0x1C, 0x2D, 0x2C, 0x0E] := fun slot => by cases slot <;> decide
  have hstay (a : Nat) (ha : a ∈ [0x2D, 0x2C]) : (u.setReg 0x1C tec).reg a = s.reg a := by
    refine (hsame2 a (by revert a; decide) (by revert a; decide)).trans (hsame1 a (by revert a; decide) ?_)
    revert a
    cases slot <;> decide
  obtain ⟨herr, hsame3, hab⟩ := errorsTaken_setEflg hs2 eflg errif merrf
  rw [← hu]
  refine ⟨?_, ?_, herr.of_eq (hstay 0x2D (by decide)) (hstay 0x2C (by decide)) ((u.opmod_setReg tec (by decide)).trans hop1),
    ((hsame1.mono (by simp)).trans (hsame2.mono (by simp))).trans (hsame3.mono (by simp)), hab.trans hab1⟩
  · rw [← txError_ctrl, ← hm, ← hctrl]
    have hlt := txCtrl_lt slot
    exact (hsame3 _ hlt (by rw [canon_txCtrl]; exact fun h => hne slot (List.mem_cons_of_mem _ h))).trans
      (hsame2 _ hlt (by rw [canon_txCtrl]; exact fun h => hne slot (by rw [List.mem_singleton.1 h]; decide)))
  · exact (hsame3 0x1C (by decide) (by decide)).trans (u.reg_setReg_counter (by decide) tec)

theorem leaves_errors {s t : State} (hs : s.Inv) {tec recv eflg : Byte} {errif merrf : Bool}
    (ht : applyMove (.errors tec recv eflg errif merrf) s = t) : Leaves (.errors tec recv eflg errif merrf) s t := by
  have hsame : SameRegs [0x1C, 0x1D] s ((s.setReg 0x1C tec).setReg 0x1D recv) :=
    ((sameRegs_setReg_counter s (by decide) tec).mono (by decide)).trans
      ((sameRegs_setReg_counter _ (by decide) recv).mono (by decide))
  have h1C : ((s.setReg 0x1C tec).setReg 0x1D recv).reg 0x1C = tec :=
    (sameRegs_setReg_counter _ (by decide) recv 0x1C (by decide) (by decide)).trans (s.reg_setReg_counter (by decide) tec)
  have h1D : ((s.setReg 0x1C tec).setReg 0x1D recv).reg 0x1D = recv := State.reg_setReg_counter _ (by decide) recv
  have hop : ((s.setReg 0x1C tec).setReg 0x1D recv).opmod = s.opmod :=
    (State.opmod_setReg _ _ (by decide)).trans (State.opmod_setReg _ _ (by decide))
  have hinv : ((s.setReg 0x1C tec).setReg 0x1D recv).Inv :=
    ((agent_setReg s _ (by decide)).trans (agent_setReg _ _ (by decide))).reaches.inv hs
  obtain ⟨herr, hsame2, hab⟩ := errorsTaken_setEflg hinv eflg errif merrf
  rw [← ht]
  exact ⟨(hsame2 0x1C (by decide) (by decide)).trans h1C, (hsame2 0x1D (by decide) (by decide)).trans h1D,
    herr.of_eq (hsame 0x2D (by decide) (by decide)) (hsame 0x2C (by decide) (by decide)) hop,
    (hsame.mono (by decide)).trans (hsame2.mono (by decide)), hab⟩

theorem leaves_txAbort {s t : State} (hs : s.Inv) {slot : TxSlot} (ht : applyMove (.txAbort slot) s = t) :
    Leaves (.txAbort slot) s t := by
  have hcond : s.canAbort slot = true ↔
      s.opmod ∈ [0x00, 0x40] ∧ ((s.txPending slot = true ∧ s.reg 0x0F &&& 0x10 ≠ 0) ∨ slot ∈ s.aborting) := by
    rw [State.canAbort, Bool.and_eq_true, transmitting_iff, Bool.or_eq_true, Bool.and_eq_true, anySet, decide_eq_true_eq,
      List.contains_iff_mem]
    rfl
  refine effect_or_same ht hcond fun _ hu => ?_
  rw [← hu]
  refine ⟨?_, sameRegs_poke_txCtrl s slot _ _, fun x => by simp⟩
  have h : ∀ old : Byte, (old &&& ~~~(abtfBit ||| txreqBit)) ||| (abtfBit &&& (abtfBit ||| txreqBit)) =
      (old &&& 0xF7) ||| 0x40 := by decide
  exact (State.reg_poke_txCtrl hs slot _ _ (by decide)).trans (h _)

theorem leaves_txClearFlags {s t : State} (hs : s.Inv) {slot : TxSlot} {mask : Byte}
    (ht : applyMove (.txClearFlags slot mask) s = t) : Leaves (.txClearFlags slot mask) s t := by
  rw [← ht]
  refine ⟨?_, sameRegs_poke_txCtrl s slot _ _, rfl⟩
  have hm : mask &&& txFailBits &&& 0x7B = mask &&& txFailBits := by
    rw [BitVec.and_assoc]
    rfl
  exact (State.reg_poke_txCtrl hs slot _ _ hm).trans (zero_field _ _)

theorem leaves_wake {s t : State} (hs : s.Inv) {reqop : Bool} (ht : applyMove (.wake reqop) s = t) :
    Leaves (.wake reqop) s t := by
  refine effect_or_same ht Iff.rfl fun _ hu => ?_
  have hsame1 : SameRegs [0x0E] s (s.poke 0x0E modeMask 0x60) := sameRegs_poke s _ _ (by decide) (by decide) (by decide)
  have hop1 : (s.poke 0x0E modeMask 0x60).opmod = 0x60 := State.opmod_poke_canstat hs 0x60
  have hs1 := (agent_poke s (a := 0x0E) modeMask 0x60 (by decide)).reaches.inv hs
  have hab1 : (s.poke 0x0E modeMask 0x60).aborting = s.aborting := rfl
  change State.poke (if reqop = true then (s.poke 0x0E modeMask 0x60).poke 0x0F modeMask 0x60 else s.poke 0x0E modeMask 0x60)
    0x2C wakifBit wakifBit = t at hu
  generalize s.poke 0x0E modeMask 0x60 = u at hu hsame1 hop1 hs1 hab1
  have h0F : u.reg 0x0F = s.reg 0x0F := hsame1 0x0F (by decide) (by decide)
  have h2 : ∃ w, (if reqop = true then u.poke 0x0F modeMask 0x60 else u) = w ∧ SameRegs [0x0F] u w ∧ w.opmod = 0x60 ∧ w.Inv ∧
      w.reg 0x0F = (if reqop then (s.reg 0x0F &&& 0x1F) ||| 0x60 else s.reg 0x0F) ∧ w.aborting = s.aborting := by
    refine ⟨_, rfl, ?_⟩
    cases reqop
    · exact ⟨sameRegs_refl _ u, hop1, hs1, h0F, hab1⟩
    · refine ⟨sameRegs_poke u _ _ (by decide) (by decide) (by decide), (u.opmod_poke _ _ (by decide)).trans hop1,
        (agent_poke u _ _ (by decide)).reaches.inv hs1, ?_, hab1⟩
      exact (State.reg_poke hs1 (by decide) (by decide) _ _ (by decide) (by decide)).trans (by rw [h0F]; rfl)
  obtain ⟨w, hw, hsame2, hop2, hs2, hreq, hab2⟩ := h2
  rw [hw] at hu
  have hsame3 := sameRegs_poke_flags w wakifBit wakifBit
  rw [← hu]
  refine ⟨(w.opmod_poke _ _ (by decide)).trans hop2, (hsame3 0x0F (by decide) (by decide)).trans hreq, ?_,
    ((hsame1.mono (by decide)).trans (hsame2.mono (by decide))).trans (hsame3.mono (by decide)), hab2⟩
  rw [State.reg_poke_flags hs2, hsame2 0x2C (by decide) (by decide), hsame1 0x2C (by decide) (by decide)]
  rfl

theorem leaves_rtsPins {s t : State} (hs : s.Inv) {levels : Byte} (ht : applyMove (.rtsPins levels) s = t) :
    Leaves (.rtsPins levels) s t := by
  rw [← ht]
  refine ⟨?_, sameRegs_poke s (a := 0x0D) _ _ (by decide) (by decide) (by decide), rfl⟩
  have hold := State.normal_reg hs.1 (a := 0x0D) (by decide) (by decide)
  have h : ∀ old : Byte, normal 0x0D old = old → old &&& ~~~rtsPinBits = old &&& 0x07 := by decide
  exact (State.reg_poke hs (a := 0x0D) (by decide) (by decide) _ _ (by decide) (by decide)).trans
    (congrArg (· ||| (levels &&& rtsPinBits)) (h _ hold))

theorem leaves_of_host {m : Move} (h : ofController m = false) (s : State) :
    SameRegs [] s (applyMove m s) ∧ (applyMove m s).int = s.int ∧ (applyMove m s).aborting = s.aborting := by
  obtain ⟨hmem, hint, hab⟩ := applyMove_of_host h s
  exact ⟨sameRegs_of_mem hmem, hint, hab⟩

/-- Every step leaves what its rule says. -/
theorem leaves_applyMove {s : State} (hs : s.Inv) (m : Move) : Leaves m s (applyMove m s) := by
  cases m with
  | enterMode => exact leaves_enterMode hs rfl
  | receive => exact leaves_receive hs rfl
  | overflow => exact leaves_overflow hs rfl
  | txDone => exact leaves_txDone hs rfl
  | txLost => exact leaves_txLost hs rfl
  | txError => exact leaves_txError hs rfl
  | txAbort => exact leaves_txAbort hs rfl
  | txClearFlags => exact leaves_txClearFlags hs rfl
  | errors => exact leaves_errors hs rfl
  | wake => exact leaves_wake hs rfl
  | rtsPins => exact leaves_rtsPins hs rfl
  | bridge | putOff | produce => exact leaves_of_host rfl s

/-! ## The modes -/

/-- OPMOD and REQOP are as before. -/
def SameModes (s t : State) : Prop := t.opmod = s.opmod ∧ t.reqop = s.reqop

theorem SameModes.of_regs {l : List Nat} {s t : State} (h : SameRegs l s t) (hl : 0x0F ∉ l) (hop : t.opmod = s.opmod) :
    SameModes s t :=
  ⟨hop, congrArg (· &&& modeMask) (h 0x0F (by decide) hl)⟩

theorem SameModes.of_regs_all {l : List Nat} {s t : State} (h : SameRegs l s t) (hl : 0x0F ∉ l) (hl' : 0x0E ∉ l) :
    SameModes s t :=
  .of_regs h hl (congrArg (· &&& modeMask) (h 0x0E (by decide) hl'))

/-- One step keeps the modes but for the entry of the requested mode and for a wake-up (20_memory.md R93, R98). -/
theorem modes_of_leaves {m : Move} {s t : State} (h : Leaves m s t) :
    SameModes s t ∨ (t.opmod = s.reqop ∧ s.reqop ∈ [0x00, 0x20, 0x40, 0x60, 0x80] ∧ t.reqop = s.reqop) ∨
      (s.opmod = 0x20 ∧ t.opmod = 0x60 ∧ (t.reqop = s.reqop ∨ t.reqop = 0x60)) := by
  have same (e : t = s) : SameModes s t := ⟨congrArg State.opmod e, congrArg State.reqop e⟩
  have hctrl (slot : TxSlot) : 0x0F ≠ (txCtrl slot).toNat ∧ 0x0E ≠ (txCtrl slot).toNat := by cases slot <;> decide
  cases m with
  | enterMode =>
    simp only [Leaves] at h
    split at h
    · next hmode =>
      obtain ⟨hreg, hsame, -⟩ := h
      refine .inr (.inl ⟨?_, hmode, congrArg (· &&& modeMask) (hsame 0x0F (by decide) (by decide))⟩)
      have hop : t.opmod = t.reg 0x0E &&& 0xE0 := rfl
      rw [hop, hreg, BitVec.and_or_distrib_right, s.reqop_and, BitVec.and_assoc]
      simp
    · exact .inl (same h)
  | receive slot f x fill =>
    simp only [Leaves] at h
    split at h
    · obtain ⟨-, -, -, -, hsame, hop, -⟩ := h
      exact .inl (.of_regs hsame (by cases slot <;> decide) hop)
    · exact .inl (same h)
  | overflow slot =>
    simp only [Leaves] at h
    generalize (if slot = .rxb0 ∧ s.reg 0x60 &&& 0x04 = 0 then RxSlot.rxb0 else .rxb1) = hit at h
    split at h
    · obtain ⟨-, -, hsame, hop, -⟩ := h
      exact .inl (.of_regs hsame (by decide) hop)
    · exact .inl (same h)
  | txDone =>
    simp only [Leaves] at h
    split at h
    · obtain ⟨-, -, hsame, hop, -⟩ := h
      exact .inl (.of_regs hsame (by simp [hctrl]) hop)
    · exact .inl (same h)
  | txLost | txAbort =>
    simp only [Leaves] at h
    split at h
    · obtain ⟨-, hsame, -⟩ := h
      exact .inl (.of_regs_all hsame (by simp [hctrl]) (by simp [hctrl]))
    · exact .inl (same h)
  | txError =>
    simp only [Leaves] at h
    split at h
    · obtain ⟨-, -, ⟨-, -, hop⟩, hsame, -⟩ := h
      exact .inl (.of_regs hsame (by simp [hctrl]) hop)
    · exact .inl (same h)
  | txClearFlags =>
    obtain ⟨-, hsame, -⟩ := h
    exact .inl (.of_regs_all hsame (by simp [hctrl]) (by simp [hctrl]))
  | errors =>
    obtain ⟨-, -, ⟨-, -, hop⟩, hsame, -⟩ := h
    exact .inl (.of_regs hsame (by decide) hop)
  | wake reqop =>
    simp only [Leaves] at h
    split at h
    · next hsleep =>
      obtain ⟨hop, hreg, -⟩ := h
      have hreq : t.reqop = t.reg 0x0F &&& 0xE0 := rfl
      refine .inr (.inr ⟨hsleep, hop, ?_⟩)
      rw [hreq, hreg]
      cases reqop
      · exact .inl rfl
      · right
        rw [if_pos rfl, BitVec.and_or_distrib_right, BitVec.and_assoc]
        simp
    · exact .inl (same h)
  | rtsPins =>
    obtain ⟨-, hsame, -⟩ := h
    exact .inl (.of_regs_all hsame (by decide) (by decide))
  | bridge | putOff | produce =>
    obtain ⟨hsame, -⟩ := h
    exact .inl (.of_regs_all hsame (by decide) (by decide))

/-! ## The bounds of one step -/

theorem within_applyMove {s : State} (hs : s.Inv) (m : Move) (a : Nat) :
    Within (s.kept a) (s.unset a) (neverCleared a) (Memory.read s.mem a) (Memory.read (applyMove m s).mem a) := by
  cases hm : ofController m
  · rw [(applyMove_of_host hm s).1]
    exact Within.refl _ _ _ _
  · exact (controlled_applyMove hs hm).within a

theorem within_reg {s : State} (hs : s.Inv) (m : Move) {a : Nat} (ha : canon a = a) (hne : a ≠ 0x0E) :
    Within (s.kept a) (s.unset a) (neverCleared a) (s.reg a) ((applyMove m s).reg a) := by
  rw [State.reg_eq_read _ ha hne, State.reg_eq_read _ ha hne]
  exact within_applyMove hs m a

section

variable {s : State} (hs : s.Inv) (m : Move)

include hs

/-- Nothing is received in another mode (20_memory.md R94). -/
theorem not_receiving_keeps (h : s.opmod ∉ [0x00, 0x40, 0x60]) :
    (applyMove m s).reg 0x2C &&& 0x03 = s.reg 0x2C &&& 0x03 ∧
      ∀ slot : RxSlot, ∀ i, i < 13 → (applyMove m s).reg ((rxSidh slot).toNat + i) = s.reg ((rxSidh slot).toNat + i) := by
  have hr : s.receiving = false := by rwa [← receiving_iff, Bool.not_eq_true] at h
  refine ⟨(within_reg hs m (by decide) (by decide)).and_eq ?_, fun slot i hi => ?_⟩
  · rw [s.kept_canintf, hr]
    exact and_or_of_left rfl _
  · obtain ⟨hreg, -⟩ := rxBody_facts slot hi
    have hge := rxSidh_ge slot
    refine (within_reg hs m (canon_of_mem hreg) (by omega)).eq ?_
    rw [s.kept_rxBody slot hi, hr, BitVec.or_comm]
    exact and_or_of_left rfl _

/-- No transmission completes in another mode, or while TXBO is set (20_memory.md R96, R97). -/
theorem not_completing_keeps (h : ¬ s.mayComplete) : (applyMove m s).reg 0x2C &&& 0x1C = s.reg 0x2C &&& 0x1C := by
  refine (within_reg hs m (by decide) (by decide)).and_eq ?_
  rw [s.kept_canintf, if_neg h, BitVec.or_comm]
  exact and_or_of_left rfl _

/-- No request to transmit is served in another mode (20_memory.md R96). -/
theorem not_transmitting_keeps (h : s.transmitting = false) (slot : TxSlot) :
    (applyMove m s).reg (txCtrl slot).toNat &&& 0x08 = s.reg (txCtrl slot).toNat &&& 0x08 := by
  refine (within_reg hs m (canon_txCtrl slot) (by cases slot <;> decide)).and_eq ?_
  rw [s.kept_txCtrl, h]
  rfl

/-- The overflow flag of RXB0 (20_memory.md R95). -/
theorem overflow_rxb0 (h : (applyMove m s).reg 0x2D &&& ~~~s.reg 0x2D &&& 0x40 ≠ 0) :
    s.opmod ∈ [0x00, 0x40, 0x60] ∧ s.rxPending .rxb0 = true ∧ s.reg 0x60 &&& 0x04 = 0 := by
  rw [← receiving_iff]
  by_contra hno
  refine h ((within_reg hs m (by decide) (by decide)).set_none ?_)
  rw [State.unset, if_neg (by decide), if_pos rfl, if_neg hno]
  exact and_or_of_left rfl _

/-- The overflow flag of RXB1 (20_memory.md R95). -/
theorem overflow_rxb1 (h : (applyMove m s).reg 0x2D &&& ~~~s.reg 0x2D &&& 0x80 ≠ 0) :
    s.opmod ∈ [0x00, 0x40, 0x60] ∧ s.rxPending .rxb1 = true := by
  rw [← receiving_iff]
  by_contra hno
  refine h ((within_reg hs m (by decide) (by decide)).set_none ?_)
  rw [State.unset, if_neg (by decide), if_pos rfl, if_neg hno, BitVec.or_comm]
  exact and_or_of_left rfl _

/-- A step of the Controller agent moves `INT` with the flags and nothing else of the host. -/
theorem line_and_run_of_controller (hm : ofController m = true) :
    LineFollows s (applyMove m s) ∧ SameRun s (applyMove m s) := by
  have h := controlled_applyMove hs hm
  exact ⟨h.line, ⟨h.queue, h.waits, h.agent.cloudUp, h.agent.refused, h.agent.calls⟩,
    h.agent.log, h.agent.sleeps, h.agent.settle⟩

end

/-- Settles O60: each step leaves what `Leaves` says, within the bounds of the mode. -/
theorem agentsFollowTheMode : Obligations.AgentsFollowTheMode := by
  intro s m hs
  have hleaves := leaves_applyMove hs m
  have hagent := agent_applyMove m s
  refine ⟨?_, ?_, not_receiving_keeps hs m, fun h => ?_, overflow_rxb0 hs m, overflow_rxb1 hs m,
    fun h => not_completing_keeps hs m fun hc => h hc.2, hleaves, line_and_run_of_controller hs m, hagent.transcript, hagent.log,
    hagent.results, hagent.params⟩
  · rcases modes_of_leaves hleaves with h | ⟨hop, hmode, -⟩ | ⟨hsleep, hop, -⟩
    · exact .inl h.1
    · exact .inr (.inl ⟨hop, hmode⟩)
    · exact .inr (.inr ⟨hsleep, hop⟩)
  · rcases modes_of_leaves hleaves with h | ⟨-, -, hreq⟩ | ⟨hsleep, -, hreq⟩
    · exact .inl h.2
    · exact .inl hreq
    · exact hreq.imp id fun hreq => ⟨hsleep, hreq⟩
  · have ht : s.transmitting = false := by rwa [← transmitting_iff, Bool.not_eq_true] at h
    exact ⟨not_completing_keeps hs m fun hc => Bool.false_ne_true (ht.symm.trans hc.1), not_transmitting_keeps hs m ht⟩

end Sys2Proof.Machine

/-! SUPPORT. What a `WRITE` and a `BITMOD` that nothing disturbs leave of the registers (20_memory.md R77-R89, R100;
40_serial_transactions.md R152, R153), and the addresses that are refused (20_memory.md R81). -/

namespace Sys2Proof.Machine

/-! ## The transactions -/

/-- A `WRITE` that nothing disturbs: its bytes are written to a state that differs from `s` in the choices only. -/
theorem exec_txnWrite_calm {s : State} (hc : s.clear) {addr : Byte} {data : List Byte} (ha : addr.toNat < 128)
    (h : addr.toNat + data.length ≤ 128) :
    ∃ e x, exec (.txnWrite addr data) s = .next (((s.setEnv e).writeBlock addr.toNat data).record x) ∧
      Sent s (((s.setEnv e).writeBlock addr.toNat data).record x) (0x02 :: addr :: data) ∧
      SameRun s (((s.setEnv e).writeBlock addr.toNat data).record x) ∧
      (((s.setEnv e).writeBlock addr.toNat data).record x).results = s.results := by
  obtain ⟨⟨e, x, hw⟩, hcalm, hsent⟩ := issueWrite_calm addr data hc h
  have hok : blockOk addr data.length = true := by simp [blockOk_eq, ha, h]
  have hexec : exec (.txnWrite addr data) s = .next (issueWrite addr data s).2 := congrArg _ (if_pos hok)
  rw [hw] at hcalm hsent hexec
  exact ⟨e, x, hexec, hsent, hcalm.sameRun, hcalm.results⟩

/-- A `BITMOD` that nothing disturbs. -/
theorem exec_txnBitmod_calm {s : State} (hc : s.clear) {addr : Byte} (ha : addr.toNat < 128) (m d : Byte) :
    ∃ e x, exec (.txnBitmod addr m d) s = .next (((s.setEnv e).bitModify addr.toNat m d).record x) ∧
      Sent s (((s.setEnv e).bitModify addr.toNat m d).record x) [0x05, addr, m, d] ∧
      SameRun s (((s.setEnv e).bitModify addr.toNat m d).record x) ∧
      (((s.setEnv e).bitModify addr.toNat m d).record x).results = s.results := by
  obtain ⟨⟨e, x, hw⟩, hcalm, hsent⟩ := issueBitmod_calm addr m d hc ha
  have hok : blockOk addr 1 = true := by simp [blockOk_eq, ha]
  have hexec : exec (.txnBitmod addr m d) s = .next (issueBitmod addr m d s).2 := congrArg _ (if_pos hok)
  rw [hw] at hcalm hsent hexec
  exact ⟨e, x, hexec, hsent, hcalm.sameRun, hcalm.results⟩

/-! ## One byte -/

/-- A register whose writes are direct in every mode. -/
theorem direct_of_plain (s : State) {a : Nat} (hc : configOnly (canon a) = false) (ht : isTxBody (canon a) = false) :
    s.direct a := by
  refine ⟨fun h => Bool.false_ne_true (hc.symm.trans h.1), ?_⟩
  rw [State.pendingTx, ht]
  rfl

/-- No register but that of `a`, neither the line nor a request to abort has changed. -/
def Confined (a : Nat) (s t : State) : Prop := SameRegs [canon a] s t ∧ SameLine s t ∧ t.aborting = s.aborting

theorem confined_writeByte {s : State} (hs : s.Inv) {a : Nat} (h2C : canon a ≠ 0x2C) (h2B : canon a ≠ 0x2B)
    (hctrl : isTxCtrl (canon a) = false) (v : Byte) : Confined a s (s.writeByte a v) :=
  ⟨(sameRegs_writeByte s a v).2 h2C h2B, sameLine_writeByte v hs.2.1 h2C h2B, s.aborting_writeByte v hctrl⟩

/-- Of a register without side effects a write takes the W bits. -/
theorem written_other {a : Nat} (h : isTxCtrl a = false ∧ a ≠ 0x60 ∧ a ≠ 0x2D) (old v : Byte) :
    written a old v = (old &&& ~~~wBits a) ||| (v &&& wBits a) := by
  have hctrl : ¬ (a = 0x30 ∨ a = 0x40 ∨ a = 0x50) := by
    rintro (rfl | rfl | rfl) <;> exact absurd h.1 (by decide)
  rw [written, if_neg hctrl, if_neg h.2.1, if_neg h.2.2]

theorem keep_field (x m : Byte) : (x &&& ~~~m) ||| (x &&& m) = x := by
  apply byte_ext
  intro i hi
  simp only [BitVec.getLsbD_or, BitVec.getLsbD_and, BitVec.getLsbD_not, hi]
  cases x.getLsbD i <;> cases m.getLsbD i <;> rfl

/-- A register other than TXBnCTRL keeps its value when it is written to it. -/
theorem written_self {a : Nat} (hctrl : isTxCtrl a = false) {old : Byte} (hold : normal a old = old) : written a old old = old := by
  by_cases h60 : a = 0x60
  · subst h60
    have h : ∀ old : Byte, normal 0x60 old = old → written 0x60 old old = old := by decide
    exact h old hold
  by_cases h2D : a = 0x2D
  · subst h2D
    have h : ∀ old : Byte, written 0x2D old old = old := by decide
    exact h old
  rw [written_other ⟨hctrl, h60, h2D⟩, keep_field]

/-! ## `BIT MODIFY` -/

/-- The byte that a `BITMOD` writes (40_serial_transactions.md R153). -/
def State.modified (s : State) (a : Nat) (m d : Byte) : Byte := (s.reg a &&& ~~~s.modMask a m) ||| (d &&& s.modMask a m)

/-- A `BITMOD` changes nothing, under a mask of 0, or writes one byte. -/
theorem State.bitModify_eq (s : State) (a : Nat) (m d : Byte) :
    s.bitModify a m d = if s.modMask a m = 0 then s else s.writeByte a (s.modified a m d) := rfl

/-- What every write to a register leaves, and doing nothing too, a `BITMOD` leaves. -/
theorem State.bitModify_of {P : State → Prop} {s : State} {a : Nat} (h0 : P s) (h : ∀ v, P (s.writeByte a v)) (m d : Byte) :
    P (s.bitModify a m d) := by
  rw [s.bitModify_eq]
  split
  · exact h0
  · exact h _

theorem Confined.refl (a : Nat) (s : State) : Confined a s s := ⟨sameRegs_refl _ s, ⟨rfl, rfl⟩, rfl⟩

theorem confined_bitModify {s : State} (hs : s.Inv) {a : Nat} (h2C : canon a ≠ 0x2C) (h2B : canon a ≠ 0x2B)
    (hctrl : isTxCtrl (canon a) = false) (m d : Byte) : Confined a s (s.bitModify a m d) :=
  State.bitModify_of (Confined.refl a s) (confined_writeByte hs h2C h2B hctrl) m d

/-- Under a mask of 0 nothing changes. -/
theorem field_of_zero (x d : Byte) : (x &&& ~~~0) ||| (d &&& 0) = x := by
  rw [show d &&& 0 = 0#8 from BitVec.and_zero, BitVec.or_zero]
  exact and_ff x

theorem State.modified_of_zero (s : State) {a : Nat} {m : Byte} (h : s.modMask a m = 0) (d : Byte) :
    s.modified a m d = s.reg a := by
  rw [State.modified, h, field_of_zero]

/-- What a direct `BITMOD` leaves in a register other than TXBnCTRL. -/
theorem State.reg_bitModify_written {s : State} (hs : s.Inv) {a : Nat} (hd : s.direct a) (ha : a < 128) (hc : canon a ≠ 0x0E)
    (hctrl : isTxCtrl (canon a) = false) (m d : Byte) :
    (s.bitModify a m d).reg a = written (canon a) (s.reg a) (s.modified a m d) := by
  rw [s.bitModify_eq]
  split
  · next h =>
    rw [s.modified_of_zero h, written_self hctrl (State.normal_reg hs.1 ha hc)]
  · exact State.reg_writeByte_written hd hs.1 ha rfl hc _

/-- A field of the byte that a `BITMOD` writes. -/
theorem field_of_field (x d m w : Byte) :
    (x &&& ~~~w) ||| (((x &&& ~~~m) ||| (d &&& m)) &&& w) = (x &&& ~~~(m &&& w)) ||| (d &&& (m &&& w)) := by
  apply byte_ext
  intro i hi
  simp only [BitVec.getLsbD_or, BitVec.getLsbD_and, BitVec.getLsbD_not, hi]
  cases x.getLsbD i <;> cases m.getLsbD i <;> cases w.getLsbD i <;> cases d.getLsbD i <;> rfl

/-- Of a register without side effects a `BITMOD` takes the W bits under its mask. -/
theorem State.written_modified (s : State) {a : Nat}
    (h : isTxCtrl (canon a) = false ∧ canon a ≠ 0x60 ∧ canon a ≠ 0x2D) (m d : Byte) :
    written (canon a) (s.reg a) (s.modified a m d) =
      (s.reg a &&& ~~~(s.modMask a m &&& wBits (canon a))) ||| (d &&& (s.modMask a m &&& wBits (canon a))) := by
  rw [written_other h, State.modified, field_of_field]

/-! ## The plain control registers -/

set_option maxRecDepth 100000 in
/-- What the table of the plain control registers says of the map. -/
theorem plainRegisters_facts : ∀ p ∈ plainRegisters, p.1 < 128 ∧ configOnly (canon p.1) = false ∧
    isTxBody (canon p.1) = false ∧ isTxCtrl (canon p.1) = false ∧
    (p.1 ≠ 0x2B ∧ p.1 ≠ 0x2C → canon p.1 ≠ 0x2C ∧ canon p.1 ≠ 0x2B) ∧
    (p.1 % 16 = 14 ↔ canon p.1 = 0x0E) ∧
    (canon p.1 ≠ 0x0E → canon p.1 ≠ 0x60 ∧ canon p.1 ≠ 0x2D ∧ wBits (canon p.1) = p.2) := by
  decide

section

variable {s : State} (hs : s.Inv) {a : Nat} {w : Byte} (hp : (a, w) ∈ plainRegisters)

include hs hp

theorem State.reg_writeByte_plain (v : Byte) : (s.writeByte a v).reg a =
    if a % 16 = 14 then s.reg 0x0E else (s.reg a &&& ~~~w) ||| (v &&& w) := by
  obtain ⟨hlt, hcfg, hbody, hctrl, -, hstat, hw⟩ := plainRegisters_facts (a, w) hp
  split
  · next h =>
    have hc : canon a = 0x0E := hstat.1 h
    rw [(State.writeByte_canstat hc v).1 a hlt (by simp), s.reg_canstat hc]
    rfl
  · next h =>
    have hc : canon a ≠ 0x0E := mt hstat.2 h
    obtain ⟨h60, h2D, hwb⟩ := hw hc
    rw [State.reg_writeByte_written (direct_of_plain s hcfg hbody) hs.1 hlt rfl hc, written_other ⟨hctrl, h60, h2D⟩, hwb]

theorem State.reg_bitModify_plain (m d : Byte) : (s.bitModify a m d).reg a =
    if a % 16 = 14 then s.reg 0x0E else (s.reg a &&& ~~~(s.modMask a m &&& w)) ||| (d &&& (s.modMask a m &&& w)) := by
  obtain ⟨hlt, hcfg, hbody, hctrl, -, hstat, hw⟩ := plainRegisters_facts (a, w) hp
  split
  · next h =>
    have hc : canon a = 0x0E := hstat.1 h
    have hsame : SameRegs [] s (s.bitModify a m d) :=
      State.bitModify_of (sameRegs_refl _ s) (fun v => (State.writeByte_canstat hc v).1) m d
    rw [hsame a hlt (by simp), s.reg_canstat hc]
    rfl
  · next h =>
    have hc : canon a ≠ 0x0E := mt hstat.2 h
    obtain ⟨h60, h2D, hwb⟩ := hw hc
    rw [State.reg_bitModify_written hs (direct_of_plain s hcfg hbody) hlt hc hctrl, s.written_modified ⟨hctrl, h60, h2D⟩, hwb]

omit hs

theorem sameRegs_writeByte_plain (v : Byte) :
    SameRegs (if a = 0x2B ∨ a = 0x2C then [a, 0x0E] else [canon a]) s (s.writeByte a v) := by
  obtain ⟨-, -, -, -, hflags, -⟩ := plainRegisters_facts (a, w) hp
  split
  · next h =>
    have hc : canon a = a := by rcases h with rfl | rfl <;> rfl
    have hsame := (sameRegs_writeByte s a v).1
    rwa [hc] at hsame
  · next h =>
    obtain ⟨h2C, h2B⟩ := hflags (not_or.1 h)
    exact (sameRegs_writeByte s a v).2 h2C h2B

omit hp in
theorem lineFollows_self (hs : s.Inv) : LineFollows s s := ⟨hs.2.1, by cases s.int <;> rfl⟩

end

/-- EFLG keeps the overflow flags that a write does not clear (10_state.md R30). -/
theorem written_eflg (old v : Byte) : written 0x2D old v = old &&& (v ||| 0x3F) := by
  rw [written, if_neg (by decide), if_neg (by decide), if_pos rfl]

theorem direct_eflg (s : State) : s.direct 0x2D := direct_of_plain s (by decide) (by decide)

/-- Settles O22: each of these registers is written directly, so that it takes its W bits. -/
theorem writePlainRegister : Obligations.WritePlainRegister := by
  refine ⟨fun s addr v w hs hc hp => ?_, fun s v hs hc => ?_⟩
  · obtain ⟨hlt, -, -, hctrl, -⟩ := plainRegisters_facts _ hp
    obtain ⟨e, x, hexec, hsent, hrun, hres⟩ := exec_txnWrite_calm hc (data := [v]) hlt hlt
    have hbyte : (addr = 0x2B ∨ addr = 0x2C) ↔ (addr.toNat = 0x2B ∨ addr.toNat = 0x2C) := by simp [← BitVec.toNat_inj]
    simp only [hbyte]
    exact ⟨_, hexec, State.reg_writeByte_plain (s := s.setEnv e) hs hp v, sameRegs_writeByte_plain (s := s.setEnv e) hp v,
      (s.setEnv e).opmod_writeByte _ v, lineFollows_writeByte (s.setEnv e) _ v, (s.setEnv e).aborting_writeByte v hctrl, hsent,
      hrun, hres⟩
  · obtain ⟨e, x, hexec, hsent, hrun, hres⟩ := exec_txnWrite_calm hc (addr := 0x2D) (data := [v]) (by decide) (by simp)
    obtain ⟨hsame, hline, hab⟩ := confined_writeByte (s := s.setEnv e) hs (a := 0x2D) (by decide) (by decide) (by decide) v
    refine ⟨_, hexec, ?_, hsame, hline, hab, hsent, hrun, hres⟩
    exact (State.reg_writeByte_written (direct_eflg (s.setEnv e)) hs.1 (by decide) rfl (by decide) v).trans (written_eflg _ v)

theorem clear_field (x m d c : Byte) : x &&& (((x &&& ~~~m) ||| (d &&& m)) ||| ~~~c) = x &&& ~~~(m &&& ~~~d &&& c) := by
  apply byte_ext
  intro i hi
  simp only [BitVec.getLsbD_or, BitVec.getLsbD_and, BitVec.getLsbD_not, hi]
  cases x.getLsbD i <;> cases m.getLsbD i <;> cases d.getLsbD i <;> cases c.getLsbD i <;> rfl

/-- `BITMOD` clears the overflow flags under the mask where the data has a 0. -/
theorem written_eflg_modified (old m d : Byte) :
    written 0x2D old ((old &&& ~~~m) ||| (d &&& m)) = old &&& ~~~(m &&& ~~~d &&& 0xC0) :=
  (written_eflg _ _).trans (clear_field old m d 0xC0)

/-- Settles O29: under a mask that is not 0 the computed byte is written, and its bits outside the mask are the register's own. -/
theorem bitmodPlainRegister : Obligations.BitmodPlainRegister := by
  refine ⟨fun s addr m d w hs hc hp => ?_, fun s m d hs hc => ?_⟩
  · obtain ⟨hlt, -, -, hctrl, -⟩ := plainRegisters_facts _ hp
    obtain ⟨e, x, hexec, hsent, hrun, hres⟩ := exec_txnBitmod_calm hc hlt m d
    have hbyte : (addr = 0x2B ∨ addr = 0x2C) ↔ (addr.toNat = 0x2B ∨ addr.toNat = 0x2C) := by simp [← BitVec.toNat_inj]
    simp only [hbyte]
    exact ⟨_, hexec, State.reg_bitModify_plain (s := s.setEnv e) hs hp m d,
      State.bitModify_of (s := s.setEnv e) (sameRegs_refl _ _) (fun v => sameRegs_writeByte_plain hp v) m d,
      State.bitModify_of (P := fun t => t.opmod = s.opmod) (s := s.setEnv e) rfl (fun v => State.opmod_writeByte _ _ v) m d,
      State.bitModify_of (s := s.setEnv e) (lineFollows_self hs) (fun v => lineFollows_writeByte _ _ v) m d,
      State.bitModify_of (P := fun t => t.aborting = s.aborting) (s := s.setEnv e) rfl
        (fun v => State.aborting_writeByte _ v hctrl) m d,
      hsent, hrun, hres⟩
  · obtain ⟨e, x, hexec, hsent, hrun, hres⟩ := exec_txnBitmod_calm hc (addr := 0x2D) (by decide) m d
    obtain ⟨hsame, hline, hab⟩ := confined_bitModify (s := s.setEnv e) hs (a := 0x2D) (by decide) (by decide) (by decide) m d
    refine ⟨_, hexec, ?_, hsame, hline, hab, hsent, hrun, hres⟩
    exact (State.reg_bitModify_written (s := s.setEnv e) hs (direct_eflg _) (by decide) (by decide) (by decide) m d).trans
      (written_eflg_modified _ _ _)

/-! ## The receive buffers -/

theorem rxb0_facts : configOnly (canon 0x60) = false ∧ isTxBody (canon 0x60) = false ∧ isTxCtrl (canon 0x60) = false ∧
    canon 0x60 ≠ 0x2C ∧ canon 0x60 ≠ 0x2B ∧ canon 0x60 ≠ 0x0E := by decide

theorem written_rxb0 (old v : Byte) : written 0x60 old v = (old &&& 0x09) ||| (v &&& 0x64) ||| ((v &&& 0x04) >>> 1) := by
  rw [written, if_neg (by decide), if_pos rfl]

/-- RXM and BUKT under a mask, and BUKT1 as BUKT (10_state.md R43). -/
theorem written_rxb0_modified (old m d : Byte) :
    written 0x60 old ((old &&& ~~~m) ||| (d &&& m)) &&& 0x6D = (old &&& 0x6D &&& ~~~(m &&& 0x64)) ||| (d &&& m &&& 0x64) ∧
      (written 0x60 old ((old &&& ~~~m) ||| (d &&& m))).getLsbD 1 = (written 0x60 old ((old &&& ~~~m) ||| (d &&& m))).getLsbD 2 := by
  rw [written_rxb0]
  constructor
  · apply byte_ext
    intro k hk
    interval_cases k <;> simp
  · simp

/-- The registers of a receive buffer are read-only (20_memory.md R88). -/
theorem rxBody_write_facts (slot : RxSlot) {i : Nat} (hi : i < 13) :
    configOnly ((rxSidh slot).toNat + i) = false ∧ isTxBody ((rxSidh slot).toNat + i) = false ∧
      wBits ((rxSidh slot).toNat + i) = 0x00 := by
  have h : ∀ slot ∈ [RxSlot.rxb0, .rxb1], ∀ i ∈ List.range 13,
      configOnly ((rxSidh slot).toNat + i) = false ∧ isTxBody ((rxSidh slot).toNat + i) = false ∧
      wBits ((rxSidh slot).toNat + i) = 0x00 := by decide
  exact h slot (by cases slot <;> decide) i (List.mem_range.2 hi)

theorem rxSidh_add_toNat (slot : RxSlot) {i : Nat} (hi : i < 13) :
    (rxSidh slot + BitVec.ofNat 8 i).toNat = (rxSidh slot).toNat + i := by
  have := rxSidh_le slot
  rw [BitVec.toNat_add, BitVec.toNat_ofNat]
  omega

theorem State.reg_of_canon (s : State) {a b : Nat} (h : canon b = canon a) : s.reg b = s.reg a := by
  rw [State.reg, State.reg, h]

/-- A register that holds what it held before is no exception. -/
theorem Confined.sameRegs_nil {a : Nat} {s t : State} (h : Confined a s t) (hreg : t.reg a = s.reg a) : SameRegs [] s t := by
  intro b hb _
  by_cases hc : canon b = canon a
  · rw [s.reg_of_canon hc, t.reg_of_canon hc, hreg]
  · exact h.1 b hb (by simpa using hc)

/-- A write to a register of a receive buffer changes nothing. -/
theorem writeByte_rxBody {s : State} (hs : s.Inv) (slot : RxSlot) {i : Nat} (hi : i < 13) (v : Byte) :
    SameRegs [] s (s.writeByte ((rxSidh slot).toNat + i) v) ∧ SameLine s (s.writeByte ((rxSidh slot).toNat + i) v) ∧
      (s.writeByte ((rxSidh slot).toNat + i) v).aborting = s.aborting := by
  obtain ⟨hreg, -, -, -, hctrl⟩ := rxBody_facts slot hi
  obtain ⟨hcfg, hbody, hw⟩ := rxBody_write_facts slot hi
  have hge := rxSidh_ge slot
  have hc := canon_of_mem hreg
  have hconf := confined_writeByte hs (a := (rxSidh slot).toNat + i) (by rw [hc]; omega) (by rw [hc]; omega)
    (by rwa [hc]) v
  have hsame : (s.writeByte ((rxSidh slot).toNat + i) v).reg ((rxSidh slot).toNat + i) = s.reg ((rxSidh slot).toNat + i) := by
    rw [State.reg_writeByte_written (direct_of_plain s (by rwa [hc]) (by rwa [hc])) hs.1 (mem_registerAddrs.1 hreg).1 rfl
      (by rw [hc]; show _ ≠ 0x0E; omega), hc, written_other ⟨hctrl, by omega, by omega⟩, hw, field_of_zero]
  exact ⟨hconf.sameRegs_nil hsame, hconf.2⟩

/-- Settles O23: RXB0CTRL is written directly, and no bit of the other registers is written. -/
theorem writeReceiveBuffer : Obligations.WriteReceiveBuffer := by
  obtain ⟨hcfg, hbody, hctrl, h2C, h2B, h0E⟩ := rxb0_facts
  refine ⟨fun s v hs hc => ?_, fun s m d hs hc => ?_, fun s slot i v hs hc hi => ?_⟩
  · obtain ⟨e, x, hexec, hsent, hrun, hres⟩ := exec_txnWrite_calm hc (addr := 0x60) (data := [v]) (by decide) (by simp)
    obtain ⟨hsame, hline, hab⟩ := confined_writeByte (s := s.setEnv e) hs h2C h2B hctrl v
    refine ⟨_, hexec, ?_, hsame, hline, hab, hsent, hrun, hres⟩
    exact (State.reg_writeByte_written (direct_of_plain (s.setEnv e) hcfg hbody) hs.1 (by decide) rfl h0E v).trans
      (written_rxb0 _ v)
  · obtain ⟨e, x, hexec, hsent, hrun, hres⟩ := exec_txnBitmod_calm hc (addr := 0x60) (by decide) m d
    obtain ⟨hsame, hline, hab⟩ := confined_bitModify (s := s.setEnv e) hs h2C h2B hctrl m d
    have hreg : (((s.setEnv e).bitModify 0x60 m d).record x).reg 0x60 = written 0x60 (s.reg 0x60) (s.modified 0x60 m d) :=
      State.reg_bitModify_written (s := s.setEnv e) hs (direct_of_plain _ hcfg hbody) (by decide) h0E hctrl m d
    obtain ⟨hbits, hcopy⟩ := written_rxb0_modified (s.reg 0x60) (s.modMask 0x60 m) d
    exact ⟨_, hexec, hreg ▸ hbits, hreg ▸ hcopy, hsame, hline, hab, hsent, hrun, hres⟩
  · have haddr := rxSidh_add_toNat slot hi
    have hlt := (mem_registerAddrs.1 (rxBody_facts slot hi).1).1
    obtain ⟨e, x, hexec, hsent, hrun, hres⟩ := exec_txnWrite_calm hc (addr := rxSidh slot + BitVec.ofNat 8 i) (data := [v])
      (by omega) (by simp; omega)
    rw [haddr] at hexec hsent hrun hres
    obtain ⟨hsame, hline, hab⟩ := writeByte_rxBody (s := s.setEnv e) hs slot hi v
    exact ⟨_, hexec, hsame, hline, hab, hsent, hrun, hres⟩

/-! ## The registers of the Configuration mode -/

set_option maxRecDepth 100000 in
/-- What the table of the Configuration-only registers says of the map. -/
theorem configurationRegisters_facts :
    ∀ p ∈ configurationRegisters, p.1 < 128 ∧ canon p.1 = p.1 ∧ p.1 ≠ 0x0E ∧ p.1 ≠ 0x2C ∧
    p.1 ≠ 0x2B ∧ (isTxCtrl p.1 = false ∧ p.1 ≠ 0x60 ∧ p.1 ≠ 0x2D) ∧ isTxBody p.1 = false ∧ configOnly p.1 = true ∧
    wBits p.1 = p.2 := by
  decide

section

variable {s : State} (hs : s.Inv) {a : Nat} {w : Byte} (hp : (a, w) ∈ configurationRegisters)

include hs hp

/-- Outside Configuration mode a draw decides between the old and the written value (20_memory.md R78). -/
theorem State.reg_writeByte_config (v : Byte) :
    (s.writeByte a v).reg a = written a (s.reg a) v ∨ (¬ s.inConfiguration ∧ (s.writeByte a v).reg a = s.reg a) := by
  obtain ⟨hlt, hc, h0E, -, -, -, hbody, hcfg, -⟩ := configurationRegisters_facts (a, w) hp
  have hold := State.normal_reg hs.1 hlt (by rwa [hc])
  have hmem := canon_mem hlt
  rcases s.writeByte_cases a v with ⟨⟨-, hmode⟩, h⟩ | ⟨-, hpend, -⟩ | ⟨hno, hpend, -⟩
  · have hreg : (s.writeByte a v).reg a =
        normal a (if s.env.draw.1.getLsbD 0 then merge a v (s.reg a) else s.reg a) := by
      have hself := State.reg_setReg_self (s.setEnv s.env.draw.2) (a := canon a) (b := a)
        (if s.env.draw.1.getLsbD 0 then merge (canon a) v (s.reg a) else s.reg a) (canon_canon a).symm
        (by rwa [canon_canon, hc])
      rw [canon_canon, hc] at hself
      rw [h, hc]
      exact hself
    rw [hc] at hold hmem
    split at hreg
    · exact .inl (hreg.trans (normal_merge v hmem h0E hold))
    · exact .inr ⟨hmode, hreg.trans hold⟩
  · rw [hc, State.pendingTx, hbody] at hpend
    cases hpend
  · have h := State.reg_writeByte_written ⟨hno, hpend⟩ hs.1 hlt rfl (by rwa [hc]) v
    rw [hc] at h
    exact .inl h

theorem State.reg_bitModify_config (m d : Byte) :
    (s.bitModify a m d).reg a = written a (s.reg a) (s.modified a m d) ∨
      (¬ s.inConfiguration ∧ (s.bitModify a m d).reg a = s.reg a) := by
  obtain ⟨hlt, hc, h0E, -, -, ⟨hctrl, -, -⟩, -⟩ := configurationRegisters_facts (a, w) hp
  rw [s.bitModify_eq]
  split
  · next h =>
    have hold := State.normal_reg hs.1 hlt (by rwa [hc])
    rw [hc] at hold
    rw [s.modified_of_zero h, written_self hctrl hold]
    exact .inl rfl
  · exact State.reg_writeByte_config hs hp _

end

/-- Settles O24: in Configuration mode the write is direct, and in another mode a draw decides. -/
theorem writeConfigurationRegister : Obligations.WriteConfigurationRegister := by
  intro s addr v w hs hc hp
  obtain ⟨hlt, hcanon, h0E, h2C, h2B, hother, -, -, hw⟩ := configurationRegisters_facts _ hp
  obtain ⟨e, x, hexec, hsent, hrun, hres⟩ := exec_txnWrite_calm hc (data := [v]) hlt hlt
  obtain ⟨hsame, hline, hab⟩ := confined_writeByte (s := s.setEnv e) hs (a := addr.toNat) (by rwa [hcanon]) (by rwa [hcanon])
    (by rw [hcanon]; exact hother.1) v
  rw [hcanon] at hsame
  refine ⟨_, hexec, ?_, hsame, hline, hab, hsent, hrun, hres⟩
  have h := State.reg_writeByte_config (s := s.setEnv e) hs hp v
  rw [written_other hother, hw] at h
  exact h

/-! ## TXBnCTRL -/

theorem written_txCtrl (slot : TxSlot) (old v : Byte) : written (txCtrl slot).toNat old v =
    if v.getLsbD 3 then v &&& 0x0B else (old &&& 0x70) ||| (v &&& 0x03) := by
  rw [written, if_pos (by cases slot <;> decide)]

theorem State.reg_writeByte_txCtrl {s : State} (hs : s.Inv) (slot : TxSlot) (v : Byte) :
    (s.writeByte (txCtrl slot).toNat v).reg (txCtrl slot).toNat =
      if v.getLsbD 3 then v &&& 0x0B else (s.reg (txCtrl slot).toNat &&& 0x70) ||| (v &&& 0x03) := by
  rw [State.reg_writeByte_written (direct_txCtrl s slot) hs.1 (txCtrl_lt slot) rfl (by cases slot <;> decide), canon_txCtrl,
    written_txCtrl]

theorem txPending_eq (s : State) (slot : TxSlot) : s.txPending slot = (s.reg (txCtrl slot).toNat).getLsbD 3 :=
  anySet_txreq _

/-- A write to TXBnCTRL ends the slot's request to abort, or makes one (20_memory.md R87). -/
theorem State.mem_aborting_writeByte (s : State) (slot x : TxSlot) (v : Byte) :
    x ∈ (s.writeByte (txCtrl slot).toNat v).aborting ↔
      if x = slot then v.getLsbD 3 = false ∧ (s.txPending slot = true ∨ x ∈ s.aborting) else x ∈ s.aborting := by
  rw [State.aborting_writeCtrl, mem_abortsAfter, anySet_txreq]
  rfl

theorem sameRegs_writeByte_txCtrl (s : State) (slot : TxSlot) (v : Byte) :
    SameRegs [(txCtrl slot).toNat] s (s.writeByte (txCtrl slot).toNat v) := by
  have h := (sameRegs_writeByte s (txCtrl slot).toNat v).2 (by cases slot <;> decide) (by cases slot <;> decide)
  rwa [canon_txCtrl] at h

theorem sameLine_writeByte_txCtrl {s : State} (hs : s.Inv) (slot : TxSlot) (v : Byte) :
    SameLine s (s.writeByte (txCtrl slot).toNat v) :=
  sameLine_writeByte v hs.2.1 (by cases slot <;> decide) (by cases slot <;> decide)

/-- Settles O25: TXBnCTRL is written directly, and the write notes the request to abort. -/
theorem writeTransmitControl : Obligations.WriteTransmitControl := by
  intro s slot v hs hc
  have hlt := txCtrl_lt slot
  obtain ⟨e, x, hexec, hsent, hrun, hres⟩ := exec_txnWrite_calm hc (addr := txCtrl slot) (data := [v]) hlt hlt
  have hab := (s.setEnv e).mem_aborting_writeByte slot (v := v)
  refine ⟨_, hexec, State.reg_writeByte_txCtrl (s := s.setEnv e) hs slot v, (hab slot).trans (by rw [if_pos rfl]; rfl),
    fun y hy => (hab y).trans (by rw [if_neg hy]; rfl), sameRegs_writeByte_txCtrl (s.setEnv e) slot v,
    sameLine_writeByte_txCtrl (s := s.setEnv e) hs slot v, hsent, hrun, hres⟩

/-- The byte that a `BITMOD` of TXBnCTRL leaves, under a mask `w` that is not 0; bits 7 and 2 do not exist (10_state.md R37). -/
theorem txCtrl_modified (old w d : Byte) (hold : old &&& 0x7B = old) :
    (if ((old &&& ~~~w) ||| (d &&& w)).getLsbD 3 then ((old &&& ~~~w) ||| (d &&& w)) &&& 0x0B
      else (old &&& 0x70) ||| (((old &&& ~~~w) ||| (d &&& w)) &&& 0x03)) =
    ((if ((old &&& ~~~w) ||| (d &&& w)).getLsbD 3 then old &&& 0x0F else old) &&& ~~~(w &&& 0x0B)) ||| (d &&& (w &&& 0x0B)) := by
  have h2 : old.getLsbD 2 = false := by
    rw [← hold]
    simp
  have h7 : old.getLsbD 7 = false := by
    rw [← hold]
    simp
  cases h : ((old &&& ~~~w) ||| (d &&& w)).getLsbD 3
  all_goals
    apply byte_ext
    intro k hk
    interval_cases k <;> simp_all

theorem getLsbD_modified (old w d : Byte) {i : Nat} (hi : i < 8) :
    ((old &&& ~~~w) ||| (d &&& w)).getLsbD i = if w.getLsbD i then d.getLsbD i else old.getLsbD i := by
  simp only [BitVec.getLsbD_or, BitVec.getLsbD_and, BitVec.getLsbD_not, hi]
  cases w.getLsbD i <;> simp

/-- What a `BITMOD` of TXBnCTRL leaves in the register. -/
theorem State.reg_bitModify_txCtrl {s : State} (hs : s.Inv) (slot : TxSlot) (m d : Byte) :
    (s.bitModify (txCtrl slot).toNat m d).reg (txCtrl slot).toNat =
      ((if s.modMask (txCtrl slot).toNat m ≠ 0 ∧ (s.modified (txCtrl slot).toNat m d).getLsbD 3 = true
          then s.reg (txCtrl slot).toNat &&& 0x0F else s.reg (txCtrl slot).toNat) &&&
        ~~~(s.modMask (txCtrl slot).toNat m &&& 0x0B)) ||| (d &&& (s.modMask (txCtrl slot).toNat m &&& 0x0B)) := by
  have hold := and_eq_of_normal hs.1 (txCtrl_lt slot) (canon_txCtrl slot) (by cases slot <;> decide) (by cases slot <;> decide)
  rw [show implMask (txCtrl slot).toNat = 0x7B by cases slot <;> decide] at hold
  rw [s.bitModify_eq]
  by_cases hz : s.modMask (txCtrl slot).toNat m = 0
  · rw [if_pos hz, hz, if_neg (fun h => h.1 rfl), show (0 : Byte) &&& 0x0B = 0 from rfl, field_of_zero]
  · rw [if_neg hz, State.reg_writeByte_txCtrl hs]
    simp only [ne_eq, hz, not_false_eq_true, true_and]
    exact txCtrl_modified _ _ _ hold

/-- And of the requests to abort. -/
theorem State.mem_aborting_bitModify (s : State) (slot x : TxSlot) (m d : Byte) :
    x ∈ (s.bitModify (txCtrl slot).toNat m d).aborting ↔
      if x = slot ∧ s.modMask (txCtrl slot).toNat m ≠ 0 then
        (s.modified (txCtrl slot).toNat m d).getLsbD 3 = false ∧ (s.txPending slot = true ∨ x ∈ s.aborting)
      else x ∈ s.aborting := by
  rw [s.bitModify_eq]
  by_cases hz : s.modMask (txCtrl slot).toNat m = 0
  · simp [hz]
  · rw [if_neg hz, s.mem_aborting_writeByte]
    simp only [ne_eq, hz, not_false_eq_true, and_true]

/-- Settles O30: the byte that is written asks for a transmission exactly if TXREQ is set in it, by the data or from before. -/
theorem bitmodTransmitControl : Obligations.BitmodTransmitControl := by
  intro s slot m d hs hc
  obtain ⟨e, x, hexec, hsent, hrun, hres⟩ := exec_txnBitmod_calm hc (txCtrl_lt slot) m d
  have hrequest : (s.modified (txCtrl slot).toNat m d).getLsbD 3 =
      if (s.modMask (txCtrl slot).toNat m).getLsbD 3 then d.getLsbD 3 else s.txPending slot := by
    rw [txPending_eq]
    exact getLsbD_modified _ _ _ (by omega)
  have hreg := State.reg_bitModify_txCtrl (s := s.setEnv e) hs slot m d
  have hab (y : TxSlot) := (s.setEnv e).mem_aborting_bitModify slot y m d
  refine ⟨_, hexec, ⟨?_, ?_⟩, fun y hy => (hab y).trans (by rw [if_neg (fun h => hy h.1)]; rfl),
    State.bitModify_of (s := s.setEnv e) (sameRegs_refl _ _) (fun v => sameRegs_writeByte_txCtrl _ slot v) m d,
    State.bitModify_of (s := s.setEnv e) ⟨rfl, rfl⟩ (fun v => sameLine_writeByte_txCtrl (s := s.setEnv e) hs slot v) m d, hsent,
    hrun, hres⟩
  · rw [← hrequest]
    exact hreg
  · rw [← hrequest]
    refine (hab slot).trans ?_
    by_cases hz : s.modMask (txCtrl slot).toNat m = 0
    · rw [if_neg (fun h => h.2 hz), if_pos hz]
      rfl
    · rw [if_pos ⟨rfl, hz⟩, if_neg hz]
      rfl

/-! ## The corners of `BIT MODIFY` -/

/-- The registers of a transmit buffer from SIDH on. -/
theorem txBody_facts (slot : TxSlot) {i : Nat} (hi : i < 13) :
    (txSidh slot).toNat + i ∈ registerAddrs ∧ configOnly ((txSidh slot).toNat + i) = false ∧
      isTxBody ((txSidh slot).toNat + i) = true ∧ txSlotOf ((txSidh slot).toNat + i) = some slot ∧
      isTxCtrl ((txSidh slot).toNat + i) = false ∧ wBits ((txSidh slot).toNat + i) = txBodyBits i := by
  have h : ∀ slot ∈ [TxSlot.txb0, .txb1, .txb2], ∀ i ∈ List.range 13,
      (txSidh slot).toNat + i ∈ registerAddrs ∧ configOnly ((txSidh slot).toNat + i) = false ∧
      isTxBody ((txSidh slot).toNat + i) = true ∧ txSlotOf ((txSidh slot).toNat + i) = some slot ∧
      isTxCtrl ((txSidh slot).toNat + i) = false ∧ wBits ((txSidh slot).toNat + i) = txBodyBits i := by decide
  exact h slot (by cases slot <;> decide) i (List.mem_range.2 hi)

theorem txSidh_range (slot : TxSlot) : 0x30 < (txSidh slot).toNat ∧ (txSidh slot).toNat + 13 ≤ 0x60 := by
  cases slot <;> decide

theorem txSidh_add_toNat (slot : TxSlot) {i : Nat} (hi : i < 13) :
    (txSidh slot + BitVec.ofNat 8 i).toNat = (txSidh slot).toNat + i := by
  have := txSidh_le slot
  rw [BitVec.toNat_add, BitVec.toNat_ofNat]
  omega

/-- While its buffer is not pending a register of it is written directly (40_serial_transactions.md R167). -/
theorem direct_txBody {s : State} {slot : TxSlot} (hp : s.txPending slot = false) {i : Nat} (hi : i < 13) :
    s.direct ((txSidh slot).toNat + i) := by
  obtain ⟨hreg, hcfg, hbody, hslot, -⟩ := txBody_facts slot hi
  have hc := canon_of_mem hreg
  refine ⟨fun h => ?_, ?_⟩
  · rw [hc, hcfg] at h
    exact Bool.false_ne_true h.1
  · rw [hc, State.pendingTx, hbody, hslot]
    exact hp

/-- Settles O31: each register takes the byte that is computed, except that a draw decides outside Configuration mode, that the
receive buffers have no W bits, and that a mask of 0 ends the instruction. -/
theorem bitmodMaskCorners : Obligations.BitmodMaskCorners := by
  refine ⟨fun s addr m d w hs hc hp => ?_, fun s slot i m d hs hc hi hpend => ?_, fun s slot i m d hs hc hi => ?_,
    fun s addr d hs hc hlt hmod => ?_⟩
  · obtain ⟨hlt, hcanon, h0E, h2C, h2B, hother, -, -, hw⟩ := configurationRegisters_facts _ hp
    obtain ⟨e, x, hexec, hsent, hrun, hres⟩ := exec_txnBitmod_calm hc hlt m d
    obtain ⟨hsame, hline, hab⟩ := confined_bitModify (s := s.setEnv e) hs (a := addr.toNat) (by rwa [hcanon]) (by rwa [hcanon])
      (by rw [hcanon]; exact hother.1) m d
    rw [hcanon] at hsame
    refine ⟨_, hexec, ?_, hsame, hline, hab, hsent, hrun, hres⟩
    have h := State.reg_bitModify_config (s := s.setEnv e) hs hp m d
    have hval := (s.setEnv e).written_modified (a := addr.toNat) (by rwa [hcanon]) m d
    rw [hcanon, hw] at hval
    rw [hval] at h
    exact h
  · obtain ⟨hreg, -, -, -, hctrl, hw⟩ := txBody_facts slot hi
    have haddr := txSidh_add_toNat slot hi
    have hlt := (mem_registerAddrs.1 hreg).1
    have hrange := txSidh_range slot
    obtain ⟨e, x, hexec, hsent, hrun, hres⟩ := exec_txnBitmod_calm hc (addr := txSidh slot + BitVec.ofNat 8 i) (by omega) m d
    rw [haddr] at hexec hsent hrun hres
    have hcanon := canon_of_mem hreg
    have hd : (s.setEnv e).direct ((txSidh slot).toNat + i) := direct_txBody hpend hi
    have hne : ∀ b, b < 0x30 ∨ 0x60 ≤ b → (txSidh slot).toNat + i ≠ b := fun b hb => by omega
    generalize (txSidh slot).toNat + i = a at *
    obtain ⟨hsame, hline, hab⟩ := confined_bitModify (s := s.setEnv e) hs (a := a) (by rw [hcanon]; exact hne _ (by omega))
      (by rw [hcanon]; exact hne _ (by omega)) (by rwa [hcanon]) m d
    rw [hcanon] at hsame
    refine ⟨_, hexec, ?_, hsame, hline, hab, hsent, hrun, hres⟩
    have h := State.reg_bitModify_written (s := s.setEnv e) hs hd hlt (by rw [hcanon]; exact hne _ (by omega)) (by rwa [hcanon]) m d
    rw [State.written_modified _ (by rw [hcanon]; exact ⟨hctrl, hne _ (by omega), hne _ (by omega)⟩), hcanon, hw] at h
    exact h
  · have haddr := rxSidh_add_toNat slot hi
    have hlt := (mem_registerAddrs.1 (rxBody_facts slot hi).1).1
    obtain ⟨e, x, hexec, hsent, hrun, hres⟩ := exec_txnBitmod_calm hc (addr := rxSidh slot + BitVec.ofNat 8 i) (by omega) m d
    rw [haddr] at hexec hsent hrun hres
    obtain ⟨hsame, hline, hab⟩ := State.bitModify_of (s := s.setEnv e) (a := (rxSidh slot).toNat + i)
      (P := fun t => SameRegs [] s t ∧ SameLine s t ∧ t.aborting = s.aborting) ⟨sameRegs_refl _ s, ⟨rfl, rfl⟩, rfl⟩
      (fun v => writeByte_rxBody (s := s.setEnv e) hs slot hi v) m d
    exact ⟨_, hexec, hsame, hline, hab, hsent, hrun, hres⟩
  · obtain ⟨e, x, hexec, hsent, hrun, hres⟩ := exec_txnBitmod_calm hc hlt 0x00 d
    have hnone : (s.setEnv e).bitModify addr.toNat 0x00 d = s.setEnv e := by
      rw [State.bitModify_eq, if_pos]
      exact if_pos hmod
    rw [hnone] at hexec hsent hrun hres
    exact ⟨_, hexec, sameRegs_refl _ s, ⟨rfl, rfl⟩, rfl, hsent, hrun, hres⟩

/-! ## Addresses that are refused -/

theorem blockOk_eq_false {addr : Byte} {n : Nat} (h : addr.toNat ≥ 128 ∨ addr.toNat + n > 128) : ¬ blockOk addr n = true := by
  intro hok
  have h1 := addr_lt_of_blockOk hok
  have h2 := block_le_of_blockOk hok
  omega

/-- Settles O32: every operation on a block checks it before its transaction. -/
theorem otherAddressesAreRefused : Obligations.OtherAddressesAreRefused := by
  intro s addr n hn
  have refused {k : Nat} (hk : k = n) {t : State} : (if blockOk addr k = true then t else s.refuse) = s.refuse :=
    if_neg (hk ▸ blockOk_eq_false hn)
  refine ⟨fun xs hxs => ⟨congrArg _ (refused hxs), congrArg _ (refused hxs), congrArg _ (refused hxs)⟩,
    congrArg _ (refused rfl), fun h1 m d => ?_⟩
  exact ⟨congrArg _ (refused h1.symm), congrArg _ (refused h1.symm), congrArg _ (refused h1.symm), congrArg _ (refused h1.symm)⟩

/-! ## A block of bytes -/

/-- The registers that a block meets, and CANSTAT. -/
def blockRegs (a n : Nat) : List Nat := 0x0E :: (List.range n).map fun i => canon (a + i)

theorem mem_blockRegs {a n b : Nat} : b ∈ blockRegs a n ↔ b = 0x0E ∨ ∃ i, i < n ∧ canon (a + i) = b := by
  simp [blockRegs]

/-- No register outside the block changes, but for CANSTAT (20_memory.md R100). -/
theorem sameRegs_writeBlock (data : List Byte) (s : State) (a : Nat) :
    SameRegs (blockRegs a data.length) s (s.writeBlock a data) := by
  induction data generalizing s a with
  | nil => exact sameRegs_refl _ s
  | cons v r ih =>
    refine ((sameRegs_writeByte s a v).1.mono fun b hb => ?_).trans ((ih (s.writeByte a v) (a + 1)).mono fun b hb => ?_)
    · rw [mem_blockRegs]
      simp only [List.mem_cons, List.not_mem_nil, or_false] at hb
      exact hb.symm.imp id fun h => ⟨0, by simp, h.symm⟩
    · rw [mem_blockRegs] at hb ⊢
      refine hb.imp id fun ⟨i, hi, h⟩ => ⟨i + 1, by simpa using hi, ?_⟩
      rwa [Nat.add_assoc, Nat.add_comm 1 i] at h

theorem State.opmod_writeBlock (data : List Byte) (s : State) (a : Nat) : (s.writeBlock a data).opmod = s.opmod := by
  induction data generalizing s a with
  | nil => rfl
  | cons v r ih => exact (ih _ _).trans (s.opmod_writeByte a v)

/-- A register that only the mirrors of CANCTRL share takes the last byte that is written to it. -/
theorem written_canctrl (x y v : Byte) : written 0x0F x v = written 0x0F y v := by
  have hw : wBits 0x0F = 0xFF := by decide
  have h (z : Byte) : written 0x0F z v = v := by
    rw [written_other (by decide), hw, and_ff, show (~~~0xFF : Byte) = 0#8 from rfl, BitVec.and_zero, BitVec.zero_or]
  rw [h, h]

/-- Two addresses of one register are mirrors of CANSTAT or of CANCTRL (20_memory.md R76). -/
theorem canon_eq_canon {a b : Nat} (hab : a ≠ b) (h : canon a = canon b) : canon a = 0x0E ∨ canon a = 0x0F := by
  rw [canon_eq, canon_eq] at h
  rw [canon_eq]
  split_ifs at h ⊢ <;> omega

set_option maxRecDepth 100000 in
/-- Where a draw may decide what a write leaves (20_memory.md R78; 40_serial_transactions.md R167). -/
theorem drawn_facts : ∀ a ∈ List.range 128,
    (configOnly (canon a) = true → a ∈ configurationRegisters.map Prod.fst) ∧
    ∀ slot ∈ [TxSlot.txb0, .txb1, .txb2], isTxBody (canon a) = true → txSlotOf (canon a) = some slot →
      a ∈ txBody slot ∧ (txCtrl slot).toNat < a := by
  decide

/-- A byte that lands is written directly. -/
theorem direct_of_lands {s : State} {a : Nat} {v : Byte} {r : List Byte} (h : Lands s a (v :: r) 0) (ha : a < 128) :
    s.direct a := by
  obtain ⟨hconf, hpend, -⟩ := h
  obtain ⟨hcfg, hbody⟩ := drawn_facts a (List.mem_range.2 ha)
  refine ⟨fun h => h.2 (hconf (hcfg h.1)), ?_⟩
  unfold State.pendingTx
  cases htx : isTxBody (canon a)
  · rfl
  · cases hslot : txSlotOf (canon a) with
    | none => rfl
    | some slot =>
      have hmem : slot ∈ [TxSlot.txb0, .txb1, .txb2] := by cases slot <;> decide
      obtain ⟨hin, hlt⟩ := hbody slot hmem htx hslot
      have hp := hpend slot hmem hin
      rw [if_neg (by omega)] at hp
      exact hp

/-- TXBnCTRL has no mirror. -/
theorem canon_eq_txCtrl {a : Nat} {slot : TxSlot} (h : canon a = (txCtrl slot).toNat) : a = (txCtrl slot).toNat := by
  by_contra hne
  have hno : (txCtrl slot).toNat ≠ 0x0E ∧ (txCtrl slot).toNat ≠ 0x0F := by cases slot <;> decide
  rcases canon_eq_canon hne (h.trans (canon_txCtrl slot).symm) with h' | h' <;> omega

/-- A write elsewhere leaves TXBnCTRL alone. -/
theorem txPending_writeByte_of_ne (s : State) {a : Nat} (v : Byte) {slot : TxSlot} (h : a ≠ (txCtrl slot).toNat) :
    (s.writeByte a v).txPending slot = s.txPending slot := by
  have h0E : (txCtrl slot).toNat ≠ 0x0E := by cases slot <;> decide
  refine congrArg (anySet · txreqBit) ((sameRegs_writeByte s a v).1 _ (txCtrl_lt slot) fun hm => ?_)
  rw [canon_txCtrl] at hm
  rcases List.mem_cons.1 hm with hm | hm
  · exact h (canon_eq_txCtrl hm.symm)
  · exact h0E (List.mem_singleton.1 hm)

/-- After its first byte the rest of a block lands where the block does. -/
theorem Lands.tail {s : State} (hs : s.Inv) {a : Nat} {v : Byte} {r : List Byte} {i : Nat} (h : Lands s a (v :: r) (i + 1)) :
    Lands (s.writeByte a v) (a + 1) r i := by
  obtain ⟨hconf, hpend, hlast⟩ := h
  have hadd : a + 1 + i = a + (i + 1) := by omega
  refine ⟨fun hm => ?_, fun slot hslot hm => ?_, fun j hj hij => ?_⟩
  · exact (s.opmod_writeByte a v).trans (hconf (by rwa [hadd] at hm))
  · have hp := hpend slot hslot (by rwa [hadd] at hm)
    rcases Nat.lt_trichotomy a (txCtrl slot).toNat with hlt | heq | hgt
    · rw [if_pos (by omega), show (txCtrl slot).toNat - a = (txCtrl slot).toNat - (a + 1) + 1 by omega,
        List.getD_cons_succ] at hp
      rwa [if_pos (by omega)]
    · rw [if_pos (by omega), ← heq, Nat.sub_self, List.getD_cons_zero] at hp
      rw [if_neg (by omega), txPending_eq, heq, State.reg_writeByte_txCtrl hs, hp, if_neg Bool.false_ne_true,
        BitVec.getLsbD_or, BitVec.getLsbD_and, BitVec.getLsbD_and, hp]
      simp
    · rw [if_neg (by omega)] at hp ⊢
      rwa [txPending_writeByte_of_ne s v (by omega)]
  · have := hlast (j + 1) (by simpa using hj) (by omega)
    rwa [hadd, show a + 1 + j = a + (j + 1) by omega]

/-- Every byte of a block that lands is written to its register. -/
theorem State.reg_writeBlock (data : List Byte) {s : State} (hs : s.Inv) {a : Nat} (ha : a + data.length ≤ 128) (i : Nat)
    (hi : i < data.length) (hl : Lands s a data i) (h14 : (a + i) % 16 ≠ 14) :
    (s.writeBlock a data).reg (a + i) = written (canon (a + i)) (s.reg (a + i)) data[i] := by
  induction data generalizing s a i with
  | nil => cases hi
  | cons v r ih =>
    rw [List.length_cons] at ha
    have h0E : canon (a + i) ≠ 0x0E := by
      rw [canon_eq, if_neg h14]
      split <;> omega
    cases i with
    | zero =>
      have hrest := sameRegs_writeBlock r (s.writeByte a v) (a + 1) a (by omega) ?_
      · refine hrest.trans ?_
        exact State.reg_writeByte_written (direct_of_lands hl (by omega)) hs.1 (by omega) rfl h0E v
      · rw [mem_blockRegs, not_or]
        refine ⟨h0E, fun ⟨j, hj, h⟩ => hl.2.2 (j + 1) (by simpa using hj) (by omega) ?_⟩
        rwa [Nat.add_assoc, Nat.add_comm 1 j] at h
    | succ k =>
      have hadd : a + (k + 1) = a + 1 + k := by omega
      have hrec := ih ((chip_writeByte s v (by omega)).reaches.inv hs) (a := a + 1) (by omega) k (by simpa using hi) (hl.tail hs)
        (by rwa [← hadd])
      rw [← hadd] at hrec
      refine hrec.trans ?_
      rw [List.getElem_cons_succ]
      by_cases hc : canon (a + (k + 1)) = canon a
      · have h0F : canon (a + (k + 1)) = 0x0F := (canon_eq_canon (by omega) hc).resolve_left h0E
        rw [h0F]
        exact written_canctrl _ _ _
      · rw [(sameRegs_writeByte s a v).1 (a + (k + 1)) (by simp at hi; omega) fun hm => ?_]
        rcases List.mem_cons.1 hm with hm | hm
        · exact hc hm
        · exact h0E (List.mem_singleton.1 hm)

/-- A block that leaves TXBnCTRL out makes and ends no request to abort of that buffer. -/
theorem State.mem_aborting_writeBlock (data : List Byte) (s : State) {a : Nat} {x : TxSlot} (ha : a + data.length ≤ 128)
    (h : ∀ i, i < data.length → a + i ≠ (txCtrl x).toNat) : x ∈ (s.writeBlock a data).aborting ↔ x ∈ s.aborting := by
  induction data generalizing s a with
  | nil => exact Iff.rfl
  | cons v r ih =>
    rw [List.length_cons] at ha h
    refine (ih (s.writeByte a v) (a := a + 1) (by omega) fun i hi => ?_).trans ?_
    · rw [Nat.add_assoc, Nat.add_comm 1 i]
      exact h (i + 1) (by omega)
    · cases hctrl : isTxCtrl (canon a)
      · rw [s.aborting_writeByte v hctrl]
      · obtain ⟨y, hy⟩ : ∃ y, canon a = (txCtrl y).toNat := by
          rcases isTxCtrl_cases hctrl with hc | hc | hc
          · exact ⟨.txb0, hc⟩
          · exact ⟨.txb1, hc⟩
          · exact ⟨.txb2, hc⟩
        have hne : x ≠ y := fun hxy => h 0 (by omega) (hxy ▸ canon_eq_txCtrl hy)
        rw [canon_eq_txCtrl hy, s.mem_aborting_writeByte, if_neg hne]

/-- Settles O26, by induction on the block: the first byte is written, and the rest of the block lands as before. -/
theorem writeBlockFrame : Obligations.WriteBlockFrame := by
  intro s addr data hs hc ha hlen
  obtain ⟨e, x, hexec, hsent, hrun, hres⟩ := exec_txnWrite_calm hc ha hlen
  refine ⟨_, hexec, fun i hi hl h14 => State.reg_writeBlock data (s := s.setEnv e) hs hlen i hi hl h14,
    sameRegs_writeBlock data (s.setEnv e) addr.toNat, State.opmod_writeBlock data (s.setEnv e) addr.toNat,
    (chip_writeBlock data (s.setEnv e) hlen).level hs.2.1, fun y hy => State.mem_aborting_writeBlock data (s.setEnv e) hlen hy, hsent,
    hrun, hres⟩

end Sys2Proof.Machine

/-! SUPPORT. The decoder and the encoder of the serial instructions are inverse to each other (30_encoding.md R121-R129), and bytes
outside the fifteen formats set the refusal mark only (R133). -/

namespace Sys2Proof

/-! ## What each opcode byte decodes to -/

@[simp] theorem decode_nil : decode [] = .error .emptyTransaction := rfl

section

variable (rest : List Byte)

@[simp] theorem decode_reset : decode (Opcode.reset :: rest) = decodeCmd Opcode.reset rest .txnReset := rfl
@[simp] theorem decode_read : decode (Opcode.read :: rest) = decodeAddr Opcode.read rest .txnRead := rfl
@[simp] theorem decode_write : decode (Opcode.write :: rest) = decodeAddr Opcode.write rest .txnWrite := rfl
@[simp] theorem decode_bitmod : decode (Opcode.bitmod :: rest) = decodeBitmod Opcode.bitmod rest := rfl
@[simp] theorem decode_readStatus : decode (Opcode.readStatus :: rest) = .ok (.txnReadStatus rest) := rfl
@[simp] theorem decode_rxStatus : decode (Opcode.rxStatus :: rest) = .ok (.txnRxStatus rest) := rfl
@[simp] theorem decode_readRx0 : decode (Opcode.readRx0 :: rest) = .ok (.txnReadRx0 rest) := rfl
@[simp] theorem decode_readRx1 : decode (Opcode.readRx1 :: rest) = .ok (.txnReadRx1 rest) := rfl
@[simp] theorem decode_loadTx0 : decode (Opcode.loadTx0 :: rest) = .ok (.txnLoadTx0 rest) := rfl
@[simp] theorem decode_loadTx1 : decode (Opcode.loadTx1 :: rest) = .ok (.txnLoadTx1 rest) := rfl
@[simp] theorem decode_loadTx2 : decode (Opcode.loadTx2 :: rest) = .ok (.txnLoadTx2 rest) := rfl
@[simp] theorem decode_rtsTx0 : decode (Opcode.rtsTx0 :: rest) = decodeCmd Opcode.rtsTx0 rest .txnRtsTx0 := rfl
@[simp] theorem decode_rtsTx1 : decode (Opcode.rtsTx1 :: rest) = decodeCmd Opcode.rtsTx1 rest .txnRtsTx1 := rfl
@[simp] theorem decode_rtsTx2 : decode (Opcode.rtsTx2 :: rest) = decodeCmd Opcode.rtsTx2 rest .txnRtsTx2 := rfl
@[simp] theorem decode_rtsAll : decode (Opcode.rtsAll :: rest) = decodeCmd Opcode.rtsAll rest .txnRtsAll := rfl

end

/-- Settles O1: each word starts with an opcode byte of R124 and has the length of its format. -/
theorem writtenWordsDecode : Obligations.WrittenWordsDecode :=
  ⟨decode_reset _, decode_read _, decode_write _, decode_bitmod _, decode_readStatus _, decode_rxStatus _, decode_readRx0 _,
    decode_readRx1 _, decode_loadTx0 _, decode_loadTx1 _, decode_loadTx2 _, decode_rtsTx0 _, decode_rtsTx1 _, decode_rtsTx2 _,
    decode_rtsAll _⟩

/-! ## Decoding and encoding are inverse -/

/-- Settles O2, by the instruction: its bytes start with its own opcode byte, under which the decoder reads its format back. -/
theorem decodeOfEncode : Obligations.DecodeOfEncode := by
  intro i bytes h
  cases i with
  | txnReset | txnRtsTx0 | txnRtsTx1 | txnRtsTx2 | txnRtsAll => cases h; simp
  | txnRead | txnWrite => cases h; simp
  | txnBitmod => cases h; simp
  | txnReadStatus | txnRxStatus | txnReadRx0 | txnReadRx1 => cases h; simp
  | txnLoadTx0 | txnLoadTx1 | txnLoadTx2 => cases h; simp
  | _ => cases h

section

variable {op : Byte} {rest : List Byte} {j : Instr}

/-- F-CMD (R121): what is decoded is encoded as the opcode byte alone, which is all there was. -/
theorem encode_of_decodeCmd {i : Instr} (h : decodeCmd op rest i = .ok j) (hi : encode i = some [op]) :
    encode j = some (op :: rest) := by
  obtain ⟨rfl, rfl⟩ := decodeCmd_ok.1 h
  exact hi

/-- F-RD and F-WR (R122, R123). -/
theorem encode_of_decodeAddr {f : Byte → List Byte → Instr} (h : decodeAddr op rest f = .ok j)
    (hf : ∀ a xs, encode (f a xs) = some (op :: a :: xs)) : encode j = some (op :: rest) := by
  obtain ⟨a, xs, rfl, rfl⟩ := decodeAddr_ok.1 h
  exact hf a xs

/-- F-ST and F-LD (R126, R127), which admit any bytes after the opcode byte. -/
theorem encode_of_ok {i : Instr} (h : (.ok i : Except DecodeError Instr) = .ok j) (hi : encode i = some (op :: rest)) :
    encode j = some (op :: rest) := by
  cases h
  exact hi

end

/-- F-BM (R125). -/
theorem encode_of_decodeBitmod {rest : List Byte} {j : Instr} (h : decodeBitmod Opcode.bitmod rest = .ok j) :
    encode j = some (Opcode.bitmod :: rest) := by
  obtain ⟨a, m, d, rfl, rfl⟩ := decodeBitmod_ok.1 h
  rfl

/-- Settles O3, by the opcode byte: it is one of the fifteen, and under each the format's bytes are the encoding. -/
theorem encodeOfDecode : Obligations.EncodeOfDecode := by
  intro bytes i h
  cases bytes with
  | nil => cases h
  | cons op rest =>
    have hop : op ∈ Opcode.all := by
      by_contra hno
      cases (decode_unknown rest hno).symm.trans h
    simp only [Opcode.all, List.mem_cons, List.not_mem_nil, or_false] at hop
    rcases hop with rfl | rfl | rfl | rfl | rfl | rfl | rfl | rfl | rfl | rfl | rfl | rfl | rfl | rfl | rfl
    · exact encode_of_decodeCmd h rfl
    · exact encode_of_decodeAddr h fun _ _ => rfl
    · exact encode_of_decodeAddr h fun _ _ => rfl
    · exact encode_of_decodeBitmod h
    · exact encode_of_ok h rfl
    · exact encode_of_ok h rfl
    · exact encode_of_ok h rfl
    · exact encode_of_ok h rfl
    · exact encode_of_ok h rfl
    · exact encode_of_ok h rfl
    · exact encode_of_ok h rfl
    · exact encode_of_decodeCmd h rfl
    · exact encode_of_decodeCmd h rfl
    · exact encode_of_decodeCmd h rfl
    · exact encode_of_decodeCmd h rfl

/-! ## Bytes that are refused -/

/-- A `BITMOD` of any length but 4 is no instruction (R125, R133). -/
theorem decodeBitmod_error {op : Byte} {rest : List Byte} (h : rest.length ≠ 3) :
    decodeBitmod op rest = .error (.badLength op (rest.length + 1)) := by
  unfold decodeBitmod
  split
  · exact absurd rfl h
  · rfl

end Sys2Proof

namespace Sys2Proof.Machine

/-- Bytes that are no serial instruction set the refusal mark and do nothing else, whoever sends them (R133). -/
theorem runBytes_of_error {out : List Byte} {e : DecodeError} (h : decode out = .error e) (ctx : Context) (s : State) :
    runBytes exec ctx out s = .next { s with refused := true } := by
  simp only [runBytes, h]
  rfl

/-- Settles O4: the decoder answers each of the three with an error. -/
theorem otherBytesAreRefused : Obligations.OtherBytesAreRefused := by
  rintro s out (rfl | ⟨op, rest, rfl, hop⟩ | ⟨rest, rfl, hlen⟩)
  · exact runBytes_of_error decode_nil _ s
  · exact runBytes_of_error (decode_unknown rest hop) _ s
  · exact runBytes_of_error ((decode_bitmod rest).trans (decodeBitmod_error hlen)) _ s

end Sys2Proof.Machine

/-! SUPPORT. What the serial instructions answer and leave that read (40_serial_transactions.md R151, R154-R157), load a transmit
buffer (R158-R160) and request a transmission (R161-R164), when nothing disturbs them. -/

namespace Sys2Proof.Machine

/-! ## A transaction that nothing disturbs -/

/-- A transaction that only reads leaves the state as it was, but for the transcript and the choices. -/
theorem transact_read (out : List Byte) (respond : State → List Byte × Env) {s : State} (hc : s.clear) :
    ∃ e e', (transact out respond (fun _ s => s) s).2 = { s with
      transcript := s.transcript ++ [{ out := out, inb := (respond (s.setEnv e)).1, ok := true }], env := e' } :=
  ⟨_, _, congrArg Prod.snd (transact_clear out respond _ hc.1 (head_cons hc.2))⟩

/-- A serial instruction is the effect of all its bytes on a state that differs from `s` in the choices only, and its record. -/
theorem exec_calm {i : Instr} {out : List Byte} {respond : State → List Byte × Env} {effect : Nat → State → State}
    {act : State → State} {s : State} (hexec : exec i s = .next (transact out respond effect s).2)
    (h : SerialParts out respond effect) (hact : ∀ u, effect out.length u = act u) (hc : s.clear) :
    ∃ e e', exec i s = .next ((act (s.setEnv e)).record { out := out, inb := (respond (s.setEnv e')).1, ok := true }) ∧
      Chip s (act (s.setEnv e)) := by
  rw [hexec, transact_clear out respond effect hc.1 (head_cons hc.2)]
  simp only [hact]
  exact ⟨_, _, rfl, hact _ ▸ (chip_setEnv s _).trans (h.chip _ _)⟩

section

variable {s u : State} (h : Chip s u)

include h

theorem Chip.sent_record {out inb : List Byte} (hlen : inb.length = out.length) :
    Sent s (u.record { out := out, inb := inb, ok := true }) out :=
  ⟨inb, hlen, by rw [State.record_transcript, h.transcript]⟩

theorem Chip.sameHost_record (x : Entry) : SameHost s (u.record x) := ⟨h.queue, h.waits, h.cloudUp, h.refused, h.calls⟩

theorem Chip.sameRun_record (hsettle : u.settle = s.settle) (x : Entry) : SameRun s (u.record x) :=
  ⟨h.sameHost_record x, h.log, h.sleeps, hsettle⟩

end

/-! ## `READ`, `READ STATUS` and `RX STATUS` -/

/-- Settles O18: an admitted block is the `READ` that the layer issues, and any other one is refused. -/
theorem readReturnsTheRegisters : Obligations.ReadReturnsTheRegisters := by
  refine ⟨fun s addr dummy ha hlen hc => ?_, fun s addr dummy hlen => ?_⟩
  · obtain ⟨inb, e, hread, -, -, hcount, hbytes⟩ := issueRead_calm addr dummy hc
    have hok : blockOk addr dummy.length = true := by simp [blockOk_eq, ha, hlen]
    have hexec : exec (.txnRead addr dummy) s = .next (issueRead addr dummy s).2 := congrArg _ (if_pos hok)
    rw [hread] at hexec
    exact ⟨inb, e, hexec, hcount, hbytes⟩
  · exact congrArg _ (if_neg (blockOk_eq_false (.inr hlen)))

/-- A byte that is sampled once is repeated for every dummy byte. -/
theorem getElem?_sampled (d b : Byte) {n i : Nat} (hi : i < n) : (d :: List.replicate n b)[1 + i]? = some b := by
  rw [Nat.add_comm, List.getElem?_cons_succ, List.getElem?_replicate_of_lt hi]

theorem getLsbD_bitAt (b : Bool) {i k : Nat} (hi : i < 8) (hk : k < 8) : (bitAt b k).getLsbD i = (b && decide (i = k)) := by
  cases b
  · exact BitVec.getLsbD_zero
  · have h : ∀ i ∈ List.range 8, ∀ k ∈ List.range 8, (bitAt true k).getLsbD i = (true && decide (i = k)) := by decide
    exact h i (List.mem_range.2 hi) k (List.mem_range.2 hk)

/-- The flags that `READ STATUS` reports (R154), bit by bit. -/
theorem statusByte_bits (f tx0 tx1 tx2 : Byte) :
    (statusByte f tx0 tx1 tx2).getLsbD 7 = f.getLsbD 4 ∧ (statusByte f tx0 tx1 tx2).getLsbD 6 = tx2.getLsbD 3 ∧
      (statusByte f tx0 tx1 tx2).getLsbD 5 = f.getLsbD 3 ∧ (statusByte f tx0 tx1 tx2).getLsbD 4 = tx1.getLsbD 3 ∧
      (statusByte f tx0 tx1 tx2).getLsbD 3 = f.getLsbD 2 ∧ (statusByte f tx0 tx1 tx2).getLsbD 2 = tx0.getLsbD 3 ∧
      (statusByte f tx0 tx1 tx2).getLsbD 1 = f.getLsbD 1 ∧ (statusByte f tx0 tx1 tx2).getLsbD 0 = f.getLsbD 0 := by
  have h : statusByte f tx0 tx1 tx2 = bitAt (f.getLsbD 4) 7 ||| bitAt (tx2.getLsbD 3) 6 ||| bitAt (f.getLsbD 3) 5 |||
      bitAt (tx1.getLsbD 3) 4 ||| bitAt (f.getLsbD 2) 3 ||| bitAt (tx0.getLsbD 3) 2 ||| bitAt (f.getLsbD 1) 1 |||
      bitAt (f.getLsbD 0) 0 := rfl
  simp only [h, BitVec.getLsbD_or]
  simp [getLsbD_bitAt, -BitVec.getLsbD_eq_getElem]

/-- Settles O19: the sampled byte is `statusByte` of CANINTF and the three TXBnCTRL. -/
theorem readStatusSamplesTheFlags : Obligations.ReadStatusSamplesTheFlags := by
  intro s dummy hc
  obtain ⟨e, e', ht⟩ := transact_read (Opcode.readStatus :: dummy) (statusResponse dummy.length) hc
  refine ⟨s.statusNow, _, e', congrArg _ ht, ?_, fun i hi => getElem?_sampled _ _ hi, statusByte_bits _ _ _ _⟩
  rw [statusResponse_length Opcode.readStatus, List.length_cons, Nat.add_comm]

/-- The three parts of the byte: the pending buffers in bits 7 and 6, the kind of a frame in bits 4 and 3, and in bits 2 to 0 a
filter code. -/
theorem rxFields_bits (f sidl ctrl : Byte) {code : Byte} (hcode : code &&& 7 = code) :
    let b := Mcp2515.rxPendingBits f ||| (Mcp2515.rxKindBits sidl ctrl ||| code)
    b.getLsbD 4 = sidl.getLsbD 3 ∧ b.getLsbD 3 = ctrl.getLsbD 3 ∧ b &&& 7 = code := by
  rw [← hcode]
  unfold Mcp2515.rxPendingBits Mcp2515.rxKindBits
  refine ⟨?_, ?_, byte_ext fun i hi => ?_⟩
  · simp [getLsbD_bitAt, -BitVec.getLsbD_eq_getElem]
  · simp [getLsbD_bitAt, -BitVec.getLsbD_eq_getElem]
  · interval_cases i <;> simp [getLsbD_bitAt, -BitVec.getLsbD_eq_getElem]

/-- Bits 7 and 6 of `RX STATUS` tell the pending buffers, and bit 5 is 0. -/
theorem rxPending_bits (f : Byte) {low : Byte} (hlow : low &&& 0x1F = low) :
    let b := Mcp2515.rxPendingBits f ||| low
    b.getLsbD 7 = f.getLsbD 1 ∧ b.getLsbD 6 = f.getLsbD 0 ∧ b.getLsbD 5 = false := by
  rw [← hlow]
  unfold Mcp2515.rxPendingBits
  simp [getLsbD_bitAt, -BitVec.getLsbD_eq_getElem]

/-- A filter code stands in bits 2 to 0. -/
theorem rxFilter0_and (ctrl : Byte) : Mcp2515.rxFilter0 ctrl &&& 7 = Mcp2515.rxFilter0 ctrl := by revert ctrl; decide

theorem rxFilter1_and (ctrl d : Byte) : Mcp2515.rxFilter1 ctrl d &&& 7 = Mcp2515.rxFilter1 ctrl d := by
  unfold Mcp2515.rxFilter1
  split_ifs
  · rfl
  · rfl
  · rw [BitVec.and_assoc, BitVec.and_self]
  · rw [BitVec.and_assoc, BitVec.and_self]

/-- The kind and the filter code leave bits 7 to 5 out. -/
theorem rxFields_and (sidl ctrl : Byte) {code : Byte} (hcode : code &&& 7 = code) :
    (Mcp2515.rxKindBits sidl ctrl ||| code) &&& 0x1F = Mcp2515.rxKindBits sidl ctrl ||| code := by
  have hkind : Mcp2515.rxKindBits sidl ctrl &&& 0x1F = Mcp2515.rxKindBits sidl ctrl := by
    unfold Mcp2515.rxKindBits
    cases sidl.getLsbD 3 <;> cases ctrl.getLsbD 3 <;> rfl
  have hcode' : code &&& 0x1F = code := by
    rw [← hcode, BitVec.and_assoc]
    rfl
  rw [BitVec.and_or_distrib_right, hkind, hcode']

/-- Where FILHIT of RXB1 names a filter, the code is its number, or the rollover code 6 or 7 (10_state.md R44). -/
theorem rxFilter1_of_named {ctrl : Byte} (h : (ctrl &&& 7).toNat < 6) (d : Byte) :
    Mcp2515.rxFilter1 ctrl d = if ctrl &&& 7 = 0 then 6 else if ctrl &&& 7 = 1 then 7 else ctrl &&& 7 := by
  have hne : ∀ ctrl : Byte, (ctrl &&& 7).toNat < 6 → ctrl &&& 0x06 ≠ 0x06 := by decide
  rw [Mcp2515.rxFilter1, if_neg (hne ctrl h)]

/-- What stands in bits 4 to 0 of `RX STATUS`: the frame of RXB0, else that of RXB1, else a draw (R155). -/
theorem rxStatusByte_eq (f sidl0 ctrl0 sidl1 ctrl1 d : Byte) : rxStatusByte f sidl0 ctrl0 sidl1 ctrl1 d =
    Mcp2515.rxPendingBits f |||
      if f.getLsbD 0 then Mcp2515.rxKindBits sidl0 ctrl0 ||| Mcp2515.rxFilter0 ctrl0
      else if f.getLsbD 1 then Mcp2515.rxKindBits sidl1 ctrl1 ||| Mcp2515.rxFilter1 ctrl1 d
      else d &&& 0x1F := rfl

section

variable (f sidl0 ctrl0 sidl1 ctrl1 d : Byte)

theorem rxStatusByte_pending :
    let b := rxStatusByte f sidl0 ctrl0 sidl1 ctrl1 d
    b.getLsbD 7 = f.getLsbD 1 ∧ b.getLsbD 6 = f.getLsbD 0 ∧ b.getLsbD 5 = false := by
  rw [rxStatusByte_eq]
  refine rxPending_bits f ?_
  split_ifs
  · exact rxFields_and _ _ (rxFilter0_and _)
  · exact rxFields_and _ _ (rxFilter1_and _ _)
  · rw [BitVec.and_assoc, BitVec.and_self]

theorem rxStatusByte_rxb0 (h : f.getLsbD 0 = true) :
    let b := rxStatusByte f sidl0 ctrl0 sidl1 ctrl1 d
    b.getLsbD 4 = sidl0.getLsbD 3 ∧ b.getLsbD 3 = ctrl0.getLsbD 3 ∧ b &&& 7 = ctrl0 &&& 1 := by
  rw [rxStatusByte_eq, if_pos h]
  exact rxFields_bits f sidl0 ctrl0 (rxFilter0_and _)

theorem rxStatusByte_rxb1 (h0 : f.getLsbD 0 = false) (h1 : f.getLsbD 1 = true) :
    let b := rxStatusByte f sidl0 ctrl0 sidl1 ctrl1 d
    b.getLsbD 4 = sidl1.getLsbD 3 ∧ b.getLsbD 3 = ctrl1.getLsbD 3 ∧ b &&& 7 = Mcp2515.rxFilter1 ctrl1 d := by
  rw [rxStatusByte_eq, if_neg (h0 ▸ Bool.false_ne_true), if_pos h1]
  exact rxFields_bits f sidl1 ctrl1 (rxFilter1_and _ _)

end

/-- Settles O20: the sampled byte is `rxStatusByte` of CANINTF and of SIDL and CTRL of both receive buffers. -/
theorem rxStatusSamplesTheBuffers : Obligations.RxStatusSamplesTheBuffers := by
  intro s dummy hc
  obtain ⟨e, e', ht⟩ := transact_read (Opcode.rxStatus :: dummy) (rxStatusResponse dummy.length) hc
  obtain ⟨h7, h6, h5⟩ := rxStatusByte_pending (s.reg 0x2C) (s.reg 0x62) (s.reg 0x60) (s.reg 0x72) (s.reg 0x70) e.draw.2.draw.1
  refine ⟨s.rxStatusNow e.draw.2.draw.1, _, e', congrArg _ ht, ?_, fun i hi => getElem?_sampled _ _ hi, h7, h6, h5,
    rxStatusByte_rxb0 _ _ _ _ _ _, fun h0 h1 => ?_⟩
  · rw [rxStatusResponse_length Opcode.rxStatus, List.length_cons, Nat.add_comm]
  · exact (rxStatusByte_rxb1 _ _ _ _ _ _ h0 h1).imp id (And.imp id fun hcode hnamed => hcode.trans (rxFilter1_of_named hnamed _))

/-! ## `READ RX BUFFER` -/

/-- From a pending buffer the bytes are its registers, up to D7 (R156). -/
theorem State.rxBytes_getElem? {s : State} {slot : RxSlot} (hp : s.rxPending slot = true) {i n j : Nat} (e : Env) (hj : j < n)
    (hij : i + j < 13) : (s.rxBytes slot i n e).1[j]? = some (s.reg ((rxSidh slot).toNat + (i + j))) := by
  have hsize : chipMap.bodySize = 13 := rfl
  induction n generalizing i j e with
  | zero => cases hj
  | succ k ih =>
    have hi : (decide (i < chipMap.bodySize) && s.rxPending slot) = true := by
      rw [hp, Bool.and_true, hsize, decide_eq_true_eq]
      omega
    rw [State.rxBytes, if_pos hi]
    cases j with
    | zero => rfl
    | succ l =>
      rw [List.getElem?_cons_succ, ih e (by omega) (by omega), Nat.add_assoc, Nat.add_comm 1 l]

theorem exec_readRxInstr (slot : RxSlot) (dummy : List Byte) (s : State) :
    exec (readRxInstr slot dummy) s = .next (issueReadRx (readRxOpcode slot) slot dummy s).2 := by
  cases slot <;> rfl

/-- A `READ RX BUFFER` that nothing disturbs. -/
theorem exec_readRx_calm {s : State} (hc : s.clear) (slot : RxSlot) (dummy : List Byte) :
    ∃ e e', exec (readRxInstr slot dummy) s = .next (((s.setEnv e).poke 0x2C (rxIf slot) 0).record
        { out := readRxOpcode slot :: dummy, inb := (rxResponse slot dummy.length (s.setEnv e')).1, ok := true }) ∧
      Chip s ((s.setEnv e).poke 0x2C (rxIf slot) 0) :=
  exec_calm (exec_readRxInstr slot dummy s)
    (serialParts_once (rxResponse_length _ slot dummy) (fun u => chip_poke u (rxIf slot) 0 (by decide : 0x2C < 128))
      fun _ u => u.poke_settle _ _ _)
    (fun _ => if_pos (Nat.le_add_left 1 _)) hc

/-- Clearing a flag of CANINTF changes no other register but ICOD of CANSTAT, and asserts no line (10_state.md R57). -/
theorem consumed_poke {s : State} (hs : s.Inv) (slot : RxSlot) :
    Consumed s (s.poke 0x2C (rxIf slot) 0) slot ∧ (s.poke 0x2C (rxIf slot) 0).edges = s.edges := by
  have hflags : (s.poke 0x2C (rxIf slot) 0).reg 0x2C = s.reg 0x2C &&& ~~~rxIf slot :=
    (State.reg_poke hs (by decide) (by decide) _ _ BitVec.and_allOnes fun h => absurd h (by decide)).trans (zero_field _ _)
  have hsame := sameRegs_poke_flags s (rxIf slot) 0
  obtain ⟨hint, hedges⟩ := lineFollows_setReg s 0x2C ((s.reg 0x2C &&& ~~~rxIf slot) ||| (0 &&& rxIf slot))
  refine ⟨⟨hflags, hsame, s.opmod_poke _ _ (by decide), hint, rfl, rfl, rfl⟩, hedges.trans ?_⟩
  have hfalls : (s.poke 0x2C (rxIf slot) 0).int = true → s.int = true := by
    have hsub : (s.reg 0x2C &&& ~~~rxIf slot) &&& ~~~s.reg 0x2C = 0 := by
      rw [BitVec.and_comm, ← BitVec.and_assoc]
      simp
    have hline : (s.poke 0x2C (rxIf slot) 0).int = anySet (s.reg 0x2C &&& ~~~rxIf slot) (s.reg 0x2B) := by
      rw [← hflags, ← hsame 0x2B (by decide) (by decide)]
      exact hint
    rw [hline, hs.2.1]
    exact anySet_mono hsub
  refine if_neg fun hrises => ?_
  rw [Bool.and_eq_true, Bool.not_eq_true'] at hrises
  exact Bool.false_ne_true (hrises.2.symm.trans (hfalls hrises.1))

/-- Settles O21: the one effect is that the buffer's flag is cleared. -/
theorem readRxBufferClearsItsFlag : Obligations.ReadRxBufferClearsItsFlag := by
  intro s slot dummy hs hc
  obtain ⟨e, e', hexec, hchip⟩ := exec_readRx_calm hc slot dummy
  obtain ⟨hconsumed, hedges⟩ := consumed_poke (s := s.setEnv e) hs slot
  refine ⟨_, _, hexec, congrArg (· ++ _) hchip.transcript, ?_, fun hp i hi h13 => ?_, hchip.log, hchip.results,
    hchip.sameHost_record _, hedges, hconsumed⟩
  · rw [rxResponse_length (readRxOpcode slot), List.length_cons, Nat.add_comm]
  · have hbyte := State.rxBytes_getElem? (s := s.setEnv e') hp (i := 0) (s.setEnv e').env.draw.2 hi (by omega)
    rw [Nat.zero_add] at hbyte
    rw [rxResponse, Nat.add_comm 1 i, List.getElem?_cons_succ, hbyte]
    rfl

/-! ## `LOAD TX BUFFER` -/

theorem exec_loadTxInstr (slot : TxSlot) (data : List Byte) (s : State) : exec (loadTxInstr slot data) s =
    .next (if loadOk data then (issueLoadTx (loadTxOpcode slot) slot data s).2 else s.refuse) := by
  cases slot <;> rfl

/-- A `LOAD TX BUFFER` that nothing disturbs. -/
theorem exec_loadTx_calm {s : State} (hc : s.clear) (slot : TxSlot) {data : List Byte} (hlen : data.length ≤ 13) :
    ∃ e x, exec (loadTxInstr slot data) s = .next (((s.setEnv e).writeBlock (txSidh slot).toNat data).record x) ∧
      Sent s (((s.setEnv e).writeBlock (txSidh slot).toNat data).record x) (loadTxOpcode slot :: data) ∧
      SameRun s (((s.setEnv e).writeBlock (txSidh slot).toNat data).record x) ∧
      (((s.setEnv e).writeBlock (txSidh slot).toNat data).record x).results = s.results := by
  have hok : loadOk data = true := decide_eq_true hlen
  have hexec : exec (loadTxInstr slot data) s = .next (issueLoadTx (loadTxOpcode slot) slot data s).2 :=
    (exec_loadTxInstr slot data s).trans (congrArg _ (if_pos hok))
  obtain ⟨e, e', hexec, hchip⟩ := exec_calm hexec (serialParts_block (body_le_of_loadOk slot hok))
    (act := fun u => u.writeBlock (txSidh slot).toNat data) (fun u => by simp) hc
  exact ⟨e, _, hexec, hchip.sent_record (noResponse_length _ _), hchip.sameRun_record (State.settle_writeBlock _ _ _) _,
    hchip.results⟩

/-- Bytes written from register `i` of a transmit buffer on change no other register (20_memory.md R100). -/
theorem confined_writeBlock_txBody (slot : TxSlot) (data : List Byte) {s : State} (hs : s.Inv) {i : Nat}
    (hi : i + data.length ≤ 13) :
    let t := s.writeBlock ((txSidh slot).toNat + i) data
    SameRegs ((List.range data.length).map ((txSidh slot).toNat + i + ·)) s t ∧ SameLine s t ∧ t.aborting = s.aborting := by
  induction data generalizing s i with
  | nil => exact ⟨sameRegs_refl _ s, ⟨rfl, rfl⟩, rfl⟩
  | cons v r ih =>
    rw [List.length_cons] at hi
    obtain ⟨hreg, -, -, -, hctrl, -⟩ := txBody_facts slot (show i < 13 by omega)
    have hrange := txSidh_range slot
    have hcanon := canon_of_mem hreg
    obtain ⟨hsame, hline, hab⟩ := confined_writeByte hs (a := (txSidh slot).toNat + i) (by omega) (by omega) (by rwa [hcanon]) v
    have hlt := (mem_registerAddrs.1 hreg).1
    obtain ⟨hsame', hline', hab'⟩ := ih ((chip_writeByte s v hlt).reaches.inv hs) (i := i + 1) (by omega)
    refine ⟨(hsame.mono fun a ha => ?_).trans (hsame'.mono fun a ha => ?_), ⟨hline'.1.trans hline.1, hline'.2.trans hline.2⟩,
      hab'.trans hab⟩
    · rw [List.mem_singleton.1 ha, hcanon]
      exact List.mem_map.2 ⟨0, by simp, rfl⟩
    · obtain ⟨j, hj, rfl⟩ := List.mem_map.1 ha
      rw [List.mem_range] at hj
      exact List.mem_map.2 ⟨j + 1, by simp [hj], by omega⟩

/-- SIDH of a transmit buffer follows its CTRL, at the start of a row of 16 addresses (20_memory.md R74). -/
theorem txSidh_eq (slot : TxSlot) : (txSidh slot).toNat = (txCtrl slot).toNat + 1 ∧ (txCtrl slot).toNat % 16 = 0 := by
  cases slot <;> decide

set_option maxRecDepth 100000 in
/-- A register of a transmit buffer belongs to no other buffer, and is no register of the Configuration mode. -/
theorem txBody_apart : ∀ slot ∈ [TxSlot.txb0, .txb1, .txb2], ∀ a ∈ txBody slot,
    a ∉ configurationRegisters.map Prod.fst ∧ ∀ other ∈ [TxSlot.txb0, .txb1, .txb2], a ∈ txBody other → other = slot := by
  decide

/-- While its buffer is not pending every byte of a load lands (R167). -/
theorem lands_txBody {s : State} {slot : TxSlot} (hp : s.txPending slot = false) {data : List Byte} (hlen : data.length ≤ 13)
    {i : Nat} (hi : i < data.length) : Lands s (txSidh slot).toNat data i := by
  have hmem : (txSidh slot).toNat + i ∈ txBody slot := List.mem_map.2 ⟨i, List.mem_range.2 (by omega), rfl⟩
  have hctrl := txSidh_eq slot
  obtain ⟨hconf, hother⟩ := txBody_apart slot (by cases slot <;> decide) _ hmem
  refine ⟨fun h => absurd h hconf, fun other hslot hin => ?_, fun j hj hij => ?_⟩
  · rw [hother other hslot hin, if_neg (by omega)]
    exact hp
  · rw [canon_of_mem (txBody_facts slot (by omega)).1, canon_of_mem (txBody_facts slot (by omega)).1]
    omega

/-- Every bit that exists in a register of a transmit buffer is a W bit (10_state.md R38-R42). -/
theorem implMask_txBody (slot : TxSlot) {i : Nat} (hi : i < 13) : implMask ((txSidh slot).toNat + i) = txBodyBits i := by
  have h : ∀ slot ∈ [TxSlot.txb0, .txb1, .txb2], ∀ i ∈ List.range 13,
      implMask ((txSidh slot).toNat + i) = txBodyBits i := by decide
  exact h slot (by cases slot <;> decide) i (List.mem_range.2 hi)

/-- So a write there leaves the byte's bits and nothing of the old ones. -/
theorem written_txBody {s : State} (hs : s.Inv) (slot : TxSlot) {i : Nat} (hi : i < 13) (v : Byte) :
    written ((txSidh slot).toNat + i) (s.reg ((txSidh slot).toNat + i)) v = v &&& txBodyBits i := by
  obtain ⟨hreg, -, -, -, hctrl, hw⟩ := txBody_facts slot hi
  have hrange := txSidh_range slot
  have hold := and_eq_of_normal hs.1 (mem_registerAddrs.1 hreg).1 (canon_of_mem hreg) (by omega) (by show _ ≠ 0x0E; omega)
  rw [implMask_txBody slot hi] at hold
  rw [written_other ⟨hctrl, by omega, by omega⟩, hw, ← hold, BitVec.and_assoc]
  simp

/-- Settles O27: an admitted load is a block of the buffer's registers. -/
theorem loadTxBuffer : Obligations.LoadTxBuffer := by
  refine ⟨fun s slot data hs hc hlen => ?_, fun s slot data hlen => ?_⟩
  · obtain ⟨e, x, hexec, hsent, hrun, hres⟩ := exec_loadTx_calm hc slot hlen
    obtain ⟨hsame, hline, hab⟩ := confined_writeBlock_txBody slot data (s := s.setEnv e) hs (i := 0) (by omega)
    refine ⟨_, hexec, fun hp i hi => ?_, hsame, hline, hab, hsent, hrun, hres⟩
    have hreg := (txBody_facts slot (show i < 13 by omega)).1
    have hrange := txSidh_range slot
    have hctrl := txSidh_eq slot
    have h := State.reg_writeBlock data (s := s.setEnv e) hs (a := (txSidh slot).toNat) (by omega) i hi
      (lands_txBody hp hlen hi) (by omega)
    rw [canon_of_mem hreg] at h
    exact h.trans (written_txBody (s := s.setEnv e) hs slot (by omega) _)
  · rw [exec_loadTxInstr, loadOk_eq, if_neg (by simpa using hlen)]
    rfl

/-! ## `RTS` -/

theorem exec_rtsInstr (slot : TxSlot) (s : State) :
    exec (rtsInstr slot) s = .next (issueRts (rtsOpcode slot) [slot] s).2 := by
  cases slot <;> rfl

/-- An `RTS` that nothing disturbs. -/
theorem exec_rts_calm {s : State} (hc : s.clear) {i : Instr} {op : Byte} {slots : List TxSlot}
    (hexec : exec i s = .next (issueRts op slots s).2) :
    ∃ e x, exec i s = .next ((slots.foldl State.requestToSend (s.setEnv e)).record x) ∧
      Sent s ((slots.foldl State.requestToSend (s.setEnv e)).record x) [op] ∧
      SameRun s ((slots.foldl State.requestToSend (s.setEnv e)).record x) ∧
      ((slots.foldl State.requestToSend (s.setEnv e)).record x).results = s.results := by
  obtain ⟨e, e', hexec, hchip⟩ := exec_calm hexec (serialParts_once (noResponse_length _) (chip_foldl_requestToSend slots)
    fun _ => State.settle_foldl_requestToSend slots) (fun _ => if_pos (Nat.le_refl 1)) hc
  exact ⟨e, _, hexec, hchip.sent_record (noResponse_length _ _),
    hchip.sameRun_record (State.settle_foldl_requestToSend _ _) _, hchip.results⟩

/-- `t` comes from `s` by requests to send of the slots. -/
structure Requested (slots : List TxSlot) (s t : State) : Prop where
  reg : ∀ x, t.reg (txCtrl x).toNat =
    if x ∈ slots then (s.reg (txCtrl x).toNat &&& 0x03) ||| 0x08 else s.reg (txCtrl x).toNat
  aborting : ∀ x, x ∈ t.aborting ↔ x ∈ s.aborting ∧ x ∉ slots
  same : SameRegs (slots.map fun x => (txCtrl x).toNat) s t
  line : SameLine s t

theorem txCtrl_injective {x y : TxSlot} (h : (txCtrl x).toNat = (txCtrl y).toNat) : x = y :=
  Option.some.inj ((txSlotOf_ctrl x).symm.trans (h ▸ txSlotOf_ctrl y))

/-- The byte that is written has TXREQ set, so that the failure flags are cleared (20_memory.md R87). -/
theorem requested_requestToSend {s : State} (hs : s.Inv) (slot : TxSlot) : Requested [slot] s (s.requestToSend slot) := by
  have hbit : (s.reg (txCtrl slot).toNat ||| txreqBit).getLsbD 3 = true := by
    rw [BitVec.getLsbD_or, show txreqBit.getLsbD 3 = true from rfl, Bool.or_true]
  have hvalue : ∀ old : Byte, (old ||| txreqBit) &&& 0x0B = (old &&& 0x03) ||| 0x08 := by decide
  have hsame := sameRegs_writeByte_txCtrl s slot (s.reg (txCtrl slot).toNat ||| txreqBit)
  refine ⟨fun x => ?_, fun x => ?_, hsame, sameLine_writeByte_txCtrl hs slot _⟩
  · by_cases hx : x = slot
    · subst hx
      rw [if_pos (List.mem_singleton_self x), State.requestToSend, State.reg_writeByte_txCtrl hs, if_pos hbit, hvalue]
    · rw [if_neg (fun h => hx (List.mem_singleton.1 h))]
      refine hsame _ (txCtrl_lt x) fun h => hx (txCtrl_injective ?_)
      rwa [canon_txCtrl, List.mem_singleton] at h
  · rw [State.requestToSend, s.mem_aborting_writeByte, hbit]
    by_cases hx : x = slot <;> simp [hx]

/-- Requests one after the other; a second one of a slot leaves what the first did. -/
theorem Requested.cons {x : TxSlot} {r : List TxSlot} {s t u : State} (h : Requested [x] s t) (g : Requested r t u) :
    Requested (x :: r) s u where
  reg y := by
    have hagain : ∀ old : Byte, (((old &&& 0x03) ||| 0x08) &&& 0x03) ||| 0x08 = (old &&& 0x03) ||| 0x08 := by decide
    rw [g.reg]
    by_cases hr : y ∈ r
    · rw [if_pos hr, if_pos (List.mem_cons_of_mem x hr), h.reg]
      split
      · exact hagain _
      · rfl
    · rw [if_neg hr, h.reg]
      simp only [List.mem_cons, List.not_mem_nil, hr, or_false]
  aborting y := by
    rw [g.aborting, h.aborting, List.mem_singleton, List.mem_cons, not_or, and_assoc]
  same := (h.same.mono fun _ ha => List.mem_cons.2 (.inl (List.mem_singleton.1 ha))).trans
    (g.same.mono fun _ => List.mem_cons_of_mem _)
  line := ⟨g.line.1.trans h.line.1, g.line.2.trans h.line.2⟩

theorem requested_foldl (slots : List TxSlot) {s : State} (hs : s.Inv) :
    Requested slots s (slots.foldl State.requestToSend s) := by
  induction slots generalizing s with
  | nil => exact ⟨fun x => by simp, fun x => by simp, sameRegs_refl _ s, ⟨rfl, rfl⟩⟩
  | cons x r ih => exact (requested_requestToSend hs x).cons (ih ((chip_requestToSend s x).reaches.inv hs))

/-- Settles O28: an `RTS` is a request of each slot of its list. -/
theorem requestToSend : Obligations.RequestToSend := by
  refine ⟨fun s slot hs hc => ?_, fun s hs hc => ?_⟩
  · obtain ⟨e, x, hexec, hsent, hrun, hres⟩ := exec_rts_calm hc (exec_rtsInstr slot s)
    obtain ⟨hreg, hab, hsame, hline⟩ := requested_foldl [slot] (s := s.setEnv e) hs
    refine ⟨_, hexec, (hreg slot).trans (if_pos (List.mem_singleton_self slot)), fun y => ?_, hsame, hline, hsent, hrun, hres⟩
    exact (hab y).trans (and_congr_right' (not_congr List.mem_singleton))
  · obtain ⟨e, x, hexec, hsent, hrun, hres⟩ := exec_rts_calm hc (i := .txnRtsAll) (slots := [.txb0, .txb1, .txb2]) rfl
    obtain ⟨hreg, hab, hsame, hline⟩ := requested_foldl [.txb0, .txb1, .txb2] (s := s.setEnv e) hs
    have hall : ∀ slot : TxSlot, slot ∈ [TxSlot.txb0, .txb1, .txb2] := fun slot => by cases slot <;> decide
    exact ⟨_, hexec, fun slot => (hreg slot).trans (if_pos (hall slot)),
      List.eq_nil_iff_forall_not_mem.2 fun y hy => ((hab y).1 hy).2 (hall y), hsame, hline, hsent, hrun, hres⟩

end Sys2Proof.Machine

/-! SUPPORT. What a `RESET` leaves (40_serial_transactions.md R150), and any transaction within the settle time after it (R166). -/

namespace Sys2Proof.Machine

/-! ## `RESET` -/

/-- The register file after a reset: a draw for each register of unspecified reset, the reset values elsewhere. -/
def Memory.Drawn (m : Memory) : Prop :=
  ∃ f : Nat → Byte, (∀ a, ∃ b, f a = resetDraw a b) ∧ m = unspecifiedAddrs.map fun a => (a, f a)

theorem drawn_resetCells (e : Env) : Memory.Drawn (resetCells unspecifiedAddrs e).1 :=
  resetCells_eq_map unspecifiedAddrs e unspecifiedAddrs_nodup

theorem Memory.Drawn.read {m : Memory} (h : Memory.Drawn m) {a : Nat} {v : Byte} (hv : resetValue a = some v) :
    Memory.read m a = v := by
  obtain ⟨f, -, rfl⟩ := h
  exact Memory.read_draws f hv

/-- No flag is set, so that `INT` is deasserted (10_state.md R57). -/
theorem Memory.Drawn.level {m : Memory} (h : Memory.Drawn m) : Memory.level m = false := by
  rw [Memory.level, h.read (a := Addr.canintf) (v := 0) rfl, h.read (a := Addr.caninte) (v := 0) rfl]
  rfl

/-- After a reset every register that has a reset value holds it (10_state.md R60). -/
theorem State.atReset_of_drawn {s : State} (h : Memory.Drawn s.mem) : s.atReset := by
  refine ⟨fun k _ => ⟨?_, ?_⟩, fun a ha => ?_, ?_⟩
  · have hc : canon (16 * k + 14) = Addr.canstat := by rw [canon_eq, if_pos (by omega)]; rfl
    rw [s.reg_canstat hc, Memory.canstat, h.read (a := Addr.canstat) (v := 0x80) rfl, h.read (a := Addr.canintf) (v := 0) rfl,
      h.read (a := Addr.caninte) (v := 0) rfl]
    rfl
  · have hc : canon (16 * k + 15) = canon 0x0F := by rw [canon_eq, if_neg (by omega), if_pos (by omega)]; rfl
    rw [s.reg_of_canon hc, State.reg_eq_read _ rfl (by decide)]
    exact h.read rfl
  · have hfacts : ∀ a ∈ [0x0C, 0x1C, 0x1D, 0x28, 0x29, 0x2A, 0x2B, 0x2C, 0x2D, 0x30, 0x40, 0x50, 0x60, 0x70],
        canon a = a ∧ a ≠ 0x0E ∧ resetValue a = some 0x00 := by decide
    obtain ⟨hc, hne, hv⟩ := hfacts a ha
    rw [State.reg_eq_read _ hc hne]
    exact h.read hv
  · obtain ⟨f, hf, hm⟩ := h
    obtain ⟨b, hb⟩ := hf 0x0D
    have hdraw : ∀ b, resetDraw 0x0D b &&& 0xC7 = 0x00 := by decide
    rw [State.reg_eq_read _ rfl (by decide), hm, Memory.read, Memory.lookup_map f (by decide), Option.getD_some, hb]
    exact hdraw b

/-- A reset counts a change of `INT` like any other change of the register file (60_exceptions.md R344). -/
theorem State.chipReset_edges (s : State) :
    s.chipReset.edges = if Memory.level s.chipReset.mem && !s.int then s.edges + 1 else s.edges := by
  unfold State.chipReset
  generalize resetCells unspecifiedAddrs s.env = r
  rfl

/-- Settles O13: the register file is drawn and lists no flag. -/
theorem resetInstruction : Obligations.ResetInstruction := by
  intro s hs hc
  have hparts : SerialParts [Opcode.reset] (noResponse [Opcode.reset]) fun k s => if 1 ≤ k then s.chipReset else s :=
    serialParts_once (noResponse_length _) chip_chipReset fun hop => absurd rfl hop
  obtain ⟨e, e', hexec, hchip⟩ := exec_calm (i := .txnReset) rfl hparts (fun _ => if_pos (Nat.le_refl 1)) hc
  have hdrawn : Memory.Drawn (s.setEnv e).chipReset.mem := drawn_resetCells e
  have hlevel := hdrawn.level
  refine ⟨_, hexec, State.atReset_of_drawn hdrawn, ?_, hlevel, ?_, rfl, rfl, hchip.sent_record (noResponse_length _ _),
    hchip.sameHost_record _, hchip.log, hchip.results, hchip.sleeps⟩
  · exact (hchip.reaches.trans (reaches_finish _ true (noResponse_length _ _))).inv hs
  · rw [State.record_edges, State.chipReset_edges, hlevel]
    rfl

/-! ## Within the settle time -/

theorem Env.draw_of_cons {e : Env} {b : Byte} {r : List Byte} (h : e.draws = b :: r) : e.draw = (b, { e with draws := r }) := by
  rw [Env.draw, h]

/-- Draws that the list has are taken from it. -/
theorem Env.drawN_draws {e : Env} {l r : List Byte} (h : e.draws = l ++ r) : (Env.drawN l.length e).2.draws = r := by
  induction l generalizing e with
  | nil => exact h
  | cons b l ih =>
    rw [List.length_cons, Env.drawN, Env.draw_of_cons h]
    exact ih rfl

/-- Where the draws of a list of registers are given by `f`, each of them holds its own. -/
theorem Memory.read_scrambleCells {f : Nat → Byte} {l : List Nat} {e : Env} (h : e.draws = l.map f) (m : Memory) (a : Nat) :
    Memory.read (scrambleCells l m e).1 a = if a ∈ l then normal a (drawFor a (f a)) else Memory.read m a := by
  induction l generalizing m e with
  | nil => rfl
  | cons b r ih =>
    rw [List.map_cons] at h
    rw [scrambleCells, Env.draw_of_cons h, ih rfl]
    by_cases hr : a ∈ r
    · rw [if_pos hr, if_pos (List.mem_cons_of_mem b hr)]
    · by_cases hb : a = b
      · rw [if_neg hr, if_pos (hb ▸ List.mem_cons_self), hb, Memory.read_write_self]
      · rw [if_neg hr, if_neg (by simp [hb, hr]), Memory.read_write_other _ _ hb]

theorem drawFor_eq (a : Nat) (b : Byte) : drawFor a b = if a = 0x2D then withEwarn b else b := by
  have hwarned : ∀ b, warned b = withEwarn b := by decide
  rw [drawFor, hwarned]
  rfl

theorem State.unsettled_mem (s : State) (out : List Byte) (k : Nat) :
    (s.unsettled out k).mem = (scrambleCells registerAddrs s.mem s.env).1 := by
  unfold State.unsettled State.scramble
  generalize scrambleCells registerAddrs s.mem s.env = r
  rfl

/-- Within the settle time a transaction leaves in the registers the bits that they have of the draws (R166). -/
theorem State.reg_unsettled {f : Nat → Byte} {s : State} (h : s.env.draws = registerAddrs.map f) (out : List Byte) (k : Nat) :
    (s.unsettled out k).opmod = f 0x0E &&& 0xE0 ∧
      ∀ a ∈ registerAddrs, a ≠ 0x0E → (s.unsettled out k).reg a = normal a (if a = 0x2D then withEwarn (f a) else f a) := by
  have hread {a : Nat} (ha : a ∈ registerAddrs) : Memory.read (s.unsettled out k).mem a = normal a (drawFor a (f a)) := by
    rw [State.unsettled_mem, Memory.read_scrambleCells h, if_pos ha]
  refine ⟨?_, fun a ha hne => ?_⟩
  · rw [State.opmod_eq, hread (a := Addr.canstat) (by decide), normal_canstat, BitVec.and_assoc, BitVec.and_self]
    rfl
  · rw [State.reg_eq_read _ (canon_of_mem ha) hne, hread ha, drawFor_eq]

/-- Of the serial instructions a `RESET` begins a settle time there, and no other one does (assumption 6). -/
theorem settle_unsettled_encode {i : Instr} {out : List Byte} (h : encode i = some out) (s : State) :
    (s.unsettled out out.length).settle = if i = .txnReset then 10 else s.settle := by
  by_cases hi : i = .txnReset
  · subst hi
    cases h
    rw [State.unsettled, if_pos rfl]
    rfl
  · rw [if_neg hi, State.settle_unsettled _ _ (encode_head_ne_reset h hi)]

/-- The choices of a transaction of `n` bytes that succeeds and leaves the bytes `f` in the registers: `n` draws for the bytes
received, and then one for each register. -/
def choicesFor (f : Nat → Byte) (n : Nat) : Env where
  draws := zeros n ++ registerAddrs.map f
  links := [.ok]
  turns := []
  seed := 0

theorem drawN_choicesFor (f : Nat → Byte) (n : Nat) :
    (Env.drawN n { choicesFor f n with links := [] }).2.draws = registerAddrs.map f := by
  have h := Env.drawN_draws (e := { choicesFor f n with links := [] }) (l := zeros n) rfl
  rwa [zeros, List.length_replicate] at h

/-- Within the settle time such a transaction leaves draws, and those left for the registers are `f` (R166). -/
theorem transact_choicesFor (out : List Byte) (respond : State → List Byte × Env) (effect : Nat → State → State) {s : State}
    (hs : s.settle ≠ 0) (f : Nat → Byte) :
    ∃ e inb, (transact out respond effect (s.setEnv (choicesFor f out.length))).2 =
        ((s.setEnv e).unsettled out out.length).finish out inb true ∧ e.draws = registerAddrs.map f := by
  have hlink : (s.setEnv (choicesFor f out.length)).link = .ok := State.link_cons rfl (.inl rfl)
  refine ⟨_, (transact out respond effect (s.setEnv (choicesFor f out.length))).1, ?_, drawN_choicesFor f out.length⟩
  rw [transact_unsettled _ _ _ (s := s.setEnv (choicesFor f out.length)) hs, State.sent, hlink, State.setEnv_env, Env.link_cons rfl]
  simp only [reply, State.setEnv_settle, hs, decide_false, Bool.and_false, Bool.false_eq_true, if_false]
  rfl

/-- Settles O17: the response takes draws of its own, and the draws after it are the registers of `f`. -/
theorem settleTimeLeavesAnything : Obligations.SettleTimeLeavesAnything := by
  intro s i out f hs henc hwf
  obtain ⟨respond, effect, hexec, -⟩ := exec_eq_transact henc hwf
  obtain ⟨e, inb, ht, hdraws⟩ := transact_choicesFor out respond effect hs f
  obtain ⟨hop, hreg⟩ := State.reg_unsettled (s := s.setEnv e) hdraws out out.length
  refine ⟨choicesFor f out.length, _, (hexec _).trans (congrArg _ ht), ?_, ?_, ?_, fun a ha hne => ?_⟩
  · rw [State.finish_settle]
    exact settle_unsettled_encode henc _
  · exact ((chip_setEnv s e).trans (chip_unsettled _ _ _)).sameHost_finish _ _ _
  · rw [State.opmod_of_mem (State.finish_mem _ _ _ _)]
    exact hop
  · rw [State.reg_of_mem (State.finish_mem _ _ _ _)]
    exact hreg a ha hne

end Sys2Proof.Machine

/-! SUPPORT. The operations of the Register Access Layer (41_register_access.md R180-R189): each is its one transaction, and
`reset()` ends the settle time. -/

namespace Sys2Proof.Machine

/-! ## An operation is its transaction -/

theorem blockOk_of_le {addr : Byte} {n : Nat} (ha : addr.toNat < 128) (h : addr.toNat + n ≤ 128) : blockOk addr n = true := by
  simp [blockOk_eq, ha, h]

/-- An operation returns its value after those of the operations before it. -/
theorem Reaches.ret_eq {s t : State} (h : Reaches s t) (v : Value) : t.ret v = { t with results := s.results ++ [v] } := by
  rw [State.ret, h.results]

section

variable {c : Prop} [Decidable c] (hc : c)

include hc

/-- A serial instruction whose operands are admitted. -/
theorem next_of_admitted {t u : State} :
    (.next (if c then t else u) : Host.Outcome State Fault Refusal) = .next t := congrArg _ (if_pos hc)

/-- An operation whose operands are admitted. -/
theorem next_ret_of_admitted {s t u : State} (h : Reaches s t) (v : Value) :
    (.next (if c then t.ret v else u) : Host.Outcome State Fault Refusal) = .next { t with results := s.results ++ [v] } := by
  rw [if_pos hc, h.ret_eq]

end

theorem getElem?_eq_some_getD {l : List Byte} {i : Nat} (h : i < l.length) : l[i]? = some (l.getD i 0) := by
  rw [List.getD_eq_getElem _ _ h, List.getElem?_eq_getElem h]

/-- A `READ` is recorded, and as many bytes are received as are sent. -/
theorem issueRead_recorded (addr : Byte) (dummy : List Byte) (s : State) :
    (issueRead addr dummy s).1.length = 2 + dummy.length ∧
      ∃ ok, (issueRead addr dummy s).2.transcript =
        s.transcript ++ [{ out := 0x03 :: addr :: dummy, inb := (issueRead addr dummy s).1, ok := ok }] :=
  ⟨(transact_length _ _ _ s (readResponse_length _ _ _)).trans (Nat.add_comm _ 2),
    transact_transcript _ _ _ s fun _ u => Chip.refl u⟩

theorem issueReadStatus_recorded (dummy : List Byte) (s : State) :
    (issueReadStatus dummy s).1.length = 1 + dummy.length ∧
      ∃ ok, (issueReadStatus dummy s).2.transcript =
        s.transcript ++ [{ out := 0xA0 :: dummy, inb := (issueReadStatus dummy s).1, ok := ok }] :=
  ⟨(transact_length _ _ _ s (statusResponse_length _ _)).trans (Nat.add_comm _ 1),
    transact_transcript _ _ _ s fun _ u => Chip.refl u⟩

/-- Settles O34: both calls issue the same transaction, and the operation then returns what it received. -/
theorem registerOperationsAreOneTransaction : Obligations.RegisterOperationsAreOneTransaction := by
  refine ⟨fun s addr ha => ?_, fun s addr n ha hn => ?_, fun s addr v ha => ?_, fun s addr vs ha hn => ?_,
    fun s addr m d ha => ?_, fun s => ?_⟩
  · have hok := blockOk_of_le (n := 1) ha ha
    obtain ⟨hlen, ok, ht⟩ := issueRead_recorded addr [0x00] s
    exact ⟨(issueRead addr [0x00] s).2, _, ok, _, next_of_admitted hok, ht, getElem?_eq_some_getD (by rw [hlen]; decide),
      next_ret_of_admitted hok (reaches_readRegister addr s) _⟩
  · have hok := blockOk_of_le ha hn
    have hzeros : (zeros n).length = n := List.length_replicate
    obtain ⟨hlen, ok, ht⟩ := issueRead_recorded addr (zeros n) s
    rw [hzeros] at hlen
    exact ⟨(issueRead addr (zeros n) s).2, _, ok, next_of_admitted (hzeros.symm ▸ hok), ht, hlen,
      next_ret_of_admitted hok (reaches_readRegisters addr n s) _⟩
  · have hok := blockOk_of_le (n := 1) ha ha
    exact ⟨(issueWrite addr [v] s).2, next_of_admitted hok, next_ret_of_admitted hok (reaches_writeRegister v s ha) _⟩
  · have hok := blockOk_of_le ha hn
    exact ⟨(issueWrite addr vs s).2, next_of_admitted hok, next_ret_of_admitted hok (reaches_writeRegisters s hn) _⟩
  · have hok := blockOk_of_le (n := 1) ha ha
    exact ⟨(issueBitmod addr m d s).2, next_of_admitted hok, next_ret_of_admitted hok (reaches_modifyRegister m d s ha) _⟩
  · obtain ⟨hlen, ok, ht⟩ := issueReadStatus_recorded [0x00] s
    exact ⟨(issueReadStatus [0x00] s).2, _, ok, _, rfl, ht, getElem?_eq_some_getD (by rw [hlen]; decide),
      congrArg Host.Outcome.next ((reaches_readStatus s).ret_eq _)⟩

/-! ## `reset()` -/

@[simp] theorem resetCells_turns (l : List Nat) (e : Env) : (resetCells l e).2.turns = e.turns := by
  induction l generalizing e with
  | nil => rfl
  | cons a r ih => simp [resetCells, ih]

theorem State.chipReset_turns (s : State) : s.chipReset.env.turns = s.env.turns := by
  have h := resetCells_turns unspecifiedAddrs s.env
  unfold State.chipReset
  generalize resetCells unspecifiedAddrs s.env = r at h ⊢
  exact h

theorem issueReset_turns {s : State} (hc : s.clear) : (issueReset s).2.env.turns = s.env.turns := by
  rw [issueReset, transact_clear _ _ _ hc.1 (head_cons hc.2)]
  simp only [State.record_env, List.length_singleton, Nat.le_refl, if_true, State.chipReset_turns, State.setEnv_env,
    (noResponse_links _ _).2]

/-- What the bridge has done depends on the parameters, the line, the queue and the changes not served alone. -/
theorem Served.congr {n : Nat} {s u t : State} (h : Served n u t) (hparams : u.params = s.params) (hint : u.int = s.int)
    (hqueue : u.queue = s.queue) (hedges : u.edges = s.edges) (hwaits : u.waits = s.waits) : Served n s t := by
  unfold Served at h ⊢
  rwa [hparams, hint, hqueue, hedges, hwaits] at h

/-- At a scheduling point at which no other agent steps the bridge serves what is due, and nothing else happens. -/
theorem schedule_idle_served {s : State} (h : s.env.turns.head? = some []) :
    Served 1 s s.schedule ∧ ∃ q n w e, s.schedule = { s with queue := q, edges := n, waits := w, env := e } := by
  rw [schedule_idle h]
  obtain ⟨q, n, w, hshape⟩ := (s.setEnv { s.env with turns := s.env.turns.drop 1 }).serve_shape
  exact ⟨(served_serve _).congr rfl rfl rfl rfl rfl, q, n, w, _, hshape⟩

/-- A delay is such a point, and counts towards the settle time. -/
theorem State.sleep_idle {s : State} (h : s.env.turns.head? = some []) (ms : Nat) :
    Served 1 s (s.sleep ms) ∧ ∃ q n w e, s.sleep ms = { s with
      queue := q, edges := n, waits := w, env := e, sleeps := s.sleeps ++ [ms], settle := s.settle - ms } := by
  obtain ⟨hserved, q, n, w, e, hshape⟩ :=
    schedule_idle_served (s := { s with sleeps := s.sleeps ++ [ms], settle := s.settle - ms }) h
  exact ⟨hserved.congr rfl rfl rfl rfl rfl, q, n, w, e, hshape⟩

/-- Settles O14: the `RESET` leaves the reset values and deasserts `INT`, and the delay is the settle time. -/
theorem resetOperation : Obligations.ResetOperation := by
  intro s hs hc hturn
  obtain ⟨t, hexec, hreset, hinv, hint, hedges, hab, hsettle, hsent, ⟨hqueue, hwaits, hcloud, hrefused, hcalls⟩, hlog,
    hresults, hsleeps⟩ := resetInstruction s hs hc
  obtain rfl : (issueReset s).2 = t := Host.Outcome.next.inj hexec
  obtain ⟨hserved, q, n, w, e, hshape⟩ := State.sleep_idle ((issueReset_turns hc).symm ▸ hturn) Config.resetSettle
  have hkept := (reaches_sleep (issueReset s).2 Config.resetSettle).inv hinv
  refine ⟨_, rfl, ?_⟩
  rw [resetChip]
  rw [hshape] at hserved hkept ⊢
  exact ⟨hreset, hkept, hint, hab, congrArg (· - Config.resetSettle) hsettle, hsent,
    ⟨hserved.congr (reaches_issueReset s).params hint hqueue hedges hwaits, hcloud, hrefused, hcalls⟩, hlog,
    congrArg (· ++ [Value.unit]) hresults, congrArg (· ++ [10]) hsleeps⟩

end Sys2Proof.Machine

/-! SUPPORT. A transaction that fails after some of its bytes acts as those bytes do (41_register_access.md R181): the effect of any
serial instruction is that of the bytes that have come across (`State.received`), and its response takes draws only, so that the
choices of one that succeeds can be given for the choices that the failed one leaves. -/

namespace Sys2Proof.Machine

/-! ## The effect of bytes -/

/-- What a serial instruction does to the chip once all of its bytes have come across (40_serial_transactions.md R150-R164); `exec`
is its transaction by `exec_eq_received`. The instructions that only read do nothing, and an operation has no bytes. -/
def State.act (u : State) (i : Instr) : State :=
  match i with
  | .txnReset => u.chipReset
  | .txnWrite addr data => u.writeBlock addr.toNat data
  | .txnBitmod addr mask data => u.bitModify addr.toNat mask data
  | .txnReadRx0 _ => u.poke Addr.canintf (rxIf .rxb0) 0
  | .txnReadRx1 _ => u.poke Addr.canintf (rxIf .rxb1) 0
  | .txnLoadTx0 data => u.writeBlock (txSidh .txb0).toNat data
  | .txnLoadTx1 data => u.writeBlock (txSidh .txb1).toNat data
  | .txnLoadTx2 data => u.writeBlock (txSidh .txb2).toNat data
  | .txnRtsTx0 => [TxSlot.txb0].foldl State.requestToSend u
  | .txnRtsTx1 => [TxSlot.txb1].foldl State.requestToSend u
  | .txnRtsTx2 => [TxSlot.txb2].foldl State.requestToSend u
  | .txnRtsAll => [TxSlot.txb0, .txb1, .txb2].foldl State.requestToSend u
  | _ => u

/-- What the chip does with the bytes that it has received: what their instruction does, or nothing. -/
def State.received (u : State) (bytes : List Byte) : State :=
  match decode bytes with
  | .ok i => u.act i
  | .error _ => u

theorem chip_act {i : Instr} (hi : i.wellFormed = true) (u : State) : Chip u (u.act i) := by
  cases i with
  | txnReset => exact chip_chipReset u
  | txnWrite => exact chip_writeBlock _ u (block_le_of_blockOk hi)
  | txnBitmod => exact chip_bitModify u _ _ (addr_lt_of_blockOk hi)
  | txnReadRx0 | txnReadRx1 => exact chip_poke u _ _ (by decide)
  | txnLoadTx0 | txnLoadTx1 | txnLoadTx2 => exact chip_writeBlock _ u (body_le_of_loadOk _ hi)
  | txnRtsTx0 | txnRtsTx1 | txnRtsTx2 | txnRtsAll => exact chip_foldl_requestToSend _ u
  | _ => exact Chip.refl u

theorem blockOk_take {addr : Byte} {data : List Byte} (n : Nat) (h : blockOk addr data.length = true) :
    blockOk addr (data.take n).length = true := by
  simp only [blockOk_eq, Bool.and_eq_true, decide_eq_true_eq, List.length_take] at h ⊢
  omega

theorem loadOk_take {data : List Byte} (n : Nat) (h : loadOk data = true) : loadOk (data.take n) = true := by
  simp only [loadOk_eq, decide_eq_true_eq, List.length_take] at h ⊢
  omega

/-- Bytes that begin an instruction of admitted operands are those of one of admitted operands, if of any. -/
theorem wellFormed_of_decode_take {i j : Instr} {out : List Byte} (h : encode i = some out) (hi : i.wellFormed = true) (k : Nat)
    (hj : decode (out.take k) = .ok j) : j.wellFormed = true := by
  cases i with
  | txnReset | txnRtsTx0 | txnRtsTx1 | txnRtsTx2 | txnRtsAll =>
    cases h
    match k with
    | n + 1 =>
      rw [List.take_of_length_le (Nat.succ_pos n)] at hj
      cases hj
      rfl
  | txnReadStatus | txnRxStatus | txnReadRx0 | txnReadRx1 =>
    cases h
    match k with
    | n + 1 =>
      cases hj
      rfl
  | txnRead | txnWrite =>
    cases h
    match k with
    | n + 2 =>
      cases hj
      exact blockOk_take n hi
  | txnBitmod =>
    cases h
    match k with
    | n + 4 =>
      rw [List.take_of_length_le (Nat.le_add_left 4 n)] at hj
      cases hj
      exact hi
  | txnLoadTx0 | txnLoadTx1 | txnLoadTx2 =>
    cases h
    match k with
    | n + 1 =>
      cases hj
      exact loadOk_take n hi
  | _ => cases h

/-! ## What the first bytes do -/

theorem received_of_error {bytes : List Byte} {x : DecodeError} (h : decode bytes = .error x) (u : State) :
    u.received bytes = u := by
  rw [State.received, h]

/-- An instruction that acts once all of its bytes have come across. -/
theorem once_eq_received {out : List Byte} {n : Nat} {u t : State} (hn : out.length = n) (hall : u.received out = t)
    (hless : ∀ k, k < n → u.received (out.take k) = u) (k : Nat) : (if n ≤ k then t else u) = u.received (out.take k) := by
  split
  · next hk => rw [List.take_of_length_le (hn ▸ hk), hall]
  · next hk => exact (hless k (Nat.lt_of_not_le hk)).symm

theorem received_reset (u : State) {k : Nat} (hk : 1 ≤ k) : u.received ([Opcode.reset].take k) = u.chipReset := by
  rw [List.take_of_length_le hk]
  rfl

theorem received_bitmod_of_lt (a m d : Byte) (u : State) : (k : Nat) → k < 4 → u.received ([Opcode.bitmod, a, m, d].take k) = u
  | 0, _ | 1, _ | 2, _ | 3, _ => rfl

theorem received_read (a : Byte) (xs : List Byte) (u : State) : (k : Nat) → u.received ((Opcode.read :: a :: xs).take k) = u
  | 0 | 1 | _ + 2 => rfl

theorem received_readStatus (xs : List Byte) (u : State) : (k : Nat) → u.received ((Opcode.readStatus :: xs).take k) = u
  | 0 | _ + 1 => rfl

theorem received_write (a : Byte) (ds : List Byte) (u : State) : (k : Nat) →
    u.received ((Opcode.write :: a :: ds).take k) = u.writeBlock a.toNat (ds.take (k - 2))
  | 0 | 1 | _ + 2 => rfl

/-! ## Draws of a response -/

/-- A response that takes only draws, as many as the registers say. -/
def TakesDraws (respond : State → List Byte × Env) : Prop :=
  ∀ u : State, ∃ n, ∀ e, (respond (u.setEnv e)).2 = (Env.drawN n e).2

theorem drawN_add (m n : Nat) (e : Env) : (Env.drawN (m + n) e).2 = (Env.drawN n (Env.drawN m e).2).2 := by
  induction m generalizing e with
  | zero => rw [Nat.zero_add]; rfl
  | succ k ih => rw [Nat.succ_add]; exact ih _

theorem readBlock_draws (u : State) (a n : Nat) :
    ∃ m, ∀ e e', ((u.setEnv e').readBlock a n e).2 = (Env.drawN m e).2 := by
  induction n generalizing a with
  | zero => exact ⟨0, fun _ _ => rfl⟩
  | succ k ih =>
    obtain ⟨m, hm⟩ := ih (a + 1)
    have hsame (e' : Env) : (u.setEnv e').unlockedRx a = u.unlockedRx a := rfl
    cases hu : u.unlockedRx a
    · refine ⟨m, fun e e' => ?_⟩
      rw [State.readBlock, State.readCell, hsame, hu]
      exact hm e e'
    · refine ⟨m + 1, fun e e' => ?_⟩
      rw [State.readBlock, State.readCell, hsame, hu]
      exact hm e.draw.2 e'

theorem rxBytes_draws (u : State) (slot : RxSlot) (i n : Nat) :
    ∃ m, ∀ e e', ((u.setEnv e').rxBytes slot i n e).2 = (Env.drawN m e).2 := by
  induction n generalizing i with
  | zero => exact ⟨0, fun _ _ => rfl⟩
  | succ k ih =>
    obtain ⟨m, hm⟩ := ih (i + 1)
    have hsame (e' : Env) : (u.setEnv e').rxPending slot = u.rxPending slot := rfl
    cases hu : (i < chipMap.bodySize && u.rxPending slot)
    · refine ⟨m + 1, fun e e' => ?_⟩
      rw [State.rxBytes, hsame, hu]
      exact hm e.draw.2 e'
    · refine ⟨m, fun e e' => ?_⟩
      rw [State.rxBytes, hsame, hu]
      exact hm e e'

theorem takesDraws_noResponse (out : List Byte) : TakesDraws (noResponse out) := fun _ => ⟨out.length, fun _ => rfl⟩

theorem takesDraws_readResponse (addr : Byte) (n : Nat) : TakesDraws (readResponse addr n) := fun u => by
  obtain ⟨m, hm⟩ := readBlock_draws u addr.toNat n
  exact ⟨2 + m, fun e => (hm _ e).trans (drawN_add 2 m e).symm⟩

theorem takesDraws_statusResponse (n : Nat) : TakesDraws (statusResponse n) := fun _ => ⟨1, fun _ => rfl⟩

theorem takesDraws_rxStatusResponse (n : Nat) : TakesDraws (rxStatusResponse n) := fun _ => ⟨2, fun _ => rfl⟩

theorem takesDraws_rxResponse (slot : RxSlot) (n : Nat) : TakesDraws (rxResponse slot n) := fun u => by
  obtain ⟨m, hm⟩ := rxBytes_draws u slot 0 n
  exact ⟨m + 1, fun e => hm _ e⟩

/-! ## A serial instruction is the effect of its bytes -/

/-- A serial instruction is the transaction of its bytes, its response takes only draws, and the first `k` of its bytes act as
the chip does on receiving those. -/
theorem exec_eq_received {i : Instr} {out : List Byte} (h : encode i = some out) (hi : i.wellFormed = true) :
    ∃ respond effect, (∀ s, exec i s = .next (transact out respond effect s).2) ∧ TakesDraws respond ∧
      ∀ k u, effect k u = u.received (out.take k) := by
  cases i with
  | txnReset =>
    cases h
    exact ⟨_, _, fun _ => rfl, takesDraws_noResponse _, fun k u => once_eq_received (by rfl) (by rfl) (fun | 0, _ => rfl) k⟩
  | txnRead addr dummy =>
    cases h
    exact ⟨_, _, fun _ => congrArg _ (if_pos hi), takesDraws_readResponse _ _, fun k u => (received_read _ _ u k).symm⟩
  | txnWrite addr data =>
    cases h
    exact ⟨_, _, fun _ => congrArg _ (if_pos hi), takesDraws_noResponse _, fun k u => (received_write _ _ u k).symm⟩
  | txnBitmod addr mask data =>
    cases h
    exact ⟨_, _, fun _ => congrArg _ (if_pos hi), takesDraws_noResponse _,
      fun k u => once_eq_received (by rfl) (by rfl) (received_bitmod_of_lt _ _ _ u) k⟩
  | txnReadStatus dummy =>
    cases h
    exact ⟨_, _, fun _ => rfl, takesDraws_statusResponse _, fun k u => (received_readStatus _ u k).symm⟩
  | txnRxStatus dummy =>
    cases h
    exact ⟨_, _, fun _ => rfl, takesDraws_rxStatusResponse _, fun | 0, _ | _ + 1, _ => rfl⟩
  | txnReadRx0 | txnReadRx1 =>
    cases h
    exact ⟨_, _, fun _ => rfl, takesDraws_rxResponse _ _, fun | 0, _ => rfl | n + 1, _ => if_pos (Nat.succ_pos n)⟩
  | txnLoadTx0 | txnLoadTx1 | txnLoadTx2 =>
    cases h
    exact ⟨_, _, fun _ => congrArg _ (if_pos hi), takesDraws_noResponse _, fun | 0, _ | _ + 1, _ => rfl⟩
  | txnRtsTx0 | txnRtsTx1 | txnRtsTx2 | txnRtsAll =>
    cases h
    exact ⟨_, _, fun _ => rfl, takesDraws_noResponse _, fun k u => once_eq_received (by rfl) (by rfl) (fun | 0, _ => rfl) k⟩
  | _ => cases h

theorem chip_received {i : Instr} {out : List Byte} (h : encode i = some out) (hi : i.wellFormed = true) (k : Nat) (u : State) :
    Chip u (u.received (out.take k)) := by
  rw [State.received]
  split
  · next hj => exact chip_act (wellFormed_of_decode_take h hi k hj) u
  · exact Chip.refl u

/-! ## A transaction that fails -/

/-- The choices of a transaction that succeeds and takes `n` draws, before the choices `e`. -/
def choicesBefore (n : Nat) (e : Env) : Env := { e with draws := zeros n ++ e.draws, links := .ok :: e.links }

theorem drawN_choicesBefore (n : Nat) (e : Env) : (Env.drawN n { choicesBefore n e with links := e.links }).2 = e := by
  induction n with
  | zero => rfl
  | succ k ih => exact ih

/-- Under some choices a transaction that succeeds acts on a state of the choices `e`. -/
theorem exec_from_choices {s : State} (hs : s.settle = 0) {j : Instr} {bytes : List Byte} (h : encode j = some bytes)
    (hj : j.wellFormed = true) (e : Env) :
    ∃ e' x, e'.links.head? = some .ok ∧ exec j (s.setEnv e') = .next (((s.setEnv e).received bytes).record x) := by
  obtain ⟨respond, effect, hexec, hdraws, heffect⟩ := exec_eq_received h hj
  obtain ⟨n, hn⟩ := hdraws s
  have hleft : (respond (s.setEnv { choicesBefore n e with links := e.links })).2 = e := (hn _).trans (drawN_choicesBefore n e)
  have ht := congrArg Prod.snd (transact_clear bytes respond effect (s := s.setEnv (choicesBefore n e)) (r := e.links) hs rfl)
  rw [heffect, List.take_length] at ht
  exact ⟨choicesBefore n e, _, rfl, (hexec _).trans (congrArg Host.Outcome.next
    (ht.trans (congrArg (fun c => State.record ((s.setEnv c).received bytes) _) hleft)))⟩

section

variable {s : State} {k : Nat} (hs : s.settle = 0) (hp : s.params.transportMayFail = true)
  (hl : s.env.links.head? = some (.cut k)) {i : Instr} {out : List Byte} (h : encode i = some out) (hi : i.wellFormed = true)

include hs hp hl h hi

/-- A transaction that fails after `k` bytes receives draws and acts as those bytes; it is recorded and logged. -/
theorem exec_cut : ∃ inb e, inb.length = out.length ∧ Chip s ((s.setEnv e).received (out.take k)) ∧
    exec i s = .next (((s.setEnv e).received (out.take k)).finish out inb false) := by
  obtain ⟨respond, effect, hexec, -, heffect⟩ := exec_eq_received h hi
  have ht := transact_cut out respond effect hs hp (head_cons hl)
  rw [heffect, ← List.take_eq_take_min] at ht
  exact ⟨_, _, Env.drawN_length _ _, (chip_setEnv s _).trans (chip_received h hi k _),
    (hexec s).trans (congrArg (fun r => Host.Outcome.next r.2) ht)⟩

/-- Where those bytes are an instruction, it is that instruction, succeeding under some choices. -/
theorem exec_cut_of_decode {j : Instr} (hj : decode (out.take k) = .ok j) :
    ∃ inb e, inb.length = out.length ∧ e.links.head? = some .ok ∧ ∃ t, exec j (s.setEnv e) = .next t ∧
      exec i s = .next { t with
        transcript := s.transcript ++ [{ out := out, inb := inb, ok := false }], log := s.log ++ [.transportFailure] } := by
  obtain ⟨inb, e, hlen, hchip, hexec⟩ := exec_cut hs hp hl h hi
  obtain ⟨e', x, hlink, hpart⟩ := exec_from_choices hs (encodeOfDecode _ _ hj) (wellFormed_of_decode_take h hi k hj) e
  refine ⟨inb, e', hlen, hlink, _, hpart, hexec.trans ?_⟩
  rw [← hchip.transcript, ← hchip.log]
  rfl

/-- Where those bytes do nothing, only the record and the log say that it was issued. -/
theorem exec_cut_of_received (hnone : ∀ u : State, u.received (out.take k) = u) :
    ∃ inb env, inb.length = out.length ∧ exec i s = .next { s with
      transcript := s.transcript ++ [{ out := out, inb := inb, ok := false }]
      log := s.log ++ [.transportFailure], env := env } := by
  obtain ⟨inb, e, hlen, -, hexec⟩ := exec_cut hs hp hl h hi
  rw [hnone] at hexec
  exact ⟨inb, e, hlen, hexec⟩

end

/-- Bytes that only read, and those of which the one that acts is missing, do nothing. -/
theorem received_eq_self {i : Instr} {out : List Byte} {k : Nat} (h : encode i = some out)
    (hshape : (∃ a xs, i = .txnRead a xs) ∨ (∃ xs, i = .txnReadStatus xs) ∨ (i = .txnReset ∧ k = 0) ∨
      (∃ a m d, i = .txnBitmod a m d ∧ k < 4)) (u : State) : u.received (out.take k) = u := by
  rcases hshape with ⟨a, xs, rfl⟩ | ⟨xs, rfl⟩ | ⟨rfl, rfl⟩ | ⟨a, m, d, rfl, hk⟩ <;> cases h
  · exact received_read a xs u k
  · exact received_readStatus xs u k
  · rfl
  · exact received_bitmod_of_lt a m d u k hk

/-- Settles O16: the bytes that came across act as their instruction, or do nothing; of a `WRITE` they are a shorter block, and a
whole `RESET` or `BITMOD` acts as one that succeeds. -/
theorem failedTransactionLeavesAPrefix : Obligations.FailedTransactionLeavesAPrefix := by
  intro s k hs hp hl
  refine ⟨fun i out h hi => ?_, fun i out h hi hshape => exec_cut_of_received hs hp hl h hi (received_eq_self h hshape),
    fun hinv a ds ha hlen => ?_, fun hk => ?_, fun hinv hk addr m d w hplain => ?_⟩
  · cases hj : decode (out.take k) with
    | ok j => exact exec_cut_of_decode hs hp hl h hi hj
    | error x => exact exec_cut_of_received hs hp hl h hi (received_of_error hj)
  · have hi : (Instr.txnWrite a ds).wellFormed = true := blockOk_of_le ha hlen
    obtain ⟨inb, e, -, hchip, hexec⟩ := exec_cut hs hp hl rfl hi
    rw [received_write] at hchip hexec
    refine ⟨_, hexec, congrArg (· ++ [LogRecord.transportFailure]) hchip.log, fun i hi hik hlands h14 => ?_, ?_,
      State.opmod_writeBlock _ (s.setEnv e) _⟩
    · have hcount : (ds.take (k - 2)).length = min (k - 2) ds.length := List.length_take
      have hreg := State.reg_writeBlock (ds.take (k - 2)) (s := s.setEnv e) hinv (by omega) i (by omega) hlands h14
      rwa [List.getElem_take] at hreg
    · rw [← List.length_take]
      exact sameRegs_writeBlock (ds.take (k - 2)) (s.setEnv e) a.toNat
  · obtain ⟨inb, e, -, hchip, hexec⟩ := exec_cut hs hp hl (i := .txnReset) rfl rfl
    rw [received_reset _ hk] at hchip hexec
    have hdrawn : Memory.Drawn (s.setEnv e).chipReset.mem := drawn_resetCells e
    exact ⟨_, hexec, congrArg (· ++ [LogRecord.transportFailure]) hchip.log, State.atReset_of_drawn hdrawn, hdrawn.level, rfl,
      rfl⟩
  · obtain ⟨hlt, -⟩ := plainRegisters_facts _ hplain
    have hi : (Instr.txnBitmod addr m d).wellFormed = true := blockOk_of_le hlt hlt
    have hall : decode ([Opcode.bitmod, addr, m, d].take k) = .ok (.txnBitmod addr m d) := by
      rw [List.take_of_length_le hk]
      rfl
    obtain ⟨inb, e, -, hlink, t, hpart, hexec⟩ := exec_cut_of_decode hs hp hl rfl hi hall
    obtain ⟨t', ht', hreg, hsame, hop, -⟩ := bitmodPlainRegister.1 (s.setEnv e) addr m d w hinv ⟨hs, hlink⟩ hplain
    cases hpart.symm.trans ht'
    exact ⟨_, hexec, rfl, hreg, hsame, hop⟩

end Sys2Proof.Machine

/-! SUPPORT. The Mode State Machine and the bit timing (42_mode_and_bit_timing.md R200-R209): the transactions of `setMode` in every
run, and what it, `setBitrate`, `setFilter` and `setMask` leave when nothing disturbs them. -/

namespace Sys2Proof.Machine

/-- Settles O40: the operation returns the table's entry, which a pair whose rate is no member does not have. -/
theorem lookupBitTiming : Obligations.LookupBitTiming := fun s clock rate =>
  congrArg (fun entry => Host.Outcome.next (s.ret (.triple entry))) (bitTiming_eq clock rate)

/-! ## The mode poll in every run -/

/-- A transaction is recorded with what it has received, and is no delay. -/
theorem transact_recorded {out : List Byte} {respond : State → List Byte × Env} {effect : Nat → State → State}
    (h : SerialParts out respond effect) (s : State) :
    ∃ e : Entry, (transact out respond effect s).2.transcript = s.transcript ++ [e] ∧ e.out = out ∧
      e.inb = (transact out respond effect s).1 ∧ (transact out respond effect s).2.sleeps = s.sleeps := by
  obtain ⟨ok, htrans⟩ := transact_transcript out respond effect s h.chip
  obtain ⟨u, inb, ok', hfinish, -, hchip, -⟩ := transact_eq_finish h s
  exact ⟨_, htrans, rfl, rfl, by rw [hfinish, State.finish_sleeps, hchip.sleeps]⟩

/-- The third byte received is the value that a read of a register returns. -/
theorem readRegister_recorded (addr : Byte) (s : State) :
    ∃ e : Entry, (readRegister addr s).2.transcript = s.transcript ++ [e] ∧ e.out = [0x03, addr, 0x00] ∧
      e.inb.getD 2 0 = (readRegister addr s).1 ∧ (readRegister addr s).2.sleeps = s.sleeps := by
  obtain ⟨e, htrans, hout, hinb, hsleeps⟩ :=
    transact_recorded (serialParts_read (readResponse_length Opcode.read addr (zeros 1))) s
  exact ⟨e, htrans, hout, congrArg (·.getD 2 0) hinb, hsleeps⟩

theorem modifyRegister_recorded {addr : Byte} (ha : addr.toNat < 128) (m d : Byte) (s : State) :
    ∃ e : Entry, (modifyRegister addr m d s).transcript = s.transcript ++ [e] ∧ e.out = [0x05, addr, m, d] ∧
      (modifyRegister addr m d s).sleeps = s.sleeps := by
  obtain ⟨e, htrans, hout, -, hsleeps⟩ := transact_recorded (out := [Opcode.bitmod, addr, m, d])
    (serialParts_once (n := 4) (noResponse_length _) (fun u => chip_bitModify u m d ha) fun _ u => u.settle_bitModify _ m d) s
  exact ⟨e, htrans, hout, hsleeps⟩

theorem schedule_transcript (s : State) : s.schedule.transcript = s.transcript := (agent_schedule s).transcript

theorem sleep_transcript (s : State) (ms : Nat) : (s.sleep ms).transcript = s.transcript := (agent_schedule _).transcript

/-- The byte that a read of CANSTAT has received shows the mode `p`. -/
def Entry.shows (p : Byte) (e : Entry) : Prop := e.inb.getD 2 0 &&& 0xE0 = p

/-- `r` is what a poll of at most `n + 1` attempts from `s` leaves: reads of CANSTAT with a delay between two of them, up to the
first that shows the mode (R201, R202). -/
def Polled (p : Byte) (n : Nat) (s : State) (r : Result × State) : Prop :=
  ∃ (polls : List Entry) (last : Entry), r.2.transcript = s.transcript ++ (polls ++ [last]) ∧
    (∀ e ∈ polls ++ [last], e.out = [0x03, 0x0E, 0x00]) ∧ (∀ e ∈ polls, ¬ e.shows p) ∧
    r.2.sleeps = s.sleeps ++ List.replicate polls.length 10 ∧
    ((polls.length ≤ n ∧ last.shows p ∧ r.1 = .ok) ∨
      (polls.length = n ∧ ¬ last.shows p ∧ r.1 = .modeTransitionFailure))

/-- A single read shows the mode, or is the last attempt. -/
theorem polled_one {p : Byte} {n : Nat} {s : State} {r : Result × State} {e : Entry}
    (htrans : r.2.transcript = s.transcript ++ [e]) (hsleeps : r.2.sleeps = s.sleeps) (hout : e.out = [0x03, 0x0E, 0x00])
    (hend : e.shows p ∧ r.1 = .ok ∨ n = 0 ∧ ¬ e.shows p ∧ r.1 = .modeTransitionFailure) : Polled p n s r := by
  refine ⟨[], e, htrans, List.forall_mem_singleton.2 hout, nofun, by simp [hsleeps], ?_⟩
  obtain ⟨he, hr⟩ | ⟨rfl, he, hr⟩ := hend
  · exact .inl ⟨Nat.zero_le n, he, hr⟩
  · exact .inr ⟨rfl, he, hr⟩

/-- A read that does not show the mode, and a delay, before the rest of the poll. -/
theorem Polled.cons {p : Byte} {n : Nat} {s t : State} {r : Result × State} {e : Entry} (h : Polled p n t r)
    (htrans : t.transcript = s.transcript ++ [e]) (hsleeps : t.sleeps = s.sleeps ++ [10]) (hout : e.out = [0x03, 0x0E, 0x00])
    (he : ¬ e.shows p) : Polled p (n + 1) s r := by
  obtain ⟨polls, last, ht, houts, hpolls, hs, hend⟩ := h
  refine ⟨e :: polls, last, by simp [ht, htrans], ?_, ?_, by simp [hs, hsleeps, List.replicate_succ], by simpa using hend⟩
  · exact List.forall_mem_cons.2 ⟨hout, houts⟩
  · exact List.forall_mem_cons.2 ⟨he, hpolls⟩

/-! An attempt that shows the mode ends the poll, and so does the last one. -/

theorem pollMode_of_shown {p : Byte} {s : State} (h : (readRegister 0x0E s).1 &&& 0xE0 = p) (n : Nat) :
    pollMode p (n + 1) s = (.ok, (readRegister 0x0E s).2) := if_pos h

theorem pollMode_one_of_not_shown {p : Byte} {s : State} (h : (readRegister 0x0E s).1 &&& 0xE0 ≠ p) :
    pollMode p 1 s = (.modeTransitionFailure, (readRegister 0x0E s).2) := if_neg h

theorem pollMode_of_not_shown {p : Byte} {s : State} (h : (readRegister 0x0E s).1 &&& 0xE0 ≠ p) (n : Nat) :
    pollMode p (n + 2) s = pollMode p (n + 1) ((readRegister 0x0E s).2.sleep 10) := if_neg h

/-- An attempt is a read of CANSTAT, and what it returns shows the mode if the record does. -/
theorem attempt_recorded (p : Byte) (s : State) :
    ∃ e : Entry, (readRegister 0x0E s).2.transcript = s.transcript ++ [e] ∧ e.out = [0x03, 0x0E, 0x00] ∧
      (e.shows p ↔ (readRegister 0x0E s).1 &&& 0xE0 = p) ∧ (readRegister 0x0E s).2.sleeps = s.sleeps := by
  obtain ⟨e, htrans, hout, hbyte, hsleeps⟩ := readRegister_recorded 0x0E s
  exact ⟨e, htrans, hout, by rw [← hbyte]; rfl, hsleeps⟩

theorem polled_pollMode (p : Byte) (n : Nat) (s : State) : Polled p n s (pollMode p (n + 1) s) := by
  induction n generalizing s with
  | zero =>
    obtain ⟨e, htrans, hout, hshows, hsleeps⟩ := attempt_recorded p s
    by_cases h : e.shows p
    · rw [pollMode_of_shown (hshows.1 h)]
      exact polled_one htrans hsleeps hout (.inl ⟨h, rfl⟩)
    · rw [pollMode_one_of_not_shown (mt hshows.2 h)]
      exact polled_one htrans hsleeps hout (.inr ⟨rfl, h, rfl⟩)
  | succ n ih =>
    obtain ⟨e, htrans, hout, hshows, hsleeps⟩ := attempt_recorded p s
    by_cases h : e.shows p
    · rw [pollMode_of_shown (hshows.1 h)]
      exact polled_one htrans hsleeps hout (.inl ⟨h, rfl⟩)
    · rw [pollMode_of_not_shown (mt hshows.2 h)]
      exact (ih _).cons ((sleep_transcript _ 10).trans htrans) (by rw [sleep_sleeps, hsleeps]) hout h

/-- Settles O37: the mode is requested, and what follows the scheduling point is a poll of at most ten attempts. -/
theorem setModeTrace : Obligations.SetModeTrace := by
  intro s mode
  have hreach := reaches_setMode mode s
  obtain ⟨first, hfirst, hout, hsleeps⟩ := modifyRegister_recorded (addr := 0x0F) (by decide) 0xE0 (modeBits mode) s
  obtain ⟨polls, last, htrans, houts, hpolls, hdelays, hend⟩ :=
    polled_pollMode (modeBits mode) 9 (modifyRegister 0x0F 0xE0 (modeBits mode) s).schedule
  rw [schedule_transcript, hfirst, List.append_assoc] at htrans
  rw [(agent_schedule _).sleeps, hsleeps] at hdelays
  have hresults (r : Result) (h : (setMode mode s).1 = r) :
      ((setMode mode s).2.ret (.code (setMode mode s).1)).results = s.results ++ [.code r] := by
    rw [State.ret_results, hreach.results, h]
  refine ⟨_, first, last, polls, rfl, htrans, hout, houts, hpolls, hdelays, ?_, hreach.refused, hreach.cloudUp, hreach.calls⟩
  obtain ⟨hlen, hshows, hr⟩ | ⟨hlen, hshows, hr⟩ := hend
  · exact .inl ⟨hlen, hshows, hresults _ hr⟩
  · exact .inr ⟨hlen, hshows, hresults _ hr⟩

/-! ## What the bridge has done after some scheduling points -/

/-- The changes put off beyond `n` points, and then beyond `m` more. -/
theorem waits_filter_filter (w : List Nat) (n m : Nat) :
    (((w.filter (n ≤ ·)).map (· - n)).filter (m ≤ ·)).map (· - m) = (w.filter (n + m ≤ ·)).map (· - (n + m)) := by
  rw [List.filter_map, List.filter_filter, List.map_map]
  have hfilter : ∀ x ∈ w, (((fun y => decide (m ≤ y)) ∘ (· - n)) x && decide (n ≤ x)) = decide (n + m ≤ x) := by
    intro x _
    simp only [Function.comp_apply, ← Bool.decide_and, decide_eq_decide]
    omega
  rw [List.filter_congr hfilter]
  exact List.map_congr_left fun x _ => Nat.sub_sub x n m

/-- The changes due within `n` points, and then within `m` more. -/
theorem waits_due_add (w : List Nat) (n m : Nat) :
    (w.filter (· < n)).length + (((w.filter (n ≤ ·)).map (· - n)).filter (· < m)).length = (w.filter (· < n + m)).length := by
  induction w with
  | nil => rfl
  | cons x r ih =>
    simp only [List.filter_cons, decide_eq_true_eq] at ih ⊢
    rcases Nat.lt_or_ge x n with h | h
    · rw [if_pos h, if_neg (by omega), if_pos (by omega), List.length_cons, List.length_cons]
      omega
    · rw [if_neg (by omega), if_pos h, List.map_cons, List.filter_cons]
      by_cases hm : x < n + m
      · rw [if_pos (by simp; omega), if_pos hm, List.length_cons, List.length_cons]
        omega
      · rw [if_neg (by simp; omega), if_neg hm]
        exact ih

/-- Two parts of a run, the line and the parameters being the same. -/
theorem Served.trans {n m : Nat} {s t u : State} (h : Served n s t) (g : Served m t u) (hint : t.int = s.int)
    (hparams : t.params = s.params) : Served (n + m) s u := by
  have room (a b l : Nat) : min a (10 - l) + min b (10 - (l + min a (10 - l))) = min (a + b) (10 - l) := by omega
  unfold Served at h g ⊢
  rw [hparams] at g
  cases htrig : s.params.intTrigger <;> rw [htrig] at h g <;> dsimp only at h g ⊢
  · obtain ⟨hqueue, hedges, hwaits⟩ := h
    obtain ⟨gqueue, gedges, gwaits⟩ := g
    refine ⟨?_, gedges, by rw [gwaits, hwaits, waits_filter_filter]⟩
    rw [gqueue, hqueue, hedges, hwaits, List.append_assoc, List.replicate_append_replicate, List.length_append,
      List.length_replicate, room, Nat.zero_add, Nat.add_assoc, waits_due_add]
  · obtain ⟨hqueue, hedges, hwaits⟩ := h
    obtain ⟨gqueue, gedges, gwaits⟩ := g
    refine ⟨?_, gedges.trans hedges, gwaits.trans hwaits⟩
    rw [gqueue, hqueue, hint, List.append_assoc, List.replicate_append_replicate, List.length_append, List.length_replicate, room]
    cases s.int <;> rfl

/-- What the bridge has done after `n` points at which the line stays as it is: nothing when there is none. -/
def Bridged (n : Nat) (s t : State) : Prop :=
  match n with
  | 0 => t.queue = s.queue ∧ t.edges = s.edges ∧ t.waits = s.waits
  | m + 1 => Served (m + 1) s t

theorem Bridged.trans {n m : Nat} {s t u : State} (h : Bridged n s t) (g : Bridged m t u) (hint : t.int = s.int)
    (hparams : t.params = s.params) : Bridged (n + m) s u := by
  cases n with
  | zero =>
    obtain ⟨hqueue, hedges, hwaits⟩ := h
    rw [Nat.zero_add]
    cases m with
    | zero =>
      obtain ⟨gqueue, gedges, gwaits⟩ := g
      exact ⟨gqueue.trans hqueue, gedges.trans hedges, gwaits.trans hwaits⟩
    | succ m => exact Served.congr g hparams hint hqueue hedges hwaits
  | succ n =>
    cases m with
    | zero =>
      obtain ⟨gqueue, gedges, gwaits⟩ := g
      unfold Bridged Served at h ⊢
      rwa [gqueue, gedges, gwaits]
    | succ m => exact (Served.trans h g hint hparams : Served (n + 1 + (m + 1)) s u)

/-! ## Runs that nothing disturbs -/

/-- The next `k` transactions succeed outside the settle time, and at each of the next `j` scheduling points the other agents take
the steps `turn`. A state that is `quiet`, or `prompt`, is so for the steps `[]`, or `[.enterMode]`. -/
def State.steady (turn : List Move) (k j : Nat) (s : State) : Prop :=
  s.settle = 0 ∧ s.env.links.take k = List.replicate k .ok ∧ s.env.turns.take j = List.replicate j turn

/-- `t` comes from `s` by the transactions `outs`, which succeed, and `points` scheduling points, of which some are the delays
`delays`: the line stays as it is, and of the host only the transcript, the delays and what the bridge serves change. -/
structure Steady (outs : List (List Byte)) (points : Nat) (delays : List Nat) (s t : State) : Prop where
  reaches : Reaches s t
  settle : s.settle = 0 → t.settle = 0
  links : t.env.links = s.env.links.drop outs.length
  turns : t.env.turns = s.env.turns.drop points
  int : t.int = s.int
  bridged : Bridged points s t
  aborting : t.aborting = s.aborting
  log : t.log = s.log
  sleeps : t.sleeps = s.sleeps ++ delays
  issued : Issued s t outs

section

variable {s t u : State} {turn : List Move} {outs outs' : List (List Byte)} {points points' k j : Nat} {delays delays' : List Nat}

theorem Steady.trans (h : Steady outs points delays s t) (g : Steady outs' points' delays' t u) :
    Steady (outs ++ outs') (points + points') (delays ++ delays') s u where
  reaches := h.reaches.trans g.reaches
  settle := g.settle ∘ h.settle
  links := by rw [g.links, h.links, List.drop_drop, List.length_append]
  turns := by rw [g.turns, h.turns, List.drop_drop]
  int := g.int.trans h.int
  bridged := h.bridged.trans g.bridged h.int h.reaches.params
  aborting := g.aborting.trans h.aborting
  log := g.log.trans h.log
  sleeps := by rw [g.sleeps, h.sleeps, List.append_assoc]
  issued := Issued.trans h.issued g.issued

theorem take_drop_of_take {α : Type} {l : List α} {x : α} {n m k : Nat} (h : l.take m = List.replicate m x) (hk : n + k ≤ m) :
    (l.drop n).take k = List.replicate k x := by
  have hpre : l.take (n + k) = List.replicate (n + k) x := by
    rw [← Nat.min_eq_left hk, ← List.take_take, h, List.take_replicate, Nat.min_eq_left hk]
  rw [List.take_drop, hpre, List.drop_replicate, Nat.add_sub_cancel_left]

/-- The choices that a run has left. -/
theorem Steady.rest (h : Steady outs points delays s t) {n m : Nat} (hs : s.steady turn n m) (hk : outs.length + k ≤ n)
    (hj : points + j ≤ m) : t.steady turn k j := by
  obtain ⟨hsettle, hlinks, hturns⟩ := hs
  refine ⟨h.settle hsettle, ?_, ?_⟩
  · rw [h.links]; exact take_drop_of_take hlinks hk
  · rw [h.turns]; exact take_drop_of_take hturns hj

theorem State.steady.mono {n m : Nat} (hs : s.steady turn n m) (hk : k ≤ n) (hj : j ≤ m) : s.steady turn k j := by
  obtain ⟨hsettle, hlinks, hturns⟩ := hs
  exact ⟨hsettle, take_drop_of_take (n := 0) hlinks (by omega), take_drop_of_take (n := 0) hturns (by omega)⟩

theorem head?_of_take {α : Type} {l : List α} {x : α} {n : Nat} (h : l.take (n + 1) = List.replicate (n + 1) x) :
    l.head? = some x := by
  rw [head_of_take h (Nat.succ_pos n), List.head?_cons]

theorem State.steady.head_clear (h : s.steady turn (k + 1) j) : s.clear := ⟨h.1, head?_of_take h.2.1⟩

theorem State.steady.head_turn (h : s.steady turn k (j + 1)) : s.env.turns.head? = some turn := head?_of_take h.2.2

/-- The host after a run with a scheduling point in it. -/
theorem Steady.hostAfter (h : Steady outs (points + 1) delays s t) : HostAfter (points + 1) s t :=
  ⟨h.bridged, h.reaches.cloudUp, h.reaches.refused, h.reaches.calls⟩

/-- A run without a delay. -/
theorem Steady.runAfter (h : Steady outs (points + 1) [] s t) (hs : s.settle = 0) : RunAfter (points + 1) s t :=
  ⟨h.hostAfter, h.log, h.sleeps.trans (List.append_nil _), (h.settle hs).trans hs.symm⟩

/-! ## The transactions of such a run -/

theorem Calm.steady {out : List Byte} (h : Calm 1 0 s t) (hreach : Reaches s t) (hline : SameLine s t)
    (hab : t.aborting = s.aborting) (hsent : Sent s t out) : Steady [out] 0 [] s t where
  reaches := hreach
  settle := h.settle.trans
  links := h.links
  turns := h.turns
  int := hline.1
  bridged := ⟨h.queue rfl, hline.2, h.waits rfl⟩
  aborting := hab
  log := h.log
  sleeps := h.sleeps.trans (List.append_nil _).symm
  issued := Issued.of_sent hsent

section

variable (hs : s.Inv) (hc : s.clear) {addr : Byte} (ha : addr.toNat < 128) (h2C : canon addr.toNat ≠ 0x2C)
  (h2B : canon addr.toNat ≠ 0x2B) (hctrl : isTxCtrl (canon addr.toNat) = false)

include hs hc ha h2C h2B hctrl

/-- A register other than CANINTF, CANINTE and TXBnCTRL is modified. -/
theorem modifyRegister_steady (m d : Byte) : Steady [[0x05, addr, m, d]] 0 [] s (modifyRegister addr m d s) ∧
    ∃ e, (modifyRegister addr m d s).mem = ((s.setEnv e).bitModify addr.toNat m d).mem := by
  obtain ⟨⟨e, x, hshape⟩, hcalm, hsent⟩ := issueBitmod_calm addr m d hc ha
  obtain ⟨-, hline, hab⟩ := confined_bitModify (s := s.setEnv e) hs h2C h2B hctrl m d
  rw [← modifyRegister] at hshape hcalm hsent
  refine ⟨hcalm.steady (reaches_modifyRegister m d s ha) ?_ ?_ hsent, e, by rw [hshape]; rfl⟩
  · rw [hshape]; exact hline
  · rw [hshape]; exact hab

/-- Such a register is written. -/
theorem writeRegister_steady (v : Byte) : Steady [[0x02, addr, v]] 0 [] s (writeRegister addr v s) ∧
    ∃ e, (writeRegister addr v s).mem = ((s.setEnv e).writeByte addr.toNat v).mem := by
  obtain ⟨⟨e, x, hshape⟩, hcalm, hsent⟩ := issueWrite_calm addr [v] hc ha
  obtain ⟨-, hline, hab⟩ := confined_writeByte (s := s.setEnv e) hs h2C h2B hctrl v
  rw [← writeRegister] at hshape hcalm hsent
  refine ⟨hcalm.steady (reaches_writeRegister v s ha) ?_ ?_ hsent, e, by rw [hshape]; rfl⟩
  · rw [hshape]; exact hline
  · rw [hshape]; exact hab

end

/-- A register outside the receive buffers that are not pending is read. -/
theorem readRegister_steady (hc : s.clear) {addr : Byte} (hu : s.unlockedRx addr.toNat = false) :
    ∃ t, readRegister addr s = (s.reg addr.toNat, t) ∧ Steady [[0x03, addr, 0x00]] 0 [] s t ∧ t.mem = s.mem := by
  have hreach := reaches_readRegister addr s
  obtain ⟨inb, e, hread, hlinks, hturns, -, hbytes⟩ := issueRead_calm addr (zeros 1) hc
  have hbyte : inb.getD 2 0 = s.reg addr.toNat := by
    rw [List.getD_eq_getElem?_getD, hbytes 0 Nat.one_pos hu]
    rfl
  rw [readRegister, hread] at hreach ⊢
  rw [← hbyte]
  exact ⟨_, rfl, ⟨hreach, id, hlinks, hturns, rfl, ⟨rfl, rfl, rfl⟩, rfl, rfl, (List.append_nil _).symm, _, rfl, rfl, by simp⟩, rfl⟩

/-! ## The scheduling points -/

/-- A scheduling point at which no other agent steps leaves the registers as they are. -/
theorem schedule_steady (h : s.env.turns.head? = some []) : Steady [] 1 [] s s.schedule ∧ s.schedule.mem = s.mem := by
  have hcalm := schedule_idle_calm h
  obtain ⟨hserved, q, n, w, e, hshape⟩ := schedule_idle_served h
  have hint : s.schedule.int = s.int := by rw [hshape]
  have hab : s.schedule.aborting = s.aborting := by rw [hshape]
  exact ⟨⟨reaches_schedule s, hcalm.settle.trans, hcalm.links, hcalm.turns, hint, hserved, hab, hcalm.log,
    hcalm.sleeps.trans (List.append_nil _).symm, Issued.of_eq (schedule_transcript s)⟩, by rw [hshape]⟩

/-- Such a point as a delay. -/
theorem sleep_steady (h : s.env.turns.head? = some []) (ms : Nat) :
    Steady [] 1 [ms] s (s.sleep ms) ∧ (s.sleep ms).mem = s.mem := by
  obtain ⟨hpoint, hmem⟩ := schedule_steady (s := { s with sleeps := s.sleeps ++ [ms], settle := s.settle - ms }) h
  refine ⟨{ hpoint with reaches := reaches_sleep s ms, settle := fun hs => hpoint.settle ?_, sleeps := sleep_sleeps s ms }, hmem⟩
  show s.settle - ms = 0
  omega

theorem schedule_of_single {m : Move} (h : s.env.turns.head? = some [m]) :
    s.schedule = (applyMove m (s.setEnv { s.env with turns := s.env.turns.drop 1 })).serve := by
  have hturn : s.env.turn = ([m], { s.env with turns := s.env.turns.drop 1 }) := by
    unfold Env.turn
    rw [head_cons h]
    rfl
  rw [State.schedule, hturn]
  rfl

/-- A scheduling point at which the chip takes the requested mode and nothing else happens. -/
theorem schedule_steady_enterMode (hs : s.Inv) (h : s.env.turns.head? = some [.enterMode]) (hmode : isModeBits s.reqop = true) :
    Steady [] 1 [] s s.schedule ∧ s.schedule.mem = (s.poke 0x0E modeMask s.reqop).mem := by
  have hsched : s.schedule =
      ((s.setEnv { s.env with turns := s.env.turns.drop 1 }).poke 0x0E modeMask s.reqop).serve :=
    (schedule_of_single h).trans (congrArg State.serve (if_pos hmode))
  obtain ⟨hint, hedges⟩ : SameLine s (s.poke 0x0E modeMask s.reqop) := sameLine_setReg _ hs.2.1 (by decide) (by decide)
  have hserved : Served 1 s s.schedule := hsched ▸ (served_serve _).congr rfl hint rfl hedges rfl
  obtain ⟨q, n, w, hshape⟩ :=
    ((s.setEnv { s.env with turns := s.env.turns.drop 1 }).poke 0x0E modeMask s.reqop).serve_shape
  rw [hshape] at hsched
  refine ⟨⟨reaches_schedule s, (agent_schedule s).settle.trans, ?_, ?_, ?_, hserved, ?_, (agent_schedule s).log,
    (agent_schedule s).sleeps.trans (List.append_nil _).symm, Issued.of_eq (schedule_transcript s)⟩, by rw [hsched]; rfl⟩
  · rw [hsched]; rfl
  · rw [hsched]; rfl
  · rw [hsched]; exact hint
  · rw [hsched]; rfl

/-- The chip is in the mode `m` and stays in it, or takes what is requested at every scheduling point. -/
def Reaching (turn : List Move) (m : Byte) (s : State) : Prop := turn = [] ∧ s.opmod = m ∨ turn = [.enterMode]

/-- After a scheduling point the chip is in the mode that is requested. -/
theorem schedule_reaching {mode : Mode} (hs : s.Inv) (hturn : s.env.turns.head? = some turn) (hreq : s.reqop = modeBits mode)
    (hr : Reaching turn (modeBits mode) s) :
    Steady [] 1 [] s s.schedule ∧ SameRegs [0x0E] s s.schedule ∧ s.schedule.opmod = modeBits mode := by
  obtain ⟨rfl, hop⟩ | rfl := hr
  · obtain ⟨hsteady, hmem⟩ := schedule_steady hturn
    exact ⟨hsteady, sameRegs_of_mem hmem, (State.opmod_of_mem hmem).trans hop⟩
  · have hmode : isModeBits s.reqop = true := hreq ▸ (by cases mode <;> decide)
    obtain ⟨hsteady, hmem⟩ := schedule_steady_enterMode hs hturn hmode
    have hsame := sameRegs_poke s (a := 0x0E) modeMask s.reqop (by decide) (by decide) (by decide)
    refine ⟨hsteady, fun a ha hne => (State.reg_of_mem hmem a).trans (hsame a ha hne), ?_⟩
    rw [State.opmod_of_mem hmem, State.opmod_poke_canstat hs, s.reqop_and, hreq]

/-! ## `setMode` -/

theorem modeBits_and (mode : Mode) : modeBits mode &&& 0xE0 = modeBits mode := by cases mode <;> decide

/-- The request of a mode is written to REQOP, and no other register changes. -/
theorem requestMode_steady (hs : s.Inv) (hmod : s.modifies) (hc : s.clear) (mode : Mode) :
    Steady [[0x05, 0x0F, 0xE0, modeBits mode]] 0 [] s (modifyRegister 0x0F 0xE0 (modeBits mode) s) ∧
      SameRegs [0x0F] s (modifyRegister 0x0F 0xE0 (modeBits mode) s) ∧
      (modifyRegister 0x0F 0xE0 (modeBits mode) s).reg 0x0F = (s.reg 0x0F &&& 0x1F) ||| modeBits mode := by
  obtain ⟨hsteady, e, hmem⟩ :=
    modifyRegister_steady hs hc (addr := 0x0F) (by decide) (by decide) (by decide) (by decide) 0xE0 (modeBits mode)
  replace hmem : (modifyRegister 0x0F 0xE0 (modeBits mode) s).mem = ((s.setEnv e).bitModify 0x0F 0xE0 (modeBits mode)).mem := hmem
  have hmask : (s.setEnv e).modMask 0x0F 0xE0 = 0xE0 := if_pos (hmod 0x0F (by decide))
  obtain ⟨hsame, -, -⟩ :=
    confined_bitModify (s := s.setEnv e) hs (a := 0x0F) (by decide) (by decide) (by decide) 0xE0 (modeBits mode)
  have hreg := State.reg_bitModify_plain (s := s.setEnv e) hs (a := 0x0F) (w := 0xFF) (by decide) 0xE0 (modeBits mode)
  rw [if_neg (by decide), hmask, and_ff, modeBits_and] at hreg
  exact ⟨hsteady, fun a ha hne => (State.reg_of_mem hmem a).trans (hsame a ha hne), (State.reg_of_mem hmem 0x0F).trans hreg⟩

/-- The request is REQOP. -/
theorem reqop_of_request {mode : Mode} {old : Byte} (h : s.reg 0x0F = (old &&& 0x1F) ||| modeBits mode) :
    s.reqop = modeBits mode := by
  have hreq : s.reqop = s.reg 0x0F &&& 0xE0 := rfl
  rw [hreq, h, BitVec.and_or_distrib_right, BitVec.and_assoc, modeBits_and]
  simp

/-- CANSTAT is not in a receive buffer. -/
theorem State.unlockedRx_canstat (s : State) : s.unlockedRx 0x0E = false := by
  rw [State.unlockedRx, show isRxBody 0x0E = false by decide]
  rfl

/-- A poll of a chip in the mode ends with its first attempt. -/
theorem pollMode_of_opmod {p : Byte} (hc : s.clear) (hp : s.opmod = p) (n : Nat) :
    ∃ t, pollMode p (n + 1) s = (.ok, t) ∧ Steady [[0x03, 0x0E, 0x00]] 0 [] s t ∧ t.mem = s.mem := by
  obtain ⟨t, hread, hsteady, hmem⟩ := readRegister_steady (addr := 0x0E) hc s.unlockedRx_canstat
  have hshown : (readRegister 0x0E s).1 &&& 0xE0 = p := by rw [hread]; exact hp
  exact ⟨t, by rw [pollMode_of_shown hshown, hread], hsteady, hmem⟩

/-- A poll of a chip that stays in another mode uses all its attempts. -/
theorem pollMode_of_opmod_ne {p : Byte} (n : Nat) {s : State} (hst : s.steady [] (n + 1) n) (hp : s.opmod ≠ p) :
    ∃ t, pollMode p (n + 1) s = (.modeTransitionFailure, t) ∧
      Steady (List.replicate (n + 1) [0x03, 0x0E, 0x00]) n (List.replicate n 10) s t ∧ t.mem = s.mem := by
  induction n generalizing s with
  | zero =>
    obtain ⟨t, hread, hsteady, hmem⟩ := readRegister_steady (addr := 0x0E) hst.head_clear s.unlockedRx_canstat
    have hnot : (readRegister 0x0E s).1 &&& 0xE0 ≠ p := by rw [hread]; exact hp
    exact ⟨t, by rw [pollMode_one_of_not_shown hnot, hread], hsteady, hmem⟩
  | succ n ih =>
    obtain ⟨t, hread, hsteady, hmem⟩ := readRegister_steady (addr := 0x0E) hst.head_clear s.unlockedRx_canstat
    have hnot : (readRegister 0x0E s).1 &&& 0xE0 ≠ p := by rw [hread]; exact hp
    have hleft : t.steady [] (n + 1) (n + 1) := hsteady.rest hst (by simp; omega) (by omega)
    obtain ⟨hdelay, hmem'⟩ := sleep_steady hleft.head_turn 10
    have hboth := hsteady.trans hdelay
    obtain ⟨u, hpoll, hrest, hmemu⟩ := ih (hboth.rest hst (by simp; omega) (by omega))
      (by rwa [State.opmod_of_mem (hmem'.trans hmem)])
    refine ⟨u, ?_, ?_, hmemu.trans (hmem'.trans hmem)⟩
    · rw [pollMode_of_not_shown hnot, hread]
      exact hpoll
    · have hrun := hboth.trans hrest
      rwa [show 0 + 1 + n = n + 1 by omega] at hrun

theorem State.opmod_of_sameRegs {l : List Nat} (h : SameRegs l s t) (hl : 0x0E ∉ l) : t.opmod = s.opmod :=
  congrArg (· &&& modeMask) (h 0x0E (by decide) hl)

/-- ICOD, and so CANSTAT but for OPMOD, follows CANINTF and CANINTE. -/
theorem State.reg_canstat_of_sameRegs {l : List Nat} (h : SameRegs l s t) (hl : 0x2C ∉ l ∧ 0x2B ∉ l) :
    t.reg 0x0E = (s.reg 0x0E &&& 0x1F) ||| t.opmod := by
  have hop : t.opmod = Memory.read t.mem 0x0E &&& 0xE0 := t.opmod_eq
  rw [hop, State.reg_canstat_eq, State.reg_canstat_eq, h 0x2C (by decide) hl.1, h 0x2B (by decide) hl.2]
  generalize icodOf _ = c
  apply byte_ext
  intro k hk
  interval_cases k <;> simp

/-- With OPMOD as before, so is CANSTAT. -/
theorem SameRegs.canstat {l : List Nat} (h : SameRegs (0x0E :: l) s t) (hl : 0x2C ∉ l ∧ 0x2B ∉ l) (hop : t.opmod = s.opmod) :
    SameRegs l s t := by
  intro a ha hne
  by_cases hstat : canon a = 0x0E
  · have hreg : t.reg 0x0E = s.reg 0x0E := by
      rw [State.reg_canstat_of_sameRegs h (by simpa using hl), hop]
      exact (State.reg_canstat_of_sameRegs (sameRegs_refl [] s) (by simp)).symm
    rw [t.reg_canstat hstat, s.reg_canstat hstat]
    exact hreg
  · exact h a ha fun hmem => (List.mem_cons.1 hmem).elim hstat hne

/-- The request, and the scheduling point after it: the chip is in the requested mode if it reaches it. -/
theorem requestMode_reaching {mode : Mode} (hs : s.Inv) (hmod : s.modifies) (hst : s.steady turn 1 1)
    (hr : Reaching turn (modeBits mode) s) :
    ∃ t, (modifyRegister 0x0F 0xE0 (modeBits mode) s).schedule = t ∧ Steady [[0x05, 0x0F, 0xE0, modeBits mode]] 1 [] s t ∧
      t.reg 0x0F = (s.reg 0x0F &&& 0x1F) ||| modeBits mode ∧ SameRegs [0x0E, 0x0F] s t ∧ t.opmod = modeBits mode := by
  obtain ⟨hsteady, hsame, hreg⟩ := requestMode_steady hs hmod hst.head_clear mode
  have hop := State.opmod_of_sameRegs hsame (by decide)
  obtain ⟨hpoint, hsame', hop'⟩ := schedule_reaching (hsteady.reaches.inv hs)
    (hsteady.rest hst (k := 0) (j := 1) le_rfl le_rfl).head_turn (reqop_of_request hreg) (by rwa [Reaching, hop])
  exact ⟨_, rfl, hsteady.trans hpoint, (hsame' 0x0F (by decide) (by decide)).trans hreg,
    (hsame.mono (by simp)).trans (hsame'.mono (by simp)), hop'⟩

/-- `setMode` of a mode that the chip is in, or takes before the first poll. -/
theorem setMode_reaching {mode : Mode} (hs : s.Inv) (hmod : s.modifies) (hst : s.steady turn 2 1)
    (hr : Reaching turn (modeBits mode) s) :
    ∃ t, setMode mode s = (.ok, t) ∧ Steady [[0x05, 0x0F, 0xE0, modeBits mode], [0x03, 0x0E, 0x00]] 1 [] s t ∧
      t.reg 0x0F = (s.reg 0x0F &&& 0x1F) ||| modeBits mode ∧ SameRegs [0x0E, 0x0F] s t ∧ t.opmod = modeBits mode := by
  obtain ⟨u, hu, hsteady, hreg, hsame, hop⟩ := requestMode_reaching hs hmod (hst.mono (by decide) le_rfl) hr
  obtain ⟨t, hpoll, hrest, hmem⟩ := pollMode_of_opmod (hsteady.rest hst (k := 1) (j := 0) le_rfl le_rfl).head_clear hop 9
  refine ⟨t, ?_, hsteady.trans hrest, (State.reg_of_mem hmem _).trans hreg, hsame.trans (sameRegs_of_mem hmem),
    (State.opmod_of_mem hmem).trans hop⟩
  rw [← hpoll, ← hu]
  rfl

/-- `setMode` of a mode that the chip is not in and never takes. -/
theorem setMode_not_reaching {mode : Mode} (hs : s.Inv) (hmod : s.modifies) (hst : s.steady [] 11 10)
    (hop : s.opmod ≠ modeBits mode) :
    ∃ t, setMode mode s = (.modeTransitionFailure, t) ∧
      Steady ([0x05, 0x0F, 0xE0, modeBits mode] :: List.replicate 10 [0x03, 0x0E, 0x00]) 10 (List.replicate 9 10) s t ∧
      t.reg 0x0F = (s.reg 0x0F &&& 0x1F) ||| modeBits mode ∧ SameRegs [0x0F] s t := by
  obtain ⟨hsteady, hsame, hreg⟩ := requestMode_steady hs hmod hst.head_clear mode
  have hop' := State.opmod_of_sameRegs hsame (by decide)
  obtain ⟨hpoint, hmem⟩ := schedule_steady (hsteady.rest hst (k := 10) (j := 10) le_rfl le_rfl).head_turn
  have hrun := hsteady.trans hpoint
  obtain ⟨t, hpoll, hrest, hmem'⟩ := pollMode_of_opmod_ne 9 (hrun.rest hst le_rfl le_rfl)
    (by rwa [State.opmod_of_mem hmem, hop'])
  have hmems := hmem'.trans hmem
  exact ⟨t, hpoll, hrun.trans hrest, (State.reg_of_mem hmems _).trans hreg, hsame.trans (sameRegs_of_mem hmems)⟩

/-- The outcome of an operation of the layer that ends with a result, which it returns (30_encoding.md R135). -/
def returned (x : Result × State) : Host.Outcome State Fault Refusal := .next (x.2.ret (.code x.1))

theorem exec_setMode {mode : Mode} {r : Result} (h : setMode mode s = (r, t)) :
    exec (.setMode mode) s = .next (t.ret (.code r)) :=
  congrArg returned h

end

/-- Settles O38: the first poll meets a chip in the mode; in the first case OPMOD, and so all of CANSTAT, is as before. -/
theorem setModeSucceeds : Obligations.SetModeSucceeds := by
  refine ⟨fun s mode hs hmod hst hop => ?_, fun s mode hs hmod hst => ?_⟩
  · obtain ⟨t, hmode, hrun, hreg, hsame, hop'⟩ :=
      setMode_reaching hs hmod (State.steady.mono hst le_rfl (by decide)) (.inl ⟨rfl, hop⟩)
    exact ⟨_, exec_setMode hmode, hreg, hsame.canstat (by decide) (hop'.trans hop.symm), hrun.int, hrun.aborting,
      hrun.issued, hrun.runAfter hst.1, congrArg (· ++ _) hrun.reaches.results⟩
  · obtain ⟨t, hmode, hrun, hreg, hsame, hop⟩ :=
      setMode_reaching (mode := mode) hs hmod (State.steady.mono hst le_rfl (by decide)) (.inr rfl)
    exact ⟨_, exec_setMode hmode, hreg, hop, hsame.mono (by simp), hrun.int, hrun.aborting, hrun.issued, hrun.runAfter hst.1,
      congrArg (· ++ _) hrun.reaches.results⟩

/-- Settles O39: a poll of a chip that stays in another mode uses all its attempts. -/
theorem setModeNeverTaken : Obligations.SetModeNeverTaken := by
  intro s mode hs hmod hst hop
  obtain ⟨t, hmode, hrun, hreg, hsame⟩ := setMode_not_reaching hs hmod (State.steady.mono hst le_rfl (by decide)) hop
  exact ⟨_, exec_setMode hmode, hreg, hsame, hrun.int, hrun.aborting, hrun.issued, hrun.hostAfter, hrun.log, hrun.sleeps,
    congrArg (· ++ _) hrun.reaches.results⟩

/-! ## Operations that enter Configuration mode first -/

/-- A block is not written where the mode is not reached. -/
theorem setBlock_of_failure {s : State} (h : (setMode .configuration s).1 ≠ .ok) (base : Byte) (ext : Bool) (value : Ident) :
    setBlock base ext value s = setMode .configuration s := by
  unfold setBlock
  dsimp only
  split
  · next hok => exact absurd hok h
  · rfl

/-- Nor is the bit timing. -/
theorem setTiming_of_failure {s : State} (h : (setMode .configuration s).1 ≠ .ok) (timing : Byte × Byte × Byte) :
    setTiming (some timing) s = setMode .configuration s := by
  unfold setTiming
  dsimp only
  split
  · next hok => exact absurd hok h
  · rfl

/-- Settles O42: each of the operations is then the `setMode` that it begins with. -/
theorem modeEntryFailurePropagates : Obligations.ModeEntryFailurePropagates := by
  intro s i hs hmod hst hop hi
  obtain ⟨t, hmode, -⟩ :=
    setMode_not_reaching (mode := .configuration) hs hmod (State.steady.mono hst le_rfl (by decide)) hop
  have hfail : (setMode .configuration s).1 ≠ .ok := by rw [hmode]; nofun
  have hexec : exec i s = exec (.setMode .configuration) s := by
    obtain ⟨f, ext, value, rfl⟩ | ⟨m, ext, value, rfl⟩ | ⟨clock, rate, rfl, hentry⟩ := hi
    · exact congrArg returned (setBlock_of_failure hfail (filterBase f) ext value)
    · exact congrArg returned (setBlock_of_failure hfail (maskBase m) ext value)
    · obtain ⟨timing, htiming⟩ := Option.ne_none_iff_exists'.1 hentry
      have hset : setTiming (bitTiming clock rate) s = setMode .configuration s := by
        rw [htiming, setTiming_of_failure hfail]
      exact congrArg returned hset
  rw [hexec]
  exact setModeNeverTaken s .configuration hs hmod hst hop

/-! ## `setBitrate` -/

section

variable {s t u : State} {turn : List Move}

/-- The chip is in Configuration mode, and no other mode is requested. -/
def State.configured (s : State) : Prop := s.inConfiguration ∧ s.reqop = 0x80

theorem State.configured.of_sameRegs {l : List Nat} (hconf : s.configured) (h : SameRegs l s t) (hl : 0x0E ∉ l ∧ 0x0F ∉ l) :
    t.configured := by
  obtain ⟨hop, hreq⟩ := hconf
  exact ⟨(State.opmod_of_sameRegs h hl.1).trans hop, (congrArg (· &&& modeMask) (h 0x0F (by decide) hl.2)).trans hreq⟩

theorem Reaching.of_opmod {m : Byte} (h : Reaching turn m s) (hop : t.opmod = m) : Reaching turn m t :=
  h.imp (fun hidle => ⟨hidle.1, hop⟩) id

/-- A scheduling point leaves the chip in Configuration mode. -/
theorem schedule_configured (hs : s.Inv) (hturn : s.env.turns.head? = some turn) (hr : Reaching turn 0x80 s)
    (hreq : s.reqop = 0x80) : Steady [] 1 [] s s.schedule ∧ SameRegs [0x0E] s s.schedule ∧ s.schedule.configured := by
  obtain ⟨hrun, hsame, hop⟩ := schedule_reaching (mode := .configuration) hs hturn hreq hr
  exact ⟨hrun, hsame, hop, (congrArg (· &&& modeMask) (hsame 0x0F (by decide) (by decide))).trans hreq⟩

section

variable {addr w : Byte} (hp : (addr.toNat, w) ∈ configurationRegisters) (hw : implMask addr.toNat = w)

include hp hw

/-- In Configuration mode a register whose bits are all W bits takes the byte that is written. -/
theorem writeRegister_configured (hs : s.Inv) (hc : s.clear) (hconf : s.configured) (v : Byte) :
    Steady [[0x02, addr, v]] 0 [] s (writeRegister addr v s) ∧ SameRegs [addr.toNat] s (writeRegister addr v s) ∧
      (writeRegister addr v s).reg addr.toNat = v &&& w := by
  obtain ⟨hlt, hcanon, h0E, h2C, h2B, hother, -, -, hbits⟩ := configurationRegisters_facts _ hp
  have h2C' : canon addr.toNat ≠ 0x2C := by rwa [hcanon]
  have h2B' : canon addr.toNat ≠ 0x2B := by rwa [hcanon]
  have hctrl : isTxCtrl (canon addr.toNat) = false := by rw [hcanon]; exact hother.1
  obtain ⟨hrun, e, hmem⟩ := writeRegister_steady hs hc hlt h2C' h2B' hctrl v
  obtain ⟨hsame, -, -⟩ := confined_writeByte (s := s.setEnv e) hs h2C' h2B' hctrl v
  rw [hcanon] at hsame
  refine ⟨hrun, fun a ha hne => (State.reg_of_mem hmem a).trans (hsame a ha hne), (State.reg_of_mem hmem _).trans ?_⟩
  obtain hwritten | ⟨hno, -⟩ := State.reg_writeByte_config (s := s.setEnv e) hs hp v
  · have hold : s.reg addr.toNat &&& w = s.reg addr.toNat := hw ▸ and_eq_of_normal hs.1 hlt hcanon hother.2.1 h0E
    have hgone : s.reg addr.toNat &&& ~~~w = 0 := by
      rw [← hold, BitVec.and_assoc]
      simp
    rw [hwritten, written_other hother, hbits]
    show (s.reg addr.toNat &&& ~~~w) ||| (v &&& w) = v &&& w
    rw [hgone]
    exact BitVec.zero_or
  · exact absurd hconf.1 hno

/-- Such a write, and the scheduling point after it. -/
theorem writeRegister_schedule_configured (hs : s.Inv) (hst : s.steady turn 1 1) (hr : Reaching turn 0x80 s)
    (hconf : s.configured) (v : Byte) :
    Steady [[0x02, addr, v]] 1 [] s (writeRegister addr v s).schedule ∧
      SameRegs [0x0E, addr.toNat] s (writeRegister addr v s).schedule ∧
      (writeRegister addr v s).schedule.reg addr.toNat = v &&& w ∧ (writeRegister addr v s).schedule.configured := by
  obtain ⟨hrun, hsame, hreg⟩ := writeRegister_configured hp hw hs hst.head_clear hconf v
  obtain ⟨hlt, hcanon, h0E, -, -, -, -, hcfg, -⟩ := configurationRegisters_facts _ hp
  have h0F : addr.toNat ≠ 0x0F := fun h => Bool.false_ne_true ((congrArg configOnly h).symm.trans hcfg)
  have hconf' := hconf.of_sameRegs hsame ⟨by simpa using h0E.symm, by simpa using h0F.symm⟩
  obtain ⟨hpoint, hsame', hconf''⟩ := schedule_configured (hrun.reaches.inv hs)
    (hrun.rest hst (k := 0) (j := 1) le_rfl le_rfl).head_turn (hr.of_opmod hconf'.1) hconf'.2
  refine ⟨hrun.trans hpoint, (hsame.mono (by simp)).trans (hsame'.mono (by simp)), ?_, hconf''⟩
  rw [hsame' _ hlt (by rw [hcanon]; simpa using h0E), hreg]

end

/-- The bit timing is written in Configuration mode. -/
theorem writeTiming_configured (hs : s.Inv) (hst : s.steady turn 3 2) (hr : Reaching turn 0x80 s) (hconf : s.configured)
    (c1 c2 c3 : Byte) :
    ∃ t, writeTiming (c1, c2, c3) s = t ∧
      Steady [[0x02, 0x2A, c1], [0x02, 0x29, c2], [0x02, 0x28, c3]] 2 [] s t ∧ SameRegs [0x0E, 0x28, 0x29, 0x2A] s t ∧
      t.inConfiguration ∧ t.reg 0x2A = c1 ∧ t.reg 0x29 = c2 ∧ t.reg 0x28 = c3 &&& 0xC7 := by
  obtain ⟨hrun1, hsame1, hreg1, hconf1⟩ := writeRegister_schedule_configured (addr := 0x2A) (w := 0xFF) (by decide) (by decide) hs
    (hst.mono (by decide) (by decide)) hr hconf c1
  obtain ⟨hrun2, hsame2, hreg2, hconf2⟩ := writeRegister_schedule_configured (addr := 0x29) (w := 0xFF) (by decide) (by decide)
    (hrun1.reaches.inv hs) (hrun1.rest hst (by simp) (by decide)) (hr.of_opmod hconf1.1) hconf1 c2
  have hrun12 := hrun1.trans hrun2
  obtain ⟨hrun3, hsame3, hreg3⟩ := writeRegister_configured (addr := 0x28) (w := 0xC7) (by decide) (by decide)
    (hrun12.reaches.inv hs) (hrun12.rest hst (k := 1) (j := 0) le_rfl le_rfl).head_clear hconf2 c3
  have hconf3 := hconf2.of_sameRegs hsame3 (by decide)
  rw [and_ff] at hreg1 hreg2
  refine ⟨_, rfl, hrun12.trans hrun3, ?_, hconf3.1, ?_, ?_, hreg3⟩
  · exact ((hsame1.mono (by decide)).trans (hsame2.mono (by decide))).trans (hsame3.mono (by decide))
  · exact ((hsame3 0x2A (by decide) (by decide)).trans (hsame2 0x2A (by decide) (by decide))).trans hreg1
  · exact (hsame3 0x29 (by decide) (by decide)).trans hreg2

/-- The bit timing that the table gives is written once Configuration mode is reached. -/
theorem setTiming_reaching (hs : s.Inv) (hmod : s.modifies) (hst : s.steady turn 5 4) (hr : Reaching turn 0x80 s)
    (c1 c2 c3 : Byte) :
    ∃ t, setTiming (some (c1, c2, c3)) s = (.ok, t) ∧
      Steady [[0x05, 0x0F, 0xE0, 0x80], [0x03, 0x0E, 0x00], [0x02, 0x2A, c1], [0x02, 0x29, c2], [0x02, 0x28, c3]] 4 [] s t ∧
      SameRegs [0x0F, 0x0E, 0x28, 0x29, 0x2A] s t ∧ t.inConfiguration ∧ t.reg 0x0F = (s.reg 0x0F &&& 0x1F) ||| 0x80 ∧
      t.reg 0x2A = c1 ∧ t.reg 0x29 = c2 ∧ t.reg 0x28 = c3 &&& 0xC7 := by
  obtain ⟨u, hmode, hrun1, hreq, hsame1, hop⟩ :=
    setMode_reaching (mode := .configuration) hs hmod (hst.mono (by decide) (by decide)) hr
  obtain ⟨hrun2, hsame2, hconf⟩ := schedule_configured (hrun1.reaches.inv hs)
    (hrun1.rest hst (k := 3) (j := 3) le_rfl le_rfl).head_turn (hr.of_opmod hop) (reqop_of_request hreq)
  have hrun12 := hrun1.trans hrun2
  obtain ⟨t, htiming, hrun3, hsame3, hcfg, hregs⟩ := writeTiming_configured (hrun12.reaches.inv hs)
    (hrun12.rest hst le_rfl le_rfl) (hr.of_opmod hconf.1) hconf c1 c2 c3
  have hset : setTiming (some (c1, c2, c3)) s = (.ok, t) := by
    rw [setTiming, hmode, ← htiming]
  refine ⟨t, hset, hrun12.trans hrun3, ?_, hcfg, ?_, hregs⟩
  · exact ((hsame1.mono (by decide)).trans (hsame2.mono (by decide))).trans (hsame3.mono (by decide))
  · exact ((hsame3 0x0F (by decide) (by decide)).trans (hsame2 0x0F (by decide) (by decide))).trans hreq

end

/-- Settles O41: without an entry nothing is done, and with one the chip reaches Configuration mode and the three registers are
written in it. -/
theorem setBitrate : Obligations.SetBitrate := by
  intro clock rate
  split
  · next hentry =>
    intro s
    have hset : setTiming (bitTiming clock rate) s = (.configurationError, s) := by rw [hentry]; rfl
    exact congrArg returned hset
  · next c1 c2 c3 hentry =>
    intro s hs hmod hquiet
    obtain ⟨turn, hst, hr⟩ : ∃ turn, s.steady turn 5 5 ∧ Reaching turn 0x80 s := by
      obtain ⟨hst, hop⟩ | hst := hquiet
      · exact ⟨[], hst, .inl ⟨rfl, hop⟩⟩
      · exact ⟨[.enterMode], hst, .inr rfl⟩
    obtain ⟨t, htiming, hrun, hsame, hcfg, hreq, hcnf1, hcnf2, hcnf3⟩ :=
      setTiming_reaching hs hmod (hst.mono (by decide) (by decide)) hr c1 c2 c3
    have hstat := State.reg_canstat_of_sameRegs hsame (by decide)
    rw [hcfg] at hstat
    rw [← hentry] at htiming
    exact ⟨_, congrArg returned htiming, hcnf1, hcnf2, hcnf3, hreq, hstat, hsame, hcfg, hrun.int, hrun.aborting, hrun.issued,
      hrun.runAfter hst.1, congrArg (· ++ _) hrun.reaches.results⟩

end Sys2Proof.Machine

/-! SUPPORT. The Frame Codec (43_frame_codec.md R231-R238): the bits of the packed identifier and of the unpacked one, the two
directions of a frame's header, and that they are inverse to each other. -/

namespace Sys2Proof.Machine

/-! ## Packing an identifier -/

/-- SIDL of a standard identifier (R233). -/
theorem sidl_standard (v : Ident) : ((v &&& 0x07) <<< 5).setWidth 8 = v.extractLsb' 0 3 ++ 0b00000#5 :=
  byte_ext fun i hi => by
    refine Eq.trans ?_ BitVec.getLsbD_append.symm
    interval_cases i <;> simp [-BitVec.getLsbD_eq_getElem]

/-- SIDL of an extended identifier: EXIDE stands between two zeros (R234). -/
theorem sidl_extended (v : Ident) :
    ((((v >>> 18) &&& 7) <<< 5) ||| 0x08 ||| ((v >>> 16) &&& 3)).setWidth 8 =
      v.extractLsb' 18 3 ++ 0b010#3 ++ v.extractLsb' 16 2 :=
  byte_ext fun i hi => by
    refine Eq.trans ?_ BitVec.getLsbD_append.symm
    rw [BitVec.getLsbD_append]
    interval_cases i <;> simp [-BitVec.getLsbD_eq_getElem]

theorem packIdBytes_standard (v : Ident) :
    packIdBytes false v = [v.extractLsb' 3 8, v.extractLsb' 0 3 ++ 0b00000#5, 0x00, 0x00] := by
  rw [← sidl_standard]
  rfl

theorem packIdBytes_extended (v : Ident) :
    packIdBytes true v =
      [v.extractLsb' 21 8, v.extractLsb' 18 3 ++ 0b010#3 ++ v.extractLsb' 16 2, v.extractLsb' 8 8, v.extractLsb' 0 8] := by
  rw [← sidl_extended, ← BitVec.setWidth_eq_extractLsb' (by decide)]
  rfl

/-- Settles O43: the bytes of the two formats are these slices of the value. -/
theorem packId : Obligations.PackId := fun s v =>
  ⟨congrArg (fun l => Host.Outcome.next (s.ret (.bytes l))) (packIdBytes_standard v),
    congrArg (fun l => Host.Outcome.next (s.ret (.bytes l))) (packIdBytes_extended v)⟩

/-! ## Unpacking an identifier -/

/-- A sum of parts at disjoint places puts them side by side. -/
theorem shiftLeft_add_setWidth {m n w : Nat} (x : BitVec m) (y : BitVec n) :
    (x.setWidth w <<< n) + y.setWidth w = (x ++ y).setWidth w := by
  have hdisjoint : (x.setWidth w <<< n) &&& y.setWidth w = 0 := by
    ext i hi
    by_cases hn : i < n
    · simp [hn]
    · simp [BitVec.getLsbD_of_ge y i (Nat.le_of_not_lt hn)]
  rw [BitVec.add_eq_or_of_and_eq_zero _ _ hdisjoint, BitVec.setWidth_append_eq_shiftLeft_setWidth_or]

theorem unpackStd_eq (sidh sidl : Byte) : Mcp2515.unpackStd sidh sidl = (sidh ++ sidl.extractLsb' 5 3).setWidth 32 := by
  have hlow : sidl.setWidth 32 >>> 5 = (sidl.extractLsb' 5 3).setWidth 32 := by revert sidl; decide
  rw [Mcp2515.unpackStd, hlow, shiftLeft_add_setWidth]

theorem unpackExt_eq (sidh sidl eid8 eid0 : Byte) :
    Mcp2515.unpackExt sidh sidl eid8 eid0 =
      (sidh ++ sidl.extractLsb' 5 3 ++ sidl.extractLsb' 0 2 ++ eid8 ++ eid0).setWidth 32 := by
  have hlow : (sidl &&& 0x03).setWidth 32 = (sidl.extractLsb' 0 2).setWidth 32 := by revert sidl; decide
  simp only [Mcp2515.unpackExt, hlow, unpackStd_eq, shiftLeft_add_setWidth]

theorem and_exideBit_eq_iff (sidl : Byte) : sidl &&& exideBit = exideBit ↔ sidl.getLsbD 3 = true := by
  revert sidl; decide

section

variable {sidl : Byte}

theorem unpackId_standard (h : sidl.getLsbD 3 = false) (sidh eid8 eid0 : Byte) :
    unpackId sidh sidl eid8 eid0 = (sidh ++ sidl.extractLsb' 5 3).setWidth 32 := by
  have hide : ¬ sidl &&& exideBit = exideBit := by
    rw [and_exideBit_eq_iff, h]
    exact Bool.false_ne_true
  rw [← unpackStd_eq]
  exact if_neg hide

theorem unpackId_extended (h : sidl.getLsbD 3 = true) (sidh eid8 eid0 : Byte) :
    unpackId sidh sidl eid8 eid0 =
      (sidh ++ sidl.extractLsb' 5 3 ++ sidl.extractLsb' 0 2 ++ eid8 ++ eid0).setWidth 32 ||| effFlag := by
  rw [← unpackExt_eq]
  exact if_pos ((and_exideBit_eq_iff sidl).2 h)

end

/-- The first of six parts stands as a flag above the others. -/
theorem setWidth_append_six {a b c d e f w : Nat} (x : BitVec a) (y : BitVec b) (z : BitVec c) (t : BitVec d) (u : BitVec e)
    (v : BitVec f) :
    (x ++ y ++ z ++ t ++ u ++ v).setWidth w =
      (y ++ z ++ t ++ u ++ v).setWidth w ||| x.setWidth w <<< (b + c + d + e + f) := by
  simp only [BitVec.setWidth_append_eq_shiftLeft_setWidth_or, BitVec.shiftLeft_or_distrib, BitVec.shiftLeft_add]
  ac_rfl

theorem zeros_append_standard (sidh : Byte) (low : BitVec 3) : (sidh ++ low).setWidth 32 = 0#21 ++ sidh ++ low := by
  rw [← BitVec.setWidth_eq (0#21 ++ sidh ++ low)]
  simp only [BitVec.setWidth_append_eq_shiftLeft_setWidth_or, BitVec.setWidth_zero, BitVec.zero_shiftLeft, BitVec.zero_or]

/-- Settles O44: IDE chooses between the two formats, and the flag of bit 31 stands above the 29 bits. -/
theorem decodeId : Obligations.DecodeId := by
  intro s sidh sidl eid8 eid0
  refine congrArg (fun id => Host.Outcome.next (s.ret (.ident id))) ?_
  cases h : sidl.getLsbD 3 with
  | false => exact (unpackId_standard h _ _ _).trans (zeros_append_standard _ _)
  | true =>
    exact (unpackId_extended h _ _ _).trans
      ((setWidth_append_six 0b100#3 sidh _ _ eid8 eid0).symm.trans (BitVec.setWidth_eq _))

/-! ## The header and the payload of a frame -/

theorem exec_encodeFrame_of_le {f : Frame} (h : f.dlc.toNat ≤ 8) (s : State) :
    exec (.encodeFrame f) s = .next (s.ret (.bytes (frameBytes f))) := by
  have hexec : exec (.encodeFrame f) s = execEncodeFrame f s := rfl
  rw [hexec, execEncodeFrame, Nat.sub_eq_zero_of_le h]
  simp only [Env.drawN, List.append_nil]
  rfl

/-- Settles O45: an admitted length needs no draw, and beyond it each missing payload byte is one. -/
theorem encodeFrame : Obligations.EncodeFrame :=
  ⟨fun s _ h => exec_encodeFrame_of_le h s, fun s f _ =>
    ⟨(s.env.drawN (f.dlc.toNat - 8)).1, (s.env.drawN (f.dlc.toNat - 8)).2, Env.drawN_length _ _, rfl⟩⟩

theorem and_rxrtrBit_ne_zero_iff (ctrl : Byte) : ctrl &&& rxrtrBit ≠ 0 ↔ ctrl.getLsbD 3 = true := by
  revert ctrl; decide

theorem rxIdent_eq (sidh sidl eid8 eid0 ctrl : Byte) :
    rxIdent sidh sidl eid8 eid0 ctrl = unpackId sidh sidl eid8 eid0 ||| if ctrl.getLsbD 3 then rtrFlag else 0 := by
  simp only [rxIdent, and_rxrtrBit_ne_zero_iff]
  split
  · rfl
  · exact BitVec.or_zero.symm

theorem exec_decodeFrame (s : State) (sidh sidl eid8 eid0 dlc ctrl : Byte) :
    exec (.decodeFrame sidh sidl eid8 eid0 dlc ctrl) s =
      if (dlcOf dlc).toNat > 8 then .next (s.ret (.code .malformedFrame))
      else .next (s.ret (.idDlc (rxIdent sidh sidl eid8 eid0 ctrl) (dlcOf dlc))) := by
  have hexec : exec (.decodeFrame sidh sidl eid8 eid0 dlc ctrl) s = execDecodeFrame sidh sidl eid8 eid0 dlc ctrl s := rfl
  rw [hexec, execDecodeFrame, unpackFrame]
  split_ifs <;> rfl

/-- Settles O46: the remote flag is bit 3 of the control byte, and the length is the low half of the DLC byte. -/
theorem decodeFrame : Obligations.DecodeFrame := by
  intro s sidh sidl eid8 eid0 dlc ctrl
  rw [exec_decodeFrame, rxIdent_eq]
  rfl

/-! ## The round trip -/

theorem setWidth_extractLsb'_zero_eq_and (v : Ident) (n : Nat) :
    (v.extractLsb' 0 n).setWidth 32 = v &&& (BitVec.allOnes n).setWidth 32 := by
  ext i hi
  simp [hi, Bool.and_comm]

/-- The identifier of a standard header has the eleven bits that were packed. -/
theorem unpackId_packed_standard (v : Ident) :
    unpackId (v.extractLsb' 3 8) (v.extractLsb' 0 3 ++ 0b00000#5) 0x00 0x00 = v &&& sffMask := by
  have hide : (v.extractLsb' 0 3 ++ 0b00000#5).getLsbD 3 = false := BitVec.getLsbD_append
  have hlow : (v.extractLsb' 0 3 ++ 0b00000#5).extractLsb' 5 3 = v.extractLsb' 0 3 := BitVec.extractLsb'_append_eq_left
  rw [unpackId_standard hide, hlow, BitVec.extractLsb'_append_extractLsb'_eq_extractLsb' (show 3 = 0 + 3 from rfl)]
  exact setWidth_extractLsb'_zero_eq_and v 11

/-- The identifier of an extended header has the 29 bits that were packed, and the flag of the format. -/
theorem unpackId_packed_extended (v : Ident) :
    unpackId (v.extractLsb' 21 8) (v.extractLsb' 18 3 ++ 0b010#3 ++ v.extractLsb' 16 2) (v.extractLsb' 8 8)
      (v.extractLsb' 0 8) = v &&& effMask ||| effFlag := by
  have hide : (v.extractLsb' 18 3 ++ 0b010#3 ++ v.extractLsb' 16 2).getLsbD 3 = true :=
    BitVec.getLsbD_append.trans BitVec.getLsbD_append
  have hhigh : (v.extractLsb' 18 3 ++ 0b010#3 ++ v.extractLsb' 16 2).extractLsb' 5 3 = v.extractLsb' 18 3 :=
    (BitVec.extractLsb'_append_eq_of_le (by decide)).trans BitVec.extractLsb'_append_eq_left
  have hlow : (v.extractLsb' 18 3 ++ 0b010#3 ++ v.extractLsb' 16 2).extractLsb' 0 2 = v.extractLsb' 16 2 :=
    BitVec.extractLsb'_append_eq_right
  rw [unpackId_extended hide, hhigh, hlow,
    BitVec.extractLsb'_append_extractLsb'_eq_extractLsb' (show 21 = 18 + 3 from rfl),
    BitVec.extractLsb'_append_extractLsb'_eq_extractLsb' (show 18 = 16 + 2 from rfl),
    BitVec.extractLsb'_append_extractLsb'_eq_extractLsb' (show 16 = 8 + 8 from rfl),
    BitVec.extractLsb'_append_extractLsb'_eq_extractLsb' (show 8 = 0 + 8 from rfl)]
  exact congrArg (· ||| effFlag) (setWidth_extractLsb'_zero_eq_and v 29)

theorem unpackId_packIdBytes (ext : Bool) (v : Ident) :
    ∃ b0 b1 b2 b3, packIdBytes ext v = [b0, b1, b2, b3] ∧
      unpackId b0 b1 b2 b3 = v &&& formatMask ext ||| if ext then effFlag else 0 := by
  cases ext with
  | false => exact ⟨_, _, _, _, packIdBytes_standard v, (unpackId_packed_standard v).trans BitVec.or_zero.symm⟩
  | true => exact ⟨_, _, _, _, packIdBytes_extended v, unpackId_packed_extended v⟩

/-- The value, the format flag and the remote flag of an identifier, put together. -/
theorem and_flags_or_formatMask (id : Ident) :
    id &&& (0xC0000000 ||| formatMask (isExt id)) =
      id &&& formatMask (isExt id) ||| (if isExt id then effFlag else 0) ||| if isRtr id then rtrFlag else 0 := by
  have hflags : (0xC0000000 : Ident) = BitVec.twoPow 32 31 ||| BitVec.twoPow 32 30 := rfl
  have hext : id &&& BitVec.twoPow 32 31 = if isExt id then effFlag else 0 := BitVec.and_twoPow id 31
  have hrtr : id &&& BitVec.twoPow 32 30 = if isRtr id then rtrFlag else 0 := BitVec.and_twoPow id 30
  rw [hflags, BitVec.and_or_distrib_left, BitVec.and_or_distrib_left, hext, hrtr]
  ac_rfl

/-- The remote bit stands outside the length field. -/
theorem dlcOf_dlcByte {f : Frame} (h : f.dlc.toNat ≤ 8) : dlcOf (dlcByte f) = f.dlc := by
  have hbits : ∀ b : Byte, b.toNat ≤ 8 → dlcOf (b ||| rtrBit) = b ∧ dlcOf b = b := by decide
  obtain ⟨hremote, hdata⟩ := hbits f.dlc h
  unfold dlcByte
  split
  · exact hremote
  · exact hdata

/-- A header is decoded to its frame's identifier and length. -/
theorem rxIdent_frameHeader (f : Frame) {ctrl : Byte} (hctrl : ctrl.getLsbD 3 = isRtr f.canId) :
    ∃ b0 b1 b2 b3, frameHeader f = [b0, b1, b2, b3, dlcByte f] ∧
      rxIdent b0 b1 b2 b3 ctrl = f.canId &&& (0xC0000000 ||| formatMask (isExt f.canId)) := by
  obtain ⟨b0, b1, b2, b3, hpack, hunpack⟩ := unpackId_packIdBytes (isExt f.canId) (f.canId &&& formatMask (isExt f.canId))
  refine ⟨b0, b1, b2, b3, congrArg (· ++ [dlcByte f]) hpack, ?_⟩
  rw [rxIdent_eq, hunpack, hctrl, BitVec.and_assoc, BitVec.and_self, and_flags_or_formatMask]

/-- Settles O47: the unpacked identifier is the packed one with its two flags, and the payload is that of the frame. -/
theorem frameRoundTrip : Obligations.FrameRoundTrip := by
  intro s f ctrl hdlc hctrl
  obtain ⟨b0, b1, b2, b3, hheader, hident⟩ := rxIdent_frameHeader f hctrl
  refine ⟨b0, b1, b2, b3, dlcByte f, f.data.toList.take f.dlc.toNat, ?_, ?_, ?_, fun i hi => List.getElem?_take_of_lt hi⟩
  · rw [exec_encodeFrame_of_le hdlc, frameBytes, hheader]
    rfl
  · rw [exec_decodeFrame, dlcOf_dlcByte hdlc, if_neg (Nat.not_lt.2 hdlc), hident]
    rfl
  · simpa using hdlc

end Sys2Proof.Machine

/-! SUPPORT. The Filter / Mask Manager and the default configuration (44_filter_mask.md R260-R265): a block that holds an identifier,
what `setFilter` and `setMask` leave of it, and what the writes and the blocks of the default configuration leave together. -/

namespace Sys2Proof.Machine

/-! ## Blocks that hold an identifier -/

/-- A block without CANINTF, CANINTE and TXBnCTRL: no register outside it, neither the line nor a request to abort changes. -/
theorem confined_writeBlock (data : List Byte) {s : State} (hs : s.Inv) {a : Nat}
    (hfree : ∀ i, i < data.length → a + i ∈ registerAddrs ∧ a + i ≠ 0x2C ∧ a + i ≠ 0x2B ∧ isTxCtrl (a + i) = false) :
    SameRegs ((List.range data.length).map (a + ·)) s (s.writeBlock a data) ∧ SameLine s (s.writeBlock a data) ∧
      (s.writeBlock a data).aborting = s.aborting := by
  induction data generalizing s a with
  | nil => exact ⟨sameRegs_refl _ s, ⟨rfl, rfl⟩, rfl⟩
  | cons v r ih =>
    obtain ⟨hmem, h2C, h2B, hctrl⟩ := hfree 0 (by simp)
    rw [Nat.add_zero] at hmem h2C h2B hctrl
    have hcanon := canon_of_mem hmem
    have hinv := (chip_writeByte s v (mem_registerAddrs.1 hmem).1).reaches.inv hs
    obtain ⟨hsame, hline, hab⟩ := confined_writeByte hs (a := a) (by rwa [hcanon]) (by rwa [hcanon]) (by rwa [hcanon]) v
    obtain ⟨hsame', hline', hab'⟩ := ih hinv (a := a + 1) fun i hi => by
      rw [Nat.add_assoc, Nat.add_comm 1 i]
      exact hfree (i + 1) (by simpa using hi)
    refine ⟨(hsame.mono fun b hb => ?_).trans (hsame'.mono fun b hb => ?_), ⟨hline'.1.trans hline.1, hline'.2.trans hline.2⟩,
      hab'.trans hab⟩
    · rw [List.mem_singleton.1 hb, hcanon]
      exact List.mem_map.2 ⟨0, by simp, rfl⟩
    · obtain ⟨i, hi, rfl⟩ := List.mem_map.1 hb
      exact List.mem_map.2 ⟨i + 1, by simpa using hi, by omega⟩

/-- The four registers from `base` on are those of a filter or a mask, whose bits are all W bits (10_state.md R49, R50). -/
def IdBlock (base : Byte) : Prop := ∀ i, i < 4 → (base.toNat + i, implMask (base.toNat + i)) ∈ configurationRegisters

theorem idBlock_filter (f : FilterId) : IdBlock (filterBase f) := by
  unfold IdBlock; cases f <;> decide

theorem idBlock_mask (m : MaskId) : IdBlock (maskBase m) := by
  unfold IdBlock; cases m <;> decide

theorem implMask_filter (f : FilterId) {i : Nat} (hi : i < 4) :
    implMask ((filterBase f).toNat + i) = if i = 1 then 0xEB else 0xFF := by
  revert i; cases f <;> decide

theorem implMask_mask (m : MaskId) {i : Nat} (hi : i < 4) :
    implMask ((maskBase m).toNat + i) = if i = 1 then 0xE3 else 0xFF := by
  revert i; cases m <;> decide

/-- Of a register whose bits are all W bits a write leaves nothing of the old byte. -/
theorem written_configured {s : State} (hs : s.Inv) {a : Nat} (hp : (a, implMask a) ∈ configurationRegisters) (v : Byte) :
    written a (s.reg a) v = v &&& implMask a := by
  obtain ⟨hlt, hcanon, h0E, -, -, hother, -, -, hbits⟩ := configurationRegisters_facts _ hp
  rw [written_other hother, hbits, ← and_eq_of_normal hs.1 hlt hcanon hother.2.1 h0E, BitVec.and_assoc]
  simp

section

variable {s t : State} {turn : List Move} {base : Byte} (hb : IdBlock base)

include hb

theorem IdBlock.register {i : Nat} (hi : i < 4) : base.toNat + i ∈ registerAddrs ∧ base.toNat + i ≠ 0x2C ∧
    base.toNat + i ≠ 0x2B ∧ isTxCtrl (base.toNat + i) = false := by
  obtain ⟨hlt, hcanon, -, h2C, h2B, hother, -⟩ := configurationRegisters_facts _ (hb i hi)
  exact ⟨Eq.mp (congrArg (· ∈ registerAddrs) hcanon) (canon_mem hlt), h2C, h2B, hother.1⟩

theorem IdBlock.le : base.toNat + 4 ≤ 128 := (mem_registerAddrs.1 (hb.register (i := 3) (by decide)).1).1

/-- No register of the block is CANSTAT. -/
theorem IdBlock.mod_ne {i : Nat} (hi : i < 4) : (base.toNat + i) % 16 ≠ 14 := by
  obtain ⟨hlt, hcanon, h0E, -⟩ := configurationRegisters_facts _ (hb i hi)
  rw [canon_eq] at hcanon
  intro h
  rw [if_pos h] at hcanon
  exact h0E hcanon.symm

theorem IdBlock.configOnly_eq_true {a : Nat} (ha : a ∈ blockAt base) : configOnly a = true := by
  obtain ⟨i, hi, rfl⟩ := List.mem_map.1 ha
  obtain ⟨-, -, -, -, -, -, -, hcfg, -⟩ := configurationRegisters_facts _ (hb i (List.mem_range.1 hi))
  exact hcfg

/-- CANSTAT, CANCTRL and the buffers' registers are in no such block. -/
theorem IdBlock.not_mem {a : Nat} (ha : configOnly a = false) : a ∉ blockAt base := fun hmem =>
  Bool.false_ne_true (ha.symm.trans (hb.configOnly_eq_true hmem))

/-- In Configuration mode every byte of the block lands. -/
theorem IdBlock.lands (hconf : s.inConfiguration) {data : List Byte} (hlen : data.length = 4) {i : Nat} (hi : i < 4) :
    Lands s base.toNat data i := by
  refine ⟨fun _ => hconf, fun slot hslot hmem => ?_, fun j hj hij => ?_⟩
  · obtain ⟨hno, -⟩ := txBody_apart slot hslot _ hmem
    exact absurd (List.mem_map.2 ⟨_, hb i hi, rfl⟩) hno
  · rw [canon_of_mem (hb.register hi).1, canon_of_mem (hb.register (hlen ▸ hj)).1]
    omega

/-- The block is written in Configuration mode. -/
theorem writeRegisters_idBlock (hs : s.Inv) (hc : s.clear) (hconf : s.inConfiguration) {data : List Byte}
    (hlen : data.length = 4) :
    Steady [0x02 :: base :: data] 0 [] s (writeRegisters base data s) ∧ SameRegs (blockAt base) s (writeRegisters base data s) ∧
      ∀ i, i < 4 →
        some ((writeRegisters base data s).reg (base.toNat + i)) = data[i]?.map (· &&& implMask (base.toNat + i)) := by
  have hle : base.toNat + data.length ≤ 128 := hlen ▸ hb.le
  obtain ⟨⟨e, x, hshape⟩, hcalm, hsent⟩ := issueWrite_calm base data hc hle
  obtain ⟨hsame, hline, hab⟩ := confined_writeBlock data (s := s.setEnv e) hs fun i hi => hb.register (hlen ▸ hi)
  rw [hlen] at hsame
  rw [← writeRegisters] at hshape hcalm hsent
  refine ⟨hcalm.steady (reaches_writeRegisters s hle) ?_ ?_ hsent, ?_, fun i hi => ?_⟩
  · rw [hshape]; exact hline
  · rw [hshape]; exact hab
  · rw [hshape]; exact hsame
  · have hi' : i < data.length := hlen ▸ hi
    obtain ⟨hreg, -⟩ := hb.register hi
    have h := State.reg_writeBlock data (s := s.setEnv e) hs hle i hi' (hb.lands hconf hlen hi) (hb.mod_ne hi)
    rw [canon_of_mem hreg, written_configured (s := s.setEnv e) hs (hb i hi)] at h
    rw [hshape, List.getElem?_eq_getElem hi']
    exact congrArg some h

/-- The block takes the packed identifier once Configuration mode is reached. -/
theorem setBlock_reaching (hs : s.Inv) (hmod : s.modifies) (hst : s.steady turn 3 2) (hr : Reaching turn 0x80 s) (ext : Bool)
    (v : Ident) :
    ∃ t, setBlock base ext v s = (.ok, t) ∧
      Steady [[0x05, 0x0F, 0xE0, 0x80], [0x03, 0x0E, 0x00], 0x02 :: base :: packIdBytes ext v] 2 [] s t ∧
      SameRegs (0x0F :: 0x0E :: blockAt base) s t ∧ t.inConfiguration ∧ t.reg 0x0F = (s.reg 0x0F &&& 0x1F) ||| 0x80 ∧
      ∀ i, i < 4 → some (t.reg (base.toNat + i)) = (packIdBytes ext v)[i]?.map (· &&& implMask (base.toNat + i)) := by
  obtain ⟨u, hmode, hrun1, hreq, hsame1, hop⟩ :=
    setMode_reaching (mode := .configuration) hs hmod (hst.mono (by decide) (by decide)) hr
  obtain ⟨hrun2, hsame2, hconf⟩ := schedule_configured (hrun1.reaches.inv hs)
    (hrun1.rest hst (k := 1) (j := 1) le_rfl le_rfl).head_turn (hr.of_opmod hop) (reqop_of_request hreq)
  have hrun12 := hrun1.trans hrun2
  obtain ⟨hrun3, hsame3, hregs⟩ := writeRegisters_idBlock hb (hrun12.reaches.inv hs)
    (hrun12.rest hst (k := 1) (j := 0) le_rfl le_rfl).head_clear hconf.1 (packIdBytes_length ext v)
  have hset : setBlock base ext v s = (.ok, writeRegisters base (packIdBytes ext v) u.schedule) := by
    rw [setBlock, hmode]
  refine ⟨_, hset, hrun12.trans hrun3, ?_, ?_, ?_, hregs⟩
  · exact ((hsame1.mono (by simp)).trans (hsame2.mono (by simp))).trans (hsame3.mono fun a ha => by simp [ha])
  · exact (State.opmod_of_sameRegs hsame3 (hb.not_mem (by decide))).trans hconf.1
  · exact ((hsame3 0x0F (by decide) (hb.not_mem (by decide))).trans (hsame2 0x0F (by decide) (by decide))).trans hreq

end

theorem and_sidl_standard : ∀ x : BitVec 3, (x ++ 0b00000#5) &&& 0xEB = x ++ 0b00000#5 := by decide

theorem and_sidl_extended : ∀ (x : BitVec 3) (y : BitVec 2), (x ++ 0b010#3 ++ y) &&& 0xEB = x ++ 0b010#3 ++ y := by decide

/-- A filter has every bit of a packed identifier, EXIDE among them (R233, R234; 10_state.md R49). -/
theorem packIdBytes_and_filter (ext : Bool) (v : Ident) {i : Nat} (hi : i < 4) :
    (packIdBytes ext v)[i]?.map (· &&& if i = 1 then 0xEB else 0xFF) = (packIdBytes ext v)[i]? := by
  cases ext
  · rw [packIdBytes_standard]
    interval_cases i
    · exact congrArg some (and_ff _)
    · exact congrArg some (and_sidl_standard _)
    · rfl
    · rfl
  · rw [packIdBytes_extended]
    interval_cases i
    · exact congrArg some (and_ff _)
    · exact congrArg some (and_sidl_extended _ _)
    · exact congrArg some (and_ff _)
    · exact congrArg some (and_ff _)

/-- Both premises of the statement: a chip in Configuration mode that nothing disturbs, or one that takes it before the first
poll. -/
theorem steady_of_quiet_or_prompt {s : State} {n : Nat} (h : (s.quiet n ∧ s.inConfiguration) ∨ s.prompt n) :
    ∃ turn, s.steady turn n n ∧ Reaching turn 0x80 s := by
  obtain ⟨hst, hop⟩ | hst := h
  · exact ⟨[], hst, .inl ⟨rfl, hop⟩⟩
  · exact ⟨[.enterMode], hst, .inr rfl⟩

/-- What `setFilter` and `setMask` return and leave, at any identifier's block. -/
theorem returned_setBlock {s : State} {base : Byte} (hb : IdBlock base) (hs : s.Inv) (hmod : s.modifies)
    (hquiet : (s.quiet 3 ∧ s.inConfiguration) ∨ s.prompt 3) (ext : Bool) (v : Ident) :
    ∃ t, returned (setBlock base ext v s) = .next t ∧
      (∀ i, i < 4 → some (t.reg (base.toNat + i)) = (packIdBytes ext v)[i]?.map (· &&& implMask (base.toNat + i))) ∧
      t.reg 0x0F = (s.reg 0x0F &&& 0x1F) ||| 0x80 ∧ t.reg 0x0E = (s.reg 0x0E &&& 0x1F) ||| 0x80 ∧
      SameRegs (0x0F :: 0x0E :: blockAt base) s t ∧ t.inConfiguration ∧ t.int = s.int ∧ t.aborting = s.aborting ∧
      Issued s t [[0x05, 0x0F, 0xE0, 0x80], [0x03, 0x0E, 0x00], 0x02 :: base :: packIdBytes ext v] ∧
      RunAfter 2 s t ∧ t.results = s.results ++ [.code .ok] := by
  obtain ⟨turn, hst, hr⟩ := steady_of_quiet_or_prompt hquiet
  obtain ⟨t, hset, hrun, hsame, hconf, hreq, hregs⟩ := setBlock_reaching hb hs hmod (hst.mono le_rfl (by decide)) hr ext v
  have hstat := State.reg_canstat_of_sameRegs hsame (by simpa using ⟨hb.not_mem (by decide), hb.not_mem (by decide)⟩)
  rw [hconf] at hstat
  exact ⟨_, congrArg returned hset, hregs, hreq, hstat, hsame, hconf, hrun.int, hrun.aborting, hrun.issued, hrun.runAfter hst.1,
    congrArg (· ++ _) hrun.reaches.results⟩

/-- Settles O48: each of the two is `setBlock` at its base, and a filter has every bit of a packed identifier. -/
theorem setFilterAndMask : Obligations.SetFilterAndMask := by
  refine ⟨fun s f ext v hs hmod hquiet => ?_, fun s m ext v hs hmod hquiet => ?_⟩
  · obtain ⟨t, hexec, hregs, hrest⟩ := returned_setBlock (idBlock_filter f) hs hmod hquiet ext v
    refine ⟨t, hexec, fun i hi => ?_, hrest⟩
    rw [hregs i hi, implMask_filter f hi, packIdBytes_and_filter ext v hi]
  · obtain ⟨t, hexec, hregs, hrest⟩ := returned_setBlock (idBlock_mask m) hs hmod hquiet ext v
    refine ⟨t, hexec, fun i hi => ?_, hrest⟩
    rw [hregs i hi, implMask_mask m hi]

/-! ## Quiet runs in which the line may change -/

/-- `t` comes from `s` by `n` transactions that succeed and `points` scheduling points at which no other agent steps. The line and
the requests to abort may change, and the bridge has sent any number of events. -/
structure QuietRun (n points : Nat) (s t : State) : Prop where
  inv : s.Inv → t.Inv
  calm : Calm n points s t
  opmod : t.opmod = s.opmod
  queue : ∃ k, t.queue = s.queue ++ List.replicate k canEvent
  recorded : ∃ es : List Entry, t.transcript = s.transcript ++ es ∧ es.length = n ∧ ∀ e ∈ es, e.ok = true

/-- What a run in Configuration mode needs for `n` transactions and `points` scheduling points. -/
structure Ready (n points : Nat) (s : State) : Prop where
  inv : s.Inv
  modifies : s.modifies
  steady : s.steady [] n points
  conf : s.inConfiguration

section

variable {s t u : State} {n points n' points' k j : Nat}

theorem Ready.clear (h : Ready n points s) (hn : 0 < n) : s.clear := (h.steady.mono (k := 1) (j := 0) hn (Nat.zero_le _)).head_clear

theorem Ready.head_turn (h : Ready n points s) (hp : 0 < points) : s.env.turns.head? = some [] :=
  (h.steady.mono (k := 0) (j := 1) (Nat.zero_le _) hp).head_turn

theorem QuietRun.refl (s : State) : QuietRun 0 0 s s := ⟨id, Calm.refl s, rfl, ⟨0, by simp⟩, [], by simp, rfl, nofun⟩

theorem QuietRun.trans (h : QuietRun n points s t) (g : QuietRun n' points' t u) :
    QuietRun (n + n') (points + points') s u := by
  obtain ⟨a, hqueue⟩ := h.queue
  obtain ⟨b, gqueue⟩ := g.queue
  obtain ⟨es, htrans, hlen, hok⟩ := h.recorded
  obtain ⟨fs, gtrans, glen, gok⟩ := g.recorded
  refine ⟨g.inv ∘ h.inv, h.calm.trans g.calm, g.opmod.trans h.opmod, ⟨a + b, ?_⟩, es ++ fs, ?_, by simp [hlen, glen], ?_⟩
  · rw [gqueue, hqueue, List.append_assoc, List.replicate_append_replicate]
  · rw [gtrans, htrans, List.append_assoc]
  · exact List.forall_mem_append.2 ⟨hok, gok⟩

/-- What such a run leaves of the choices. -/
theorem QuietRun.ready (h : QuietRun n points s t) (hs : Ready n' points' s) (hk : n + k ≤ n') (hj : points + j ≤ points') :
    Ready k j t := by
  obtain ⟨hinv, hmod, ⟨hsettle, hlinks, hturns⟩, hconf⟩ := hs
  refine ⟨h.inv hinv, by rwa [State.modifies, h.calm.params], ⟨h.calm.settle.trans hsettle, ?_, ?_⟩, h.opmod.trans hconf⟩
  · rw [h.calm.links]; exact take_drop_of_take hlinks hk
  · rw [h.calm.turns]; exact take_drop_of_take hturns hj

theorem Bridged.queue (h : Bridged points s t) : ∃ k, t.queue = s.queue ++ List.replicate k canEvent := by
  cases points with
  | zero => exact ⟨0, by simpa using h.1⟩
  | succ m =>
    have hserved : Served (m + 1) s t := h
    unfold Served at hserved
    split at hserved
    · exact ⟨_, hserved.1⟩
    · exact ⟨_, hserved.1⟩

/-- A run at which the line stays as it is. -/
theorem Steady.quietRun {outs : List (List Byte)} (h : Steady outs points [] s t) (hsettle : s.settle = 0)
    (hop : t.opmod = s.opmod) : QuietRun outs.length points s t where
  inv := h.reaches.inv
  calm :=
    { settle := (h.settle hsettle).trans hsettle.symm
      links := h.links
      turns := h.turns
      queue := by rintro rfl; exact h.bridged.1
      waits := by rintro rfl; exact h.bridged.2.2
      log := h.log
      refused := h.reaches.refused
      cloudUp := h.reaches.cloudUp
      calls := h.reaches.calls
      results := h.reaches.results
      sleeps := h.sleeps.trans (List.append_nil _)
      params := h.reaches.params }
  opmod := hop
  queue := h.bridged.queue
  recorded := by
    obtain ⟨es, htrans, houts, hok⟩ := h.issued
    exact ⟨es, htrans, by rw [← houts, List.length_map], hok⟩

/-- One transaction. -/
theorem Calm.quietRun {out : List Byte} (h : Calm 1 0 s t) (hreach : Reaches s t) (hsent : Sent s t out)
    (hop : t.opmod = s.opmod) : QuietRun 1 0 s t := by
  obtain ⟨inb, -, htrans⟩ := hsent
  exact ⟨hreach.inv, h, hop, ⟨0, by simpa using h.queue rfl⟩, _, htrans, rfl, by simp⟩

/-- A scheduling point, which leaves the registers as they are. -/
theorem schedule_quiet (h : Ready n points s) (hp : 0 < points) : QuietRun 0 1 s s.schedule ∧ s.schedule.mem = s.mem := by
  obtain ⟨hrun, hmem⟩ := schedule_steady (h.head_turn hp)
  exact ⟨hrun.quietRun h.steady.1 (State.opmod_of_mem hmem), hmem⟩

/-- A block is written. -/
theorem writeRegisters_quiet (h : Ready n points s) (hn : 0 < n) {addr : Byte} {data : List Byte}
    (hle : addr.toNat + data.length ≤ 128) :
    QuietRun 1 0 s (writeRegisters addr data s) ∧
      ∃ e, (writeRegisters addr data s).mem = ((s.setEnv e).writeBlock addr.toNat data).mem := by
  obtain ⟨⟨e, x, hshape⟩, hcalm, hsent⟩ := issueWrite_calm addr data (h.clear hn) hle
  rw [← writeRegisters] at hshape hcalm hsent
  have hmem : (writeRegisters addr data s).mem = ((s.setEnv e).writeBlock addr.toNat data).mem := by rw [hshape]; rfl
  exact ⟨hcalm.quietRun (reaches_writeRegisters s hle) hsent
    ((State.opmod_of_mem hmem).trans ((s.setEnv e).opmod_writeBlock ..)), e, hmem⟩

/-- A register is modified. -/
theorem modifyRegister_quiet (h : Ready n points s) (hn : 0 < n) {addr : Byte} (ha : addr.toNat < 128) (m d : Byte) :
    QuietRun 1 0 s (modifyRegister addr m d s) ∧
      ∃ e, (modifyRegister addr m d s).mem = ((s.setEnv e).bitModify addr.toNat m d).mem := by
  obtain ⟨⟨e, x, hshape⟩, hcalm, hsent⟩ := issueBitmod_calm addr m d (h.clear hn) ha
  rw [← modifyRegister] at hshape hcalm hsent
  have hmem : (modifyRegister addr m d s).mem = ((s.setEnv e).bitModify addr.toNat m d).mem := by rw [hshape]; rfl
  have hop : ((s.setEnv e).bitModify addr.toNat m d).opmod = s.opmod :=
    State.bitModify_of (P := fun t => t.opmod = s.opmod) (s := s.setEnv e) rfl (fun v => State.opmod_writeByte _ _ v) m d
  exact ⟨hcalm.quietRun (reaches_modifyRegister m d s ha) hsent ((State.opmod_of_mem hmem).trans hop), e, hmem⟩

end

/-! ## What the default configuration leaves in the registers -/

/-- What the writes and the blocks of the default configuration leave in a register that held `x` (R265): of TXBnCTRL the failure
flags stay (20_memory.md R87), and RXF1 alone is an extended filter. -/
def defaultByte (a : Nat) (x : Byte) : Byte :=
  if configOnly a then (if a = 0x05 then 0x08 else 0x00)
  else if isTxCtrl a then x &&& 0x70
  else if a = 0x60 then (x &&& 0x09) ||| 0x06
  else if a = 0x70 then x &&& 0x0F
  else if a = 0x2B then 0xA3
  else if a = 0x0F then (x &&& 0x1F) ||| 0x80
  else 0x00

/-- The registers `regs` have taken those bytes, and the others are as before, CANSTAT aside. -/
def Defaulted (regs : List Nat) (s t : State) : Prop :=
  ∀ a ∈ registerAddrs, a ≠ 0x0E → t.reg a = if a ∈ regs then defaultByte a (s.reg a) else s.reg a

theorem defaultByte_defaultByte (a : Nat) (x : Byte) : defaultByte a (defaultByte a x) = defaultByte a x := by
  unfold defaultByte
  split_ifs
  · rfl
  · rfl
  · rw [BitVec.and_assoc]; rfl
  · revert x; decide
  · rw [BitVec.and_assoc]; rfl
  · rfl
  · revert x; decide
  · rfl

theorem Defaulted.trans {regs regs' : List Nat} {s t u : State} (h : Defaulted regs s t) (g : Defaulted regs' t u) :
    Defaulted (regs ++ regs') s u := by
  intro a ha hne
  rw [g a ha hne, h a ha hne]
  by_cases hmem : a ∈ regs <;> by_cases hmem' : a ∈ regs' <;> simp [hmem, hmem', defaultByte_defaultByte]

theorem defaulted_of_mem {s t : State} (h : t.mem = s.mem) : Defaulted [] s t := fun a _ _ => State.reg_of_mem h a

theorem Defaulted.of_mem {regs : List Nat} {s t u : State} (h : Defaulted regs s t) (hmem : u.mem = t.mem) : Defaulted regs s u :=
  fun a ha hne => (State.reg_of_mem hmem a).trans (h a ha hne)

/-! ## The transmit buffers -/

/-- The 14 registers of a transmit buffer, TXBnCTRL first. -/
def txRegs (slot : TxSlot) : List Nat := (List.range 14).map ((txCtrl slot).toNat + ·)

theorem txRegs_facts (slot : TxSlot) {i : Nat} (hi : i < 14) :
    (txCtrl slot).toNat + i ∈ registerAddrs ∧ configOnly ((txCtrl slot).toNat + i) = false := by
  have h : ∀ slot ∈ [TxSlot.txb0, .txb1, .txb2], ∀ i ∈ List.range 14,
      (txCtrl slot).toNat + i ∈ registerAddrs ∧ configOnly ((txCtrl slot).toNat + i) = false := by decide
  exact h slot (by cases slot <;> decide) i (List.mem_range.2 hi)

theorem getD_zeros (n i : Nat) : (zeros n).getD i 0 = 0 := by
  rw [zeros, List.getD_eq_getElem?_getD, List.getElem?_replicate]
  split <;> rfl

/-- Every byte of the 14 that clear a buffer lands: the first of them leaves no transmission pending. -/
theorem lands_zeros (s : State) (slot : TxSlot) {i : Nat} (hi : i < 14) : Lands s (txCtrl slot).toNat (zeros 14) i := by
  refine ⟨fun hmem => ?_, fun other _ hmem => ?_, fun j hj hij => ?_⟩
  · obtain ⟨p, hp, heq⟩ := List.mem_map.1 hmem
    obtain ⟨-, -, -, -, -, -, -, hcfg, -⟩ := configurationRegisters_facts p hp
    rw [heq, (txRegs_facts slot hi).2] at hcfg
    cases hcfg
  · obtain ⟨j, hj, heq⟩ := List.mem_map.1 hmem
    have hslot := txSidh_eq slot
    have hother := txSidh_eq other
    rw [List.mem_range] at hj
    rw [if_pos (by omega), getD_zeros]
    rfl
  · rw [canon_of_mem (txRegs_facts slot hi).1, canon_of_mem (txRegs_facts slot hj).1]
    omega

theorem written_txRegs {s : State} (hs : s.Inv) (slot : TxSlot) {i : Nat} (hi : i < 14) :
    written ((txCtrl slot).toNat + i) (s.reg ((txCtrl slot).toNat + i)) 0x00 =
      defaultByte ((txCtrl slot).toNat + i) (s.reg ((txCtrl slot).toNat + i)) := by
  rw [defaultByte, (txRegs_facts slot hi).2, if_neg Bool.false_ne_true]
  cases i with
  | zero =>
    rw [Nat.add_zero, isTxCtrl_ctrl, if_pos rfl, written_txCtrl, if_neg (by decide)]
    exact BitVec.or_zero
  | succ j =>
    have hj : j < 13 := by omega
    have hrange := txSidh_range slot
    obtain ⟨-, -, -, -, hctrl, -⟩ := txBody_facts slot hj
    rw [show (txCtrl slot).toNat + (j + 1) = (txSidh slot).toNat + j by have := txSidh_eq slot; omega, written_txBody hs slot hj,
      hctrl, if_neg Bool.false_ne_true, if_neg (by omega), if_neg (by omega), if_neg (by omega), if_neg (by omega)]
    exact BitVec.zero_and

section

variable {s t : State} {n points n' points' : Nat}

/-- The scheduling point after a part of a run. -/
theorem QuietRun.schedule (h : QuietRun n points s t) (hs : Ready n' points' s) (hn : n ≤ n') (hp : points < points') :
    QuietRun n (points + 1) s t.schedule ∧ t.schedule.mem = t.mem := by
  obtain ⟨hpoint, hmem⟩ := schedule_quiet (h.ready hs (k := 0) (j := 1) hn hp) Nat.one_pos
  exact ⟨h.trans hpoint, hmem⟩

/-- A buffer is cleared. -/
theorem clearBuffer_defaulted (hs : Ready n points s) (hn : 0 < n) (slot : TxSlot) :
    QuietRun 1 0 s (writeRegisters (txCtrl slot) (zeros 14) s) ∧
      Defaulted (txRegs slot) s (writeRegisters (txCtrl slot) (zeros 14) s) := by
  have hle : (txCtrl slot).toNat + (zeros 14).length ≤ 128 := by cases slot <;> decide
  obtain ⟨hrun, e, hmem⟩ := writeRegisters_quiet hs hn hle
  refine ⟨hrun, fun a ha hne => ?_⟩
  rw [State.reg_of_mem hmem]
  split
  · next hin =>
    obtain ⟨i, hi, rfl⟩ := List.mem_map.1 hin
    rw [List.mem_range] at hi
    have h := State.reg_writeBlock (zeros 14) (s := s.setEnv e) hs.inv hle i hi (lands_zeros _ slot hi)
      (by have := txSidh_eq slot; omega)
    rw [canon_of_mem ha] at h
    exact h.trans ((congrArg (written _ _) (List.getElem_replicate ..)).trans (written_txRegs (s := s.setEnv e) hs.inv slot hi))
  · next hnot =>
    refine sameRegs_writeBlock (zeros 14) (s.setEnv e) (txCtrl slot).toNat a (mem_registerAddrs.1 ha).1 ?_
    rw [canon_of_mem ha, mem_blockRegs, not_or]
    refine ⟨hne, fun ⟨i, hi, heq⟩ => hnot ?_⟩
    rw [canon_of_mem (txRegs_facts slot hi).1] at heq
    exact List.mem_map.2 ⟨i, List.mem_range.2 hi, heq⟩

end

/-- The writes that clear the buffers, with the scheduling point after each (R263). -/
def clearBuffers (slots : List TxSlot) (s : State) : State :=
  match slots with
  | [] => s
  | slot :: rest => clearBuffers rest (writeRegisters (txCtrl slot) (zeros 14) s).schedule

theorem clearBuffers_defaulted (slots : List TxSlot) {s : State} {n points : Nat} (hs : Ready n points s)
    (hn : slots.length ≤ n) (hp : slots.length ≤ points) :
    QuietRun slots.length slots.length s (clearBuffers slots s) ∧ Defaulted (slots.flatMap txRegs) s (clearBuffers slots s) := by
  induction slots generalizing s n points with
  | nil => exact ⟨QuietRun.refl s, defaulted_of_mem rfl⟩
  | cons slot rest ih =>
    rw [List.length_cons] at hn hp ⊢
    obtain ⟨hwrite, hregs⟩ := clearBuffer_defaulted hs (by omega) slot
    obtain ⟨hrun, hmem⟩ := hwrite.schedule hs (by omega) (by omega)
    obtain ⟨hrun', hregs'⟩ :=
      ih (hrun.ready hs (k := rest.length) (j := rest.length) (by omega) (by omega)) le_rfl le_rfl
    refine ⟨?_, (hregs.of_mem hmem).trans hregs'⟩
    rw [Nat.add_comm]
    exact hrun.trans hrun'

/-! ## The control registers -/

/-- Register `a` alone has changed, ICOD of CANSTAT aside: it holds `f` of its byte. -/
def Takes (a : Nat) (f : Byte → Byte) (s t : State) : Prop := t.reg a = f (s.reg a) ∧ SameRegs [a, 0x0E] s t

section

variable {s t u : State} {n points n' points' : Nat} {a : Nat} {f : Byte → Byte}

theorem Takes.of_mem (h : Takes a f s t) (hmem : u.mem = t.mem) : Takes a f s u :=
  ⟨(State.reg_of_mem hmem a).trans h.1, fun b hb hne => (State.reg_of_mem hmem b).trans (h.2 b hb hne)⟩

theorem Takes.other (h : Takes a f s t) {b : Nat} (hb : b ∈ registerAddrs) (hne : b ≠ 0x0E) (hab : b ≠ a) :
    t.reg b = s.reg b :=
  h.2 b (mem_registerAddrs.1 hb).1 (by rw [canon_of_mem hb]; simp [hne, hab])

/-- What the map says of the control registers outside the transmit buffers that the default configuration writes. -/
theorem control_facts : ∀ a ∈ [0x60, 0x70, 0x2B], a < 128 ∧ canon a = a ∧ a ≠ 0x0E ∧ configOnly a = false ∧
    isTxBody a = false ∧ isTxCtrl a = false := by decide

theorem writeRegister_takes (hs : Ready (n + 1) points s) {addr : Byte} (haddr : addr.toNat = a)
    (hmem : a ∈ [0x60, 0x70, 0x2B]) (v : Byte) :
    QuietRun 1 0 s (writeRegister addr v s) ∧ Takes a (written a · v) s (writeRegister addr v s) := by
  obtain ⟨hlt, hcanon, h0E, hcfg, hbody, -⟩ := control_facts a hmem
  obtain ⟨hrun, e, hshape⟩ := writeRegisters_quiet hs (Nat.succ_pos n) (addr := addr) (data := [v]) (haddr ▸ hlt)
  rw [haddr] at hshape
  have hdirect : (s.setEnv e).direct a := direct_of_plain _ (by rwa [hcanon]) (by rwa [hcanon])
  have hreg := State.reg_writeByte_written hdirect hs.inv.1 hlt rfl (by rwa [hcanon]) v
  have hsame := (sameRegs_writeByte (s.setEnv e) a v).1
  rw [hcanon] at hreg hsame
  exact ⟨hrun, Takes.of_mem ⟨hreg, hsame⟩ hshape⟩

theorem modifyRegister_takes (hs : Ready (n + 1) points s) {addr : Byte} (haddr : addr.toNat = a) (hmem : a ∈ [0x60, 0x70])
    (m d : Byte) :
    QuietRun 1 0 s (modifyRegister addr m d s) ∧
      Takes a (fun x => written a x ((x &&& ~~~m) ||| (d &&& m))) s (modifyRegister addr m d s) := by
  obtain ⟨hlt, hcanon, h0E, hcfg, hbody, hctrl⟩ := control_facts a (List.mem_append_left [0x2B] hmem)
  obtain ⟨hrun, e, hshape⟩ := modifyRegister_quiet hs (Nat.succ_pos n) (addr := addr) (haddr ▸ hlt) m d
  rw [haddr] at hshape
  have hdirect : (s.setEnv e).direct a := direct_of_plain _ (by rwa [hcanon]) (by rwa [hcanon])
  have hmask : (s.setEnv e).modMask a m = m :=
    if_pos (hs.modifies a (List.mem_append_right [0x0F, 0x2C, 0x2D, 0x30, 0x40, 0x50] hmem))
  have hreg := State.reg_bitModify_written (s := s.setEnv e) hs.inv hdirect hlt (by rwa [hcanon]) (by rwa [hcanon]) m d
  have hsame : SameRegs [canon a, 0x0E] s ((s.setEnv e).bitModify a m d) :=
    State.bitModify_of (s := s.setEnv e) (sameRegs_refl _ _) (fun v => (sameRegs_writeByte _ _ v).1) m d
  rw [State.modified, hmask, hcanon] at hreg
  rw [hcanon] at hsame
  exact ⟨hrun, Takes.of_mem ⟨hreg, hsame⟩ hshape⟩

/-- Such a step, and the scheduling point after it. -/
theorem takes_schedule (h : QuietRun 1 0 s t ∧ Takes a f s t) (hs : Ready (n + 1) (points + 1) s) :
    QuietRun 1 1 s t.schedule ∧ Takes a f s t.schedule ∧ Ready n points t.schedule := by
  obtain ⟨hrun, htakes⟩ := h
  obtain ⟨hrun', hmem⟩ := hrun.schedule hs (by omega) (by omega)
  exact ⟨hrun', htakes.of_mem hmem, hrun'.ready hs (by omega) (by omega)⟩

end

/-- The writes and bit-modifies that follow (R263). -/
def controlWrites (s : State) : State :=
  let s := writeRegister 0x60 0x00 s
  let s := writeRegister 0x70 0x00 s.schedule
  let s := writeRegister 0x2B 0xA3 s.schedule
  let s := modifyRegister 0x60 0x64 0x04 s.schedule
  modifyRegister 0x70 0x60 0x00 s.schedule

theorem defaultWrites_eq (s : State) : defaultWrites s = controlWrites (clearBuffers [.txb0, .txb1, .txb2] s) := rfl

/-- RXB0CTRL after its write and its bit-modify: BUKT is set, and BUKT1 with it (10_state.md R43). -/
theorem written_rxb0_default (x : Byte) :
    written 0x60 (written 0x60 x 0x00) ((written 0x60 x 0x00 &&& ~~~0x64) ||| (0x04 &&& 0x64)) = (x &&& 0x09) ||| 0x06 := by
  revert x; decide

/-- RXB1CTRL after them: RXM is 0. -/
theorem written_rxb1_default (x : Byte) (hx : x &&& 0x6F = x) :
    written 0x70 (written 0x70 x 0x00) ((written 0x70 x 0x00 &&& ~~~0x60) ||| (0x00 &&& 0x60)) = x &&& 0x0F := by
  revert x; decide

theorem written_caninte (x v : Byte) : written 0x2B x v = v := by
  have hw : wBits 0x2B = 0xFF := by decide
  rw [written_other (by decide), hw, and_ff, show (~~~0xFF : Byte) = 0#8 from rfl, BitVec.and_zero, BitVec.zero_or]

theorem controlWrites_defaulted {s : State} (hs : Ready 5 4 s) :
    QuietRun 5 4 s (controlWrites s) ∧ Defaulted [0x60, 0x70, 0x2B] s (controlWrites s) := by
  obtain ⟨hrun1, h1, hs1⟩ := takes_schedule (writeRegister_takes (addr := 0x60) (a := 0x60) hs rfl (by decide) 0x00) hs
  obtain ⟨hrun2, h2, hs2⟩ := takes_schedule (writeRegister_takes (addr := 0x70) (a := 0x70) hs1 rfl (by decide) 0x00) hs1
  obtain ⟨hrun3, h3, hs3⟩ := takes_schedule (writeRegister_takes (addr := 0x2B) (a := 0x2B) hs2 rfl (by decide) 0xA3) hs2
  obtain ⟨hrun4, h4, hs4⟩ := takes_schedule (modifyRegister_takes (addr := 0x60) (a := 0x60) hs3 rfl (by decide) 0x64 0x04) hs3
  obtain ⟨hrun5, h5⟩ := modifyRegister_takes (addr := 0x70) (a := 0x70) hs4 rfl (by decide) 0x60 0x00
  refine ⟨(((hrun1.trans hrun2).trans hrun3).trans hrun4).trans hrun5, fun a ha hne => ?_⟩
  rw [controlWrites]
  by_cases h60 : a = 0x60
  · subst h60
    rw [h5.other ha hne (by decide), h4.1, h3.other ha hne (by decide), h2.other ha hne (by decide), h1.1]
    exact written_rxb0_default _
  by_cases h70 : a = 0x70
  · subst h70
    rw [h5.1, h4.other ha hne (by decide), h3.other ha hne (by decide), h2.1, h1.other ha hne (by decide)]
    exact written_rxb1_default _ (and_eq_of_normal hs.inv.1 (by decide) (by decide) (by decide) (by decide))
  by_cases h2B : a = 0x2B
  · subst h2B
    rw [h5.other ha hne (by decide), h4.other ha hne (by decide), h3.1]
    exact written_caninte _ _
  · rw [h5.other ha hne h70, h4.other ha hne h60, h3.other ha hne h2B, h2.other ha hne h70, h1.other ha hne h60]
    simp [h60, h70, h2B]

/-! ## The filters and the masks -/

/-- A block whose bytes are those of the default configuration. -/
theorem setBlock_defaulted {s : State} {n points : Nat} (hs : Ready n points s) (hn : 3 ≤ n) (hp : 2 ≤ points) {base : Byte}
    (hb : IdBlock base) {ext : Bool}
    (hbytes : ∀ i, i < 4 → (packIdBytes ext 0)[i]?.map (· &&& implMask (base.toNat + i)) =
      some (if base.toNat + i = 0x05 then 0x08 else 0x00)) :
    ∃ t, setBlock base ext 0 s = (.ok, t) ∧ QuietRun 3 2 s t ∧ Defaulted (0x0F :: blockAt base) s t := by
  obtain ⟨t, hset, hrun, hsame, hconf, hreq, hregs⟩ :=
    setBlock_reaching hb hs.inv hs.modifies (hs.steady.mono hn hp) (.inl ⟨rfl, hs.conf⟩) ext 0
  refine ⟨t, hset, hrun.quietRun hs.steady.1 (hconf.trans hs.conf.symm), fun a ha hne => ?_⟩
  by_cases h0F : a = 0x0F
  · subst h0F
    exact hreq
  by_cases hblock : a ∈ blockAt base
  · rw [if_pos (List.mem_cons_of_mem _ hblock), defaultByte, if_pos (hb.configOnly_eq_true hblock)]
    obtain ⟨i, hi, rfl⟩ := List.mem_map.1 hblock
    rw [List.mem_range] at hi
    exact Option.some.inj ((hregs i hi).trans (hbytes i hi))
  · rw [hsame a (mem_registerAddrs.1 ha).1 (by rw [canon_of_mem ha]; simp [h0F, hne, hblock]),
      if_neg (by simp [h0F, hblock])]

/-- The registers that clearing a list of blocks writes: each time the request of Configuration mode, and the block. -/
def blockListRegs (blocks : List (Byte × Bool)) : List Nat := blocks.flatMap fun b => 0x0F :: blockAt b.1

set_option maxRecDepth 100000 in
/-- The filters and masks of the default configuration, and the bytes of 0 in the format of each. -/
theorem defaultBlocks_facts : ∀ b ∈ defaultBlocks, IdBlock b.1 ∧
    ∀ i, i < 4 → (packIdBytes b.2 0)[i]?.map (· &&& implMask (b.1.toNat + i)) =
      some (if b.1.toNat + i = 0x05 then 0x08 else 0x00) := by
  unfold IdBlock
  decide

theorem clearBlocks_defaulted {blocks : List (Byte × Bool)} (hblocks : ∀ b ∈ blocks, b ∈ defaultBlocks)
    {s : State} {n points : Nat} (hs : Ready n points s) (hn : 3 * blocks.length ≤ n) (hp : 3 * blocks.length ≤ points) :
    ∃ t, clearBlocks blocks s = (.ok, t) ∧ QuietRun (3 * blocks.length) (3 * blocks.length) s t ∧
      Defaulted (blockListRegs blocks) s t := by
  induction blocks generalizing s n points with
  | nil => exact ⟨s, rfl, QuietRun.refl s, defaulted_of_mem rfl⟩
  | cons b rest ih =>
    rw [List.length_cons] at hn hp ⊢
    obtain ⟨hb, hrest⟩ := List.forall_mem_cons.1 hblocks
    obtain ⟨hblock, hbytes⟩ := defaultBlocks_facts b hb
    obtain ⟨hpoint, hmem⟩ := schedule_quiet hs (by omega)
    obtain ⟨u, hset, hrun, hregs⟩ :=
      setBlock_defaulted (hpoint.ready hs (k := n) (j := points - 1) (by omega) (by omega)) (by omega) (by omega) hblock hbytes
    have hhead := hpoint.trans hrun
    obtain ⟨t, hclear, hrun', hregs'⟩ := ih hrest
      (hhead.ready hs (k := 3 * rest.length) (j := 3 * rest.length) (by omega) (by omega)) le_rfl le_rfl
    refine ⟨t, ?_, ?_, ((defaulted_of_mem hmem).trans hregs).trans hregs'⟩
    · rw [clearBlocks, hset, ← hclear]
    · have h := hhead.trans hrun'
      rwa [show 0 + 3 + 3 * rest.length = 3 * (rest.length + 1) by omega] at h

/-! ## The whole operation -/

/-- The registers that the default configuration writes. -/
def defaultRegs : List Nat :=
  ([TxSlot.txb0, .txb1, .txb2].flatMap txRegs ++ [0x60, 0x70, 0x2B]) ++ blockListRegs defaultBlocks

/-- Its transactions, before the stale failure flags are cleared. -/
theorem defaultRun {s : State} (hs : Ready 32 32 s) :
    ∃ t, clearBlocks defaultBlocks (defaultWrites s) = (.ok, t) ∧ QuietRun 32 31 s t ∧ Defaulted defaultRegs s t := by
  obtain ⟨hrun1, hregs1⟩ := clearBuffers_defaulted [.txb0, .txb1, .txb2] hs (by decide) (by decide)
  obtain ⟨hrun2, hregs2⟩ := controlWrites_defaulted (hrun1.ready hs (by decide) (by decide))
  have hwrites := hrun1.trans hrun2
  obtain ⟨t, hclear, hrun3, hregs3⟩ :=
    clearBlocks_defaulted (fun _ => id) (hwrites.ready hs (k := 24) (j := 24) le_rfl (by decide)) le_rfl le_rfl
  rw [← defaultWrites_eq] at hclear
  exact ⟨t, hclear, hwrites.trans hrun3, (hregs1.trans hregs2).trans hregs3⟩

/-- Nothing has failed in such a run. -/
theorem QuietRun.undisturbed_eq_true {s t : State} {n points : Nat} (h : QuietRun n points s t) (hsettle : s.settle = 0) :
    undisturbed s t = true := by
  obtain ⟨es, htrans, -, hok⟩ := h.recorded
  rw [undisturbed, hsettle, htrans, List.drop_left]
  simpa using hok

/-- The stale flags are cleared, and nothing else changes. -/
theorem dropStale_quiet (s t : State) : QuietRun 0 0 t (s.dropStale t) where
  inv := (reaches_dropStale s t).inv
  calm := by
    rw [State.dropStale_eq]
    exact ⟨rfl, rfl, rfl, fun _ => rfl, fun _ => rfl, rfl, rfl, rfl, rfl, rfl, rfl, rfl⟩
  opmod := State.opmod_of_sameRegs (sameRegs_dropStale s t) (by decide)
  queue := ⟨0, by rw [State.dropStale_eq]; exact (List.append_nil _).symm⟩
  recorded := ⟨[], by rw [State.dropStale_eq]; exact (List.append_nil _).symm, rfl, nofun⟩

theorem State.reg_dropStale {s t : State} (ht : t.Inv) (slot : TxSlot) : (s.dropStale t).reg (txCtrl slot).toNat =
    t.reg (txCtrl slot).toNat &&& ~~~(staleFlags (s.reg (txCtrl slot).toNat) &&& 0x70) := by
  have hflags (x : TxSlot) {u : State} (hu : u.Inv) :=
    leaves_applyMove hu (.txClearFlags x (staleFlags (s.reg (txCtrl x).toNat)))
  have hinv (x : TxSlot) {u : State} (hu : u.Inv) :=
    (agent_applyMove (.txClearFlags x (staleFlags (s.reg (txCtrl x).toNat))) u).reaches.inv hu
  obtain ⟨hreg0, hsame0, -⟩ := hflags .txb0 ht
  obtain ⟨hreg1, hsame1, -⟩ := hflags .txb1 (hinv .txb0 ht)
  obtain ⟨hreg2, hsame2, -⟩ := hflags .txb2 (hinv .txb1 (hinv .txb0 ht))
  cases slot
  · exact (hsame2 _ (by decide) (by decide)).trans ((hsame1 _ (by decide) (by decide)).trans hreg0)
  · refine (hsame2 _ (by decide) (by decide)).trans (hreg1.trans ?_)
    rw [hsame0 _ (by decide) (by decide)]
  · refine hreg2.trans ?_
    rw [hsame1 _ (by decide) (by decide), hsame0 _ (by decide) (by decide)]

/-- No failure flag of before the operation is left in TXBnCTRL. -/
theorem and_staleFlags (x : Byte) : x &&& 0x70 &&& ~~~(staleFlags x &&& 0x70) = 0x00 := by revert x; decide

theorem defaultByte_txCtrl (slot : TxSlot) (x : Byte) : defaultByte (txCtrl slot).toNat x = x &&& 0x70 := by
  cases slot <;> rfl

theorem defaultByte_cleared {a : Nat} (hctrl : isTxCtrl a = false) (h : a ∉ [0x05, 0x0F, 0x2B, 0x60, 0x70]) (x : Byte) :
    defaultByte a x = 0x00 := by
  simp only [List.mem_cons, List.not_mem_nil, or_false, not_or] at h
  obtain ⟨h05, h0F, h2B, h60, h70⟩ := h
  rw [defaultByte, if_neg h05, hctrl, if_neg Bool.false_ne_true, if_neg h60, if_neg h70, if_neg h2B, if_neg h0F, ite_self]

/-- The registers of the filters and masks that are cleared: all but SIDL of RXF1 (R265). -/
def clearedIds : List Nat :=
  [0x00, 0x01, 0x02, 0x03, 0x04, 0x06, 0x07, 0x08, 0x09, 0x0A, 0x0B, 0x10, 0x11, 0x12, 0x13, 0x14, 0x15, 0x16,
    0x17, 0x18, 0x19, 0x1A, 0x1B, 0x20, 0x21, 0x22, 0x23, 0x24, 0x25, 0x26, 0x27]

set_option maxRecDepth 100000 in
theorem cleared_facts : ∀ a ∈ [TxSlot.txb0, .txb1, .txb2].flatMap txBody ++ clearedIds,
    a ∈ registerAddrs ∧ a ∈ defaultRegs ∧ a ∉ [0x0E, 0x30, 0x40, 0x50] ∧
      isTxCtrl a = false ∧ a ∉ [0x05, 0x0F, 0x2B, 0x60, 0x70] := by decide

/-- The registers that the operation leaves alone: the other control registers, and the receive buffers but for their CTRL. -/
def untouchedRegs : List Nat :=
  [0x0C, 0x0D, 0x1C, 0x1D, 0x28, 0x29, 0x2A, 0x2C, 0x2D] ++
    [RxSlot.rxb0, .rxb1].flatMap fun slot => (List.range 13).map ((rxSidh slot).toNat + ·)

set_option maxRecDepth 100000 in
theorem untouched_facts : ∀ a ∈ untouchedRegs, a ∈ registerAddrs ∧ a ∉ defaultRegs ∧ a ∉ [0x0E, 0x30, 0x40, 0x50] := by decide

section

variable {s t : State} (h : Defaulted defaultRegs s t)

include h

/-- Clearing the stale flags changes no register but the TXBnCTRL. -/
theorem Defaulted.reg_dropStale {a : Nat} (ha : a ∈ registerAddrs) (hne : a ∉ [0x0E, 0x30, 0x40, 0x50]) :
    (s.dropStale t).reg a = if a ∈ defaultRegs then defaultByte a (s.reg a) else s.reg a := by
  obtain ⟨h0E, hctrl⟩ := not_or.1 (mt List.mem_cons.2 hne)
  rw [sameRegs_dropStale s t a (mem_registerAddrs.1 ha).1 (by rwa [canon_of_mem ha]), h a ha h0E]

theorem Defaulted.reg_txCtrl (ht : t.Inv) (slot : TxSlot) : (s.dropStale t).reg (txCtrl slot).toNat = 0x00 := by
  have hreg : t.reg (txCtrl slot).toNat = s.reg (txCtrl slot).toNat &&& 0x70 := by
    rw [h _ (by cases slot <;> decide) (by cases slot <;> decide), if_pos (by cases slot <;> decide),
      defaultByte_txCtrl]
  rw [State.reg_dropStale ht, hreg, and_staleFlags]

theorem Defaulted.reg_cleared {a : Nat} (ha : a ∈ [TxSlot.txb0, .txb1, .txb2].flatMap txBody ++ clearedIds) :
    (s.dropStale t).reg a = 0x00 := by
  obtain ⟨hmem, hin, hne, hctrl, hother⟩ := cleared_facts a ha
  rw [h.reg_dropStale hmem hne, if_pos hin, defaultByte_cleared hctrl hother]

theorem Defaulted.reg_untouched {a : Nat} (ha : a ∈ untouchedRegs) : (s.dropStale t).reg a = s.reg a := by
  obtain ⟨hmem, hnot, hne⟩ := untouched_facts a ha
  rw [h.reg_dropStale hmem hne, if_neg hnot]

end

/-- Settles O49: each part of the operation leaves in its registers what `defaultByte` says, and nothing in the others; the stale
failure flags are cleared last. -/
theorem defaultConfiguration : Obligations.DefaultConfiguration := by
  intro s hs hmod hquiet hconf
  obtain ⟨t, hclear, hrun, hregs⟩ := defaultRun ⟨hs, hmod, hquiet, hconf⟩
  have hall := hrun.trans (dropStale_quiet s t)
  obtain ⟨es, htrans, hlen, -⟩ := hall.recorded
  have happly : applyDefaultConfiguration s = (.ok, s.dropStale t) := by
    rw [applyDefaultConfiguration, hclear, if_pos ⟨rfl, hrun.undisturbed_eq_true hquiet.1⟩]
  have hbuffers (slot : TxSlot) (a : Nat) (ha : a ∈ txBody slot) : (s.dropStale t).reg a = 0x00 :=
    hregs.reg_cleared (List.mem_append_left _ (List.mem_flatMap.2 ⟨slot, by cases slot <;> decide, ha⟩))
  have hreceived (slot : RxSlot) (i : Nat) (hi : i < 13) :
      (s.dropStale t).reg ((rxSidh slot).toNat + i) = s.reg ((rxSidh slot).toNat + i) :=
    hregs.reg_untouched (List.mem_append_right _
      (List.mem_flatMap.2 ⟨slot, by cases slot <;> decide, List.mem_map.2 ⟨i, List.mem_range.2 hi, rfl⟩⟩))
  refine ⟨_, es, congrArg returned happly, congrArg (· ++ _) hall.calm.results, htrans, hlen,
    ⟨hall.queue, hall.calm.cloudUp, hall.calm.refused, hall.calm.calls⟩, hall.calm.log, hall.calm.sleeps, hall.calm.settle,
    hall.inv hs, fun slot => ⟨hregs.reg_txCtrl (hrun.inv hs) slot, hbuffers slot⟩, ?_, ?_, ?_,
    fun a ha => hregs.reg_cleared (List.mem_append_right _ ha), ?_, hall.opmod.trans hconf, ?_,
    fun a ha => hregs.reg_untouched (List.mem_append_left _ ha), hreceived⟩
  · exact hregs.reg_dropStale (a := 0x60) (by decide) (by decide)
  · exact hregs.reg_dropStale (a := 0x70) (by decide) (by decide)
  · exact hregs.reg_dropStale (a := 0x2B) (by decide) (by decide)
  · exact hregs.reg_dropStale (a := 0x05) (by decide) (by decide)
  · exact hregs.reg_dropStale (a := 0x0F) (by decide) (by decide)

end Sys2Proof.Machine

/-! SUPPORT. The TX and RX Buffer Managers (45_tx_rx_buffers.md R280-R287): the transactions of `send` and `read` in every run, and
what they, `sendAny` and `readAnyPending` answer and leave when nothing disturbs them. -/

namespace Sys2Proof.Machine

/-! ## The transactions in every run -/

/-- The bytes received after the first two are those that a read of registers returns. -/
theorem readRegisters_recorded (addr : Byte) (n : Nat) (s : State) :
    ∃ e : Entry, (readRegisters addr n s).2.transcript = s.transcript ++ [e] ∧ e.out = 0x03 :: addr :: zeros n ∧
      e.inb.drop 2 = (readRegisters addr n s).1 ∧ (readRegisters addr n s).2.sleeps = s.sleeps := by
  obtain ⟨e, htrans, hout, hinb, hsleeps⟩ :=
    transact_recorded (serialParts_read (readResponse_length Opcode.read addr (zeros n))) s
  exact ⟨e, htrans, hout, congrArg (·.drop 2) hinb, hsleeps⟩

theorem writeRegisters_recorded {addr : Byte} {values : List Byte} (h : addr.toNat + values.length ≤ 128) (s : State) :
    ∃ e : Entry, (writeRegisters addr values s).transcript = s.transcript ++ [e] ∧ e.out = 0x02 :: addr :: values ∧
      (writeRegisters addr values s).sleeps = s.sleeps := by
  obtain ⟨e, htrans, hout, -, hsleeps⟩ :=
    transact_recorded (out := Opcode.write :: addr :: values) (serialParts_block (n := 2) h) s
  exact ⟨e, htrans, hout, hsleeps⟩

theorem serialParts_readRxCtrl (slot : RxSlot) :
    SerialParts (Opcode.read :: rxCtrl slot :: zeros 1) (rxCtrlResponse slot) fun _ s => s :=
  serialParts_read (rxCtrlResponse_length slot)

theorem readRxCtrl_recorded (slot : RxSlot) (s : State) :
    ∃ e : Entry, (readRxCtrl slot s).2.transcript = s.transcript ++ [e] ∧ e.out = [0x03, rxCtrl slot, 0x00] ∧
      e.inb.getD 2 0 = (readRxCtrl slot s).1 ∧ (readRxCtrl slot s).2.sleeps = s.sleeps := by
  obtain ⟨e, htrans, hout, hinb, hsleeps⟩ := transact_recorded (serialParts_readRxCtrl slot) s
  exact ⟨e, htrans, hout, congrArg (·.getD 2 0) hinb, hsleeps⟩

theorem schedule_sleeps (s : State) : s.schedule.sleeps = s.sleeps := (agent_schedule s).sleeps

/-! ## `send` in every run -/

/-- The header has five bytes, and the payload those that the length says (43_frame_codec.md R235). -/
theorem frameBytes_length {f : Frame} (h : f.dlc.toNat ≤ 8) : (frameBytes f).length = 5 + f.dlc.toNat := by
  simp only [frameBytes, frameHeader, List.length_append, packIdBytes_length, List.length_singleton, List.length_take,
    Vector.length_toList]
  omega

theorem txSidh_add_frameBytes_le (slot : TxSlot) (f : Frame) : (txSidh slot).toNat + (frameBytes f).length ≤ 128 :=
  Nat.le_trans (Nat.add_le_add_left (frameBytes_length_le f) _) (txSidh_le slot)

/-- The result of `send` for the byte of TXBnCTRL that its last transaction shows (R281). -/
def shownResult (ctrl : Byte) : Result := if ctrl &&& 0x70 ≠ 0 then .transmitFailure else .ok

/-- The first two transactions of `send`: the frame is stored, and its transmission requested (R281). -/
def requestFrame (slot : TxSlot) (f : Frame) (s : State) : State :=
  modifyRegister (txCtrl slot) 0x08 0x08 (writeRegisters (txSidh slot) (frameBytes f) s).schedule

/-- The third reads TXBnCTRL back. -/
theorem sendFrame_eq {slot : TxSlot} {f : Frame} {s t : State} {ctrl : Byte}
    (h : readRegister (txCtrl slot) (requestFrame slot f s).schedule = (ctrl, t)) :
    sendFrame slot f s = (shownResult ctrl, t) := by
  have hfail : anySet ctrl txFailBits = decide (ctrl &&& 0x70 ≠ 0) := rfl
  have hsend : sendFrame slot f s =
      (if anySet (readRegister (txCtrl slot) (requestFrame slot f s).schedule).1 txFailBits then .transmitFailure else .ok,
        (readRegister (txCtrl slot) (requestFrame slot f s).schedule).2) := rfl
  rw [hsend, h, hfail]
  simp only [shownResult, decide_eq_true_eq]

theorem exec_send_of_le {slot : TxSlot} {f : Frame} (h : f.dlc.toNat ≤ 8) (s : State) :
    exec (.send slot f) s = returned (sendFrame slot f s) := congrArg returned (if_neg (Nat.not_lt.2 h))

theorem requestFrame_recorded (slot : TxSlot) (f : Frame) (s : State) :
    ∃ e1 e2 : Entry, (requestFrame slot f s).transcript = s.transcript ++ [e1, e2] ∧
      e1.out = 0x02 :: txSidh slot :: frameBytes f ∧ e2.out = [0x05, txCtrl slot, 0x08, 0x08] ∧
      (requestFrame slot f s).sleeps = s.sleeps := by
  obtain ⟨e1, htrans1, hout1, hsleeps1⟩ := writeRegisters_recorded (txSidh_add_frameBytes_le slot f) s
  obtain ⟨e2, htrans2, hout2, hsleeps2⟩ := modifyRegister_recorded (txCtrl_lt slot) 0x08 0x08
    (writeRegisters (txSidh slot) (frameBytes f) s).schedule
  refine ⟨e1, e2, htrans2.trans ?_, hout1, hout2, hsleeps2.trans ((schedule_sleeps _).trans hsleeps1)⟩
  rw [schedule_transcript, htrans1, List.append_assoc]
  rfl

/-- Settles O50: the length check comes first, and `sendFrame` is its three transactions whatever becomes of them. -/
theorem sendTrace : Obligations.SendTrace := by
  refine ⟨fun s slot f h => ⟨congrArg returned (if_pos h), congrArg returned (if_pos h)⟩, fun s slot f h => ?_⟩
  obtain ⟨e1, e2, htrans, hout1, hout2, hsleeps⟩ := requestFrame_recorded slot f s
  obtain ⟨e3, htrans3, hout3, hbyte, hsleeps3⟩ := readRegister_recorded (txCtrl slot) (requestFrame slot f s).schedule
  have hreach := reaches_sendFrame slot f s
  rcases hread : readRegister (txCtrl slot) (requestFrame slot f s).schedule with ⟨ctrl, t⟩
  rw [hread] at htrans3 hbyte hsleeps3
  rw [sendFrame_eq hread] at hreach
  refine ⟨_, e1, e2, e3, (exec_send_of_le h s).trans (congrArg returned (sendFrame_eq hread)), ?_, hout1, ?_, hout2, hout3, ?_,
    hsleeps3.trans ((schedule_sleeps _).trans hsleeps), hreach.refused, hreach.cloudUp, hreach.calls⟩
  · rw [State.ret_transcript, htrans3, schedule_transcript, htrans, List.append_assoc]
    rfl
  · rw [hout1, List.length_cons, List.length_cons, frameBytes_length h]
    omega
  · rw [State.ret_results, hreach.results, hbyte]
    rfl

end Sys2Proof.Machine


namespace Sys2Proof.Machine

/-! ## Runs that nothing disturbs, in which the line or a request to abort may change -/

/-- As `Steady`, of a run without a delay, but for the line and the requests to abort. -/
structure CleanRun (outs : List (List Byte)) (points : Nat) (s t : State) : Prop where
  reaches : Reaches s t
  settle : s.settle = 0 → t.settle = 0
  links : t.env.links = s.env.links.drop outs.length
  turns : t.env.turns = s.env.turns.drop points
  bridged : Bridged points s t
  log : t.log = s.log
  sleeps : t.sleeps = s.sleeps
  issued : Issued s t outs

section

variable {s t u : State} {turn : List Move} {outs outs' : List (List Byte)} {points points' k j n m : Nat}

theorem Steady.cleanRun (h : Steady outs points [] s t) : CleanRun outs points s t :=
  ⟨h.reaches, h.settle, h.links, h.turns, h.bridged, h.log, h.sleeps.trans (List.append_nil _), h.issued⟩

/-- Two parts of a run, the line being as before after the first. -/
theorem CleanRun.trans (h : CleanRun outs points s t) (g : CleanRun outs' points' t u) (hint : t.int = s.int) :
    CleanRun (outs ++ outs') (points + points') s u where
  reaches := h.reaches.trans g.reaches
  settle := g.settle ∘ h.settle
  links := by rw [g.links, h.links, List.drop_drop, List.length_append]
  turns := by rw [g.turns, h.turns, List.drop_drop]
  bridged := h.bridged.trans g.bridged hint h.reaches.params
  log := g.log.trans h.log
  sleeps := g.sleeps.trans h.sleeps
  issued := Issued.trans h.issued g.issued

/-- The choices that a run has left. -/
theorem CleanRun.rest (h : CleanRun outs points s t) (hs : s.steady turn n m) (hk : outs.length + k ≤ n)
    (hj : points + j ≤ m) : t.steady turn k j := by
  obtain ⟨hsettle, hlinks, hturns⟩ := hs
  refine ⟨h.settle hsettle, ?_, ?_⟩
  · rw [h.links]; exact take_drop_of_take hlinks hk
  · rw [h.turns]; exact take_drop_of_take hturns hj

theorem CleanRun.hostAfter (h : CleanRun outs (points + 1) s t) : HostAfter (points + 1) s t :=
  ⟨h.bridged, h.reaches.cloudUp, h.reaches.refused, h.reaches.calls⟩

theorem CleanRun.runAfter (h : CleanRun outs (points + 1) s t) (hs : s.settle = 0) : RunAfter (points + 1) s t :=
  ⟨h.hostAfter, h.log, h.sleeps, (h.settle hs).trans hs.symm⟩

/-- One transaction that counts no edge of the line. -/
theorem Calm.cleanRun {out : List Byte} (h : Calm 1 0 s t) (hreach : Reaches s t) (hedges : t.edges = s.edges)
    (hsent : Sent s t out) : CleanRun [out] 0 s t where
  reaches := hreach
  settle := h.settle.trans
  links := h.links
  turns := h.turns
  bridged := ⟨h.queue rfl, hedges, h.waits rfl⟩
  log := h.log
  sleeps := h.sleeps
  issued := Issued.of_sent hsent

end

/-! ## The frame in its buffer -/

theorem dlcByte_and {f : Frame} (h : f.dlc.toNat ≤ 8) : dlcByte f &&& 0x4F = dlcByte f := by
  have hbits : ∀ dlc : Byte, dlc.toNat ≤ 8 → dlc &&& 0x4F = dlc ∧ (dlc ||| rtrBit) &&& 0x4F = dlc ||| rtrBit := by decide
  unfold dlcByte
  split
  · exact (hbits f.dlc h).2
  · exact (hbits f.dlc h).1

/-- The bits of a frame's header and payload all exist in the buffer (10_state.md R38-R42; 43_frame_codec.md R233-R235). -/
theorem frameBytes_and_txBodyBits {f : Frame} (h : f.dlc.toNat ≤ 8) (i : Nat) :
    (frameBytes f)[i]?.map (· &&& txBodyBits i) = (frameBytes f)[i]? := by
  have hlen := packIdBytes_length (isExt f.canId) (f.canId &&& formatMask (isExt f.canId))
  rw [frameBytes, frameHeader, List.append_assoc, List.singleton_append]
  rcases Nat.lt_trichotomy i 4 with hi | rfl | hi
  · have hbits : txBodyBits i = if i = 1 then 0xEB else 0xFF := by
      rw [txBodyBits, if_neg (by omega : ¬ i = 4)]
    rw [List.getElem?_append_left (by omega), hbits]
    exact packIdBytes_and_filter _ _ hi
  · rw [List.getElem?_append_right (by omega), hlen]
    exact congrArg some (dlcByte_and h)
  · have hbits : txBodyBits i = 0xFF := by rw [txBodyBits, if_neg (by omega), if_neg (by omega)]
    simp only [hbits, and_ff, Option.map_id']

theorem or_txreq (old : Byte) : (old &&& ~~~0x08) ||| (0x08 &&& 0x08) = old ||| txreqBit := by revert old; decide

/-- A `BITMOD` of TXREQ does what `RTS` does (40_serial_transactions.md R161). -/
theorem State.bitModify_txreq {s : State} (hmod : s.modifies) (slot : TxSlot) :
    s.bitModify (txCtrl slot).toNat 0x08 0x08 = s.requestToSend slot := by
  have hmask : s.modMask (txCtrl slot).toNat 0x08 = 0x08 := if_pos (hmod _ (by cases slot <;> decide))
  rw [s.bitModify_eq, State.modified, hmask, if_neg (by decide), or_txreq]
  rfl

/-- The frame is stored and its transmission requested: TXREQ is set, the failure flags and a request to abort are gone, and the
other registers and the line are as before (R281; 20_memory.md R87). -/
structure Queued (slot : TxSlot) (f : Frame) (s t : State) : Prop where
  reg : ∀ i, i < 5 + f.dlc.toNat → some (t.reg ((txSidh slot).toNat + i)) = (frameBytes f)[i]?
  ctrl : t.reg (txCtrl slot).toNat = (s.reg (txCtrl slot).toNat &&& 0x03) ||| 0x08
  aborting : ∀ x, x ∈ t.aborting ↔ x ∈ s.aborting ∧ x ≠ slot
  same : SameRegs ((txCtrl slot).toNat :: (List.range (5 + f.dlc.toNat)).map ((txSidh slot).toNat + ·)) s t
  int : t.int = s.int

section

variable {s t u : State} {slot : TxSlot} {f : Frame} {outs : List (List Byte)} {points : Nat} {delays : List Nat}

/-! A run before or after that leaves the registers, the requests to abort and the line alone makes no difference. -/

theorem Queued.of_steady (h : Queued slot f u t) (hrun : Steady outs points delays s u) (hmem : u.mem = s.mem) :
    Queued slot f s t where
  reg := h.reg
  ctrl := by rw [h.ctrl, State.reg_of_mem hmem]
  aborting := by rw [← hrun.aborting]; exact h.aborting
  same := (sameRegs_of_mem hmem).trans h.same
  int := h.int.trans hrun.int

theorem Queued.steady (h : Queued slot f s u) (hrun : Steady outs points delays u t) (hmem : t.mem = u.mem) :
    Queued slot f s t where
  reg := fun i hi => by rw [State.reg_of_mem hmem]; exact h.reg i hi
  ctrl := by rw [State.reg_of_mem hmem]; exact h.ctrl
  aborting := by rw [hrun.aborting]; exact h.aborting
  same := h.same.trans (sameRegs_of_mem hmem)
  int := hrun.int.trans h.int

/-- A `WRITE` of the frame to a free buffer. -/
theorem writeFrame_steady (hs : s.Inv) (hc : s.clear) (hp : s.txPending slot = false) (hdlc : f.dlc.toNat ≤ 8) :
    Steady [0x02 :: txSidh slot :: frameBytes f] 0 [] s (writeRegisters (txSidh slot) (frameBytes f) s) ∧
      (∀ i, i < 5 + f.dlc.toNat →
        some ((writeRegisters (txSidh slot) (frameBytes f) s).reg ((txSidh slot).toNat + i)) = (frameBytes f)[i]?) ∧
      SameRegs ((List.range (5 + f.dlc.toNat)).map ((txSidh slot).toNat + ·)) s
        (writeRegisters (txSidh slot) (frameBytes f) s) := by
  have hle := txSidh_add_frameBytes_le slot f
  have hlen := frameBytes_length hdlc
  have hrange := txSidh_range slot
  have hctrl := txSidh_eq slot
  obtain ⟨⟨e, x, hshape⟩, hcalm, hsent⟩ := issueWrite_calm (txSidh slot) (frameBytes f) hc hle
  obtain ⟨hsame, hline, hab⟩ := confined_writeBlock_txBody slot (frameBytes f) (s := s.setEnv e) hs (i := 0) (by omega)
  rw [← writeRegisters] at hshape hcalm hsent
  rw [hlen] at hsame
  have hrun := hcalm.steady (reaches_writeRegisters s hle) (by rw [hshape]; exact hline) (by rw [hshape]; exact hab) hsent
  refine ⟨hrun, fun i hi => ?_, by rw [hshape]; exact hsame⟩
  have hi' : i < (frameBytes f).length := hlen ▸ hi
  have h := State.reg_writeBlock (frameBytes f) (s := s.setEnv e) hs hle i hi' (lands_txBody hp (by omega) hi') (by omega)
  rw [canon_of_mem (txBody_facts slot (by omega)).1, written_txBody (s := s.setEnv e) hs slot (by omega)] at h
  rw [hshape, ← frameBytes_and_txBodyBits hdlc, List.getElem?_eq_getElem hi']
  exact congrArg some h

/-- A `BITMOD` of TXREQ alone. -/
theorem requestTransmit_cleanRun (hs : s.Inv) (hmod : s.modifies) (hc : s.clear) (slot : TxSlot) :
    CleanRun [[0x05, txCtrl slot, 0x08, 0x08]] 0 s (modifyRegister (txCtrl slot) 0x08 0x08 s) ∧
      Requested [slot] s (modifyRegister (txCtrl slot) 0x08 0x08 s) := by
  obtain ⟨⟨e, x, hshape⟩, hcalm, hsent⟩ := issueBitmod_calm (txCtrl slot) 0x08 0x08 hc (txCtrl_lt slot)
  rw [State.bitModify_txreq (s := s.setEnv e) hmod] at hshape
  have hreq := requested_requestToSend (s := s.setEnv e) hs slot
  rw [← modifyRegister] at hshape hcalm hsent
  refine ⟨hcalm.cleanRun (reaches_modifyRegister _ _ s (txCtrl_lt slot)) ?_ hsent, ?_⟩
  · rw [hshape]; exact hreq.line.2
  · rw [hshape]; exact ⟨hreq.reg, hreq.aborting, hreq.same, hreq.line⟩

theorem unlockedRx_txCtrl (s : State) (slot : TxSlot) : s.unlockedRx (txCtrl slot).toNat = false := by
  rw [State.unlockedRx, show isRxBody (txCtrl slot).toNat = false by cases slot <;> decide]
  rfl

/-- TXBnCTRL stands outside the buffer's other registers. -/
theorem txCtrl_not_mem (slot : TxSlot) (n : Nat) : canon (txCtrl slot).toNat ∉ (List.range n).map ((txSidh slot).toNat + ·) := by
  rw [canon_txCtrl]
  intro h
  obtain ⟨i, -, heq⟩ := List.mem_map.1 h
  have := txSidh_eq slot
  omega

theorem shownResult_requested (old : Byte) : shownResult ((old &&& 0x03) ||| 0x08) = .ok := by revert old; decide

/-- The first two transactions of `send` on a free slot. -/
theorem requestFrame_free (hs : s.Inv) (hmod : s.modifies) (hst : s.steady [] 2 1) (hp : s.txPending slot = false)
    (hdlc : f.dlc.toNat ≤ 8) :
    Queued slot f s (requestFrame slot f s) ∧
      CleanRun [0x02 :: txSidh slot :: frameBytes f, [0x05, txCtrl slot, 0x08, 0x08]] 1 s (requestFrame slot f s) := by
  obtain ⟨hwrite, hreg, hsame⟩ := writeFrame_steady hs hst.head_clear hp hdlc
  obtain ⟨hpoint, hmem⟩ := schedule_steady (hwrite.rest hst (k := 1) (j := 1) le_rfl le_rfl).head_turn
  have hrun := hwrite.trans hpoint
  obtain ⟨hmodify, hreq⟩ := requestTransmit_cleanRun (hrun.reaches.inv hs) (by rwa [State.modifies, hrun.reaches.params])
    (hrun.rest hst (k := 1) (j := 0) le_rfl le_rfl).head_clear slot
  replace hsame := hsame.trans (sameRegs_of_mem hmem)
  refine ⟨⟨fun i hi => ?_, ?_, fun x => ?_, ?_, hreq.line.1.trans hrun.int⟩, hrun.cleanRun.trans hmodify hrun.int⟩
  · have hctrl := txSidh_eq slot
    have hbody := (txBody_facts slot (show i < 13 by omega)).1
    rw [requestFrame, hreq.same _ (mem_registerAddrs.1 hbody).1, State.reg_of_mem hmem, hreg i hi]
    rw [canon_of_mem hbody, List.map_singleton, List.mem_singleton]
    omega
  · rw [requestFrame, hreq.reg, if_pos (List.mem_singleton_self slot), hsame _ (txCtrl_lt slot) (txCtrl_not_mem slot _)]
  · rw [requestFrame, hreq.aborting, hrun.aborting, List.mem_singleton]
  · exact (hsame.mono fun _ ha => List.mem_cons_of_mem _ ha).trans
      (hreq.same.mono fun _ ha => List.mem_cons.2 (.inl (List.mem_singleton.1 ha)))

/-- `send` on a free slot: no failure flag is left for its last transaction to show. -/
theorem sendFrame_free (hs : s.Inv) (hmod : s.modifies) (hst : s.steady [] 3 2) (hp : s.txPending slot = false)
    (hdlc : f.dlc.toNat ≤ 8) :
    ∃ t, sendFrame slot f s = (.ok, t) ∧ Queued slot f s t ∧
      CleanRun [0x02 :: txSidh slot :: frameBytes f, [0x05, txCtrl slot, 0x08, 0x08], [0x03, txCtrl slot, 0x00]] 2 s t := by
  obtain ⟨hqueued, hrun⟩ := requestFrame_free hs hmod (hst.mono (by decide) (by decide)) hp hdlc
  have hrest := hrun.rest hst (k := 1) (j := 1) le_rfl le_rfl
  obtain ⟨hpoint, hmem⟩ := schedule_steady hrest.head_turn
  obtain ⟨t, hread, hlast, hmem'⟩ := readRegister_steady (hpoint.rest hrest (k := 1) (j := 0) le_rfl le_rfl).head_clear
    (unlockedRx_txCtrl _ slot)
  have hback := hpoint.trans hlast
  refine ⟨t, ?_, hqueued.steady hback (hmem'.trans hmem), hrun.trans hback.cleanRun hqueued.int⟩
  rw [sendFrame_eq hread, State.reg_of_mem hmem, hqueued.ctrl, shownResult_requested]

end

/-- Settles O51: an admitted `send` is `sendFrame`. -/
theorem sendOnAFreeSlot : Obligations.SendOnAFreeSlot := by
  intro s slot f hs hmod hquiet hdlc hp
  obtain ⟨t, hsend, ⟨hreg, hctrl, hab, hsame, hint⟩, hrun⟩ := sendFrame_free hs hmod (State.steady.mono hquiet le_rfl (by decide)) hp hdlc
  exact ⟨_, (exec_send_of_le hdlc s).trans (congrArg returned hsend), hreg, hctrl, hab, hsame, hint, hrun.issued,
    hrun.runAfter hquiet.1, congrArg (· ++ _) hrun.reaches.results⟩

/-! ## The scan of `sendAny` -/

section

variable {s t : State} {slot : TxSlot} {f : Frame}

theorem sendScan_of_pending {rest : List TxSlot} (hne : rest ≠ []) (hp : s.txPending slot = true)
    (hread : readRegister (txCtrl slot) s = (s.reg (txCtrl slot).toNat, t)) :
    sendScan (slot :: rest) f s = sendScan rest f t.schedule := by
  obtain ⟨x, rest, rfl⟩ := List.exists_cons_of_ne_nil hne
  rw [sendScan, hread]
  exact if_pos hp

theorem sendScan_last_of_pending (hp : s.txPending slot = true)
    (hread : readRegister (txCtrl slot) s = (s.reg (txCtrl slot).toNat, t)) :
    sendScan [slot] f s = (.allBuffersBusy, t) := by
  rw [sendScan, hread]
  exact if_pos hp

theorem sendScan_of_free {rest : List TxSlot} (hp : s.txPending slot = false)
    (hread : readRegister (txCtrl slot) s = (s.reg (txCtrl slot).toNat, t)) :
    sendScan (slot :: rest) f s = sendFrame slot f t.schedule := by
  rw [sendScan.eq_def]
  simp only [hread]
  exact if_neg (Bool.eq_false_iff.1 hp)

/-- One read of the scan, and the scheduling point after it. -/
theorem readTxCtrl_schedule_steady (hst : s.steady [] 1 1) (slot : TxSlot) :
    ∃ t, readRegister (txCtrl slot) s = (s.reg (txCtrl slot).toNat, t) ∧
      Steady [[0x03, txCtrl slot, 0x00]] 1 [] s t.schedule ∧ t.schedule.mem = s.mem := by
  obtain ⟨t, hread, hrun, hmem⟩ := readRegister_steady hst.head_clear (unlockedRx_txCtrl s slot)
  obtain ⟨hpoint, hmem'⟩ := schedule_steady (hrun.rest hst (k := 0) (j := 1) le_rfl le_rfl).head_turn
  exact ⟨t, hread, hrun.trans hpoint, hmem'.trans hmem⟩

end

theorem Steady.refl (s : State) : Steady [] 0 [] s s :=
  ⟨Reaches.refl s, id, rfl, rfl, rfl, ⟨rfl, rfl, rfl⟩, rfl, rfl, (List.append_nil _).symm, Issued.refl s⟩

/-- The slots that are found pending are passed, each with one read and a scheduling point. -/
theorem sendScan_pending (f : Frame) (busy : List TxSlot) {rest : List TxSlot} (hne : rest ≠ []) {s : State}
    (hst : s.steady [] busy.length busy.length) (hp : ∀ x ∈ busy, s.txPending x = true) :
    ∃ t, sendScan (busy ++ rest) f s = sendScan rest f t ∧
      Steady (busy.map fun x => [0x03, txCtrl x, 0x00]) busy.length [] s t ∧ t.mem = s.mem := by
  induction busy generalizing s with
  | nil => exact ⟨s, rfl, Steady.refl s, rfl⟩
  | cons x busy ih =>
    rw [List.length_cons] at hst
    obtain ⟨hx, hbusy⟩ := List.forall_mem_cons.1 hp
    obtain ⟨u, hread, hrun, hmem⟩ := readTxCtrl_schedule_steady (hst.mono (by omega) (by omega)) x
    obtain ⟨t, hscan, hrest, hmem'⟩ := ih (hrun.rest hst (by simp; omega) (by omega))
      fun y hy => (State.txPending_of_mem hmem y).trans (hbusy y hy)
    refine ⟨t, (sendScan_of_pending (List.append_ne_nil_of_right_ne_nil _ hne) hx hread).trans hscan, ?_, hmem'.trans hmem⟩
    rw [List.map_cons, List.length_cons, Nat.add_comm]
    exact hrun.trans hrest

theorem exec_sendAny_of_le {f : Frame} (h : f.dlc.toNat ≤ 8) (s : State) :
    exec (.sendAny f) s = returned (sendScan [.txb0, .txb1, .txb2] f s) := congrArg returned (if_neg (Nat.not_lt.2 h))

/-- The scan is over the slots before a slot, the slot, and the rest. -/
theorem scan_split (slot : TxSlot) : ∃ rest,
    [TxSlot.txb0, .txb1, .txb2] = [TxSlot.txb0, .txb1, .txb2].take (slotIndex slot) ++ slot :: rest ∧
    [TxSlot.txb0, .txb1, .txb2].take (slotIndex slot + 1) = [TxSlot.txb0, .txb1, .txb2].take (slotIndex slot) ++ [slot] ∧
    ([TxSlot.txb0, .txb1, .txb2].take (slotIndex slot)).length = slotIndex slot := by
  cases slot
  · exact ⟨[.txb1, .txb2], rfl, rfl, rfl⟩
  · exact ⟨[.txb2], rfl, rfl, rfl⟩
  · exact ⟨[], rfl, rfl, rfl⟩

theorem slotIndex_lt_of_mem {slot x : TxSlot} (h : x ∈ [TxSlot.txb0, .txb1, .txb2].take (slotIndex slot)) :
    slotIndex x < slotIndex slot := by
  revert h
  cases slot <;> cases x <;> decide

/-- Settles O52: the scan passes the pending slots, and then finds the free one or none. -/
theorem sendAnyTakesTheFirstFreeSlot : Obligations.SendAnyTakesTheFirstFreeSlot := by
  refine ⟨fun s slot f hs hmod hquiet hdlc hp hbefore => ?_, fun s f hs hquiet hdlc hp => ?_⟩
  · obtain ⟨rest, hslots, hreads, hlen⟩ := scan_split slot
    have hbusy : ∀ x ∈ [TxSlot.txb0, .txb1, .txb2].take (slotIndex slot), s.txPending x = true :=
      fun x hx => hbefore x (slotIndex_lt_of_mem hx)
    have hle : slotIndex slot + 4 ≤ 6 := by cases slot <;> decide
    obtain ⟨u, hscan, hrun, hmem⟩ := sendScan_pending f _ (List.cons_ne_nil slot rest) (s := s)
      (State.steady.mono hquiet (by omega) (by omega)) hbusy
    rw [hlen] at hrun
    have hrest := hrun.rest hquiet (k := 4) (j := 3) (by rw [List.length_map, hlen]; omega) (by omega)
    obtain ⟨v, hread, hown, hmem'⟩ := readTxCtrl_schedule_steady (hrest.mono (by decide) (by decide)) slot
    have hscanned := hrun.trans hown
    have hmems : v.schedule.mem = s.mem := hmem'.trans hmem
    obtain ⟨t, hsend, hqueued, hsent⟩ := sendFrame_free (hscanned.reaches.inv hs)
      (by rwa [State.modifies, hscanned.reaches.params]) (hown.rest hrest (k := 3) (j := 2) le_rfl le_rfl)
      ((State.txPending_of_mem hmems slot).trans hp) hdlc
    have hall := hscanned.cleanRun.trans hsent hscanned.int
    obtain ⟨hreg, hctrl, hab, hsame, hint⟩ := hqueued.of_steady hscanned hmems
    have hany := hscan.trans (sendScan_of_free ((State.txPending_of_mem hmem slot).trans hp) hread)
    rw [← hslots, hsend] at hany
    refine ⟨_, (exec_sendAny_of_le hdlc s).trans (congrArg returned hany), hreg, hctrl, hab, hsame, hint, ?_,
      hall.runAfter hquiet.1, congrArg (· ++ _) hall.reaches.results⟩
    rw [hreads, List.map_append]
    exact hall.issued
  · obtain ⟨u, hscan, hrun, hmem⟩ := sendScan_pending f [.txb0, .txb1] (rest := [.txb2]) (by decide) (s := s)
      (State.steady.mono hquiet (by decide) (by decide)) fun x _ => hp x
    obtain ⟨t, hread, hlast, hmem'⟩ := readRegister_steady
      (hrun.rest hquiet (k := 1) (j := 0) le_rfl (by decide)).head_clear (unlockedRx_txCtrl u .txb2)
    have hall := hrun.trans hlast
    have hany := hscan.trans (sendScan_last_of_pending ((State.txPending_of_mem hmem _).trans (hp .txb2)) hread)
    exact ⟨_, (exec_sendAny_of_le hdlc s).trans (congrArg returned hany), sameRegs_of_mem (hmem'.trans hmem), hall.int,
      hall.aborting, hall.issued, hall.runAfter hquiet.1, congrArg (· ++ _) hall.reaches.results⟩

end Sys2Proof.Machine


namespace Sys2Proof.Machine

/-! ## The transactions of a read -/

section

variable {s : State}

/-- A transaction that only reads, when nothing disturbs it: `u` is the state that answers, which differs from `s` in the outcomes
of transactions alone. -/
theorem transact_reading {out : List Byte} {respond : State → List Byte × Env} (h : SerialParts out respond fun _ s => s)
    (hresp : ∀ u, (respond u).2.links = u.env.links ∧ (respond u).2.turns = u.env.turns) (hc : s.clear) :
    ∃ u inb e, transact out respond (fun _ s => s) s =
        (inb, { s with transcript := s.transcript ++ [{ out := out, inb := inb, ok := true }], env := e }) ∧
      u.mem = s.mem ∧ u.env.draws = s.env.draws ∧ respond u = (inb, e) ∧
      Steady [out] 0 [] s { s with transcript := s.transcript ++ [{ out := out, inb := inb, ok := true }], env := e } := by
  have hread := transact_clear out respond (fun _ s => s) hc.1 (head_cons hc.2)
  have hreach := reaches_transact out respond (fun _ s => s) s h.length h.chip
  obtain ⟨hlinks, hturns⟩ := hresp (s.setEnv { s.env with links := s.env.links.drop 1 })
  rw [hread] at hreach
  exact ⟨s.setEnv { s.env with links := s.env.links.drop 1 }, _, _, hread, rfl, rfl, rfl, hreach, id, hlinks, hturns, rfl,
    ⟨rfl, rfl, rfl⟩, rfl, rfl, (List.append_nil _).symm, _, rfl, rfl, by simp⟩

/-- Draws that the list has. -/
theorem drawN_of_draws {e : Env} {l r : List Byte} (h : e.draws = l ++ r) :
    Env.drawN l.length e = (l, { e with draws := r }) := by
  induction l generalizing e with
  | nil => rw [← show e.draws = r from h]; rfl
  | cons b l ih =>
    rw [List.length_cons, Env.drawN, Env.draw_of_cons h]
    exact congrArg (fun x => (b :: x.1, x.2)) (ih (e := { e with draws := l ++ r }) rfl)

/-- `bytes` are what `n` registers of a receive buffer, from `a` on, are read as, and `t` is the state after the read `out`: the
registers while the buffer is pending, and draws while it is not (20_memory.md R105; 45_tx_rx_buffers.md R284), after those for the
opcode and the address. -/
structure RxRead (slot : RxSlot) (a n : Nat) (out bytes : List Byte) (s t : State) : Prop where
  steady : Steady [out] 0 [] s t
  shape : ∃ inb e, t = { s with transcript := s.transcript ++ [{ out := out, inb := inb, ok := true }], env := e }
  length : bytes.length = n
  exact : s.rxPending slot = true → ∀ i, i < n → bytes[i]? = some (s.reg (a + i))
  drawn : s.rxPending slot = false → ∀ l r, l.length = n → s.env.draws = zeros 2 ++ (l ++ r) → bytes = l ∧ t.env.draws = r

theorem RxRead.mem {slot : RxSlot} {a n : Nat} {out bytes : List Byte} {s t : State} (h : RxRead slot a n out bytes s t) :
    t.mem = s.mem := by
  obtain ⟨inb, e, rfl⟩ := h.shape
  rfl

/-- The registers of a receive buffer from SIDH on are exact while it is pending. -/
theorem unlockedRx_rxBody (s : State) (slot : RxSlot) {i : Nat} (hi : i < 13) :
    s.unlockedRx ((rxSidh slot).toNat + i) = !s.rxPending slot := by
  obtain ⟨hbody, hslot⟩ : isRxBody ((rxSidh slot).toNat + i) = true ∧ rxSlotOf ((rxSidh slot).toNat + i) = some slot := by
    have h : ∀ slot ∈ [RxSlot.rxb0, .rxb1], ∀ i ∈ List.range 13,
        isRxBody ((rxSidh slot).toNat + i) = true ∧ rxSlotOf ((rxSidh slot).toNat + i) = some slot := by decide
    exact h slot (by cases slot <;> decide) i (List.mem_range.2 hi)
  rw [State.unlockedRx, hbody, hslot]
  rfl

theorem unlockedRx_rxCtrl (s : State) (slot : RxSlot) : s.unlockedRx (rxCtrl slot).toNat = false := by
  rw [State.unlockedRx, show isRxBody (rxCtrl slot).toNat = false by cases slot <;> decide]
  rfl

/-- Registers that all read as draws. -/
theorem readBlock_unlocked {a n : Nat} (h : ∀ i, i < n → s.unlockedRx (a + i) = true) (e : Env) :
    s.readBlock a n e = Env.drawN n e := by
  induction n generalizing a e with
  | zero => rfl
  | succ k ih =>
    have hcell : s.readCell a e = e.draw := if_pos (h 0 (Nat.succ_pos k))
    rw [State.readBlock, hcell, ih (a := a + 1) (fun i hi => by rw [Nat.add_assoc, Nat.add_comm 1 i]; exact h (i + 1) (by omega))]
    rfl

theorem readResponse_links (addr : Byte) (n : Nat) (u : State) :
    (readResponse addr n u).2.links = u.env.links ∧ (readResponse addr n u).2.turns = u.env.turns := by
  simp [readResponse]

theorem readResponse_getElem? {addr : Byte} {n i : Nat} {u : State} (hi : i < n) (hu : u.unlockedRx (addr.toNat + i) = false) :
    ((readResponse addr n u).1.drop 2)[i]? = some (u.reg (addr.toNat + i)) := by
  rw [readResponse, List.drop_left' (Env.drawN_length 2 _)]
  exact u.readBlock_getElem? _ _ _ i hi hu

theorem readResponse_drawn {addr : Byte} {n : Nat} {u : State} (hu : ∀ i, i < n → u.unlockedRx (addr.toNat + i) = true)
    {l r : List Byte} (hl : l.length = n) (hd : u.env.draws = zeros 2 ++ (l ++ r)) :
    readResponse addr n u = (zeros 2 ++ l, { u.env with draws := r }) := by
  have hhead : u.env.drawN 2 = (zeros 2, { u.env with draws := l ++ r }) := drawN_of_draws hd
  have hdata : Env.drawN n { u.env with draws := l ++ r } = (l, { u.env with draws := r }) := hl ▸ drawN_of_draws rfl
  rw [readResponse, readBlock_unlocked hu, hhead, hdata]

/-- A read of a receive buffer, from what its response is while the buffer is pending and while it is not. -/
theorem transact_rxRead {slot : RxSlot} {a n : Nat} {out : List Byte} {respond : State → List Byte × Env}
    (h : SerialParts out respond fun _ s => s)
    (hresp : ∀ u, (respond u).2.links = u.env.links ∧ (respond u).2.turns = u.env.turns) (hc : s.clear)
    (hn : out.length = n + 2)
    (hexact : ∀ u : State, u.rxPending slot = true → ∀ i, i < n → ((respond u).1.drop 2)[i]? = some (u.reg (a + i)))
    (hdrawn : ∀ u : State, u.rxPending slot = false → ∀ l r, l.length = n → u.env.draws = zeros 2 ++ (l ++ r) →
      respond u = (zeros 2 ++ l, { u.env with draws := r })) :
    ∃ inb t, transact out respond (fun _ s => s) s = (inb, t) ∧ RxRead slot a n out (inb.drop 2) s t := by
  obtain ⟨u, inb, e, hread, hu, hdraws, hanswer, hrun⟩ := transact_reading h hresp hc
  have hlen := h.length u
  have hpending := State.rxPending_of_mem hu slot
  rw [hanswer] at hlen
  refine ⟨inb, _, hread, hrun, ⟨inb, e, rfl⟩, ?_, fun hp i hi => ?_, fun hp l r hl hd => ?_⟩
  · rw [List.length_drop, hlen, hn]; rfl
  · have hbyte := hexact u (hpending.trans hp) i hi
    rwa [hanswer, State.reg_of_mem hu] at hbyte
  · have hbytes := hdrawn u (hpending.trans hp) l r hl (hdraws.trans hd)
    rw [hanswer, Prod.mk.injEq] at hbytes
    obtain ⟨hinb, henv⟩ := hbytes
    exact ⟨by rw [hinb]; rfl, by rw [henv]⟩

/-- A `READ` of registers of a receive buffer. -/
theorem readRegisters_rxRead (hc : s.clear) (slot : RxSlot) {addr : Byte} {k n : Nat}
    (haddr : addr.toNat = (rxSidh slot).toNat + k) (hn : k + n ≤ 13) :
    ∃ bytes t, readRegisters addr n s = (bytes, t) ∧ RxRead slot addr.toNat n (0x03 :: addr :: zeros n) bytes s t := by
  have hzeros : (zeros n).length = n := List.length_replicate
  have hparts := serialParts_read (readResponse_length Opcode.read addr (zeros n))
  have hunlocked (u : State) (i : Nat) (hi : i < n) : u.unlockedRx (addr.toNat + i) = !u.rxPending slot := by
    rw [haddr, Nat.add_assoc]
    exact unlockedRx_rxBody u slot (by omega)
  rw [hzeros] at hparts
  obtain ⟨inb, t, hread, hrx⟩ := transact_rxRead (a := addr.toNat) hparts (readResponse_links addr n) hc (by simp [hzeros])
    (fun u hp i hi => readResponse_getElem? hi ((hunlocked u i hi).trans (by rw [hp]; rfl)))
    (fun u hp l r hl hd => readResponse_drawn (fun i hi => (hunlocked u i hi).trans (by rw [hp]; rfl)) hl hd)
  refine ⟨inb.drop 2, t, ?_, hrx⟩
  rw [readRegisters, issueRead, hzeros, hread]

theorem rxCtrlResponse_of_pending {slot : RxSlot} (hp : s.rxPending slot = true) :
    rxCtrlResponse slot s = readResponse (rxCtrl slot) 1 s := if_pos hp

theorem rxCtrlResponse_of_not_pending {slot : RxSlot} (hp : s.rxPending slot = false) :
    rxCtrlResponse slot s = s.env.drawN 3 := if_neg (Bool.eq_false_iff.1 hp)

theorem rxCtrlResponse_links (slot : RxSlot) (u : State) :
    (rxCtrlResponse slot u).2.links = u.env.links ∧ (rxCtrlResponse slot u).2.turns = u.env.turns := by
  cases hp : u.rxPending slot
  · rw [rxCtrlResponse_of_not_pending hp]
    exact ⟨Env.drawN_links 3 _, Env.drawN_turns 3 _⟩
  · rw [rxCtrlResponse_of_pending hp]
    exact readResponse_links _ _ u

/-- The read of RXBnCTRL in `read` (assumption 28). -/
theorem readRxCtrl_rxRead (hc : s.clear) (slot : RxSlot) :
    ∃ ctrl t, readRxCtrl slot s = (ctrl, t) ∧ RxRead slot (rxCtrl slot).toNat 1 [0x03, rxCtrl slot, 0x00] [ctrl] s t := by
  obtain ⟨inb, t, hread, hrx⟩ := transact_rxRead (slot := slot) (a := (rxCtrl slot).toNat) (n := 1) (serialParts_readRxCtrl slot)
    (rxCtrlResponse_links slot) hc rfl
    (fun u hp i hi => by
      rw [rxCtrlResponse_of_pending hp]
      refine readResponse_getElem? hi ?_
      rw [show i = 0 by omega]
      exact unlockedRx_rxCtrl u slot)
    (fun u hp l r hl hd => by
      have hlen : (zeros 2 ++ l).length = 3 := by rw [List.length_append, hl]; rfl
      rw [rxCtrlResponse_of_not_pending hp, ← hlen]
      exact drawN_of_draws (hd.trans (List.append_assoc ..).symm))
  obtain ⟨ctrl, hctrl⟩ := List.length_eq_one_iff.1 hrx.length
  have hbyte : inb.getD 2 0 = ctrl := by
    have h := congrArg (·.getD 0 0) hctrl
    simpa [List.getD_eq_getElem?_getD] using h
  refine ⟨ctrl, t, ?_, hctrl ▸ hrx⟩
  rw [readRxCtrl, hread, ← hbyte]

end

end Sys2Proof.Machine


namespace Sys2Proof.Machine

section

variable {s t u : State} {slot : RxSlot} {outs : List (List Byte)} {points : Nat}

theorem schedule_draws (h : s.env.turns.head? = some []) : s.schedule.env.draws = s.env.draws := by
  obtain ⟨q, n, w, hshape⟩ := (s.setEnv { s.env with turns := s.env.turns.drop 1 }).serve_shape
  rw [schedule_idle h, hshape]
  rfl

/-- A read, and the scheduling point after it. -/
theorem RxRead.schedule {a n : Nat} {out bytes : List Byte} (h : RxRead slot a n out bytes s t) {k j : Nat}
    (hst : s.steady [] (k + 1) (j + 1)) :
    Steady [out] 1 [] s t.schedule ∧ t.schedule.mem = s.mem ∧ t.schedule.env.draws = t.env.draws ∧ t.schedule.steady [] k j := by
  have hrest := h.steady.rest hst (k := k) (j := j + 1) (by rw [List.length_singleton]; omega) (by omega)
  obtain ⟨hpoint, hmem⟩ := schedule_steady hrest.head_turn
  have hrun := h.steady.trans hpoint
  exact ⟨hrun, hmem.trans h.mem, schedule_draws hrest.head_turn, hrun.rest hst (by simp; omega) (by omega)⟩

/-! ## The flag is cleared -/

/-- A `BITMOD` that clears the flag of a buffer. -/
theorem State.bitModify_rxIf (hmod : s.modifies) (slot : RxSlot) :
    s.bitModify 0x2C (rxIf slot) 0x00 = s.poke 0x2C (rxIf slot) 0 := by
  have hmask : s.modMask 0x2C (rxIf slot) = rxIf slot := if_pos (hmod 0x2C (by decide))
  have hmerge : ∀ v old : Byte, merge 0x2C v old = v := by
    intro v old
    rw [merge, show isTxCtrl 0x2C = false by decide, show writeMask 0x2C = 0xFF by decide, show clearMask 0x2C = 0x00 by decide]
    rw [show old ||| ~~~0x00 = (0xFF : Byte) from BitVec.or_allOnes, and_ff, and_ff]
    simp
  rw [s.bitModify_eq, hmask, if_neg (by cases slot <;> decide), State.writeByte_direct (direct_of_plain s (by decide) (by decide)),
    show canon 0x2C = 0x2C from rfl, hmerge, State.modified, hmask]
  rfl

/-- A `BITMOD` acts after four draws, for the bytes that are received. -/
theorem modifyRegister_clear (hc : s.clear) (addr m d : Byte) :
    ∃ e x, modifyRegister addr m d s = ((s.setEnv e).bitModify addr.toNat m d).record x ∧
      ∀ r, s.env.draws = zeros 4 ++ r → e.draws = r :=
  ⟨_, _, congrArg Prod.snd (transact_clear _ _ _ hc.1 (head_cons hc.2)),
    fun _ hr => Env.drawN_draws (e := { s.env with links := s.env.links.drop 1 }) (l := zeros 4) hr⟩

/-- A `BITMOD` that clears the flag of a buffer. -/
theorem clearRxFlag_cleanRun (hs : s.Inv) (hmod : s.modifies) (hc : s.clear) (slot : RxSlot) :
    CleanRun [[0x05, 0x2C, rxIf slot, 0x00]] 0 s (modifyRegister 0x2C (rxIf slot) 0x00 s) ∧
      Consumed s (modifyRegister 0x2C (rxIf slot) 0x00 s) slot ∧
      ∀ r, s.env.draws = zeros 4 ++ r → (modifyRegister 0x2C (rxIf slot) 0x00 s).env.draws = r := by
  obtain ⟨-, hcalm, hsent⟩ := issueBitmod_calm 0x2C (rxIf slot) 0x00 hc (by decide)
  rw [← modifyRegister] at hcalm hsent
  obtain ⟨e, x, hshape, hdraws⟩ := modifyRegister_clear hc 0x2C (rxIf slot) 0x00
  rw [show (0x2C : Byte).toNat = 0x2C from rfl, State.bitModify_rxIf (s := s.setEnv e) hmod] at hshape
  obtain ⟨hconsumed, hedges⟩ := consumed_poke (s := s.setEnv e) hs slot
  refine ⟨hcalm.cleanRun (reaches_modifyRegister _ _ s (by decide)) ?_ hsent, ?_, fun r hr => ?_⟩
  · rw [hshape]; exact hedges
  · rw [hshape]; exact hconsumed
  · rw [hshape]
    exact hdraws r hr

/-- A run before or after that leaves the registers as they are makes no difference. -/
theorem Consumed.of_steady (h : Consumed u t slot) (hrun : Steady outs points [] s u) (hmem : u.mem = s.mem)
    (hsettle : s.settle = 0) : Consumed s t slot := by
  obtain ⟨hflag, hsame, hop, hint, hab, hsleeps, hset⟩ := h
  exact ⟨by rw [hflag, State.reg_of_mem hmem], (sameRegs_of_mem hmem).trans hsame, hop.trans (State.opmod_of_mem hmem), hint,
    hab.trans hrun.aborting, hsleeps.trans (hrun.sleeps.trans (List.append_nil _)),
    hset.trans ((hrun.settle hsettle).trans hsettle.symm)⟩

/-- Draws at its end. -/
theorem CleanRun.drawN (h : CleanRun outs points s t) (n : Nat) : CleanRun outs points s (t.setEnv (t.env.drawN n).2) where
  reaches := h.reaches.trans (reaches_setEnv t _)
  settle := h.settle
  links := (Env.drawN_links n _).trans h.links
  turns := (Env.drawN_turns n _).trans h.turns
  bridged := by
    have hb := h.bridged
    cases points <;> exact hb
  log := h.log
  sleeps := h.sleeps
  issued := h.issued

/-! ## `read` after the header -/

/-- The frame that the bytes of a header, of RXBnCTRL and of the data registers make (43_frame_codec.md R237). -/
def readFrame (h : List Byte) (ctrl : Byte) (data : List Byte) : Frame where
  canId := rxIdent (h.getD 0 0) (h.getD 1 0) (h.getD 2 0) (h.getD 3 0) ctrl
  dlc := dlcOf (h.getD 4 0)
  data := payloadOf data

theorem readBody_eq {h d : List Byte} {ctrl : Byte} (hctrl : readRxCtrl slot s = (ctrl, t))
    (hdata : readRegisters (rxD0 slot) (dlcOf (h.getD 4 0)).toNat t.schedule = (d, u)) :
    readBody slot h s =
      (readFrame h ctrl (d ++ ((modifyRegister 0x2C (rxIf slot) 0x00 u.schedule).env.drawN (8 - (dlcOf (h.getD 4 0)).toNat)).1),
        (modifyRegister 0x2C (rxIf slot) 0x00 u.schedule).setEnv
          ((modifyRegister 0x2C (rxIf slot) 0x00 u.schedule).env.drawN (8 - (dlcOf (h.getD 4 0)).toNat)).2) := by
  rw [readBody, hctrl, hdata]
  rfl

/-- `ctrl` and the `n` bytes `d` are what `read` finds in a buffer after its header, and `fill` are the draws that stand in the
frame after them (R284). -/
structure BodyRead (slot : RxSlot) (n : Nat) (ctrl : Byte) (d fill : List Byte) (s : State) : Prop where
  length : d.length = n
  length_fill : fill.length = 8 - n
  exact : s.rxPending slot = true →
    ctrl = s.reg (rxCtrl slot).toNat ∧ ∀ i, i < n → d[i]? = some (s.reg ((rxD0 slot).toNat + i))
  drawn : s.rxPending slot = false → ∀ c d' fill', d'.length = n → fill'.length = 8 - n →
    s.env.draws = zeros 2 ++ ([c] ++ (zeros 2 ++ (d' ++ (zeros 4 ++ fill')))) → ctrl = c ∧ d = d' ∧ fill = fill'

theorem readBody_clean (hs : s.Inv) (hmod : s.modifies) (hst : s.steady [] 3 2) (slot : RxSlot) {h : List Byte} {n : Nat}
    (hn : (dlcOf (h.getD 4 0)).toNat = n) (hle : n ≤ 8) :
    ∃ ctrl d fill t, readBody slot h s = (readFrame h ctrl (d ++ fill), t) ∧ BodyRead slot n ctrl d fill s ∧
      Consumed s t slot ∧
      CleanRun [[0x03, rxCtrl slot, 0x00], 0x03 :: rxD0 slot :: zeros n, [0x05, 0x2C, rxIf slot, 0x00]] 2 s t := by
  obtain ⟨ctrl, t, hctrl, hrx1⟩ := readRxCtrl_rxRead hst.head_clear slot
  obtain ⟨hrun1, hmem1, hdraws1, hrest1⟩ := hrx1.schedule hst
  obtain ⟨d, u, hdata, hrx2⟩ := readRegisters_rxRead hrest1.head_clear slot (addr := rxD0 slot) (k := 5) (n := n)
    (by cases slot <;> decide) (by omega)
  obtain ⟨hrun2, hmem2, hdraws2, hrest2⟩ := hrx2.schedule hrest1
  have hrun := hrun1.trans hrun2
  have hmem := hmem2.trans hmem1
  obtain ⟨hclear, hconsumed, hdraws3⟩ := clearRxFlag_cleanRun (hrun.reaches.inv hs)
    (by rwa [State.modifies, hrun.reaches.params]) hrest2.head_clear slot
  have hbody := readBody_eq (h := h) hctrl (hn ▸ hdata)
  rw [hn] at hbody
  refine ⟨ctrl, d, _, _, hbody, ⟨hrx2.length, Env.drawN_length _ _, fun hp => ⟨?_, fun i hi => ?_⟩, ?_⟩,
    hconsumed.of_steady hrun hmem hst.1, (hrun.cleanRun.trans hclear hrun.int).drawN _⟩
  · exact Option.some.inj (hrx1.exact hp 0 Nat.one_pos)
  · rw [hrx2.exact ((State.rxPending_of_mem hmem1 slot).trans hp) i hi, State.reg_of_mem hmem1]
  · intro hp c d' fill' hlen hfill hdraws
    obtain ⟨hc, hr1⟩ := hrx1.drawn hp [c] _ rfl hdraws
    obtain ⟨hd, hr2⟩ := hrx2.drawn ((State.rxPending_of_mem hmem1 slot).trans hp) d' _ hlen (hdraws1.trans hr1)
    have hr3 := hdraws3 fill' (hdraws2.trans hr2)
    rw [← hfill]
    exact ⟨List.singleton_inj.1 hc, hd, congrArg Prod.fst (drawN_of_draws (hr3.trans (List.append_nil _).symm))⟩

end

end Sys2Proof.Machine


namespace Sys2Proof.Machine

/-! ## `read` -/

theorem payloadOf_toList {l : List Byte} (h : l.length = 8) : (payloadOf l).toList = l := by
  refine List.ext_getElem (by rw [Vector.length_toList, h]) fun i hi hi' => ?_
  rw [Vector.length_toList] at hi
  interval_cases i <;> simp [payloadOf, List.getD_eq_getElem?_getD, hi']

theorem payloadOf_vector (d : Vector Byte 8) : payloadOf d.toList = d :=
  Vector.toList_inj.1 (payloadOf_toList d.length_toList)

section

variable {s t u : State} {slot : RxSlot} {h : List Byte} {n : Nat}

/-- What `read` returns to its Caller. -/
theorem exec_read {r : Option Frame} (hread : readSlot slot s = (r, t)) : exec (.read slot) s = .next (t.ret (frameValue r)) :=
  congrArg (fun x : Option Frame × State => Host.Outcome.next (x.2.ret (frameValue x.1))) hread

/-- A length field above 8 ends the read. -/
theorem readSlot_of_gt (hread : readRegisters (rxSidh slot) 5 s = (h, u)) (hdlc : (dlcOf (h.getD 4 0)).toNat > 8) :
    readSlot slot s = (none, u) := by
  rw [readSlot, hread]
  exact if_pos hdlc

theorem readSlot_of_le (hread : readRegisters (rxSidh slot) 5 s = (h, u)) (hdlc : (dlcOf (h.getD 4 0)).toNat ≤ 8) :
    readSlot slot s = (some (readBody slot h u.schedule).1, (readBody slot h u.schedule).2) := by
  rw [readSlot, hread]
  exact if_neg (Nat.not_lt.2 hdlc)

/-- The header of a receive buffer. -/
theorem readHeader_rxRead (hc : s.clear) (slot : RxSlot) :
    ∃ h u, readRegisters (rxSidh slot) 5 s = (h, u) ∧
      RxRead slot (rxSidh slot).toNat 5 [0x03, rxSidh slot, 0, 0, 0, 0, 0] h s u :=
  readRegisters_rxRead hc slot (k := 0) rfl (by decide)

/-- A `read` of an admitted length, from its header. -/
theorem readSlot_clean (hs : s.Inv) (hmod : s.modifies) (hst : s.steady [] 4 3)
    (hread : readRegisters (rxSidh slot) 5 s = (h, u))
    (hrx : RxRead slot (rxSidh slot).toNat 5 [0x03, rxSidh slot, 0, 0, 0, 0, 0] h s u)
    (hn : (dlcOf (h.getD 4 0)).toNat = n) (hle : n ≤ 8) :
    ∃ v ctrl d fill t, readSlot slot s = (some (readFrame h ctrl (d ++ fill)), t) ∧ BodyRead slot n ctrl d fill v ∧
      v.mem = s.mem ∧ v.env.draws = u.env.draws ∧ Consumed s t slot ∧ CleanRun (readOuts (dlcOf (h.getD 4 0)) slot) 3 s t := by
  obtain ⟨hrun, hmem, hdraws, hrest⟩ := hrx.schedule hst
  obtain ⟨ctrl, d, fill, t, hbody, hfound, hconsumed, hclean⟩ := readBody_clean (hrun.reaches.inv hs)
    (by rwa [State.modifies, hrun.reaches.params]) hrest slot hn hle
  refine ⟨_, ctrl, d, fill, t, ?_, hfound, hmem, hdraws, hconsumed.of_steady hrun hmem hst.1, ?_⟩
  · rw [readSlot_of_le hread (hn ▸ hle), hbody]
  · rw [readOuts, hn]
    exact hrun.cleanRun.trans hclean hrun.int

/-- The header of a pending buffer is its registers. -/
theorem getD_header (hrx : RxRead slot (rxSidh slot).toNat 5 [0x03, rxSidh slot, 0, 0, 0, 0, 0] h s u)
    (hp : s.rxPending slot = true) {i : Nat} (hi : i < 5) : h.getD i 0 = s.reg ((rxSidh slot).toNat + i) := by
  rw [List.getD_eq_getElem?_getD, hrx.exact hp i hi]
  rfl

/-- `read` of a pending buffer returns the frame that the buffer holds. -/
theorem readSlot_pending (hs : s.Inv) (hmod : s.modifies) (hst : s.steady [] 4 3) (hp : s.rxPending slot = true)
    (hdlc : (s.rxDlc slot).toNat ≤ 8) :
    ∃ f t, readSlot slot s = (some f, t) ∧ s.Holds slot f ∧ Consumed s t slot ∧ CleanRun (readOuts (s.rxDlc slot) slot) 3 s t := by
  obtain ⟨h, u, hread, hrx⟩ := readHeader_rxRead hst.head_clear slot
  have hlen : dlcOf (h.getD 4 0) = s.rxDlc slot := congrArg dlcOf (getD_header hrx hp (by decide))
  obtain ⟨v, ctrl, d, fill, t, hslot, hfound, hmem, -, hconsumed, hrun⟩ :=
    readSlot_clean hs hmod hst hread hrx (congrArg BitVec.toNat hlen) hdlc
  obtain ⟨hctrl, hdata⟩ := hfound.exact ((State.rxPending_of_mem hmem slot).trans hp)
  rw [State.reg_of_mem hmem] at hctrl
  refine ⟨_, t, hslot, ⟨?_, hlen, fun i hi => ?_⟩, hconsumed, hlen ▸ hrun⟩
  · simp only [readFrame, getD_header hrx hp, hctrl, Nat.reduceLT, Nat.add_zero]
  · replace hi : i < (s.rxDlc slot).toNat := hlen ▸ hi
    have hlength : (d ++ fill).length = 8 := by rw [List.length_append, hfound.length, hfound.length_fill]; omega
    rw [readFrame, payloadOf_toList hlength, List.getElem?_append_left (hfound.length ▸ hi), hdata i hi, State.reg_of_mem hmem]

/-- A buffer that is not pending has no flag to clear. -/
theorem consumed_of_not_pending {outs : List (List Byte)} {points : Nat} (hs : s.Inv) (hp : s.rxPending slot = false)
    (hrun : Steady outs points [] s t) (hmem : t.mem = s.mem) (hsettle : s.settle = 0) : Consumed s t slot := by
  have hflag : s.reg 0x2C &&& ~~~rxIf slot = s.reg 0x2C := by
    have hzero : s.reg 0x2C &&& rxIf slot = 0 := by
      have hany : anySet (s.reg 0x2C) (rxIf slot) = false := hp
      simpa [anySet] using hany
    have hsplit := keep_field (s.reg 0x2C) (rxIf slot)
    rw [hzero] at hsplit
    exact BitVec.or_zero.symm.trans hsplit
  refine ⟨by rw [hflag, State.reg_of_mem hmem], sameRegs_of_mem hmem, State.opmod_of_mem hmem, ?_, hrun.aborting,
    hrun.sleeps.trans (List.append_nil _), (hrun.settle hsettle).trans hsettle.symm⟩
  rw [hrun.int, hs.2.1, level_eq, State.reg_of_mem hmem, State.reg_of_mem hmem]

/-- The one transaction of a run has as many bytes received as sent. -/
theorem Steady.sent {out : List Byte} {points : Nat} {delays : List Nat} (h : Steady [out] points delays s t) (hs : s.Inv) :
    Sent s t out := by
  obtain ⟨es, htrans, houts, hok⟩ := h.issued
  obtain ⟨e, rfl, rfl⟩ := List.map_eq_singleton_iff.1 houts
  obtain ⟨-, -, -, hlen, -⟩ := h.reaches.inv hs
  refine ⟨e.inb, hlen e (by rw [htrans]; simp), ?_⟩
  rw [htrans, ← hok e (List.mem_singleton_self e)]

end

/-- The draws that make `read` of a buffer that is not pending find a header, a control byte and data of a length (R382). -/
def drawsFor (h : List Byte) (ctrl : Byte) (n : Nat) (data : List Byte) : List Byte :=
  zeros 2 ++ (h ++ (zeros 2 ++ ([ctrl] ++ (zeros 2 ++ (data.take n ++ (zeros 4 ++ data.drop n))))))

section

variable {s : State} {slot : RxSlot}

/-- `read` of a buffer that is not pending, whatever the draws are. -/
theorem readSlot_not_pending (hs : s.Inv) (hmod : s.modifies) (hst : s.steady [] 4 3) (hp : s.rxPending slot = false) :
    ∃ r t, readSlot slot s = (r, t) ∧ Consumed s t slot ∧ t.log = s.log := by
  obtain ⟨h, u, hread, hrx⟩ := readHeader_rxRead hst.head_clear slot
  by_cases hdlc : (dlcOf (h.getD 4 0)).toNat ≤ 8
  · obtain ⟨v, ctrl, d, fill, t, hslot, -, -, -, hconsumed, hrun⟩ := readSlot_clean hs hmod hst hread hrx rfl hdlc
    exact ⟨_, t, hslot, hconsumed, hrun.log⟩
  · exact ⟨none, u, readSlot_of_gt hread (Nat.not_le.1 hdlc), consumed_of_not_pending hs hp hrx.steady hrx.mem hst.1,
      hrx.steady.log⟩

/-- `read` of a buffer that is not pending, when the draws are known. -/
theorem readSlot_drawn (hs : s.Inv) (hmod : s.modifies) (hst : s.steady [] 4 3) (hp : s.rxPending slot = false)
    {h : List Byte} (hlen : h.length = 5) {ctrl : Byte} {data : List Byte} (hdata : data.length = 8) {n : Nat}
    (hn : (dlcOf (h.getD 4 0)).toNat = n) (hdraws : s.env.draws = drawsFor h ctrl n data) :
    if n ≤ 8 then ∃ t, readSlot slot s = (some (readFrame h ctrl data), t) ∧ Consumed s t slot ∧
      CleanRun (readOuts (dlcOf (h.getD 4 0)) slot) 3 s t
    else ∃ t, readSlot slot s = (none, t) ∧ Consumed s t slot ∧ Steady [[0x03, rxSidh slot, 0, 0, 0, 0, 0]] 0 [] s t := by
  obtain ⟨h', u, hread, hrx⟩ := readHeader_rxRead hst.head_clear slot
  obtain ⟨rfl, hrest⟩ := hrx.drawn hp h _ hlen hdraws
  split
  · next hle =>
    obtain ⟨v, ctrl', d, fill, t, hslot, hfound, hmem, hv, hconsumed, hrun⟩ := readSlot_clean hs hmod hst hread hrx hn hle
    obtain ⟨rfl, rfl, rfl⟩ := hfound.drawn ((State.rxPending_of_mem hmem slot).trans hp) ctrl (data.take n) (data.drop n)
      (by rw [List.length_take]; omega) (by rw [List.length_drop, hdata]) (hv.trans hrest)
    rw [List.take_append_drop] at hslot
    exact ⟨t, hslot, hconsumed, hrun⟩
  · next hgt =>
    exact ⟨u, readSlot_of_gt hread (by omega), consumed_of_not_pending hs hp hrx.steady hrx.mem hst.1, hrx.steady⟩

end

theorem readFrame_toList (h : Vector Byte 5) (ctrl : Byte) (d : Vector Byte 8) :
    readFrame h.toList ctrl d.toList =
      { canId := rxIdent h[0] h[1] h[2] h[3] ctrl, dlc := h[4] &&& 0x0F, data := d } := by
  have hget (i : Nat) (hi : i < 5) : h.toList.getD i 0 = h[i] := by simp [List.getD_eq_getElem?_getD, hi]
  simp only [readFrame, payloadOf_vector, hget, Nat.reduceLT]
  rfl

/-! ## `read` in every run -/

theorem readRegisters_length (addr : Byte) (n : Nat) (s : State) : (readRegisters addr n s).1.length = n := by
  have hlen := (issueRead_recorded addr (zeros n) s).1
  rw [readRegisters, List.length_drop, hlen, Nat.add_sub_cancel_left]
  exact List.length_replicate

/-- The last three transactions of `read`, and the frame that they and the header make. -/
theorem readBody_recorded (slot : RxSlot) (h : List Byte) (s : State) {n : Nat} (hn : (dlcOf (h.getD 4 0)).toNat = n) :
    ∃ (e2 e3 e4 : Entry) (fill : List Byte), (readBody slot h s).2.transcript = s.transcript ++ [e2, e3, e4] ∧
      [e2, e3, e4].map Entry.out = [[0x03, rxCtrl slot, 0x00], 0x03 :: rxD0 slot :: zeros n, [0x05, 0x2C, rxIf slot, 0x00]] ∧
      (readBody slot h s).2.sleeps = s.sleeps ∧
      (readBody slot h s).1 = readFrame h (e2.inb.getD 2 0) (e3.inb.drop 2 ++ fill) ∧ (e3.inb.drop 2).length = n ∧
      fill.length = 8 - n := by
  rcases hctrl : readRxCtrl slot s with ⟨ctrl, t⟩
  rcases hdata : readRegisters (rxD0 slot) n t.schedule with ⟨d, u⟩
  obtain ⟨e2, htrans2, hout2, hbyte, hsleeps2⟩ := readRxCtrl_recorded slot s
  obtain ⟨e3, htrans3, hout3, hbytes, hsleeps3⟩ := readRegisters_recorded (rxD0 slot) n t.schedule
  obtain ⟨e4, htrans4, hout4, hsleeps4⟩ := modifyRegister_recorded (addr := 0x2C) (by decide) (rxIf slot) 0x00 u.schedule
  have hlen := readRegisters_length (rxD0 slot) n t.schedule
  rw [hctrl] at htrans2 hbyte hsleeps2
  rw [hdata] at htrans3 hbytes hsleeps3 hlen
  rw [readBody_eq hctrl (hn ▸ hdata), hn]
  refine ⟨e2, e3, e4, _, htrans4.trans ?_, ?_, hsleeps4.trans ?_, by rw [hbyte, hbytes], by rw [hbytes, hlen],
    Env.drawN_length _ _⟩
  · rw [schedule_transcript, htrans3, schedule_transcript, htrans2, List.append_assoc, List.append_assoc]
    rfl
  · rw [List.map_cons, List.map_cons, List.map_singleton, hout2, hout3, hout4]
  · rw [schedule_sleeps, hsleeps3, schedule_sleeps, hsleeps2]

theorem getD_drop_two (l : List Byte) (i : Nat) : (l.drop 2).getD i 0 = l.getD (2 + i) 0 := by
  simp only [List.getD_eq_getElem?_getD, List.getElem?_drop]

/-- The header of `read`: the bytes received stand after those for the opcode and the address. -/
theorem readHeader_recorded (slot : RxSlot) (s : State) :
    ∃ (h : List Byte) (u : State) (e : Entry), readRegisters (rxSidh slot) 5 s = (h, u) ∧
      u.transcript = s.transcript ++ [e] ∧ e.out = [0x03, rxSidh slot, 0, 0, 0, 0, 0] ∧ u.sleeps = s.sleeps ∧
      ∀ i, h.getD i 0 = e.inb.getD (2 + i) 0 := by
  obtain ⟨e, htrans, hout, hbytes, hsleeps⟩ := readRegisters_recorded (rxSidh slot) 5 s
  exact ⟨_, _, e, rfl, htrans, hout, hsleeps, fun i => (congrArg (·.getD i 0) hbytes.symm).trans (getD_drop_two e.inb i)⟩

/-- A `read` of an admitted length, in every run: three transactions after the header, and the frame that the bytes make. -/
theorem readSlot_recorded {slot : RxSlot} {h : List Byte} {s u : State} (hread : readRegisters (rxSidh slot) 5 s = (h, u))
    (hle : (dlcOf (h.getD 4 0)).toNat ≤ 8) :
    ∃ (f : Frame) (t : State) (e2 e3 e4 : Entry), readSlot slot s = (some f, t) ∧
      t.transcript = u.transcript ++ [e2, e3, e4] ∧
      [0x03, rxSidh slot, 0, 0, 0, 0, 0] :: [e2, e3, e4].map Entry.out = readOuts (dlcOf (h.getD 4 0)) slot ∧
      t.sleeps = u.sleeps ∧ f.canId = rxIdent (h.getD 0 0) (h.getD 1 0) (h.getD 2 0) (h.getD 3 0) (e2.inb.getD 2 0) ∧
      f.dlc = dlcOf (h.getD 4 0) ∧ f.data.toList.take f.dlc.toNat = e3.inb.drop 2 := by
  obtain ⟨e2, e3, e4, fill, htrans, houts, hsleeps, hframe, hlen, hfill⟩ := readBody_recorded slot h u.schedule rfl
  have hdata : (e3.inb.drop 2 ++ fill).length = 8 := by rw [List.length_append, hlen, hfill]; omega
  refine ⟨_, _, e2, e3, e4, readSlot_of_le hread hle, htrans.trans (by rw [schedule_transcript]), by rw [houts]; rfl,
    hsleeps.trans (schedule_sleeps u), by rw [hframe]; rfl, by rw [hframe]; rfl, ?_⟩
  rw [hframe, readFrame, payloadOf_toList hdata, List.take_left' hlen]

/-- Settles O53: a read of a pending buffer is exact and clears the flag alone; of one that is not pending every byte is a draw,
and the list of draws can say each of them; and in every run the frame is made of what the transactions have received. -/
theorem readReturnsTheFrame : Obligations.ReadReturnsTheFrame := by
  refine ⟨fun s slot hs hmod hquiet hp hdlc => ?_, fun s slot hs hmod hquiet hp => ⟨?_, fun h c d => ?_⟩, fun s slot => ?_⟩
  · obtain ⟨f, t, hread, hholds, hconsumed, hrun⟩ :=
      readSlot_pending hs hmod (State.steady.mono hquiet le_rfl (by decide)) hp hdlc
    exact ⟨_, f, exec_read hread, hholds, congrArg (· ++ _) hrun.reaches.results, hconsumed, hrun.issued, hrun.hostAfter, hrun.log⟩
  · obtain ⟨r, t, hread, hconsumed, hlog⟩ := readSlot_not_pending hs hmod (State.steady.mono hquiet le_rfl (by decide)) hp
    exact ⟨_, exec_read hread, hconsumed, hlog⟩
  · have hdlc : dlcOf (h.toList.getD 4 0) = h[4] &&& 0x0F := congrArg Frame.dlc (readFrame_toList h c d)
    have hdrawn := readSlot_drawn (slot := slot)
      (s := { s with env := { s.env with draws := drawsFor h.toList c (h[4] &&& 0x0F).toNat d.toList } })
      hs hmod (State.steady.mono hquiet le_rfl (by decide)) hp h.length_toList (ctrl := c) d.length_toList
      (congrArg BitVec.toNat hdlc) rfl
    refine ⟨drawsFor h.toList c (h[4] &&& 0x0F).toNat d.toList, ?_⟩
    by_cases hle : (h[4] &&& 0x0F).toNat ≤ 8
    · rw [if_pos hle, readFrame_toList, hdlc] at hdrawn
      obtain ⟨t, hread, hconsumed, hrun⟩ := hdrawn
      refine ⟨_, exec_read hread, hconsumed, hrun.log, ?_⟩
      rw [if_pos hle]
      exact ⟨congrArg (· ++ _) hrun.reaches.results, hrun.issued, hrun.hostAfter⟩
    · rw [if_neg hle] at hdrawn
      obtain ⟨t, hread, hconsumed, hrun⟩ := hdrawn
      refine ⟨_, exec_read hread, hconsumed, hrun.log, ?_⟩
      rw [if_neg hle]
      obtain ⟨hqueue, -, hwaits⟩ := hrun.bridged
      exact ⟨congrArg (· ++ _) hrun.reaches.results, hrun.sent hs, hqueue, hwaits, hrun.reaches.cloudUp, hrun.reaches.refused,
        hrun.reaches.calls⟩
  · have hreach := reaches_readSlot slot s
    obtain ⟨h, u, e1, hread, htrans, hout, hsleeps, hbyte⟩ := readHeader_recorded slot s
    have hdlc : dlcOf (h.getD 4 0) = e1.inb.getD 6 0 &&& 0x0F := congrArg dlcOf (hbyte 4)
    rcases Nat.lt_or_ge 8 (dlcOf (h.getD 4 0)).toNat with hgt | hle
    · have hslot := readSlot_of_gt hread hgt
      rw [hslot] at hreach
      refine ⟨_, e1, exec_read hslot, hout, hsleeps, hreach.refused, hreach.cloudUp, hreach.calls, ?_⟩
      rw [← hdlc, if_pos hgt]
      exact ⟨htrans, congrArg (· ++ _) hreach.results⟩
    · obtain ⟨f, t, e2, e3, e4, hslot, htrans', houts, hsleeps', hid, hlen, hdata⟩ := readSlot_recorded hread hle
      rw [hslot] at hreach
      refine ⟨_, e1, exec_read hslot, hout, hsleeps'.trans hsleeps, hreach.refused, hreach.cloudUp, hreach.calls, ?_⟩
      rw [← hdlc, if_neg (Nat.not_lt.2 hle)]
      refine ⟨e2, e3, e4, f, htrans'.trans ?_, by rw [List.map_cons, hout, houts], congrArg (· ++ _) hreach.results, ?_, hlen,
        hdata⟩
      · rw [htrans, List.append_assoc]
        rfl
      · rw [hid, hbyte, hbyte, hbyte, hbyte]

end Sys2Proof.Machine


namespace Sys2Proof.Machine

/-! ## `readAnyPending` -/

section

variable {s t : State} {slot : RxSlot}

/-- The bit of a slot in the status byte is its flag (40_serial_transactions.md R154). -/
theorem anySet_statusNow (s : State) (slot : RxSlot) : anySet s.statusNow (statusRxBit slot) = s.rxPending slot := by
  obtain ⟨-, -, -, -, -, -, h1, h0⟩ := statusByte_bits (s.reg 0x2C) (s.reg (txCtrl .txb0).toNat) (s.reg (txCtrl .txb1).toNat)
    (s.reg (txCtrl .txb2).toNat)
  have hbits : ∀ v : Byte, anySet v 0x01 = v.getLsbD 0 ∧ anySet v 0x02 = v.getLsbD 1 := by decide
  cases slot
  · exact ((hbits _).1.trans h0).trans (hbits _).1.symm
  · exact ((hbits _).2.trans h1).trans (hbits _).2.symm

/-- `readStatus`, when nothing disturbs it. -/
theorem readStatus_reading (hc : s.clear) :
    ∃ inb e, readStatus s =
        (s.statusNow, { s with transcript := s.transcript ++ [{ out := [0xA0, 0x00], inb := inb, ok := true }], env := e }) ∧
      Steady [[0xA0, 0x00]] 0 [] s
        { s with transcript := s.transcript ++ [{ out := [0xA0, 0x00], inb := inb, ok := true }], env := e } := by
  have hlinks (u : State) : (statusResponse 1 u).2.links = u.env.links ∧ (statusResponse 1 u).2.turns = u.env.turns :=
    ⟨Env.draw_links _, Env.draw_turns _⟩
  obtain ⟨u, inb, e, hread, hmem, -, hanswer, hrun⟩ :=
    transact_reading (serialParts_read (statusResponse_length Opcode.readStatus [0x00])) hlinks hc
  have hbyte : inb.getD 1 0 = s.statusNow := by
    have hinb : (statusResponse 1 u).1 = inb := congrArg Prod.fst hanswer
    rw [← hinb]
    show u.statusNow = s.statusNow
    simp only [State.statusNow, State.reg_of_mem hmem]
  refine ⟨inb, e, ?_, hrun⟩
  rw [readStatus, show issueReadStatus (zeros 1) s = _ from hread, hbyte]
  rfl

/-- RXB0 is read if it is pending, else RXB1 is (R285). -/
theorem readAny_of_pending (hp : s.rxPending slot = true) (hfirst : slot = .rxb1 → s.rxPending .rxb0 = false)
    (hread : readStatus s = (s.statusNow, t)) :
    readAny s = (frameValue (readSlot slot t.schedule).1, (readSlot slot t.schedule).2) := by
  rw [readAny, hread]
  simp only [anySet_statusNow]
  cases slot
  · exact if_pos hp
  · rw [hfirst rfl]
    exact if_pos hp

theorem readAny_of_none (h0 : s.rxPending .rxb0 = false) (h1 : s.rxPending .rxb1 = false)
    (hread : readStatus s = (s.statusNow, t)) : readAny s = (.code .noMessage, t) := by
  rw [readAny, hread]
  simp only [anySet_statusNow, h0, h1]
  rfl

theorem exec_readAnyPending {v : Value} (h : readAny s = (v, t)) : exec .readAnyPending s = .next (t.ret v) :=
  congrArg (fun x : Value × State => Host.Outcome.next (x.2.ret x.1)) h

theorem State.rxDlc_of_mem {u : State} (hmem : u.mem = s.mem) (slot : RxSlot) : u.rxDlc slot = s.rxDlc slot :=
  congrArg dlcOf (State.reg_of_mem hmem _)

/-- What a buffer holds is in its registers. -/
theorem State.Holds.of_mem {u : State} {f : Frame} (h : u.Holds slot f) (hmem : u.mem = s.mem) : s.Holds slot f := by
  simpa only [State.Holds, State.reg_of_mem hmem, State.rxDlc_of_mem hmem] using h

/-- `readAnyPending` of a pending buffer: the status byte, and then `read` of that buffer. -/
theorem readAny_pending (hs : s.Inv) (hmod : s.modifies) (hst : s.steady [] 5 4) (hp : s.rxPending slot = true)
    (hfirst : slot = .rxb1 → s.rxPending .rxb0 = false) (hdlc : (s.rxDlc slot).toNat ≤ 8) :
    ∃ f t, readAny s = (.frame f, t) ∧ s.Holds slot f ∧ Consumed s t slot ∧
      CleanRun ([0xA0, 0x00] :: readOuts (s.rxDlc slot) slot) 4 s t := by
  obtain ⟨inb, e, hstatus, hread⟩ := readStatus_reading hst.head_clear
  have hany := readAny_of_pending hp hfirst hstatus
  obtain ⟨hpoint, hmem⟩ := schedule_steady (hread.rest hst (k := 4) (j := 4) le_rfl le_rfl).head_turn
  have hrun := hread.trans hpoint
  have hlen := State.rxDlc_of_mem hmem slot
  obtain ⟨f, t, hslot, hholds, hconsumed, hclean⟩ := readSlot_pending (hrun.reaches.inv hs)
    (by rwa [State.modifies, hrun.reaches.params]) (hrun.rest hst (k := 4) (j := 3) le_rfl le_rfl)
    ((State.rxPending_of_mem hmem slot).trans hp) (hlen ▸ hdlc)
  rw [hslot] at hany
  rw [hlen] at hclean
  exact ⟨f, t, hany, hholds.of_mem hmem, hconsumed.of_steady hrun hmem hst.1, hrun.cleanRun.trans hclean hrun.int⟩

/-- A pending buffer whose length field is above 8 is left as it is. -/
theorem readSlot_malformed (hc : s.clear) (hp : s.rxPending slot = true) (hdlc : (s.rxDlc slot).toNat > 8) :
    ∃ inb e, readSlot slot s = (none, { s with
      transcript := s.transcript ++ [{ out := [0x03, rxSidh slot, 0, 0, 0, 0, 0], inb := inb, ok := true }], env := e }) := by
  obtain ⟨h, u, hread, hrx⟩ := readHeader_rxRead hc slot
  obtain ⟨inb, e, rfl⟩ := hrx.shape
  refine ⟨inb, e, readSlot_of_gt hread ?_⟩
  rw [getD_header hrx hp (by decide)]
  exact hdlc

end

/-- Settles O54: nothing after the header is issued, and RXB0 is read again before RXB1. -/
theorem malformedFrameSticks : Obligations.MalformedFrameSticks := by
  refine ⟨fun s slot hc hp hdlc => ?_, fun s hquiet hp hdlc => ?_⟩
  · obtain ⟨inb, e, hread⟩ := readSlot_malformed hc hp hdlc
    exact ⟨inb, e, exec_read hread⟩
  · have hst : s.steady [] 2 1 := State.steady.mono hquiet le_rfl (by decide)
    obtain ⟨inb1, e1, hstatus, hrun⟩ := readStatus_reading hst.head_clear
    have hrest := hrun.rest hst (k := 1) (j := 1) le_rfl le_rfl
    have hclear := ((schedule_steady hrest.head_turn).1.rest hrest (k := 1) (j := 0) le_rfl le_rfl).head_clear
    obtain ⟨hserved, q, n, w, e2, hshape⟩ := schedule_idle_served hrest.head_turn
    have hany := readAny_of_pending hp nofun hstatus
    rw [hshape] at hserved hclear hany
    obtain ⟨inb2, e3, hread⟩ := readSlot_malformed hclear hp hdlc
    rw [hread] at hany
    refine ⟨[⟨[0xA0, 0x00], inb1, true⟩, ⟨[0x03, 0x61, 0, 0, 0, 0, 0], inb2, true⟩], e3, q, n, w, rfl, ?_,
      hserved.congr rfl rfl rfl rfl rfl⟩
    rw [exec_readAnyPending hany, State.ret, List.append_assoc]
    rfl

/-- Settles O55: the status byte shows the flags, and the buffer that it selects is read. -/
theorem readAnyPending : Obligations.ReadAnyPending := by
  refine ⟨fun s slot hs hmod hquiet hp hfirst hdlc => ?_, fun s hc h0 h1 => ?_⟩
  · obtain ⟨f, t, hany, hholds, hconsumed, hrun⟩ :=
      readAny_pending hs hmod (State.steady.mono hquiet le_rfl (by decide)) hp hfirst hdlc
    exact ⟨_, f, exec_readAnyPending hany, hholds, congrArg (· ++ _) hrun.reaches.results, hconsumed, hrun.issued,
      hrun.hostAfter, hrun.log⟩
  · obtain ⟨inb, e, hstatus, -⟩ := readStatus_reading hc
    exact ⟨inb, e, exec_readAnyPending (readAny_of_none h0 h1 hstatus)⟩

end Sys2Proof.Machine

/-! SUPPORT. Error flag handling (46_error_flags.md R310-R315): each operation is one `READ` or one `BITMOD`, and the effect of a
clear operation is what that `BITMOD` leaves of its register. -/

namespace Sys2Proof.Machine

section

variable {s t : State}

/-! ## The operations that read -/

/-- A register outside the receive buffers that are not pending is read, and only the transcript and the choices change. -/
theorem readRegister_calm (hc : s.clear) {addr : Byte} (hu : s.unlockedRx addr.toNat = false) :
    ∃ inb e, readRegister addr s = (s.reg addr.toNat, { s with
      transcript := s.transcript ++ [{ out := [0x03, addr, 0x00], inb := inb, ok := true }], env := e }) := by
  obtain ⟨inb, e, hread, -, -, -, hbytes⟩ := issueRead_calm addr (zeros 1) hc
  have hbyte : inb.getD 2 0 = s.reg addr.toNat := by
    rw [List.getD_eq_getElem?_getD, hbytes 0 Nat.one_pos hu]
    rfl
  refine ⟨inb, e, ?_⟩
  rw [readRegister, hread, ← hbyte]
  rfl

/-- EFLG is not in a receive buffer. -/
theorem State.unlockedRx_eflg (s : State) : s.unlockedRx 0x2D = false := by
  rw [State.unlockedRx, show isRxBody 0x2D = false by decide]
  rfl

/-- The byte of the map is the sub-mask of R311: bits 7 to 3 of EFLG. -/
theorem anySet_errorBits (v : Byte) : anySet v errorBits = decide (v &&& 0xF8 ≠ 0) := rfl

theorem exec_readRegister_of_read {addr v : Byte} (ha : addr.toNat < 128) (h : readRegister addr s = (v, t)) :
    exec (.readRegister addr) s = .next (t.ret (.byte v)) := by
  have hexec : exec (.readRegister addr) s = .next ((readRegister addr s).2.ret (.byte (readRegister addr s).1)) :=
    next_of_admitted (blockOk_of_le (n := 1) ha ha)
  rw [hexec, h]

theorem exec_errorFlags_of_read {v : Byte} (h : readRegister 0x2D s = (v, t)) :
    exec .errorFlags s = .next (t.ret (.byte v)) :=
  congrArg (fun r : Byte × State => Host.Outcome.next (r.2.ret (.byte r.1))) h

theorem exec_hasError_of_read {v : Byte} (h : readRegister 0x2D s = (v, t)) :
    exec .hasError s = .next (t.ret (.bool (anySet v errorBits))) :=
  congrArg (fun r : Byte × State => Host.Outcome.next (r.2.ret (.bool (anySet r.1 errorBits)))) h

/-! ## The operations that clear -/

/-- `modifyRegister` leaves what the serial `BITMOD` leaves. -/
theorem modifyRegister_of_exec_txnBitmod {addr m d : Byte} (ha : addr.toNat < 128)
    (h : exec (.txnBitmod addr m d) s = .next t) : modifyRegister addr m d s = t :=
  have hexec : exec (.txnBitmod addr m d) s = .next (modifyRegister addr m d s) :=
    next_of_admitted (blockOk_of_le (n := 1) ha ha)
  Host.Outcome.next.inj (hexec.symm.trans h)

theorem State.modMask_of_modifies (hmod : s.modifies) {a : Nat} (ha : a ∈ [0x0F, 0x2C, 0x2D, 0x30, 0x40, 0x50, 0x60, 0x70])
    (m : Byte) : s.modMask a m = m := if_pos (hmod a ha)

/-- Data 0 clears the bits under the mask. -/
theorem field_cleared (x m : Byte) : (x &&& ~~~(m &&& 0xFF)) ||| (0x00 &&& (m &&& 0xFF)) = x &&& ~~~m := by
  rw [and_ff, show (0x00 : Byte) &&& m = 0#8 from BitVec.zero_and, BitVec.or_zero]

/-- An operation that is one `BITMOD` of CANINTF with data 0 clears the flags under its mask, and `INT` follows. -/
theorem exec_clearFlags (hs : s.Inv) (hmod : s.modifies) (hc : s.clear) {i : Instr} {m : Byte}
    (hi : exec i s = .next ((modifyRegister 0x2C m 0x00 s).ret .unit)) :
    ∃ t, exec i s = .next t ∧ t.reg 0x2C = s.reg 0x2C &&& ~~~m ∧ SameRegs [0x2C, 0x0E] s t ∧
      t.opmod = s.opmod ∧ LineFollows s t ∧ t.aborting = s.aborting ∧ Sent s t [0x05, 0x2C, m, 0x00] ∧ SameRun s t ∧
      t.results = s.results ++ [.unit] := by
  obtain ⟨t, hexec, hreg, hsame, hop, hline, hab, hsent, hrun, hres⟩ :=
    bitmodPlainRegister.1 s 0x2C m 0x00 0xFF hs hc (by decide)
  obtain rfl := modifyRegister_of_exec_txnBitmod (by decide) hexec
  have hmask : s.modMask (0x2C : Byte).toNat m = m := State.modMask_of_modifies hmod (by decide) m
  rw [if_neg (by decide), hmask, field_cleared] at hreg
  rw [if_pos (.inr rfl)] at hsame
  exact ⟨_, hi, hreg, hsame, hop, hline, hab, hsent, hrun, congrArg (· ++ [Value.unit]) hres⟩

end

/-! ## The statements -/

/-- Settles O35: each of the three is the one `READ`, and EFLG is in no receive buffer. -/
theorem registerReadsAndErrorFlags : Obligations.RegisterReadsAndErrorFlags := by
  refine ⟨fun s addr hc ha hu => ?_, fun s hc => ?_, fun s hc => ?_⟩
  · obtain ⟨inb, e, hread⟩ := readRegister_calm hc hu
    exact ⟨inb, e, exec_readRegister_of_read ha hread⟩
  · obtain ⟨inb, e, hread⟩ := readRegister_calm hc (addr := 0x2D) s.unlockedRx_eflg
    exact ⟨inb, e, exec_errorFlags_of_read hread⟩
  · obtain ⟨inb, e, hread⟩ := readRegister_calm hc (addr := 0x2D) s.unlockedRx_eflg
    refine ⟨inb, e, ?_⟩
    rw [exec_hasError_of_read hread, anySet_errorBits]
    rfl

/-- Settles O36: what the `BITMOD` of EFLG or of CANINTF leaves, under a mask that is the one sent. -/
theorem clearOperations : Obligations.ClearOperations := by
  intro s hs hmod hc
  refine ⟨?_, exec_clearFlags hs hmod hc (m := 0x80) rfl, exec_clearFlags hs hmod hc (m := 0x20) rfl⟩
  obtain ⟨t, hexec, hreg, hsame, hline, hab, hsent, hrun, hres⟩ := bitmodPlainRegister.2 s 0xC0 0x00 hs hc
  obtain rfl := modifyRegister_of_exec_txnBitmod (by decide) hexec
  rw [State.modMask_of_modifies hmod (by decide)] at hreg
  exact ⟨_, rfl, hreg, hsame, hline, hab, hsent, hrun, congrArg (· ++ [Value.unit]) hres⟩

end Sys2Proof.Machine

/-! SUPPORT. What one step of the machine answers: a next state always, the refusal mark for a call from a context that does not
permit it (60_exceptions.md R348, R349), and with no call left what the dispatcher does with the head of the queue (R340, R342). -/

namespace Sys2Proof.Machine

/-! ## Every step, and the state at power-on -/

/-- Settles O8: every instruction and every turn of the dispatcher answers a next state. -/
theorem everyStepAnswersANextState : Obligations.EveryStepAnswersANextState := fun s =>
  let ⟨t, hstep, _⟩ := onward_step s
  ⟨t, hstep⟩

theorem drawn_powerOn : Memory.Drawn Memory.powerOn :=
  ⟨fun a => resetDraw a (Config.powerOnByte a), fun a => ⟨Config.powerOnByte a, rfl⟩, rfl⟩

/-- Settles O11: the register file at power-on is that of a reset, with other draws, and the rest of the state is empty. -/
theorem powerOnState : Obligations.PowerOnState :=
  ⟨State.atReset_of_drawn drawn_powerOn, rfl, rfl, rfl, rfl, rfl, rfl⟩

/-! ## The context of a call -/

theorem runInstr_of_permits {ctx : Context} {i : Instr} (h : ctx.permits i = true) (s : State) :
    runInstr exec ctx i s = exec i s := if_pos h

theorem runInstr_of_not_permits {ctx : Context} {i : Instr} (h : ctx.permits i = false) (s : State) :
    runInstr exec ctx i s = .next s.refuse := if_neg (Bool.eq_false_iff.1 h)

/-- No serial transaction is the Interrupt Bridge, so that only the Caller's are permitted (assumption 22). -/
theorem permits_of_decode {ctx : Context} (hctx : ctx ≠ .caller) {out : List Byte} {i : Instr} (h : decode out = .ok i) :
    ctx.permits i = false := by
  cases ctx with
  | caller => exact absurd rfl hctx
  | otherTask => rfl
  | interrupt =>
    refine decide_eq_false fun hi => ?_
    have henc : encode i = some out := encodeOfDecode out i h
    rw [hi] at henc
    cases henc

theorem runBytes_of_ne_caller {ctx : Context} (hctx : ctx ≠ .caller) (out : List Byte) (s : State) :
    runBytes exec ctx out s = .next s.refuse := by
  unfold runBytes
  split
  · next h => exact runInstr_of_not_permits (permits_of_decode hctx h) s
  · rfl

/-- Settles O6: of all calls from another context than the Caller's, only the Interrupt Bridge from interrupt context is
permitted. -/
theorem otherContextsAreRefused : Obligations.OtherContextsAreRefused := by
  refine ⟨fun s rest i hc hi => ?_, fun s rest hc => ?_, fun s rest i hc => ?_, fun s rest ctx out hctx hc => ?_⟩ <;>
    rw [step_of_calls_cons hc]
  · exact runInstr_of_not_permits (ctx := .interrupt) (decide_eq_false hi) _
  · exact runInstr_of_permits (ctx := .interrupt) rfl _
  · exact runInstr_of_not_permits (ctx := .otherTask) rfl _
  · exact runBytes_of_ne_caller hctx out _

/-! ## The dispatcher -/

/-- With no call left, a step is a scheduling point and then the dispatcher's work. -/
theorem step_of_calls_nil {s : State} (h : s.calls = []) : step s = dispatchHead exec s.schedule := by
  unfold step callerTurn
  rw [h]

theorem dispatchHead_of_nil {s : State} (h : s.queue = []) : dispatchHead exec s = .next s := by
  unfold dispatchHead
  rw [h]

theorem dispatchHead_of_cons {s : State} {e : Event} {rest : List Event} (h : s.queue = e :: rest) :
    dispatchHead exec s = dispatchEvent exec e { s with queue := rest } := by
  unfold dispatchHead
  rw [h]

/-- The arms of the tags that concern other units do nothing here (R342). -/
theorem dispatchEvent_of_other {e : Event} (h : e.tag ∉ [.canMessage, .cloudConnected, .cloudDisconnected]) (s : State) :
    dispatchEvent exec e s = .next s := by
  unfold dispatchEvent
  revert h
  cases e.tag with
  | canMessage | cloudConnected | cloudDisconnected => exact fun h => absurd (by decide) h
  | _ => exact fun _ => rfl

/-- Settles O7: the arm is chosen by the tag of the head. -/
theorem dispatcherTakesTheHead : Obligations.DispatcherTakesTheHead := by
  intro s hc
  rw [step_of_calls_nil hc]
  refine ⟨dispatchHead_of_nil, fun e rest hq => ?_⟩
  rw [dispatchHead_of_cons hq]
  refine ⟨fun ht => ?_, fun ht => ?_, fun ht => ?_, fun ht => dispatchEvent_of_other ht _⟩ <;>
    rw [dispatchEvent, ht]

end Sys2Proof.Machine

/-! SUPPORT. The interrupt path from `INT` to the cloud (60_exceptions.md R339-R345): no step of another agent takes an event out of the
queue, the bridge appends its own, and `onCanMessage` publishes the frame that it has read. -/

namespace Sys2Proof.Machine

/-! ## The event queue -/

@[simp] theorem State.raise_queue (s : State) (b : Bool) (m : Byte) : (s.raise b m).queue = s.queue := by
  unfold State.raise
  split <;> rfl

@[simp] theorem State.setEflg_queue (s : State) (v : Byte) (b : Bool) : (s.setEflg v b).queue = s.queue :=
  State.raise_queue _ _ _

@[simp] theorem State.storeBytes_queue (data : List Byte) (s : State) (a : Nat) : (s.storeBytes a data).queue = s.queue := by
  induction data generalizing s a with
  | nil => rfl
  | cons v r ih => exact ih _ _

/-- A step of the Controller agent leaves the queue alone. -/
theorem applyMove_queue {m : Move} (hm : ofController m = true) (s : State) : (applyMove m s).queue = s.queue := by
  cases m with
  | bridge | putOff | produce => cases hm
  | txClearFlags | rtsPins => rfl
  | errors => simp [applyMove]
  | wake reqop =>
    simp only [applyMove]
    split
    · cases reqop <;> rfl
    · rfl
  | enterMode | receive | overflow | txDone | txLost | txError | txAbort =>
    simp only [applyMove]
    split
    · simp [State.storeFrame]
    · rfl

theorem prefix_pushed (q : List Event) (e : Event) : q <+: pushed q e := by
  unfold pushed
  split
  · exact List.prefix_append _ _
  · exact List.prefix_rfl

theorem State.enqueue_eq (s : State) (e : Event) : s.enqueue e = { s with queue := pushed s.queue e } := by
  unfold State.enqueue pushed Config.queueCap
  split <;> rfl

/-! What the steps that are not of the Controller agent do. -/

theorem applyMove_bridge_fallingEdge {s : State} (h : s.params.intTrigger = .fallingEdge) : applyMove .bridge s =
    match s.waits with
    | [] => if s.edges = 0 then s else { s with queue := pushed s.queue canEvent, edges := s.edges - 1 }
    | _ :: rest => { s with queue := pushed s.queue canEvent, waits := rest } := by
  simp only [applyMove, State.bridge, h, State.takeInterrupt_eq, State.dropEdge]
  cases hw : s.waits <;> simp

theorem applyMove_bridge_lowLevel {s : State} (h : s.params.intTrigger = .lowLevel) :
    applyMove .bridge s = if s.int then { s with queue := pushed s.queue canEvent } else s := by
  simp only [applyMove, State.bridge, h, State.takeInterrupt_eq]

theorem applyMove_produce (e : Event) (s : State) :
    applyMove (.produce e) s = if e.tag = .canMessage then s else { s with queue := pushed s.queue e } := by
  rw [← State.enqueue_eq]
  rfl

theorem State.dropEdge_queue (s : State) : s.dropEdge.queue = s.queue := by
  obtain ⟨n, w, h⟩ := s.dropEdge_shape
  rw [h]

/-- No step of another agent takes an event out of the queue (R340). -/
theorem queue_prefix_applyMove (m : Move) (s : State) : s.queue <+: (applyMove m s).queue := by
  have htake : s.queue <+: s.takeInterrupt.queue := by
    rw [State.takeInterrupt_eq]
    exact prefix_pushed _ _
  cases m with
  | bridge =>
    rw [applyMove]
    rcases s.bridge_cases with h | h | h <;> rw [h]
    · exact htake
    · rw [State.dropEdge_queue]
      exact htake
  | putOff n =>
    rw [applyMove, State.putOff]
    split <;> exact List.prefix_rfl
  | produce e =>
    rw [applyMove_produce]
    split
    · exact List.prefix_rfl
    · exact prefix_pushed _ _
  | _ => rw [applyMove_queue rfl]

theorem queue_prefix_applyMoves (ms : List Move) (s : State) : s.queue <+: (applyMoves ms s).queue := by
  induction ms generalizing s with
  | nil => exact List.prefix_rfl
  | cons m r ih => exact (queue_prefix_applyMove m s).trans (ih _)

theorem queue_prefix_serve (s : State) : s.queue <+: s.serve.queue := by
  cases h : s.params.intTrigger
  · rw [State.serve_fallingEdge h]
    exact List.prefix_append _ _
  · rw [State.serve_lowLevel h]
    exact List.prefix_append _ _

theorem queue_prefix_schedule (s : State) : s.queue <+: s.schedule.queue :=
  (queue_prefix_applyMoves _ (s.setEnv s.env.turn.2)).trans (queue_prefix_serve _)

/-- Under `LowLevel` an event is in the queue after a point at whose end `INT` is asserted, unless the queue is full. -/
theorem canEvent_mem_serve {s : State} (h : s.params.intTrigger = .lowLevel) (hint : s.serve.int = true) :
    canEvent ∈ s.serve.queue ∨ 10 ≤ s.serve.queue.length := by
  rw [State.serve_lowLevel h] at hint ⊢
  dsimp only at hint ⊢
  rw [hint, if_pos rfl]
  rcases Nat.lt_or_ge s.queue.length 10 with hlt | hge
  · rw [Nat.min_eq_left (by omega)]
    exact .inl (List.mem_append_right _ (List.mem_singleton_self _))
  · rw [List.length_append]
    exact .inr (Nat.le_add_right_of_le hge)

/-- Settles O56: the handler sends one event, each trigger says when the bridge runs it, and the end of a scheduling point serves
what is due. -/
theorem onInterrupt : Obligations.OnInterrupt := by
  have hparams (s : State) : (applyMoves s.env.turn.1 (s.setEnv s.env.turn.2)).params = s.params := (agent_applyMoves _ _).params
  refine ⟨fun s => ?_, fun s => applyMove_bridge_fallingEdge, fun s => applyMove_bridge_lowLevel, fun s n => rfl,
    fun s e => applyMove_produce e s, fun s => ⟨queue_prefix_schedule s, fun ms rest hturns => ?_, fun htrig => ?_,
      fun htrig => ?_⟩⟩
  · exact congrArg (fun t : State => Host.Outcome.next (t.ret .unit)) s.takeInterrupt_eq
  · rw [State.schedule, Env.turn, hturns]
    exact served_serve _
  · exact congrArg State.edges (State.serve_fallingEdge ((congrArg Params.intTrigger (hparams s)).trans htrig))
  · exact canEvent_mem_serve ((congrArg Params.intTrigger (hparams s)).trans htrig)

/-! ## The payload -/

theorem digitChar_eq {n : Nat} (h : n < 10) : digitChar n = Nat.digitChar n := by
  revert n
  decide

theorem hexChar_eq {n : Nat} (h : n < 16) : hexChar n = Nat.digitChar n := by
  revert n
  decide

theorem decimalAux_eq (k : Nat) {n : Nat} (h : n < 10 ^ (k + 1)) (acc : List Char) :
    decimalAux (k + 1) n acc = Nat.toDigits 10 n ++ acc := by
  induction k generalizing n acc with
  | zero =>
    have hn : n < 10 := h
    rw [decimalAux, if_pos hn, digitChar_eq hn, Nat.toDigits_of_lt_base hn]
    rfl
  | succ k ih =>
    rw [decimalAux]
    split
    · next hn =>
      rw [digitChar_eq hn, Nat.toDigits_of_lt_base hn]
      rfl
    · next hn =>
      rw [ih (by rw [Nat.pow_succ] at h; omega), digitChar_eq (Nat.mod_lt _ (by decide)),
        Nat.toDigits_of_base_le (by decide) (Nat.not_lt.1 hn), List.append_assoc]
      rfl

/-- Ten digits are enough for an identifier and for a length. -/
theorem decimal_eq {n : Nat} (h : n < 2 ^ 32) : decimal n = Nat.toDigits 10 n := by
  rw [decimal, decimalAux_eq 9 (by omega), List.append_nil]

theorem hex2_eq (b : Byte) : hex2 b = [Nat.digitChar (b.toNat / 16), Nat.digitChar (b.toNat % 16)] := by
  have hb := b.isLt
  rw [hex2, hexChar_eq (by omega), hexChar_eq (by omega)]

/-- The dispatcher publishes the characters of the template of R343. -/
theorem json_eq_payloadText (f : Frame) : json f = payloadText f := by
  have hid := f.canId.isLt
  have hdlc := f.dlc.isLt
  rw [json, decimal_eq hid, decimal_eq (n := f.dlc.toNat) (by omega), payloadText]
  simp only [hex2_eq, jsonField, quoted, List.append_assoc, List.cons_append, List.nil_append]
  rfl

/-! ## `onCanMessage` -/

section

variable {s t : State} {slot : RxSlot}

theorem exec_onCanMessage {v : Value} (h : readAny s = (v, t)) :
    exec .onCanMessage s = .next ((publishValue v t).ret .unit) :=
  congrArg (fun x : Value × State => Host.Outcome.next ((publishValue x.1 x.2).ret .unit)) h

/-- `readAnyPending` of a pending buffer whose length field is above 8: the header is read, and the buffer is left as it is. -/
theorem readAny_malformed (hst : s.steady [] 2 1) (hp : s.rxPending slot = true)
    (hfirst : slot = .rxb1 → s.rxPending .rxb0 = false) (hdlc : (s.rxDlc slot).toNat > 8) :
    ∃ es env q n w, es.map Entry.out = [[0xA0, 0x00], [0x03, rxSidh slot, 0, 0, 0, 0, 0]] ∧
      readAny s = (.code .malformedFrame,
        { s with transcript := s.transcript ++ es, env := env, queue := q, edges := n, waits := w }) ∧
      Served 1 s { s with queue := q, edges := n, waits := w } := by
  obtain ⟨inb1, e1, hstatus, hrun⟩ := readStatus_reading hst.head_clear
  have hrest := hrun.rest hst (k := 1) (j := 1) le_rfl le_rfl
  have hclear := ((schedule_steady hrest.head_turn).1.rest hrest (k := 1) (j := 0) le_rfl le_rfl).head_clear
  obtain ⟨hserved, q, n, w, e2, hshape⟩ := schedule_idle_served hrest.head_turn
  have hany := readAny_of_pending hp hfirst hstatus
  rw [hshape] at hserved hclear hany
  obtain ⟨inb2, e3, hread⟩ := readSlot_malformed hclear hp hdlc
  rw [hread, List.append_assoc] at hany
  exact ⟨[⟨[0xA0, 0x00], inb1, true⟩, ⟨[0x03, rxSidh slot, 0, 0, 0, 0, 0], inb2, true⟩], e3, q, n, w, rfl, hany,
    hserved.congr rfl rfl rfl rfl rfl⟩

/-- What the log holds once the frame is published. -/
theorem publishValue_frame_eq (f : Frame) (t : State) : publishValue (.frame f) t =
    { t with log := if t.cloudUp then t.log ++ [.publish (payloadText f)] else t.log } := by
  rw [publishValue_frame, json_eq_payloadText]
  split <;> rfl

end

/-- Settles O57: `onCanMessage` is `readAnyPending`, and only a frame is published. -/
theorem onCanMessage : Obligations.OnCanMessage := by
  refine ⟨fun s slot hs hmod hquiet hp hfirst hdlc => ?_, fun s hc h0 h1 => ?_, fun s slot hquiet hp hfirst hdlc => ?_⟩
  · obtain ⟨f, t, hany, hholds, hconsumed, hrun⟩ :=
      readAny_pending hs hmod (State.steady.mono hquiet le_rfl (by decide)) hp hfirst hdlc
    have hexec := exec_onCanMessage hany
    rw [publishValue_frame_eq] at hexec
    refine ⟨_, f, hexec, hholds, congrArg (· ++ _) hrun.reaches.results, hconsumed, hrun.issued, hrun.hostAfter, ?_⟩
    rw [← hrun.reaches.cloudUp, ← hrun.log]
    rfl
  · obtain ⟨inb, e, hstatus, -⟩ := readStatus_reading hc
    exact ⟨inb, e, exec_onCanMessage (readAny_of_none h0 h1 hstatus)⟩
  · obtain ⟨es, env, q, n, w, houts, hany, hserved⟩ :=
      readAny_malformed (State.steady.mono hquiet le_rfl (by decide)) hp hfirst hdlc
    exact ⟨es, env, q, n, w, houts, exec_onCanMessage hany, hserved⟩

end Sys2Proof.Machine

/-! SUPPORT. Start-up (70_reset_and_hazards.md R373, R374): `initialise` made of its parts, with the chip taking the requested mode at
every scheduling point. Through the default configuration that mode is Configuration, so that each of its transactions leaves what it
leaves in a quiet run (`Ready`), and only the scheduling points between them differ. -/

namespace Sys2Proof.Machine

/-! ## The default configuration of a chip that takes the requested mode -/

/-- What a run in Configuration mode needs for `n` transactions and `points` scheduling points at which the chip takes the requested
mode: no other mode is requested. -/
structure Prompted (n points : Nat) (s : State) : Prop where
  inv : s.Inv
  modifies : s.modifies
  steady : s.steady [.enterMode] n points
  conf : s.configured

section

variable {s t u : State} {n points n' points' k j a : Nat} {regs : List Nat} {f : Byte → Byte}

/-- For its transactions alone it makes no difference what happens at the scheduling points. -/
theorem Prompted.ready (h : Prompted n points s) : Ready n 0 s := by
  obtain ⟨hsettle, hlinks, -⟩ := h.steady
  exact ⟨h.inv, h.modifies, ⟨hsettle, hlinks, rfl⟩, h.conf.1⟩

theorem Prompted.mono (h : Prompted n points s) (hk : k ≤ n) (hj : j ≤ points) : Prompted k j s :=
  ⟨h.inv, h.modifies, h.steady.mono hk hj, h.conf⟩

/-- What such a run leaves of the choices. -/
theorem QuietRun.prompted (h : QuietRun n points s t) (hreq : t.reqop = s.reqop) (hs : Prompted n' points' s) (hk : n + k ≤ n')
    (hj : points + j ≤ points') : Prompted k j t := by
  obtain ⟨hinv, hmod, ⟨hsettle, hlinks, hturns⟩, hop, hreq'⟩ := hs
  refine ⟨h.inv hinv, by rwa [State.modifies, h.calm.params], ⟨h.calm.settle.trans hsettle, ?_, ?_⟩, h.opmod.trans hop,
    hreq.trans hreq'⟩
  · rw [h.calm.links]; exact take_drop_of_take hlinks hk
  · rw [h.calm.turns]; exact take_drop_of_take hturns hj

/-- The request of Configuration mode leaves REQOP as it is. -/
theorem Defaulted.reqop (h : Defaulted regs s t) (hs : s.reqop = 0x80) : t.reqop = s.reqop := by
  have hreg := h 0x0F (by decide) (by decide)
  split at hreg
  · exact (reqop_of_request (mode := .configuration) hreg).trans hs.symm
  · exact congrArg (· &&& modeMask) hreg

theorem Takes.reqop (h : Takes a f s t) (ha : 0x0F ≠ a) : t.reqop = s.reqop :=
  congrArg (· &&& modeMask) (h.other (b := 0x0F) (by decide) (by decide) ha)

theorem Defaulted.of_sameRegs (h : Defaulted regs s t) (hsame : SameRegs [0x0E] t u) : Defaulted regs s u := fun a ha hne =>
  (hsame a (mem_registerAddrs.1 ha).1 (by rwa [canon_of_mem ha, List.mem_singleton])).trans (h a ha hne)

theorem defaulted_of_sameRegs (h : SameRegs [0x0E] s t) : Defaulted [] s t := (defaulted_of_mem rfl).of_sameRegs h

theorem schedule_prompted (hs : Prompted n (points + 1) s) :
    QuietRun 0 1 s s.schedule ∧ SameRegs [0x0E] s s.schedule ∧ Prompted n points s.schedule := by
  obtain ⟨hop, hreq⟩ := hs.conf
  obtain ⟨hpoint, hsame, hop', hreq'⟩ := schedule_configured hs.inv hs.steady.head_turn (.inr rfl) hreq
  have hrun := hpoint.quietRun hs.steady.1 (hop'.trans hop.symm)
  exact ⟨hrun, hsame, hrun.prompted (hreq'.trans hreq.symm) hs (by simp) (by omega)⟩

/-- The scheduling point after a transaction. -/
theorem QuietRun.schedule_prompted (h : QuietRun 1 0 s t) (hreq : t.reqop = s.reqop) (hs : Prompted (n + 1) (points + 1) s) :
    QuietRun 1 1 s t.schedule ∧ SameRegs [0x0E] t t.schedule ∧ Prompted n points t.schedule := by
  obtain ⟨hpoint, hsame, hrest⟩ :=
    Machine.schedule_prompted (h.prompted hreq hs (k := n) (j := points + 1) (by omega) (by omega))
  exact ⟨h.trans hpoint, hsame, hrest⟩

theorem takes_schedule_prompted (h : QuietRun 1 0 s t ∧ Takes a f s t) (hmem : a ∈ [0x60, 0x70, 0x2B])
    (hs : Prompted (n + 1) (points + 1) s) :
    QuietRun 1 1 s t.schedule ∧ Takes a f s t.schedule ∧ Prompted n points t.schedule := by
  obtain ⟨hrun, hreg, hother⟩ := h
  obtain ⟨hlt, hcanon, h0E, -⟩ := control_facts a hmem
  obtain ⟨hrun', hsame, hrest⟩ := hrun.schedule_prompted (Takes.reqop ⟨hreg, hother⟩ (by rintro rfl; revert hmem; decide)) hs
  exact ⟨hrun', ⟨(hsame a hlt (by rwa [hcanon, List.mem_singleton])).trans hreg, hother.trans (hsame.mono (by simp))⟩, hrest⟩

/-- What a register other than CANSTAT holds after one of them has changed. -/
theorem Takes.reg (h : Takes a f s t) {b : Nat} (hb : b ∈ registerAddrs) (hne : b ≠ 0x0E) :
    t.reg b = if b = a then f (s.reg b) else s.reg b := by
  split
  · next hab => rw [hab, h.1]
  · next hab => exact h.other hb hne hab

end

theorem clearBuffers_prompted (slots : List TxSlot) {s : State} {n points : Nat} (hs : Prompted n points s)
    (hn : slots.length ≤ n) (hp : slots.length ≤ points) :
    QuietRun slots.length slots.length s (clearBuffers slots s) ∧ Defaulted (slots.flatMap txRegs) s (clearBuffers slots s) := by
  induction slots generalizing s n points with
  | nil => exact ⟨QuietRun.refl s, defaulted_of_mem rfl⟩
  | cons slot rest ih =>
    rw [List.length_cons] at hn hp ⊢
    obtain ⟨n, rfl⟩ := Nat.exists_eq_add_of_le' (Nat.one_le_of_lt hn)
    obtain ⟨points, rfl⟩ := Nat.exists_eq_add_of_le' (Nat.one_le_of_lt hp)
    obtain ⟨hwrite, hregs⟩ := clearBuffer_defaulted hs.ready n.succ_pos slot
    obtain ⟨hrun, hsame, hrest⟩ := hwrite.schedule_prompted (hregs.reqop hs.conf.2) hs
    obtain ⟨hrun', hregs'⟩ := ih hrest (by omega) (by omega)
    refine ⟨?_, (hregs.of_sameRegs hsame).trans hregs'⟩
    rw [Nat.add_comm]
    exact hrun.trans hrun'

theorem controlWrites_prompted {s : State} (hs : Prompted 5 4 s) :
    QuietRun 5 4 s (controlWrites s) ∧ Defaulted [0x60, 0x70, 0x2B] s (controlWrites s) := by
  obtain ⟨hrun1, h1, hs1⟩ :=
    takes_schedule_prompted (writeRegister_takes (addr := 0x60) (a := 0x60) hs.ready rfl (by decide) 0x00) (by decide) hs
  obtain ⟨hrun2, h2, hs2⟩ :=
    takes_schedule_prompted (writeRegister_takes (addr := 0x70) (a := 0x70) hs1.ready rfl (by decide) 0x00) (by decide) hs1
  obtain ⟨hrun3, h3, hs3⟩ :=
    takes_schedule_prompted (writeRegister_takes (addr := 0x2B) (a := 0x2B) hs2.ready rfl (by decide) 0xA3) (by decide) hs2
  obtain ⟨hrun4, h4, hs4⟩ := takes_schedule_prompted
    (modifyRegister_takes (addr := 0x60) (a := 0x60) hs3.ready rfl (by decide) 0x64 0x04) (by decide) hs3
  obtain ⟨hrun5, h5⟩ := modifyRegister_takes (addr := 0x70) (a := 0x70) hs4.ready rfl (by decide) 0x60 0x00
  refine ⟨(((hrun1.trans hrun2).trans hrun3).trans hrun4).trans hrun5, fun a ha hne => ?_⟩
  rw [controlWrites, h5.reg ha hne, h4.reg ha hne, h3.reg ha hne, h2.reg ha hne, h1.reg ha hne]
  by_cases h60 : a = 0x60
  · subst h60
    exact written_rxb0_default _
  by_cases h70 : a = 0x70
  · subst h70
    exact written_rxb1_default (s.reg 0x70) (and_eq_of_normal hs.inv.1 (by decide) (by decide) (by decide) (by decide))
  by_cases h2B : a = 0x2B
  · subst h2B
    exact written_caninte _ _
  · simp [h60, h70, h2B]

/-- A block whose bytes are those of the default configuration. -/
theorem setBlock_prompted {s : State} {n points : Nat} (hs : Prompted n points s) (hn : 3 ≤ n) (hp : 2 ≤ points) {base : Byte}
    (hb : IdBlock base) {ext : Bool}
    (hbytes : ∀ i, i < 4 → (packIdBytes ext 0)[i]?.map (· &&& implMask (base.toNat + i)) =
      some (if base.toNat + i = 0x05 then 0x08 else 0x00)) :
    ∃ t, setBlock base ext 0 s = (.ok, t) ∧ QuietRun 3 2 s t ∧ Defaulted (0x0F :: blockAt base) s t := by
  obtain ⟨t, hset, hrun, hsame, hop, hreq, hregs⟩ :=
    setBlock_reaching hb hs.inv hs.modifies (hs.steady.mono hn hp) (.inr rfl) ext 0
  refine ⟨t, hset, hrun.quietRun hs.steady.1 (hop.trans hs.conf.1.symm), fun a ha hne => ?_⟩
  by_cases h0F : a = 0x0F
  · subst h0F
    exact hreq
  by_cases hblock : a ∈ blockAt base
  · rw [if_pos (List.mem_cons_of_mem _ hblock), defaultByte, if_pos (hb.configOnly_eq_true hblock)]
    obtain ⟨i, hi, rfl⟩ := List.mem_map.1 hblock
    rw [List.mem_range] at hi
    exact Option.some.inj ((hregs i hi).trans (hbytes i hi))
  · rw [hsame a (mem_registerAddrs.1 ha).1 (by rw [canon_of_mem ha]; simp [h0F, hne, hblock]),
      if_neg (by simp [h0F, hblock])]

theorem clearBlocks_prompted {blocks : List (Byte × Bool)} (hblocks : ∀ b ∈ blocks, b ∈ defaultBlocks)
    {s : State} (hs : Prompted (3 * blocks.length) (3 * blocks.length) s) :
    ∃ t, clearBlocks blocks s = (.ok, t) ∧ QuietRun (3 * blocks.length) (3 * blocks.length) s t ∧
      Defaulted (blockListRegs blocks) s t := by
  induction blocks generalizing s with
  | nil => exact ⟨s, rfl, QuietRun.refl s, defaulted_of_mem rfl⟩
  | cons b rest ih =>
    rw [List.length_cons, Nat.mul_succ] at hs ⊢
    obtain ⟨hb, hrest⟩ := List.forall_mem_cons.1 hblocks
    obtain ⟨hblock, hbytes⟩ := defaultBlocks_facts b hb
    obtain ⟨hpoint, hsame, hs1⟩ := schedule_prompted hs
    obtain ⟨u, hset, hrun, hregs⟩ := setBlock_prompted hs1 (by omega) (by omega) hblock hbytes
    obtain ⟨t, hclear, hrun', hregs'⟩ := ih hrest (hrun.prompted (hregs.reqop hs1.conf.2) hs1 (by omega) (by omega))
    refine ⟨t, by rw [clearBlocks, hset, ← hclear], ?_, ((defaulted_of_sameRegs hsame).trans hregs).trans hregs'⟩
    have h := (hpoint.trans hrun).trans hrun'
    rwa [show 0 + 3 + 3 * rest.length = 3 * rest.length + 3 by omega] at h

/-- The whole operation: what stands in the registers before the stale failure flags are cleared is that of a quiet run. -/
theorem applyDefaultConfiguration_prompted {s : State} (hs : Prompted 32 31 s) :
    ∃ t, applyDefaultConfiguration s = (.ok, s.dropStale t) ∧ QuietRun 32 31 s (s.dropStale t) ∧ t.Inv ∧
      Defaulted defaultRegs s t := by
  obtain ⟨hrun1, hregs1⟩ := clearBuffers_prompted [.txb0, .txb1, .txb2] hs (by decide) (by decide)
  have hs1 := hrun1.prompted (hregs1.reqop hs.conf.2) hs (k := 29) (j := 28) (by decide) (by decide)
  obtain ⟨hrun2, hregs2⟩ := controlWrites_prompted (hs1.mono (by decide) (by decide))
  have hs2 := hrun2.prompted (hregs2.reqop hs1.conf.2) hs1 (k := 24) (j := 24) le_rfl le_rfl
  obtain ⟨t, hclear, hrun3, hregs3⟩ := clearBlocks_prompted (blocks := defaultBlocks) (fun _ => id) hs2
  rw [← defaultWrites_eq] at hclear
  have hrun := (hrun1.trans hrun2).trans hrun3
  refine ⟨t, ?_, hrun.trans (dropStale_quiet s t), hrun.inv hs.inv, (hregs1.trans hregs2).trans hregs3⟩
  rw [applyDefaultConfiguration, hclear, if_pos ⟨rfl, hrun.undisturbed_eq_true hs.steady.1⟩]

/-! ## The host in every part of the start-up -/

/-- `t` comes from `s` by `n` transactions and the delays `delays`: the invariant is kept, nothing is logged or returned, and of the
rest of the host only the queue changes, to which the bridge has sent any number of events. -/
structure HostRun (n : Nat) (delays : List Nat) (s t : State) : Prop where
  inv : s.Inv → t.Inv
  params : t.params = s.params
  host : HostServed s t
  log : t.log = s.log
  results : t.results = s.results
  sleeps : t.sleeps = s.sleeps ++ delays
  recorded : ∃ es : List Entry, t.transcript = s.transcript ++ es ∧ es.length = n

section

variable {s t u : State} {n n' points : Nat} {delays delays' : List Nat} {outs : List (List Byte)}

theorem HostServed.trans (h : HostServed s t) (g : HostServed t u) : HostServed s u := by
  obtain ⟨⟨a, hqueue⟩, hcloud, hrefused, hcalls⟩ := h
  obtain ⟨⟨b, gqueue⟩, gcloud, grefused, gcalls⟩ := g
  refine ⟨⟨a + b, ?_⟩, gcloud.trans hcloud, grefused.trans hrefused, gcalls.trans hcalls⟩
  rw [gqueue, hqueue, List.append_assoc, List.replicate_append_replicate]

theorem SameHost.served (h : SameHost s t) : HostServed s t := by
  obtain ⟨hqueue, -, hhost⟩ := h
  exact ⟨⟨0, hqueue.trans (List.append_nil _).symm⟩, hhost⟩

theorem HostRun.trans (h : HostRun n delays s t) (g : HostRun n' delays' t u) : HostRun (n + n') (delays ++ delays') s u where
  inv := g.inv ∘ h.inv
  params := g.params.trans h.params
  host := HostServed.trans h.host g.host
  log := g.log.trans h.log
  results := g.results.trans h.results
  sleeps := by rw [g.sleeps, h.sleeps, List.append_assoc]
  recorded := by
    obtain ⟨es, htrans, hlen⟩ := h.recorded
    obtain ⟨fs, gtrans, glen⟩ := g.recorded
    exact ⟨es ++ fs, by rw [gtrans, htrans, List.append_assoc], by rw [List.length_append, hlen, glen]⟩

theorem Steady.hostRun (h : Steady outs points delays s t) : HostRun outs.length delays s t where
  inv := h.reaches.inv
  params := h.reaches.params
  host := ⟨h.bridged.queue, h.reaches.cloudUp, h.reaches.refused, h.reaches.calls⟩
  log := h.log
  results := h.reaches.results
  sleeps := h.sleeps
  recorded := by
    obtain ⟨es, htrans, houts, -⟩ := h.issued
    exact ⟨es, htrans, by rw [← houts, List.length_map]⟩

theorem QuietRun.hostRun (h : QuietRun n points s t) : HostRun n [] s t where
  inv := h.inv
  params := h.calm.params
  host := ⟨h.queue, h.calm.cloudUp, h.calm.refused, h.calm.calls⟩
  log := h.calm.log
  results := h.calm.results
  sleeps := h.calm.sleeps.trans (List.append_nil _).symm
  recorded := by
    obtain ⟨es, htrans, hlen, -⟩ := h.recorded
    exact ⟨es, htrans, hlen⟩

end

/-! ## `reset()` of a chip that takes the requested mode -/

@[simp] theorem resetCells_links (l : List Nat) (e : Env) : (resetCells l e).2.links = e.links := by
  induction l generalizing e with
  | nil => rfl
  | cons a r ih => simp [resetCells, ih]

theorem State.chipReset_links (s : State) : s.chipReset.env.links = s.env.links := by
  have h := resetCells_links unspecifiedAddrs s.env
  unfold State.chipReset
  generalize resetCells unspecifiedAddrs s.env = r at h ⊢
  exact h

theorem issueReset_links {s : State} (hc : s.clear) : (issueReset s).2.env.links = s.env.links.drop 1 := by
  rw [issueReset, transact_clear _ _ _ hc.1 (head_cons hc.2)]
  simp only [State.record_env, List.length_singleton, Nat.le_refl, if_true, State.chipReset_links, State.setEnv_env,
    (noResponse_links _ _).1]

/-- The `RESET` alone. -/
theorem issueReset_hostRun {s : State} (hs : s.Inv) (hc : s.clear) :
    HostRun 1 [] s (issueReset s).2 ∧ (issueReset s).2.atReset ∧ (issueReset s).2.settle = 10 := by
  obtain ⟨t, hexec, hreset, hinv, -, -, -, hsettle, ⟨inb, -, htrans⟩, hhost, hlog, hresults, hsleeps⟩ := resetInstruction s hs hc
  obtain rfl : (issueReset s).2 = t := Host.Outcome.next.inj hexec
  exact ⟨⟨fun _ => hinv, (reaches_issueReset s).params, SameHost.served hhost, hlog, hresults,
    hsleeps.trans (List.append_nil _).symm, _, htrans, rfl⟩, hreset, hsettle⟩

/-- A delay that is no shorter than what is left of the settle time, in which the chip takes Configuration mode. -/
theorem sleep_configured {s : State} (hs : s.Inv) (hturn : s.env.turns.head? = some [.enterMode]) (hreq : s.reqop = 0x80) {ms : Nat}
    (hms : s.settle ≤ ms) :
    HostRun 0 [ms] s (s.sleep ms) ∧ SameRegs [0x0E] s (s.sleep ms) ∧ (s.sleep ms).configured ∧ (s.sleep ms).settle = 0 ∧
      (s.sleep ms).env.links = s.env.links ∧ (s.sleep ms).env.turns = s.env.turns.drop 1 := by
  obtain ⟨hpoint, hsame, hconf⟩ :=
    schedule_configured (s := { s with sleeps := s.sleeps ++ [ms], settle := s.settle - ms }) hs hturn (.inr rfl) hreq
  obtain ⟨hinv, hparams, hhost, hlog, hresults, hsleeps, hrecorded⟩ := hpoint.hostRun
  exact ⟨⟨hinv, hparams, hhost, hlog, hresults, hsleeps.trans (List.append_nil _), hrecorded⟩, hsame, hconf,
    hpoint.settle (Nat.sub_eq_zero_of_le hms), hpoint.links, hpoint.turns⟩

/-- The registers that the start-up reads back or leaves as they are hold their reset values. -/
structure Fresh (s : State) : Prop where
  canctrl : s.reg 0x0F = 0x87
  cleared : ∀ a ∈ [0x2C, 0x60, 0x70], s.reg a = 0x00

theorem Fresh.of_sameRegs {s t : State} (h : Fresh s) (hsame : SameRegs [0x0E] s t) : Fresh t where
  canctrl := (hsame 0x0F (by decide) (by decide)).trans h.canctrl
  cleared := fun a ha => by
    have hfacts : ∀ a ∈ [0x2C, 0x60, 0x70], a < 128 ∧ canon a ∉ [0x0E] := by decide
    obtain ⟨hlt, hne⟩ := hfacts a ha
    exact (hsame a hlt hne).trans (h.cleared a ha)

theorem State.atReset.fresh {s : State} (h : s.atReset) : Fresh s := by
  obtain ⟨hmirrors, hzero, -⟩ := h
  obtain ⟨-, hctrl⟩ := hmirrors 0 (by decide)
  exact ⟨hctrl, fun a ha => hzero a (by revert a; decide)⟩

/-- `reset()`: the delay ends the settle time, and the scheduling point in it leaves the chip in Configuration mode. -/
theorem resetChip_prompted {s : State} {n points : Nat} (hs : s.Inv) (hmod : s.modifies)
    (hst : s.steady [.enterMode] (n + 1) (points + 1)) :
    HostRun 1 [10] s (resetChip s) ∧ Prompted n points (resetChip s) ∧ Fresh (resetChip s) := by
  have hc := hst.head_clear
  obtain ⟨hrun, hreset, hsettle⟩ := issueReset_hostRun hs hc
  have hfresh := State.atReset.fresh hreset
  obtain ⟨hdelay, hsame, hconf, hsettle', hlinks, hturns⟩ := sleep_configured (hrun.inv hs)
    ((issueReset_turns hc).symm ▸ hst.head_turn) (congrArg (· &&& modeMask) hfresh.canctrl) hsettle.le
  have hboth := hrun.trans hdelay
  rw [show resetChip s = (issueReset s).2.sleep 10 from rfl]
  refine ⟨hboth, ⟨hboth.inv hs, ?_, ⟨hsettle', ?_, ?_⟩, hconf⟩, hfresh.of_sameRegs hsame⟩
  · rwa [State.modifies, hboth.params]
  · rw [hlinks, issueReset_links hc]
    exact take_drop_of_take hst.2.1 (Nat.add_comm 1 n).le
  · rw [hturns, issueReset_turns hc]
    exact take_drop_of_take hst.2.2 (Nat.add_comm 1 points).le

/-! ## `initialise` -/

/-- What is left to do after the default configuration: the bit timing is written, and the chip enters Normal mode. -/
theorem setTiming_setMode_prompted {s : State} (hs : Prompted 7 7 s) (c1 c2 c3 : Byte) :
    ∃ u t, setTiming (some (c1, c2, c3)) s.schedule = (.ok, u) ∧ setMode .normal u.schedule = (.ok, t) ∧ HostRun 7 [] s t ∧
      t.settle = 0 ∧ t.opmod = 0x00 ∧ t.reg 0x0F = s.reg 0x0F &&& 0x1F ∧ t.reg 0x2A = c1 ∧ t.reg 0x29 = c2 ∧
      t.reg 0x28 = c3 &&& 0xC7 ∧ SameRegs [0x0F, 0x0E, 0x28, 0x29, 0x2A] s t := by
  obtain ⟨hpoint1, hsame1, hs1⟩ := schedule_prompted hs
  obtain ⟨u, htiming, hrun2, hsame2, hop2, hreq2, hcnf1, hcnf2, hcnf3⟩ :=
    setTiming_reaching hs1.inv hs1.modifies (hs1.steady.mono (by decide) (by decide)) (.inr rfl) c1 c2 c3
  have hquiet2 := hrun2.quietRun hs1.steady.1 (hop2.trans hs1.conf.1.symm)
  have hs2 := hquiet2.prompted ((reqop_of_request (mode := .configuration) hreq2).trans hs1.conf.2.symm) hs1 (k := 2) (j := 2)
    le_rfl le_rfl
  obtain ⟨hpoint3, hsame3, hs3⟩ := schedule_prompted hs2
  obtain ⟨t, hmode, hrun4, hreq4, hsame4, hop4⟩ :=
    setMode_reaching (mode := .normal) hs3.inv hs3.modifies hs3.steady (.inr rfl)
  have hkept (a : Nat) (ha : a ∈ [0x28, 0x29, 0x2A]) : t.reg a = u.reg a := by
    have hfacts : ∀ a ∈ [0x28, 0x29, 0x2A], a < 128 ∧ canon a ∉ [0x0E, 0x0F] ∧ canon a ∉ [0x0E] := by decide
    obtain ⟨hlt, hne, hne'⟩ := hfacts a ha
    exact (hsame4 a hlt hne).trans (hsame3 a hlt hne')
  refine ⟨u, t, htiming, hmode, ((hpoint1.hostRun.trans hquiet2.hostRun).trans hpoint3.hostRun).trans hrun4.hostRun,
    hrun4.settle hs3.steady.1, hop4, ?_, (hkept 0x2A (by decide)).trans hcnf1, (hkept 0x29 (by decide)).trans hcnf2,
    (hkept 0x28 (by decide)).trans hcnf3, ?_⟩
  · rw [hreq4, hsame3 0x0F (by decide) (by decide), hreq2, hsame1 0x0F (by decide) (by decide)]
    generalize s.reg 0x0F = x
    revert x
    decide
  · exact (((hsame1.mono (by decide)).trans hsame2).trans (hsame3.mono (by decide))).trans (hsame4.mono (by decide))

/-- The whole start-up: `b` is the state after the reset, and `u` that after the default configuration, before its stale failure
flags are cleared. -/
theorem bring_prompted {s : State} (hs : s.Inv) (hmod : s.modifies) (hst : s.prompt 40) (c1 c2 c3 : Byte) :
    ∃ b u t, bring (c1, c2, c3) s = (.ok, t) ∧ HostRun 40 [10] s t ∧ t.settle = 0 ∧ t.opmod = 0x00 ∧ t.reg 0x0F = 0x07 ∧
      t.reg 0x2A = c1 ∧ t.reg 0x29 = c2 ∧ t.reg 0x28 = c3 &&& 0xC7 ∧ Fresh b ∧ u.Inv ∧ Defaulted defaultRegs b u ∧
      SameRegs [0x0F, 0x0E, 0x28, 0x29, 0x2A] (b.dropStale u) t := by
  obtain ⟨hrun1, hs1, hfresh1⟩ := resetChip_prompted (n := 39) (points := 39) hs hmod hst
  obtain ⟨hpoint2, hsame2, hs2⟩ := schedule_prompted hs1
  have hfresh := hfresh1.of_sameRegs hsame2
  obtain ⟨u, hdefault, hrun3, hu, hregs⟩ := applyDefaultConfiguration_prompted (hs2.mono (by decide) (by decide))
  have hctrl := hregs.reg_dropStale (a := 0x0F) (by decide) (by decide)
  rw [if_pos (by decide), hfresh.canctrl] at hctrl
  have hs3 := hrun3.prompted ((reqop_of_request (mode := .configuration) (old := 0x87) hctrl).trans hs2.conf.2.symm) hs2
    (k := 7) (j := 7) le_rfl le_rfl
  obtain ⟨v, t, htiming, hmode, hrun4, hsettle, hop, hreq, hcnf1, hcnf2, hcnf3, hsame4⟩ := setTiming_setMode_prompted hs3 c1 c2 c3
  rw [hctrl] at hreq
  have hbring : bring (c1, c2, c3) s = (.ok, t) := by
    rw [bring, hdefault]
    dsimp only
    rw [htiming]
    exact hmode
  exact ⟨_, u, t, hbring, ((hrun1.trans hpoint2.hostRun).trans hrun3.hostRun).trans hrun4, hsettle, hop, hreq, hcnf1, hcnf2,
    hcnf3, hfresh, hu, hregs, hsame4⟩

section

variable {b u t : State} (h : Defaulted defaultRegs b u) (hsame : SameRegs [0x0F, 0x0E, 0x28, 0x29, 0x2A] (b.dropStale u) t)

include hsame

theorem started_eq {a : Nat} (ha : a ∈ registerAddrs) (hne : a ∉ [0x0F, 0x0E, 0x28, 0x29, 0x2A]) :
    t.reg a = (b.dropStale u).reg a := hsame a (mem_registerAddrs.1 ha).1 (by rwa [canon_of_mem ha])

include h

/-- What the default configuration has cleared is still clear once the chip has started. -/
theorem started_cleared {a : Nat} (ha : a ∈ [TxSlot.txb0, .txb1, .txb2].flatMap txBody ++ clearedIds) : t.reg a = 0x00 := by
  obtain ⟨hmem, -⟩ := cleared_facts a ha
  have hne : ∀ a ∈ [TxSlot.txb0, .txb1, .txb2].flatMap txBody ++ clearedIds, a ∉ [0x0F, 0x0E, 0x28, 0x29, 0x2A] := by decide
  rw [started_eq hsame hmem (hne a ha), h.reg_cleared ha]

theorem started_txCtrl (hu : u.Inv) (slot : TxSlot) : t.reg (txCtrl slot).toNat = 0x00 := by
  rw [started_eq hsame (by cases slot <;> decide) (by cases slot <;> decide), h.reg_txCtrl hu]

/-- Another register holds what the default configuration leaves in it. -/
theorem started_reg {a : Nat} (ha : a ∈ registerAddrs) (hne : a ∉ [0x0F, 0x0E, 0x28, 0x29, 0x2A, 0x30, 0x40, 0x50]) :
    t.reg a = if a ∈ defaultRegs then defaultByte a (b.reg a) else b.reg a := by
  simp only [List.mem_cons, not_or] at hne
  rw [started_eq hsame ha (by simp [hne]), h.reg_dropStale ha (by simp [hne])]

end

theorem mem_clearedIds_of_filter {f : FilterId} {a : Nat} (ha : a ∈ blockAt (filterBase f)) (hne : a ≠ 0x05) : a ∈ clearedIds := by
  revert a; cases f <;> decide

theorem mem_clearedIds_of_mask {m : MaskId} {a : Nat} (ha : a ∈ blockAt (maskBase m)) : a ∈ clearedIds := by
  revert a; cases m <;> decide

/-- Settles O58: without a device or an entry nothing is done; with both, the parts of the start-up follow each other, and its
registers are those of the reset, the default configuration and the bit timing. -/
theorem initialise : Obligations.Initialise := by
  refine ⟨fun s clock rate => rfl, fun s clock rate => ?_⟩
  have hexec : exec (.initialise clock rate true) s = returned (initialiseWith true (bitTiming clock rate) s) := rfl
  rw [hexec]
  split
  · next hentry =>
    rw [hentry]
    rfl
  · next c1 c2 c3 hentry =>
    intro hs hmod hst
    rw [hentry]
    obtain ⟨b, u, t, hbring, hrun, hsettle, hop, hreq, hcnf1, hcnf2, hcnf3, hfresh, hu, hregs, hsame⟩ :=
      bring_prompted hs hmod hst c1 c2 c3
    have hflags : t.reg 0x2C = 0x00 := (started_reg hregs hsame (by decide) (by decide)).trans (hfresh.cleared 0x2C (by decide))
    have hint : t.int = false := by
      rw [(hrun.inv hs).2.1, level_eq, hflags]
      simp
    have hrxb0 : t.reg 0x60 = 0x06 :=
      (started_reg hregs hsame (by decide) (by decide)).trans (congrArg (defaultByte 0x60) (hfresh.cleared 0x60 (by decide)))
    have hrxb1 : t.reg 0x70 = 0x00 :=
      (started_reg hregs hsame (by decide) (by decide)).trans (congrArg (defaultByte 0x70) (hfresh.cleared 0x70 (by decide)))
    refine ⟨_, congrArg returned hbring, congrArg (· ++ _) hrun.results, hrun.sleeps, hsettle, hrun.host, hrun.log, hrun.recorded,
      hrun.inv hs, hop, hreq, hcnf1, hcnf2, hcnf3, started_reg hregs hsame (a := 0x2B) (by decide) (by decide), hflags, hint,
      hrxb0, hrxb1, started_reg hregs hsame (a := 0x05) (by decide) (by decide),
      fun f a ha hne => started_cleared hregs hsame (List.mem_append_right _ (mem_clearedIds_of_filter ha hne)),
      fun m a ha => started_cleared hregs hsame (List.mem_append_right _ (mem_clearedIds_of_mask ha)),
      fun slot => ⟨started_txCtrl hregs hsame hu slot, fun a ha => started_cleared hregs hsame (List.mem_append_left _
        (List.mem_flatMap.2 ⟨slot, by cases slot <;> decide, ha⟩))⟩⟩

end Sys2Proof.Machine
